-- ==== Sys2Proof/Word.lean ====
section
/-!
DEFINITION. The word types of the KV24 and their plainest arithmetic: 32-bit registers, 64-bit pairs, bytes, 64-lane masks.
-/

namespace Sys2Proof

/-- One byte of memory or forme. -/
abbrev Byte := BitVec 8
/-- The content of one general register (R17). -/
abbrev W32 := BitVec 32
/-- The content of an even/odd register pair (R7), an address, or an instruction word (R44). -/
abbrev W64 := BitVec 64
/-- One bit for each lane of a group (R25). -/
abbrev Mask := BitVec 64

/-- The low word of a pair (R7: the even register holds it). -/
def lo32 (x : W64) : W32 := x.truncate 32
/-- The high word of a pair (R7: the odd register holds it). -/
def hi32 (x : W64) : W32 := (x >>> (32 : Nat)).truncate 32
/-- A pair from its odd and its even register (R7). -/
def pair64 (hi lo : W32) : W64 := hi ++ lo

/-- Bit `l` of a mask. -/
def Mask.has (m : Mask) (l : Nat) : Bool := m.getLsbD l
/-- The mask with bit `l` set to `b`. -/
def Mask.put (m : Mask) (l : Nat) (b : Bool) : Mask :=
  if b then m ||| (1#64 <<< l) else m &&& ~~~ (1#64 <<< l)
/-- The lanes of a group, in ascending order. -/
def allLanes : List Nat := List.range 64
/-- The lanes of a mask, in ascending order. -/
def Mask.lanes (m : Mask) : List Nat := allLanes.filter fun l => Mask.has m l
/-- The mask of a list of lanes. -/
def Mask.ofLanes (ls : List Nat) : Mask := ls.foldl (fun m l => Mask.put m l true) 0#64
/-- The mask of the lanes that a test holds for. -/
def Mask.ofTest (p : Nat → Bool) : Mask := Mask.ofLanes (allLanes.filter p)

/-- Bits `hi` down to `lo` of a number. -/
def bitsOf (x : Nat) (hi lo : Nat) : Nat := (x >>> lo) % 2 ^ (hi + 1 - lo)

end Sys2Proof
end

