-- ==== Sys2Proof/Syntax.lean ====
section
/-!
DEFINITION. The syntax of the machine: one constructor of `Instr` for each row of spec/opcode_table.json. The first 169 rows are
instruction forms, with the fields of their word (02 R45, R58-R60); the others are steps that the device takes by itself or that
the outside causes, with the data they come with.
-/

namespace Sys2Proof

/-! ### Function selectors (FN), by class of opcode -/

/-- Integer size, FN bits 3:2 (R69). -/
inductive ISize where | w | d | h2 | b4
  deriving DecidableEq, Repr
/-- The sizes `.w` and `.d` alone (R69, R73). -/
inductive DSize where | w | d
  deriving DecidableEq, Repr
/-- Signed or unsigned variant (R69). -/
inductive Sgn where | s | u
  deriving DecidableEq, Repr
/-- Shift-right variant: logical or arithmetic (R146). -/
inductive ShrKind where | l | a
  deriving DecidableEq, Repr
/-- Direction of a rotate or funnel shift (R146). -/
inductive Dir where | l | r
  deriving DecidableEq, Repr
/-- Float format, FN (R71). -/
inductive FFmt where | f32 | f64 | h2 | b2
  deriving DecidableEq, Repr
/-- Formats of the special functions (R71). -/
inductive SFmt where | f32 | h2 | b2
  deriving DecidableEq, Repr
/-- Format pairs of `CVTFF` (R165). -/
inductive FFPair where | f32f64 | f64f32 | h2f32 | b2f32 | f32h2 | f32b2 | h2b2 | b2h2
  deriving DecidableEq, Repr
/-- Integer side of `CVTFI` and `CVTIF` (R166). -/
inductive IKind where | s32 | u32 | s64 | u64
  deriving DecidableEq, Repr
/-- Float side of `CVTFI` and `CVTIF` (R166). -/
inductive FKind where | f32 | f64
  deriving DecidableEq, Repr
/-- Forms of `QPACK` and `QUNPK` (R167, R168). -/
inductive QForm where | e4m3 | e5m2 | mx8e4 | mx8e5 | mx4
  deriving DecidableEq, Repr
/-- `VOTE` forms (R174). -/
inductive VoteKind where | all | any | uni | ballot
  deriving DecidableEq, Repr
/-- `SHFL` modes (R175). -/
inductive ShflMode where | idx | up | down | xor
  deriving DecidableEq, Repr
/-- Element types of `GRED` and `GSCAN` (R177). -/
inductive GType where | w | d | f32 | f64
  deriving DecidableEq, Repr
/-- `GELECT` forms (R176). -/
inductive ElectKind where | lo | hi
  deriving DecidableEq, Repr
/-- `GMASK` forms (R176). -/
inductive GMaskKind where | act | live
  deriving DecidableEq, Repr
/-- Load sizes, FN (R73). -/
inductive LdSize where | b | h | w | d | q | sb | sh
  deriving DecidableEq, Repr
/-- Store sizes, FN (R73). -/
inductive StSize where | b | h | w | d | q
  deriving DecidableEq, Repr
/-- Sizes of `LDA`, FN (R195). -/
inductive LdaSize where | b | h | w | d | sb | sh
  deriving DecidableEq, Repr
/-- Sizes of `STR`, FN (R195). -/
inductive StrSize where | b | h | w | d
  deriving DecidableEq, Repr
/-- `PREF` levels (R201). -/
inductive PrefLvl where | l1 | die | wr
  deriving DecidableEq, Repr
/-- `CLINE` operations (R202). -/
inductive ClineOp where | wb | drop
  deriving DecidableEq, Repr
/-- `AMO` operations (R206). -/
inductive AmoOp where | swap | add | and | or | xor | smin | smax | umin | umax
  deriving DecidableEq, Repr
/-- `WAITV` conditions (R210). -/
inductive WaitCond where | eq | ne | ge | geu | lt | ltu
  deriving DecidableEq, Repr
/-- Space of a barrier object, FN bit 0 (R215). -/
inductive BarSpace where | mem | forme
  deriving DecidableEq, Repr
/-- Platen types, FN (R75). -/
inductive PType where | bf16 | f16 | e4m3 | e5m2 | mx8e4 | mx8e5 | mx4 | int8
  deriving DecidableEq, Repr
/-- Output types of `MDRAINV` (R234). -/
inductive DrainV where | bf16 | f16 | e4m3 | e5m2 | i32
  deriving DecidableEq, Repr
/-- Space pair of a spool operation, FN bits 3:2 (R76). -/
inductive SpSpace where | gg | gf | fg | ff
  deriving DecidableEq, Repr
/-- Space of the destination of `CFILL` (R237). -/
inductive FillSpace where | gg | gf
  deriving DecidableEq, Repr
/-- Reductions of `MIGR.IN` in a fan-out family, FN 1-8 (R262). -/
inductive RedOp where | add | min | max | minu | maxu | or | and | first
  deriving DecidableEq, Repr
/-- The four queue numbers (R236). -/
abbrev QueueNo := BitVec 2

/-! ### Fields of an instruction word -/

/-- Base form without an FN selector: FN must be zero, and is checked by R50 (cause 0x02). -/
structure CtlW where
  g : BitVec 4
  fn : BitVec 4
  d : BitVec 10
  a : BitVec 10
  b : BitVec 10
  c : BitVec 10
  tail : BitVec 8
  deriving DecidableEq, Repr

/-- Base form of an opcode whose FN is a selector (R45, R50). -/
structure BaseW where
  g : BitVec 4
  d : BitVec 10
  a : BitVec 10
  b : BitVec 10
  c : BitVec 10
  tail : BitVec 8
  deriving DecidableEq, Repr

/-- I-form: a signed 20-bit immediate in place of B and C (R58). -/
structure ImmW where
  g : BitVec 4
  d : BitVec 10
  a : BitVec 10
  imm : BitVec 20
  tail : BitVec 8
  deriving DecidableEq, Repr

/-- J-form (R59). -/
structure JumpW where
  g : BitVec 4
  fn : BitVec 4
  link : BitVec 10
  off : BitVec 30
  low : BitVec 8
  deriving DecidableEq, Repr

/-- W-form (R60). -/
structure WideW where
  g : BitVec 4
  fn : BitVec 4
  d : BitVec 10
  imm : BitVec 32
  low : BitVec 6
  deriving DecidableEq, Repr

/-! ### Data that steps other than instructions come with -/

/-- Who performs accesses as a thread does: the thread of latency core `n`, or group `j` of team `tid`. -/
inductive Party where
  | lc (n : Nat)
  | grp (tid j : Nat)
  deriving DecidableEq, Repr
/-- Whose store the host has still to complete (R303): a party's, whose `s.ackout` counts it, a team's spool engine's, a network engine's. -/
inductive Acker where
  | party (p : Party)
  | spool (tid q : Nat)
  | net (e : Nat)
  deriving DecidableEq, Repr

/-- Access kinds of R183 and R336. -/
inductive AccKind where | load | store | rmw | fetch
  deriving DecidableEq, Repr

/-- Operation of a network request or message (R249). -/
inductive NetOp where | send | write | read
  deriving DecidableEq, Repr

/-- Delivery modes of a packet (R403). -/
inductive NetMode where | rud | rod | rudi | uud
  deriving DecidableEq, Repr
/-- A selective acknowledgement (R403, R407): 64 packets of a peer's sequence, from `base` on. -/
structure AckMap where
  base : Nat
  bits : W64
  deriving DecidableEq, Repr
/-- The map shows the packet acknowledged. -/
def AckMap.has (m : AckMap) (seq : Nat) : Bool := m.base ≤ seq && seq < m.base + 64 && m.bits.getLsbD (seq - m.base)

/-- A packet that reaches this package from a peer (R405, R406): the message's fields and this packet's bytes. For a READ the
packet either asks (`data` empty, `reply` false) or carries bytes of the answer (`reply` true). -/
structure Packet where
  peer : Nat
  msg : Nat
  seq : Nat
  op : NetOp
  tag : W64
  ri : Nat
  key : W32
  raddr : Nat
  len : Nat
  idx : Nat
  data : List Byte
  reply : Bool
  mode : NetMode
  /-- traffic class, and the packet of in-order delivery of the peer and class that is to be placed before this one (R406) -/
  tc : Nat
  prev : Option Nat := none
  deriving DecidableEq, Repr

/-- What a package asks of the package that is WRITER of a page (R302, R399): a store; an atomic of `n` bytes with its operands; a wait with
its comparand; a wake; the arrival at a barrier object, and the wait on its phase from a token. -/
inductive RemoteOp where
  | store (data : List Byte)
  | amo (op : AmoOp) (n : Nat) (b : W64)
  | acas (n : Nat) (a b : W64)
  | aaddt (n : Nat) (a b : W64)
  | afadd (f : FFmt) (b : W64)
  | waitv (c : WaitCond) (n : Nat) (b : W64)
  | wake (count : Nat)
  | arrive (count : Nat)
  | await (tok : Nat)
  deriving DecidableEq, Repr
/-- A request between packages: who sends it, its window, the address, and the tag under which the answer goes back. -/
structure RemoteReq where
  pkg : Nat
  window : Nat
  pa : Nat
  op : RemoteOp
  tag : Nat := 0
  deriving DecidableEq, Repr
/-- A hand-over's switch (R400): the page (`State.pageSpan`), and what its old WRITER hands on: the latest LX and EVH of its lines, and the
waits registered there. -/
structure HandOver where
  page : Nat
  lx : Nat := 0
  waits : List RemoteReq := []
  deriving DecidableEq, Repr
/-- States of a PTP port (IEEE 1588-2019, which R408 names). -/
inductive PtpRole where | initializing | faulty | disabled | listening | preMaster | master | passive | uncalibrated | slave
  deriving DecidableEq, Repr
/-- What a PTP message leaves: the grandmaster, and the role of the port. -/
structure PtpView where
  gm : Option Nat
  role : PtpRole
  deriving DecidableEq, Repr

/-- What the patrol scrubber finds in one codeword (R411). -/
inductive ScrubResult where | clean | corrected | uncorrectable
  deriving DecidableEq, Repr

/-- The machine's steps: one constructor for each row of spec/opcode_table.json. -/
inductive Instr where
  -- control transfer (R128)
  | br (w : JumpW)
  | call (w : JumpW)
  | brx (w : CtlW)
  | callx (w : CtlW)
  | ret (w : CtlW)
  | exit (w : CtlW)
  -- migration (R258-R264)
  | migrOut (w : BaseW)
  | migrOutSolo (w : BaseW)
  | migrIn (op : RedOp) (w : BaseW)
  | migrInSolo (w : BaseW)
  -- waiting, traps, system registers
  | yield (w : CtlW)
  | sleep (w : CtlW)
  | sleepWake (p : Party) (lane : Nat)
  | trap (w : CtlW)
  | sys (w : CtlW)
  | brk (w : CtlW)
  | nop (w : CtlW)
  | time (w : CtlW)
  | srr (w : CtlW)
  | srw (w : CtlW)
  | srset (w : CtlW)
  | srclr (w : CtlW)
  | shapeixWrite (w : CtlW)
  | fcsrWrite (w : CtlW)
  | ballastCapWrite (w : CtlW)
  | finjWrite (w : CtlW)
  | admodeWrite (w : CtlW)
  | ptbrWrite (w : CtlW)
  | drainintWrite (w : CtlW)
  | proof (w : CtlW)
  | eret (w : CtlW)
  | eretResumeFamily (w : CtlW)
  | wfi (w : CtlW)
  | tlbsync (w : CtlW)
  | tlbkill (w : CtlW)
  | harvest (w : CtlW)
  | fstopStop (w : CtlW)
  | fstopEnd (w : CtlW)
  | fresumeRestart (w : CtlW)
  | fresumeResume (w : CtlW)
  | fresumeSkip (w : CtlW)
  | fresumeKill (w : CtlW)
  -- integer (R142-R151)
  | add (sz : ISize) (w : BaseW)
  | addI (sz : DSize) (w : ImmW)
  | sub (sz : ISize) (w : BaseW)
  | addsat (sz : ISize) (sg : Sgn) (w : BaseW)
  | subsat (sz : ISize) (sg : Sgn) (w : BaseW)
  | mul (sz : ISize) (w : BaseW)
  | mulI (sz : DSize) (w : ImmW)
  | mulh (sz : DSize) (sg : Sgn) (w : BaseW)
  | mad (sz : ISize) (w : BaseW)
  | madw (sg : Sgn) (w : BaseW)
  | div (sz : DSize) (sg : Sgn) (w : BaseW)
  | rem (sz : DSize) (sg : Sgn) (w : BaseW)
  | abs (sz : ISize) (w : BaseW)
  | neg (sz : ISize) (w : BaseW)
  | and (sz : ISize) (w : BaseW)
  | andI (sz : DSize) (w : ImmW)
  | or (sz : ISize) (w : BaseW)
  | orI (sz : DSize) (w : ImmW)
  | xor (sz : ISize) (w : BaseW)
  | xorI (sz : DSize) (w : ImmW)
  | andn (sz : ISize) (w : BaseW)
  | shl (sz : ISize) (w : BaseW)
  | shr (sz : ISize) (k : ShrKind) (w : BaseW)
  | rot (sz : DSize) (dir : Dir) (w : BaseW)
  | fshf (dir : Dir) (w : BaseW)
  | min (sz : ISize) (sg : Sgn) (w : BaseW)
  | max (sz : ISize) (sg : Sgn) (w : BaseW)
  | clz (sz : ISize) (w : BaseW)
  | ctz (sz : ISize) (w : BaseW)
  | popc (sz : ISize) (w : BaseW)
  | brev (sz : ISize) (w : BaseW)
  | bext (sz : DSize) (w : BaseW)
  | bins (sz : DSize) (w : BaseW)
  | ext (sz : DSize) (sg : Sgn) (w : BaseW)
  | perm (w : BaseW)
  | sel (sz : ISize) (w : BaseW)
  | mov (sz : DSize) (w : BaseW)
  | li (w : WideW)
  | lih (w : WideW)
  | lea (sz : DSize) (w : BaseW)
  | leaI (sz : DSize) (w : ImmW)
  | cmp (sz : DSize) (sg : Sgn) (w : BaseW)
  | addc (sz : DSize) (w : BaseW)
  | subb (sz : DSize) (w : BaseW)
  -- predicate (R153)
  | pand (w : CtlW)
  | por (w : CtlW)
  | pxor (w : CtlW)
  | pandn (w : CtlW)
  | pset (w : CtlW)
  | pget (w : CtlW)
  -- float (R154-R168)
  | fadd (f : FFmt) (w : BaseW)
  | fsub (f : FFmt) (w : BaseW)
  | fmul (f : FFmt) (w : BaseW)
  | ffma (f : FFmt) (w : BaseW)
  | ffms (f : FFmt) (w : BaseW)
  | fnma (f : FFmt) (w : BaseW)
  | fdiv (f : FFmt) (w : BaseW)
  | fsqrt (f : FFmt) (w : BaseW)
  | frnd (f : FFmt) (w : BaseW)
  | fscale (f : FFmt) (w : BaseW)
  | fmin (f : FFmt) (w : BaseW)
  | fmax (f : FFmt) (w : BaseW)
  | fsgn (f : FFmt) (w : BaseW)
  | fcmp (f : FFmt) (w : BaseW)
  | fclass (f : FFmt) (w : BaseW)
  | frcp (f : SFmt) (w : BaseW)
  | frsq (f : SFmt) (w : BaseW)
  | fexp2 (f : SFmt) (w : BaseW)
  | flog2 (f : SFmt) (w : BaseW)
  | fsin (f : SFmt) (w : BaseW)
  | fcos (f : SFmt) (w : BaseW)
  | ftanh (f : SFmt) (w : BaseW)
  | fdot2 (w : BaseW)
  | cvtff (p : FFPair) (w : BaseW)
  | cvtfi (dst : IKind) (src : FKind) (w : BaseW)
  | cvtif (src : IKind) (dst : FKind) (w : BaseW)
  | qpack (f : QForm) (w : BaseW)
  | qunpk (f : QForm) (w : BaseW)
  -- group-wide (R169-R180)
  | grpon (w : CtlW)
  | grpoff (w : CtlW)
  | vote (k : VoteKind) (w : BaseW)
  | shfl (sz : DSize) (m : ShflMode) (w : BaseW)
  | gmatch (sz : DSize) (w : BaseW)
  | gelect (k : ElectKind) (w : BaseW)
  | gmask (k : GMaskKind) (w : BaseW)
  | gred (t : GType) (w : BaseW)
  | gscan (t : GType) (w : BaseW)
  | qbind (w : CtlW)
  | quadForm (core : Nat)
  | qfree (w : CtlW)
  -- memory (R181-R204)
  | ld (sz : LdSize) (w : ImmW)
  | st (sz : StSize) (w : ImmW)
  | lda (sz : LdaSize) (w : BaseW)
  | str (sz : StrSize) (w : BaseW)
  | fence (w : BaseW)
  | ldf (sz : LdSize) (w : ImmW)
  | stf (sz : StSize) (w : ImmW)
  | ldfc (sz : LdSize) (w : BaseW)
  | stfc (sz : StSize) (w : BaseW)
  | ldk (sz : DSize) (w : ImmW)
  | pref (l : PrefLvl) (w : ImmW)
  | cline (o : ClineOp) (w : ImmW)
  | ldres (sz : DSize) (w : ImmW)
  | stcond (sz : DSize) (w : ImmW)
  -- atomics, waits, barriers (R205-R222)
  | amo (op : AmoOp) (w : BaseW)
  | acas (w : BaseW)
  | afadd (f : FFmt) (w : BaseW)
  | aaddt (w : BaseW)
  | tetherAtomicPerform (k : Nat)
  | waitv (c : WaitCond) (w : BaseW)
  | wake (w : BaseW)
  | overflowRegistration (k : Nat)
  | bari (s : BarSpace) (w : BaseW)
  | bara (s : BarSpace) (w : BaseW)
  | barw (s : BarSpace) (w : BaseW)
  | bart (s : BarSpace) (w : BaseW)
  | barx (s : BarSpace) (w : BaseW)
  -- platen (R223-R235)
  | mma (t : PType) (w : BaseW)
  | mmac (t : PType) (w : BaseW)
  | mzero (w : BaseW)
  | mload (w : BaseW)
  | platenOpStart (tid : Nat)
  | platenOpComplete (tid : Nat)
  | mdrain (t : PType) (w : BaseW)
  | mdrainv (t : DrainV) (w : BaseW)
  | mstat (w : BaseW)
  -- spool (R236-R245)
  | cpy (q : QueueNo) (sp : SpSpace) (w : BaseW)
  | cpyt (q : QueueNo) (sp : SpSpace) (w : BaseW)
  | cgath (q : QueueNo) (sp : SpSpace) (w : BaseW)
  | cscat (q : QueueNo) (sp : SpSpace) (w : BaseW)
  | cpart (q : QueueNo) (sp : SpSpace) (w : BaseW)
  | cfill (q : QueueNo) (sp : FillSpace) (w : BaseW)
  | cfence (mask : BitVec 4) (w : BaseW)
  | cstat (q : QueueNo) (w : BaseW)
  | spoolOpStart (tid q : Nat)
  | spoolOpFault (tid q : Nat)
  | spoolOpComplete (tid q : Nat)
  -- hash, string, network (R246-R251)
  | hash (comb : Bool) (w : BaseW)
  | shash (w : BaseW)
  | scmp (w : BaseW)
  | spfx (w : BaseW)
  | npost (w : BaseW)
  | nstat (w : BaseW)
  | packetTransmit (e r : Nat)
  | packetReceive (e : Nat) (p : Packet)
  | ackReceive (e peer : Nat) (seqs : AckMap)
  | retransmitTimeout (e r k : Nat)
  | networkControlWrite (e : Nat)
  -- ballast, interrupts, runs
  | ballastAccrual (fam : W32)
  | interruptEntry (n : Nat)
  | rejoinTimeout (tid j id : Nat)
  | runTableUnpark (tid j lane : Nat)
  | maskPredictionResolve (tid j : Nat)
  -- memory steps
  | homeStorePerform (k : Nat)
  | hostStoreAck (w : Acker)
  | translationWalk (p : Party) (va : W64) (kind : AccKind)
  -- families and teams
  | admissionRetry (fam : W32)
  | dispatchReserving (fam : W32) (inst : Nat)
  | timeSliceExpiry (fam : W32) (inst : Nat)
  | teamSaveComplete (tid : Nat)
  | machineCheck (tid : Nat)
  | scanSelfTestDone (failed : List Nat)
  -- proofed execution
  | proofComparison (fam : W32) (tix : Nat)
  | proofTimeout (fam : W32) (tix : Nat)
  | repairComplete (k : Nat)
  -- placement
  | pageMoveCopyDone (k : Nat)
  | pageMoveSwitch (k : Nat)
  | pageMoveAbort (pa : Nat)
  -- package links
  | windowedStoreApply (k : Nat) (remote : Option RemoteReq)
  | replicaRequest (page pkg : Nat)
  | handoverOffer (page dest : Nat)
  | handoverSwitch (page : HandOver)
  | peerRemoval (p : Nat)
  | linkActivateRequest (ptp : Nat) (peersW : List Nat)
  | epochWrite (ptp : Nat)
  | ptpMessage (port : Nat) (offset : Int) (gm : PtpView)
  -- host
  | hostMemWrite (pa : Nat) (data : List Byte)
  | hostMemRead (pa n : Nat) (own : Bool)
  | hostSnoop (line : Nat) (own : Bool) (data : List (Nat × Byte))
  | backInvalidateResponse (line : Nat) (dirty : List (Nat × Byte))
  | cxlLinkEvent (port : Nat)
  -- reliability, power, reset
  | ucieLaneRepair (die edge : Nat)
  | ucieModuleSpare (die edge : Nat)
  | flitUndeliverable (die : Nat)
  | latencyCoreStart (n : Nat)
  | timingDetectorReplay (core : Nat)
  | overcurrent (die : Nat)
  | thermalLimit (die : Nat) (hot : Bool)
  | patrolScrub (pa : Nat) (r : ScrubResult)
  | corrRecordFold (struct die : Nat)
  | faultQueueRetry (fam : W32)
  | loadPerform (k : Nat)
  | releasePerform (p : Party) (lane : Nat)
  | mohosaSublinkStateChange (k : Nat) (up : Bool)
  | ethernetPortStateChange (port : Nat) (up : Bool)
  | hdmDecoderCommit (lo len : Nat)
  | refusalReceive (e r : Nat) (final : Bool)
  | replicaFill (page : Nat)
  -- steps without data of their own: each acts on everything that is due (they stand last: the runtime numbers at most 245
  -- constructors that carry data)
  | governorWindow
  | supplyStep
  | placementEpochEnd
  | hostSnoopAnswer
  | overcurrentEnd
  | packingIntervalExpiry
  | watchdogExpiry
  | leaseExpiry
  | translationExpiry
  | tlbsyncWaitEnd
  | replicaExpiry
  | deferredRecallExpiry
  | tetherLineReturn
  | teamDispatch
  | selfTestDrain
  | linkQuiesceRequest
  | quiesceComplete
  | linkControlWrite
  | timeHoldExit
  | powerOnReset
  | packageReset
  | errorLogRetry
  deriving DecidableEq, Repr

end Sys2Proof
end

