-- ==== Sys2Proof/Config.lean ====
section
/-!
DEFINITION. What one device fixes, and the free values: results that the spec leaves open are opaque constants applied to the
model's counter `fresh` or to the operands they depend on, so that no proof can see them.
-/

namespace Sys2Proof.Config

/-! ### Free values (log entries 8, 9, 10, 11, 14) -/

/-- A byte of forme that nothing has written since its team was dispatched (R37), by the seed of the dispatch and the offset.
(DESIGN CHOICE, safe: log entry 8.) -/
opaque formeByte : Nat → Nat → Byte
/-- A word of an accumulator tile that nothing has written since its quad formed (R39), by the seed and the place in the tile.
(DESIGN CHOICE, safe: log entry 8.) -/
opaque tileWord : Nat → Nat → W32
/-- The four status bits of a tile when its quad forms (R39). (DESIGN CHOICE, safe: log entry 8.) -/
opaque tileStatus : Nat → BitVec 4
/-- `s.ftret` of a thread whose family trap handler has not been entered (R26). (DESIGN CHOICE, safe: log entry 9.) -/
opaque ftret : Nat → W64
/-- The check words of the save area (R359-R361) over the bytes they cover: the format is the hardware level's.
(DESIGN CHOICE, safe in part: log entry 14.) -/
opaque checkWord : List Byte → W64
/-- The predictor entry that a branch block and a run mask reach (R123). (DESIGN CHOICE, safe in part: log entry 14.) -/
opaque predictorIndex : W64 → Mask → BitVec 10
/-- Which family slot `MIGR.OUT` takes among the free ones (R16), by the position in the list of free slots. (DESIGN CHOICE, safe: log entry 11.) -/
opaque slotChoice : Nat → Nat
/-- A special function's choice among the results that its bound allows (R163, R164): function number, format, operand bits.
(DESIGN CHOICE, safe in part: log entry 10.) -/
opaque specialChoice : Nat → Nat → Nat → Nat
/-- Byte of a save-area part whose format is the hardware level's (R359-R361): part, position, free-value counter.
(DESIGN CHOICE, safe in part: log entry 14.) -/
opaque formatByte : Nat → Nat → Nat → Byte

/-- The page that a page move or a replica takes on its die (R328, R399), by the free-value counter. (DESIGN CHOICE, safe in part: log entry 14.) -/
opaque pageChoice : Nat → Nat
/-- Free HBM4E pages of a die (R326, R327), by die and counter. (DESIGN CHOICE, safe in part: log entry 14.) -/
opaque freeHbm : Nat → Nat → Nat

/-! ### Values that the spec leaves to the device or to bring-up (log entries 3 and 4) -/

/-- `s.capbase`: the copy of the capability table at the top of H-die 24's LPDDR 6 (R427 step 6). (DESIGN CHOICE, unsafe: log entry 3.) -/
def capbase : Nat := 0x0000303FFFFF0000
/-- The header at which latency core 0 enters the operating-system loader (R427 step 9).
(DESIGN CHOICE, unsafe: log entry 3.) (DESIGN CHOICE, unsafe: log entry 35.) -/
def loaderEntry : Nat := 0x0000300000010000
/-- The error log (R413). (DESIGN CHOICE, unsafe: log entry 3.) -/
def errlog : Nat := 0x0000303FFF000000
/-- Records of the error log (R413: a power of two from 64 to 2^16). -/
def errlogSize : Nat := 1024
/-- The placement control block of die `d` (R326). (DESIGN CHOICE, unsafe: log entry 3.) -/
def placement (d : Nat) : Nat := 0x0000303FFE000000 + 64 * d
/-- The link control block (R398). (DESIGN CHOICE, unsafe: log entry 3.) -/
def linkctl : Nat := 0x0000303FFE001000
/-- The network control block of H-die 24 + `k` (R404). (DESIGN CHOICE, unsafe: log entry 3.) -/
def netctl (k : Nat) : Nat := 0x0000303FFE002000 + 64 * k
/-- The latency-core start table (R428). (DESIGN CHOICE, unsafe: log entry 3.) -/
def startTable : Nat := 0x0000303FFE003000
/-- The overflow pool block of die `d` (R424). (DESIGN CHOICE, unsafe: log entry 3.) -/
def ovfpool (d : Nat) : Nat := 0x0000303FFE004000 + 64 * d
/-- The host store-record bitmap (R341). (DESIGN CHOICE, unsafe: log entry 3.) -/
def storeRec : Nat := 0x0000303F80000000
/-- The solo pool (R260): base, and the number of packed threads that it has room for. (DESIGN CHOICE, unsafe: log entry 3.) -/
def soloPool : Nat := 0x0000303F00000000
def soloThreads : Nat := 4096
/-- Team record `k` of the solo pool (R366). (DESIGN CHOICE, unsafe: log entry 3.) -/
def soloRecord (k : Nat) : Nat := soloPool + 2 ^ 20 + 337920 * k
/-- The solo fault queue, at the start of the solo pool (R260), and its SIZE. -/
def soloQueueSize : Nat := 256
/-- BAR0, which holds the device control pages, in bytes, and the MSI-X vectors of the one physical function (R390). -/
def bar0Bytes : Nat := 2 ^ 26
def msixVectors : Nat := 64
/-- Bytes of memory of a die (R4): 64 GiB of HBM4E per C-die, 256 GiB of LPDDR 6 per H-die, and the whole OFFSET of host memory.
(DESIGN CHOICE, unsafe in part: log entry 4.) -/
def dieBytes (d : Nat) : Nat := if d < 24 then 2 ^ 36 else if d < 28 then 2 ^ 38 else 2 ^ 41

end Sys2Proof.Config
end

