-- ==== Sys2Proof/Machine/Sig.lean ====
section
/-!
DEFINITION. What the decode checks of R66 need to know of each instruction: its operands with their spans and alignments, its
must-be-zero fields, its further bad codes, where it exists, its minimum energy class. One arm per instruction, from the field
tables of chapters 02 and 05 to 09.
-/

namespace Sys2Proof

/-- The system-register number: bits 27:16 (R272). -/
def CtlW.num (w : CtlW) : Nat := w.b.toNat * 4 + w.c.toNat / 256
/-- P64, bit 8 (R272). -/
def CtlW.p64 (w : CtlW) : Bool := w.c.getLsbD 0

/-- The 64-bit system registers (R26). -/
def sysWide (n : Nat) : Bool :=
  [0x000, 0x001, 0x003, 0x004, 0x007, 0x008, 0x009, 0x030, 0x032, 0x040, 0x042, 0x051, 0x052, 0x054, 0x055, 0x056].contains n
    || (0x020 ≤ n && n ≤ 0x027)
/-- The numbers of R26. -/
def sysKnown (n : Nat) : Bool :=
  n ≤ 0x009 || (0x010 ≤ n && n ≤ 0x018) || (0x020 ≤ n && n ≤ 0x027) || (0x030 ≤ n && n ≤ 0x034) ||
  (0x040 ≤ n && n ≤ 0x043) || (0x050 ≤ n && n ≤ 0x058)

/-! ### Access to system registers (R26, R27) -/

/-- Who may read and write a register: a SIMT core, user mode and supervisor mode of a latency core. -/
structure SysAcc where
  rSimt : Bool
  rUser : Bool
  rSup : Bool
  wSimt : Bool
  wUser : Bool
  wSup : Bool
  deriving DecidableEq, Repr

/-- The Access column of R26: read by all, or by each kind; written likewise. -/
def sysAcc (num : Nat) : Option SysAcc :=
  let ro : SysAcc := ⟨true, true, true, false, false, false⟩
  if [0x000, 0x001, 0x004, 0x005, 0x007, 0x008, 0x009, 0x040].contains num || (0x010 ≤ num && num ≤ 0x018) then some ro
  else if num = 0x002 || num = 0x006 then some ⟨true, true, true, true, true, true⟩
  else if num = 0x003 then some ⟨true, false, false, true, false, false⟩
  else if 0x020 ≤ num && num ≤ 0x027 then some ⟨true, true, true, false, true, true⟩
  else if num = 0x030 then some ⟨true, false, true, false, false, false⟩
  else if num = 0x033 then some ⟨true, false, true, false, false, true⟩
  else if num = 0x034 then some ⟨true, true, true, false, false, true⟩
  else if num = 0x031 || num = 0x032 || (0x041 ≤ num && num ≤ 0x043) || (0x050 ≤ num && num ≤ 0x058) then
    some ⟨false, false, true, false, false, true⟩
  else none

/-- The checks of R27, in their order. (DEDUCED, unsafe: log entry 23.) -/
def sysCause (num : Nat) (isLc sup rd wr : Bool) : Option Nat :=
  match sysAcc num with
  | none => some 0x03
  | some a =>
    if isLc then
      if !(a.rSup || a.wSup) then some 0x0B
      else if sup then (if wr && !a.wSup then some 0x03 else none)
      else if (rd && !a.rUser) || (wr && !a.wUser && (a.wSup || !a.rUser)) then some 0x0A
      else if wr && !a.wUser then some 0x03
      else none
    else if !(a.rSimt || a.wSimt) then some 0x0B
    else if wr && !a.wSimt then some 0x03
    else none

/-- One operand field: what it names, with the number of registers and the base alignment. -/
inductive Opd where
  /-- a value source: register or inline integer (R48) -/
  | src (code : BitVec 10) (n al : Nat)
  /-- a span or a register-only pair (R49) -/
  | span (code : BitVec 10) (n al : Nat)
  /-- a destination; 1023 discards (R47) -/
  | dst (code : BitVec 10) (n al : Nat)
  /-- a destination that 1023 does not name (`CALL`, `MIGR.OUT`) -/
  | dreq (code : BitVec 10) (n al : Nat)
  /-- store data, of which the first `wr` registers are written back (`STCOND`) -/
  | data (code : BitVec 10) (n al wr : Nat)
  /-- the pair of `LIH`: the odd register alone is written -/
  | dodd (code : BitVec 10)
  /-- a register that is named and not accessed (D of `MIGR.IN`) -/
  | name (code : BitVec 10)
  /-- a predicate source or destination field (R47, R49) -/
  | psrc (code : BitVec 10)
  | pdst (code : BitVec 10)
  /-- predicates that a C field names -/
  | pr (n : Nat)
  | pw (n : Nat)
  deriving DecidableEq, Repr

/-- On which core kinds, and in which mode, an instruction exists (R41, R253). -/
inductive Avail where | both | lc | simt | sup | lcUser
  deriving DecidableEq, Repr

/-- What R66 needs to know of an instruction. -/
structure Sig where
  avail : Avail := .both
  /-- capability bits that must be set (R422) -/
  cap : List Nat := []
  /-- a must-be-zero field is set (R50, R53, R57, R59, R60) -/
  mbz : Bool := false
  /-- a bad code other than those of `opds` (R46, R52, and the field tables) -/
  bad : Bool := false
  opds : List Opd := []
  /-- a misalignment other than those of `opds` (R52, R200) -/
  mis : Bool := false
  /-- long-latency tail: the minimum class (R54, R56); none for the other tails -/
  long : Option Nat := none
  tail : BitVec 8 := 0#8
  g : BitVec 4 := 7#4
  /-- a group operation or platen instruction (cause 0x22 outside a region; R66, R223) -/
  grp : Bool := false
  /-- a constant-window operand (R52): words (0 for none), window, word offset -/
  kw : Nat := 0
  kwin : Nat := 0
  koff : Nat := 0
  /-- the system register that it reads and writes (R27): number, read, written -/
  sys : Option (Nat × Bool × Bool) := none
  deriving DecidableEq, Repr

/-- KF (R51). -/
def BaseW.kf (w : BaseW) : Bool := w.tail.getLsbD 7
/-- RM (R51). -/
def BaseW.rm (w : BaseW) : Nat := (w.tail.toNat / 16) % 8
/-- The window of a K-form operand (R52). -/
def BaseW.kwin (w : BaseW) : Nat := w.b.toNat / 128
/-- The word offset of a K-form operand (R52): bits 24:8. -/
def BaseW.koff (w : BaseW) : Nat := w.b.toNat % 128 * 1024 + w.c.toNat
def ImmW.kf (w : ImmW) : Bool := w.tail.getLsbD 7
def ImmW.rm (w : ImmW) : Nat := (w.tail.toNat / 16) % 8
def CtlW.kf (w : CtlW) : Bool := w.tail.getLsbD 7
def CtlW.rm (w : CtlW) : Nat := (w.tail.toNat / 16) % 8
/-- LA and EC of a long-latency tail (R54). -/
def laOf (tail : BitVec 8) : Nat := tail.toNat / 16
def ecOf (tail : BitVec 8) : Nat := tail.toNat / 4 % 4

/-- D holds 1023 and A, B, C hold 0 where they are unused (R50). -/
def unD (d : BitVec 10) : Bool := d != 1023#10
def unS (x : BitVec 10) : Bool := x != 0#10

def ISize.n : ISize → Nat | .d => 2 | _ => 1
def DSize.n : DSize → Nat | .d => 2 | .w => 1
def FFmt.n : FFmt → Nat | .f64 => 2 | _ => 1
def LdSize.n : LdSize → Nat | .d => 2 | .q => 4 | _ => 1
def StSize.n : StSize → Nat | .d => 2 | .q => 4 | _ => 1
def LdaSize.n : LdaSize → Nat | .d => 2 | _ => 1
def StrSize.n : StrSize → Nat | .d => 2 | _ => 1
def GType.n : GType → Nat | .d => 2 | .f64 => 2 | _ => 1

/-- A control or system opcode in base form: FN, bits 7:0 and the unused fields are zero (R50, R57). -/
def sigC (w : CtlW) (av : Avail) (opds : List Opd) (mbz : Bool) (bad : Bool := false) : Sig :=
  { avail := av, g := w.g, opds := opds, mbz := mbz || w.fn != 0#4 || w.tail != 0#8, bad := bad }

/-- A system-register instruction (R272): C bits 15:9 zero; the operands are pairs when 64 bits are transferred. -/
def sigS (w : CtlW) (mbz : Bool) (rd wr : Bool) : Sig :=
  let n := if sysWide w.num || w.p64 then 2 else 1
  { sigC w .both ((if wr then [Opd.dst w.d n n] else []) ++ (if rd then [Opd.src w.a n n] else []))
      (mbz || (w.c.toNat / 2 % 128 != 0)) with sys := some (w.num, wr, rd) }

/-- An integer, predicate or group opcode in base form (R51-R53). `kfOk`: B may be a constant-window operand of `kn` words; `mbz`: unused bits
of B and C, which a K-form word does not have (log entry 13). -/
def sigA (w : BaseW) (kfOk : Bool) (kn : Nat) (opds : List Opd) (mbz : Bool := false) (bad : Bool := false) : Sig :=
  { g := w.g, tail := w.tail, opds := opds, mbz := (mbz && !w.kf) || w.rm != 0, bad := bad || (w.kf && !kfOk),
    mis := w.kf && kn == 2 && w.koff % 2 == 1, kw := if w.kf then kn else 0, kwin := w.kwin, koff := w.koff }
/-- The B operand when it is no constant-window operand. -/
def optB (w : BaseW) (n : Nat) : List Opd := if w.kf then [] else [.src w.b n n]
/-- C is unused unless the word is K-form. -/
def czK (w : BaseW) : Bool := !w.kf && unS w.c
/-- A and B values, C unused, K-form allowed. -/
def sigAB (w : BaseW) (nd na nb : Nat) : Sig :=
  sigA w true nb ([.dst w.d nd nd, .src w.a na na] ++ optB w nb) (czK w)
/-- A, B and C values. -/
def sigABC (w : BaseW) (nd na nb nc : Nat) : Sig :=
  sigA w false 1 [.dst w.d nd nd, .src w.a na na, .src w.b nb nb, .src w.c nc nc]
/-- A alone. -/
def sigA1 (w : BaseW) (nd na : Nat) : Sig :=
  sigA w false 1 [.dst w.d nd nd, .src w.a na na] (unS w.b || unS w.c)
/-- I-form (R58, R139). -/
def sigI (w : ImmW) (n : Nat) : Sig :=
  { g := w.g, tail := w.tail, opds := [.dst w.d n n, .src w.a n n], mbz := w.rm != 0, bad := w.kf }
/-- W-form (R60). -/
def sigW (w : WideW) (opds : List Opd) : Sig :=
  { g := w.g, opds := opds, mbz := w.fn != 0#4 || w.low != 0#6 }
/-- A predicate opcode (R153). -/
def sigP (w : CtlW) (opds : List Opd) (mbz : Bool) (kfOk : Bool := false) (az : Bool := false) : Sig :=
  { g := w.g, tail := w.tail, opds := opds, mbz := (mbz && !w.kf) || az || w.fn != 0#4 || w.rm != 0, bad := w.kf && !kfOk,
    kw := if w.kf then 1 else 0, kwin := w.b.toNat / 128, koff := w.b.toNat % 128 * 1024 + w.c.toNat }

/-- A float opcode with the arithmetic tail (R53): RM 5 and 6 are reserved. -/
def sigF (w : BaseW) (f64 : Bool) (kfOk : Bool) (kn : Nat) (opds : List Opd) (mbz : Bool := false) (bad : Bool := false) : Sig :=
  { g := w.g, tail := w.tail, opds := opds, cap := if f64 then [4] else [],
    mbz := (mbz && !w.kf) || w.rm == 5 || w.rm == 6, bad := bad || (w.kf && !kfOk), mis := w.kf && kn == 2 && w.koff % 2 == 1,
    kw := if w.kf then kn else 0, kwin := w.kwin, koff := w.koff }
def sigFAB (f : FFmt) (w : BaseW) (nb : Nat) : Sig :=
  sigF w (f == .f64) true nb ([.dst w.d f.n f.n, .src w.a f.n f.n] ++ optB w nb) (czK w)
def sigFABC (f : FFmt) (w : BaseW) : Sig :=
  sigF w (f == .f64) false 1 [.dst w.d f.n f.n, .src w.a f.n f.n, .src w.b f.n f.n, .src w.c f.n f.n]
def sigFA (f : FFmt) (w : BaseW) (nd : Nat) : Sig :=
  sigF w (f == .f64) false 1 [.dst w.d nd nd, .src w.a f.n f.n] (unS w.b || unS w.c)

/-- An instruction with the long-latency tail (R54). -/
def sigL (g : BitVec 4) (tail : BitVec 8) (cls : Nat) (opds : List Opd) (mbz : Bool := false) (bad : Bool := false)
    (av : Avail := .both) (cap : List Nat := []) (mis : Bool := false) (grp : Bool := false) : Sig :=
  { avail := av, g := g, tail := tail, long := some cls, opds := opds, mbz := mbz, bad := bad, cap := cap, mis := mis, grp := grp }
/-- A special function (R163). -/
def sigSF (w : BaseW) : Sig := sigL w.g w.tail 0 [.dst w.d 1 1, .src w.a 1 1] (unS w.b || unS w.c)

/-- The C field of the ordered instructions (R74, R194): scope, order, SZ. -/
def cScope (c : BitVec 10) : Nat := c.toNat / 128
def cOrder (c : BitVec 10) : Nat := c.toNat / 32 % 4
def cSz (c : BitVec 10) : Nat := if c.getLsbD 0 then 2 else 1
/-- An ordered instruction: `orders` are accepted; C bits 12:9 are zero, and bit 8 unless it is SZ. -/
def sigO (w : BaseW) (orders : List Nat) (sz : Bool) (opds : List Opd) (mbz : Bool := false) (av : Avail := .both)
    (cap : List Nat := []) : Sig :=
  sigL w.g w.tail 0 opds (mbz || w.c.toNat / 2 % 16 != 0 || (!sz && w.c.getLsbD 0))
    (cScope w.c > 5 || !orders.contains (cOrder w.c)) av cap
/-- The address of a barrier object (R215). -/
def barA (s : BarSpace) (w : BaseW) : Opd := match s with | .mem => .src w.a 2 2 | .forme => .src w.a 1 1
/-- A barrier instruction. -/
def sigBar (s : BarSpace) (w : BaseW) (orders : List Nat) (d : Bool) : Sig :=
  sigO w orders false ((if d then [.dst w.d 1 1] else []) ++ [barA s w, .src w.b 1 1]) (!d && unD w.d)
    (if s == .forme then .simt else .both)

/-- A platen instruction (R223, R229). -/
def sigM (w : BaseW) (cls : Nat) (opds : List Opd) (mbz : Bool) (cap : List Nat := []) : Sig :=
  sigL w.g w.tail cls opds mbz false .simt cap false true
def PType.mx : PType → Bool | .mx8e4 => true | .mx8e5 => true | .mx4 => true | _ => false
def DrainV.n : DrainV → Nat | .bf16 => 2 | .f16 => 2 | .i32 => 4 | _ => 1
/-- C of the matrix instructions with bits other than NC and SAT zero. -/
def mC (w : BaseW) : Bool := w.c.toNat / 2 % 128 != 0
def mmaB (t : PType) (w : BaseW) : Opd := .span w.b (if t.mx then 17 else 16) 16

/-- A spool operation (R237). -/
def spA (glob : Bool) (c : BitVec 10) : Opd := if glob then .src c 2 2 else .src c 1 1
def SpSpace.srcG : SpSpace → Bool | .gg => true | .gf => true | _ => false
def SpSpace.dstG : SpSpace → Bool | .gg => true | .fg => true | _ => false
def sigSp (sp : SpSpace) (w : BaseW) (cap : List Nat := []) : Sig :=
  sigL w.g w.tail 2 [.dst w.d 2 2, spA sp.srcG w.a, spA sp.dstG w.b, .span w.c 8 8] false false .simt cap

/-- A group-wide opcode without FN selector. -/
def sigG (w : CtlW) (grp : Bool) : Sig :=
  { avail := .simt, g := w.g, tail := w.tail, grp := grp, bad := w.kf,
    mbz := w.fn != 0#4 || w.rm != 0 || unD w.d || unS w.a || (!w.kf && (unS w.b || unS w.c)) }
/-- A group-wide opcode of 0x92-0x98. -/
def sigGB (w : BaseW) (opds : List Opd) (mbz : Bool) (kfOk : Bool := false) (az : Bool := false) : Sig :=
  let x := sigA w kfOk 1 opds mbz
  { x with avail := .simt, grp := true, mbz := x.mbz || az }
/-- `GRED` and `GSCAN` (R177): float types take RM as the float opcodes do. -/
def sigGR (t : GType) (w : BaseW) (exc : Bool) : Sig :=
  let op := w.c.toNat % 8
  let flt := t == .f32 || t == .f64
  { avail := .simt, grp := true, g := w.g, tail := w.tail, cap := if t == .f64 then [4] else [],
    opds := [.dst w.d t.n t.n, .src w.a t.n t.n],
    mbz := (!w.kf && (unS w.b || w.c.toNat / 16 != 0 || (!exc && w.c.getLsbD 3))) || (if flt then w.rm == 5 || w.rm == 6 else w.rm != 0),
    bad := w.kf || (flt && op > 2) }

/-- The C field of `CMP` (R151): OPC, Q, HSEL, REL. -/
def cOpc (c : BitVec 10) : Nat := c.toNat / 256
def cQ (c : BitVec 10) : Nat := c.toNat / 32 % 8
def cHsel (c : BitVec 10) : Nat := c.toNat / 8 % 4
def cRel (c : BitVec 10) : Nat := c.toNat % 8
def pQ (c : BitVec 10) : List Opd := if cOpc c == 0 then [] else [.pr (cQ c)]

/-- The signature of every instruction; the other steps have none. (DEDUCED, unsafe: log entry 13.) -/
def sig : Instr → Sig
  | .br w => { g := w.g, opds := [.dst w.link 2 2], mbz := w.fn != 0#4 || w.low != 0#8 }
  | .call w => { g := w.g, opds := [.dreq w.link 2 2], mbz := w.fn != 0#4 || w.low != 0#8 }
  | .brx w => sigC w .both [.dst w.d 2 2, .span w.a 2 2] (unS w.b || unS w.c)
  | .callx w => sigC w .both [.dreq w.d 2 2, .span w.a 2 2] (unS w.b || unS w.c)
  | .ret w => sigC w .both [.span w.a 2 2] (unD w.d || unS w.b || unS w.c)
  | .exit w => sigC w .both [] (unD w.d || unS w.a || unS w.b || unS w.c)
  | .yield w => sigC w .both [] (unD w.d || unS w.a || unS w.b || unS w.c)
  | .nop w => sigC w .both [] (unD w.d || unS w.a || unS w.b || unS w.c)
  | .proof w => sigC w .both [] (unD w.d || unS w.a || unS w.b || unS w.c)
  | .brk w => sigC w .both [] (unD w.d || unS w.a || unS w.b || unS w.c)
  | .migrOut w => { avail := .lcUser, g := w.g, opds := [.dreq w.d 2 2, .src w.a 1 1, .src w.b 2 2],
                    mbz := unS w.c || w.tail != 0#8 }
  | .migrOutSolo w => { avail := .lcUser, g := w.g, opds := [.dreq w.d 2 2, .src w.b 2 2],
                        mbz := unS w.a || unS w.c || w.tail != 0#8 }
  | .migrIn _ w => { avail := .simt, g := w.g, opds := [.name w.d, .src w.a 2 2], mbz := unS w.b || unS w.c || w.tail != 0#8 }
  | .migrInSolo w => { avail := .simt, g := w.g, opds := [.name w.d, .src w.a 2 2], mbz := unS w.b || unS w.c || w.tail != 0#8 }
  | .sleep w => sigC w .both [.src w.a 2 2] (unD w.d || unS w.b || unS w.c)
  | .trap w => sigC w .both [.src w.a 1 1] (unD w.d || unS w.b || unS w.c)
  | .sys w => sigC w .both [.src w.a 1 1] (unD w.d || unS w.b || unS w.c)
  | .time w => sigC w .both [.dst w.d 2 2] (unS w.a || unS w.b || unS w.c)
  | .srr w => sigS w (unS w.a) false true
  | .srw w => sigS w (unD w.d) true false
  | .shapeixWrite w => sigS w (unD w.d) true false
  | .fcsrWrite w => sigS w (unD w.d) true false
  | .ballastCapWrite w => sigS w (unD w.d) true false
  | .finjWrite w => sigS w (unD w.d) true false
  | .admodeWrite w => sigS w (unD w.d) true false
  | .ptbrWrite w => sigS w (unD w.d) true false
  | .drainintWrite w => sigS w (unD w.d) true false
  | .srset w => sigS w false true true
  | .srclr w => sigS w false true true
  | .eret w => sigC w .sup [] (unD w.d || unS w.a || unS w.b || unS w.c)
  | .eretResumeFamily w => sigC w .sup [] (unD w.d || unS w.a || unS w.b || unS w.c)
  | .wfi w => sigC w .sup [] (unD w.d || unS w.a || unS w.b || unS w.c)
  | .tlbsync w => sigC w .sup [] (unD w.d || unS w.a || unS w.b || unS w.c)
  | .tlbkill w => sigC w .sup [.src w.a 2 2, .src w.b 1 1] (unD w.d || unS w.c)
  | .harvest w => sigC w .sup [.dst w.d 1 1, .src w.a 2 2, .src w.b 1 1] (unS w.c)
  | .fstopStop w => sigC w .sup [.dst w.d 1 1, .src w.a 1 1, .src w.b 1 1] (unS w.c)
  | .fstopEnd w => sigC w .sup [.dst w.d 1 1, .src w.a 1 1, .src w.b 1 1] (unS w.c)
  | .fresumeRestart w => sigC w .sup [.dst w.d 1 1, .src w.a 1 1, .src w.b 1 1, .src w.c 1 1] false
  | .fresumeResume w => sigC w .sup [.dst w.d 1 1, .src w.a 1 1, .src w.b 1 1, .src w.c 1 1] false
  | .fresumeSkip w => sigC w .sup [.dst w.d 1 1, .src w.a 1 1, .src w.b 1 1, .src w.c 1 1] false
  | .fresumeKill w => sigC w .sup [.dst w.d 1 1, .src w.a 1 1, .src w.b 1 1, .src w.c 1 1] false
  | .add z w => sigAB w z.n z.n z.n
  | .addI z w => sigI w z.n
  | .sub z w => sigAB w z.n z.n z.n
  | .addsat z _ w => sigAB w z.n z.n z.n
  | .subsat z _ w => sigAB w z.n z.n z.n
  | .mul z w => sigAB w z.n z.n z.n
  | .mulI z w => sigI w z.n
  | .mulh z _ w => sigAB w z.n z.n z.n
  | .mad z w => sigABC w z.n z.n z.n z.n
  | .madw _ w => sigABC w 2 1 1 2
  | .div z _ w => sigL w.g w.tail 0 [.dst w.d z.n z.n, .src w.a z.n z.n, .src w.b z.n z.n] (unS w.c)
  | .rem z _ w => sigL w.g w.tail 0 [.dst w.d z.n z.n, .src w.a z.n z.n, .src w.b z.n z.n] (unS w.c)
  | .abs z w => sigA1 w z.n z.n
  | .neg z w => sigA1 w z.n z.n
  | .and z w => sigAB w z.n z.n z.n
  | .andI z w => sigI w z.n
  | .or z w => sigAB w z.n z.n z.n
  | .orI z w => sigI w z.n
  | .xor z w => sigAB w z.n z.n z.n
  | .xorI z w => sigI w z.n
  | .andn z w => sigAB w z.n z.n z.n
  | .shl z w => sigAB w z.n z.n 1
  | .shr z _ w => sigAB w z.n z.n 1
  | .rot z _ w => sigAB w z.n z.n 1
  | .fshf _ w => sigABC w 1 1 1 1
  | .min z _ w => sigAB w z.n z.n z.n
  | .max z _ w => sigAB w z.n z.n z.n
  | .clz z w => sigA1 w z.n z.n
  | .ctz z w => sigA1 w z.n z.n
  | .popc z w => sigA1 w z.n z.n
  | .brev z w => sigA1 w z.n z.n
  | .bext z w => sigAB w z.n z.n 1
  | .bins z w => sigABC w z.n z.n z.n 1
  | .ext z _ w => sigAB w z.n z.n 1
  | .perm w => sigABC w 1 1 1 1
  | .sel z w => sigA w false 1 [.dst w.d z.n z.n, .src w.a z.n z.n, .src w.b z.n z.n, .psrc w.c]
  | .mov z w => sigA1 w z.n z.n
  | .li w => sigW w [.dst w.d 1 1]
  | .lih w => sigW w [.dodd w.d]
  | .lea z w => sigA w false 1 [.dst w.d z.n z.n, .src w.a z.n z.n, .src w.b 1 1] (w.c.toNat / 8 != 0)
  | .leaI z w => sigI w z.n
  | .cmp z _ w => sigA w false 1 ([.pdst w.d, .src w.a z.n z.n, .src w.b z.n z.n] ++ pQ w.c)
      ((cOpc w.c == 0 && cQ w.c != 0) || cHsel w.c != 0) (cRel w.c > 5)
  | .addc z w => sigA w false 1 ([.dst w.d z.n z.n, .src w.a z.n z.n, .src w.b z.n z.n, .pw (w.c.toNat / 8 % 8)] ++
      (if w.c.getLsbD 6 then [.pr (w.c.toNat % 8)] else [])) (w.c.toNat / 128 != 0)
  | .subb z w => sigA w false 1 ([.dst w.d z.n z.n, .src w.a z.n z.n, .src w.b z.n z.n, .pw (w.c.toNat / 8 % 8)] ++
      (if w.c.getLsbD 6 then [.pr (w.c.toNat % 8)] else [])) (w.c.toNat / 128 != 0)
  | .pand w => sigP w [.pdst w.d, .psrc w.a, .psrc w.b] (unS w.c)
  | .por w => sigP w [.pdst w.d, .psrc w.a, .psrc w.b] (unS w.c)
  | .pxor w => sigP w [.pdst w.d, .psrc w.a, .psrc w.b] (unS w.c)
  | .pandn w => sigP w [.pdst w.d, .psrc w.a, .psrc w.b] (unS w.c)
  | .pset w => sigP w ([.pdst w.d, .src w.a 1 1] ++ (if w.kf then [] else [.src w.b 1 1])) (!w.kf && unS w.c) true
  | .pget w => sigP w [.dst w.d 1 1, .pr 0, .pr 1, .pr 2, .pr 3, .pr 4, .pr 5, .pr 6, .pr 7] (unS w.b || unS w.c) false (unS w.a)
  | .fadd f w => sigFAB f w f.n
  | .fsub f w => sigFAB f w f.n
  | .fmul f w => sigFAB f w f.n
  | .ffma f w => sigFABC f w
  | .ffms f w => sigFABC f w
  | .fnma f w => sigFABC f w
  | .fdiv f w => sigFAB f w f.n
  | .fsqrt f w => sigFA f w f.n
  | .frnd f w => sigFA f w f.n
  | .fscale f w => sigFAB f w 1
  | .fmin f w => sigFAB f w f.n
  | .fmax f w => sigFAB f w f.n
  | .fsgn f w => sigF w (f == .f64) false 1 [.dst w.d f.n f.n, .src w.a f.n f.n, .src w.b f.n f.n] (w.c.toNat / 4 != 0)
      (w.c.toNat % 4 == 3)
  | .fcmp f w => sigF w (f == .f64) false 1 ([.pdst w.d, .src w.a f.n f.n, .src w.b f.n f.n] ++ pQ w.c)
      ((cOpc w.c == 0 && cQ w.c != 0) || ((f == .f32 || f == .f64) && cHsel w.c != 0))
  | .fclass f w => sigFA f w 1
  | .frcp _ w => sigSF w
  | .frsq _ w => sigSF w
  | .fexp2 _ w => sigSF w
  | .flog2 _ w => sigSF w
  | .fsin _ w => sigSF w
  | .fcos _ w => sigSF w
  | .ftanh _ w => sigSF w
  | .fdot2 w => sigF w false false 1 [.dst w.d 1 1, .src w.a 1 1, .src w.b 1 1, .src w.c 1 1]
  | .cvtff p w => match p with
    | .f32f64 => sigF w true false 1 [.dst w.d 1 1, .src w.a 2 2] (unS w.b || unS w.c)
    | .f64f32 => sigF w true false 1 [.dst w.d 2 2, .src w.a 1 1] (unS w.b || unS w.c)
    | .h2f32 => sigF w false false 1 [.dst w.d 1 1, .src w.a 1 1, .src w.b 1 1] (unS w.c)
    | .b2f32 => sigF w false false 1 [.dst w.d 1 1, .src w.a 1 1, .src w.b 1 1] (unS w.c)
    | .f32h2 => sigF w false false 1 [.dst w.d 2 2, .src w.a 1 1] (unS w.b || unS w.c)
    | .f32b2 => sigF w false false 1 [.dst w.d 2 2, .src w.a 1 1] (unS w.b || unS w.c)
    | .h2b2 => sigF w false false 1 [.dst w.d 1 1, .src w.a 1 1] (unS w.b || unS w.c)
    | .b2h2 => sigF w false false 1 [.dst w.d 1 1, .src w.a 1 1] (unS w.b || unS w.c)
  | .cvtfi d k w =>
      let nd := if d == .s64 || d == .u64 then 2 else 1
      let ns := if k == .f64 then 2 else 1
      sigF w (k == .f64) false 1 [.dst w.d nd nd, .src w.a ns ns] (unS w.b || unS w.c)
  | .cvtif k d w =>
      let nd := if d == .f64 then 2 else 1
      let ns := if k == .s64 || k == .u64 then 2 else 1
      sigF w (d == .f64) false 1 [.dst w.d nd nd, .src w.a ns ns] (unS w.b || unS w.c)
  | .qpack f w => match f with
    | .e4m3 => sigF w false false 1 [.dst w.d 1 1, .span w.a 2 2, .span w.b 2 2] (w.c.toNat / 2 != 0)
    | .e5m2 => sigF w false false 1 [.dst w.d 1 1, .span w.a 2 2, .span w.b 2 2] (w.c.toNat / 2 != 0)
    | .mx8e4 => sigF w false false 1 [.dst w.d 9 2, .span w.a 32 8] (unS w.b || unS w.c)
    | .mx8e5 => sigF w false false 1 [.dst w.d 9 2, .span w.a 32 8] (unS w.b || unS w.c)
    | .mx4 => sigF w false false 1 [.dst w.d 5 2, .span w.a 32 8] (unS w.b || unS w.c)
  | .qunpk f w => match f with
    | .e4m3 => sigF w false false 1 [.dst w.d 4 4, .span w.a 1 1] (unS w.b || unS w.c)
    | .e5m2 => sigF w false false 1 [.dst w.d 4 4, .span w.a 1 1] (unS w.b || unS w.c)
    | .mx8e4 => sigF w false false 1 [.dst w.d 32 8, .span w.a 8 8, .span w.b 1 1] (unS w.c)
    | .mx8e5 => sigF w false false 1 [.dst w.d 32 8, .span w.a 8 8, .span w.b 1 1] (unS w.c)
    | .mx4 => sigF w false false 1 [.dst w.d 32 8, .span w.a 4 4, .span w.b 1 1] (unS w.c)
  | .grpon w => sigG w false
  | .grpoff w => sigG w true
  | .qbind w => sigG w true
  | .qfree w => sigG w true
  | .vote k w => sigGB w [.psrc w.a, if k == .ballot then .dst w.d 2 2 else .pdst w.d] (unS w.b || unS w.c)
  | .shfl z _ w => sigGB w ([.dst w.d z.n z.n, .src w.a z.n z.n] ++ optB w 1) (czK w) true
  | .gmatch z w => sigGB w [.dst w.d 2 2, .src w.a z.n z.n] (unS w.b || unS w.c)
  | .gelect _ w => sigGB w [.pdst w.d] (unS w.b || unS w.c) false (unS w.a)
  | .gmask _ w => sigGB w [.dst w.d 2 2] (unS w.b || unS w.c) false (unS w.a)
  | .gred t w => sigGR t w false
  | .gscan t w => sigGR t w true
  | .ld z w => sigL w.g w.tail 0 [.dst w.d z.n z.n, .src w.a 2 2]
  | .st z w => sigL w.g w.tail 0 [.data w.d z.n z.n 0, .src w.a 2 2]
  | .lda z w => sigO w [0, 1] false [.dst w.d z.n z.n, .src w.a 2 2] (unS w.b)
  | .str z w => sigO w [0, 2] false [.data w.d z.n z.n 0, .src w.a 2 2] (unS w.b)
  | .fence w => sigO w [1, 2, 3] false [] (unD w.d || unS w.a || unS w.b)
  | .ldf z w => sigL w.g w.tail 0 [.dst w.d z.n z.n, .src w.a 1 1] false false .simt
  | .stf z w => sigL w.g w.tail 0 [.data w.d z.n z.n 0, .src w.a 1 1] false false .simt
  | .ldfc z w => sigL w.g w.tail 0 [.dst w.d z.n z.n, .src w.a 1 1, .src w.b 1 1] (unS w.c) false .simt
  | .stfc z w => sigL w.g w.tail 0 [.data w.d z.n z.n 0, .src w.a 1 1, .src w.b 1 1] (unS w.c) false .simt
  | .ldk z w => sigL w.g w.tail 0 [.dst w.d z.n z.n] false (w.a.toNat > 7 || w.imm.toNat ≥ 2 ^ 17) .both []
      (z == .d && w.imm.toNat % 2 == 1)
  | .pref _ w => sigL w.g w.tail 0 [.src w.a 2 2] (unD w.d)
  | .cline _ w => sigL w.g w.tail 0 [.src w.a 2 2] (unD w.d)
  | .ldres z w => sigL w.g w.tail 0 [.dst w.d z.n z.n, .src w.a 2 2] false false .lc
  | .stcond z w => sigL w.g w.tail 0 [.data w.d z.n z.n z.n, .src w.a 2 2] false false .lc
  | .amo _ w => let n := cSz w.c; sigO w [0, 1, 2, 3] true [.dst w.d n n, .src w.a 2 2, .src w.b n n]
  | .acas w => let n := cSz w.c; sigO w [0, 1, 2, 3] true [.dst w.d n n, .src w.a 2 2, .span w.b (2 * n) (2 * n)]
  | .afadd f w => sigO w [0, 1, 2, 3] false [.dst w.d f.n f.n, .src w.a 2 2, .src w.b f.n f.n] false .both
      (if f == .f64 then [4] else [])
  | .aaddt w => let n := cSz w.c; sigO w [0, 1, 2, 3] true [.dst w.d n n, .src w.a 2 2, .span w.b (2 * n) (2 * n)]
  | .waitv _ w => let n := cSz w.c; sigO w [0, 1] true [.dst w.d n n, .src w.a 2 2, .src w.b n n]
  | .wake w => sigO w [0, 2] false [.dst w.d 1 1, .src w.a 2 2, .src w.b 1 1]
  | .bari s w => sigBar s w [0] false
  | .bara s w => sigBar s w [0, 2] true
  | .barw s w => sigBar s w [0, 1] true
  | .bart s w => sigBar s w [0, 1] true
  | .barx s w => sigBar s w [0, 3] true
  | .mma t w => sigM w 3 [.dst w.d 2 2, .span w.a 4 4, mmaB t w] (mC w) (if t.mx then [2] else [])
  | .mmac t w => sigM w 3 [.dst w.d 2 2, .span w.a 4 4, mmaB t w] (mC w) (if t.mx then [2, 3] else [3])
  | .mzero w => sigM w 1 [.dst w.d 2 2, .span w.a 4 4] (unS w.b || unS w.c)
  | .mload w => sigM w 2 [.dst w.d 2 2, .span w.a 4 4] (unS w.b || w.c.toNat % 256 != 0)
  | .mdrain t w => sigM w 2 [.span w.a 4 4] (unD w.d || unS w.b || mC w) (if t.mx then [2] else [])
  | .mdrainv t w => sigM w 2 [.dst w.d t.n t.n, .src w.a 1 1] (unS w.b || w.c.toNat / 2 != 0)
  | .mstat w => sigM w 0 [.dst w.d 1 1] (unS w.a || unS w.b || w.c.toNat % 2 != 0 || w.c.toNat / 4 != 0)
  | .cpy _ sp w => sigSp sp w
  | .cpyt _ sp w => sigSp sp w
  | .cgath _ sp w => sigSp sp w
  | .cscat _ sp w => sigSp sp w
  | .cpart _ sp w => sigSp sp w [6]
  | .cfill _ sp w => sigL w.g w.tail 1 [.dst w.d 2 2, .src w.a 2 2, spA (sp == .gg) w.b, .span w.c 8 8] false false .simt
  | .cfence _ w => sigL w.g w.tail 0 [] (unD w.d || unS w.a || unS w.b || unS w.c) false .simt
  | .cstat _ w => sigL w.g w.tail 0 [.dst w.d 4 4] (unS w.a || unS w.b || unS w.c) false .simt
  | .hash comb w => sigL w.g w.tail 0 ([.dst w.d 2 2, .src w.a 2 2, .src w.b 2 2] ++ (if comb then [.src w.c 2 2] else []))
      (!comb && unS w.c) false .both [5]
  | .shash w => sigL w.g w.tail 1 [.dst w.d 2 2, .src w.a 2 2, .src w.b 1 1, .src w.c 2 2] false false .both [5]
  | .scmp w => sigL w.g w.tail 1 [.dst w.d 1 1, .src w.a 2 2, .src w.b 2 2, .span w.c 2 2] false false .both [5]
  | .spfx w => sigL w.g w.tail 1 [.dst w.d 2 2, .src w.a 2 2, .src w.b 1 1] (unS w.c) false .both [5]
  | .npost w => sigL w.g w.tail 1 [.dst w.d 1 1, .span w.a 16 16] (unS w.b || unS w.c) false .both [7]
  | .nstat w => sigL w.g w.tail 0 [.dst w.d 4 4] (unS w.a || unS w.b || unS w.c) false .both [7]
  | _ => {}

/-! ### Folds over operands -/

def inReg (c : BitVec 10) : Bool := c.toNat < 768
/-- A bad code of R47, R48, R49. -/
def Opd.badCode : Opd → Bool
  | .src c _ _ => c.toNat ≥ 896
  | .span c _ _ => !inReg c
  | .dst c _ _ => !inReg c && c != 1023#10
  | .dreq c _ _ => !inReg c
  | .data c _ _ _ => !inReg c
  | .dodd c => !inReg c && c != 1023#10
  | .name c => !inReg c && c != 1023#10
  | .psrc c => c.toNat ≥ 8
  | .pdst c => c.toNat ≥ 8 && c != 1023#10
  | .pr _ => false
  | .pw _ => false
/-- One more than the highest register that the operand names; 0 for none (R62). -/
def Opd.top : Opd → Nat
  | .src c n _ => if inReg c then c.toNat + n else 0
  | .span c n _ => if inReg c then c.toNat + n else 0
  | .dst c n _ => if inReg c then c.toNat + n else 0
  | .dreq c n _ => if inReg c then c.toNat + n else 0
  | .data c n _ _ => if inReg c then c.toNat + n else 0
  | .dodd c => if inReg c then c.toNat + 2 else 0
  | .name c => if inReg c then c.toNat + 1 else 0
  | _ => 0
/-- An odd pair or a misaligned span (R47-R49). -/
def Opd.misal : Opd → Bool
  | .src c _ al => inReg c && c.toNat % al != 0
  | .span c _ al => inReg c && c.toNat % al != 0
  | .dst c _ al => inReg c && c.toNat % al != 0
  | .dreq c _ al => inReg c && c.toNat % al != 0
  | .data c _ al _ => inReg c && c.toNat % al != 0
  | .dodd c => inReg c && c.toNat % 2 != 0
  | _ => false
/-- The registers that the operand reads, and those that it writes. -/
def regsFrom (c : BitVec 10) (n : Nat) : List Nat := if inReg c then (List.range n).map (c.toNat + ·) else []
def Opd.readR : Opd → List Nat
  | .src c n _ => regsFrom c n
  | .span c n _ => regsFrom c n
  | .data c n _ _ => regsFrom c n
  | .name c => regsFrom c 1
  | _ => []
def Opd.writeR : Opd → List Nat
  | .dst c n _ => regsFrom c n
  | .dreq c n _ => regsFrom c n
  | .data c _ _ wr => regsFrom c wr
  | .dodd c => if inReg c then [c.toNat + 1] else []
  | _ => []
def Opd.readP : Opd → List Nat | .psrc c => [c.toNat] | .pr n => [n] | _ => []
def Opd.writeP : Opd → List Nat | .pdst c => if c.toNat < 8 then [c.toNat] else [] | .pw n => [n] | _ => []

def Sig.badCode (x : Sig) : Bool := x.g == 15#4 || x.bad || x.opds.any Opd.badCode
def Sig.top (x : Sig) : Nat := x.opds.foldl (fun m o => Nat.max m o.top) 0
def Sig.misal (x : Sig) : Bool := x.mis || x.opds.any Opd.misal
def Sig.lowClass (x : Sig) : Bool := match x.long with | some m => ecOf x.tail < m | none => false
/-- The registers and predicates that a word names, the guard among them (R55). -/
def Sig.namesR (x : Sig) : List Nat := x.opds.flatMap fun o => o.readR ++ o.writeR
def Sig.namesP (x : Sig) : List Nat := (x.g.toNat % 8) :: x.opds.flatMap fun o => o.readP ++ o.writeP
def Sig.writesR (x : Sig) : List Nat := x.opds.flatMap Opd.writeR
def Sig.writesP (x : Sig) : List Nat := x.opds.flatMap Opd.writeP

/-- The checks of R66 that depend on the word alone: must-be-zero fields, codes, LIVE, alignment, energy class. (DEDUCED, unsafe: log entry 13.) -/
def Sig.staticCause (x : Sig) (live : Nat) : Option Nat :=
  if x.mbz then some 0x02
  else if x.badCode then some 0x03
  else if x.top > live then some 0x07
  else if x.misal then some 0x04
  else if x.lowClass then some 0x09
  else none

end Sys2Proof
end

