-- ==== Sys2Proof/WellFormed.lean ====
section
/-!
DEFINITION. Well-formed instructions: the words that pass the checks of R66 which the word alone decides, with every register of
the 768 nameable ones below LIVE. A step that is no instruction has no word and is not well-formed.
-/

namespace Sys2Proof

/-- The instruction forms: the rows of the table that a word encodes. -/
def Instr.isWord : Instr → Bool
  | .quadForm _ | .sleepWake _ _ | .deferredRecallExpiry | .tetherAtomicPerform _ | .tetherLineReturn | .overflowRegistration _
  | .platenOpStart _ | .platenOpComplete _ | .spoolOpStart _ _ | .spoolOpFault _ _ | .spoolOpComplete _ _
  | .packetTransmit _ _ | .packetReceive _ _ | .ackReceive _ _ _ | .retransmitTimeout _ _ _ | .networkControlWrite _
  | .ballastAccrual _ | .governorWindow | .interruptEntry _ | .rejoinTimeout _ _ _ | .runTableUnpark _ _ _
  | .maskPredictionResolve _ _ | .homeStorePerform _ | .leaseExpiry | .hostStoreAck _ | .translationWalk _ _ _
  | .translationExpiry | .packingIntervalExpiry | .admissionRetry _ | .teamDispatch | .dispatchReserving _ _
  | .timeSliceExpiry _ _ | .teamSaveComplete _ | .watchdogExpiry | .machineCheck _ | .selfTestDrain | .scanSelfTestDone _
  | .proofComparison _ _ | .proofTimeout _ _ | .repairComplete _ | .placementEpochEnd | .pageMoveCopyDone _
  | .pageMoveSwitch _ | .pageMoveAbort _ | .windowedStoreApply _ _ | .replicaRequest _ _ | .replicaExpiry | .handoverOffer _ _
  | .handoverSwitch _ | .peerRemoval _ | .linkQuiesceRequest | .quiesceComplete | .linkActivateRequest _ _ | .epochWrite _
  | .linkControlWrite | .ptpMessage _ _ _ | .timeHoldExit | .hostMemWrite _ _ | .hostMemRead _ _ _ | .hostSnoop _ _ _
  | .hostSnoopAnswer | .backInvalidateResponse _ _ | .cxlLinkEvent _ | .ucieLaneRepair _ _ | .ucieModuleSpare _ _
  | .flitUndeliverable _ | .powerOnReset | .packageReset | .latencyCoreStart _ | .supplyStep | .timingDetectorReplay _
  | .overcurrent _ | .overcurrentEnd | .thermalLimit _ _ | .patrolScrub _ _ | .corrRecordFold _ _ | .errorLogRetry
  | .faultQueueRetry _ | .loadPerform _ | .releasePerform _ _ | .tlbsyncWaitEnd | .mohosaSublinkStateChange _ _
  | .ethernetPortStateChange _ _ | .hdmDecoderCommit _ _ | .refusalReceive _ _ _ | .replicaFill _ => false
  | _ => true

/-- The number of FN or register-number rows that a word may take: a `CFENCE` names a queue (R76). -/
def Instr.fnOk : Instr → Bool
  | .cfence m _ => m != 0#4
  | _ => true

/-- A well-formed instruction: no check of R66 that the word alone decides fails. -/
def Instr.wellFormed (i : Instr) : Bool := i.isWord && i.fnOk && ((sig i).staticCause 768).isNone

end Sys2Proof
end

