-- ==== Sys2Proof/Decode.lean ====
section
/-!
DEFINITION. The decoder (total on any 64-bit word, rejecting by name) and, after it, the encoder. Both are written from the
encoding tables R45, R58-R60 and R68-R76. A word is cut into its fields once (`split`); every opcode then reads its FN selector.
Words of a run-time split keep one row here: `ERET`, `FSTOP` and `FRESUME` decode to the rows `eret`, `fstopStop` and
`fresumeRestart`, and `Machine/Step.lean` names the row that the run-time value selects.
-/

namespace Sys2Proof

/-- Why a word is no instruction (R77): each traps with cause 0x01. -/
inductive Reject where
  /-- a reserved primary opcode -/
  | reservedOp (op : Nat)
  /-- an FN value that its opcode does not define -/
  | undefinedFn (op fn : Nat)
  /-- a block header inside a block -/
  | header
  deriving DecidableEq, Repr

/-- The fields of the base form (R45); the other forms are regroupings of the same bits. -/
structure Fields where
  op : BitVec 8
  g : BitVec 4
  fn : BitVec 4
  d : BitVec 10
  a : BitVec 10
  b : BitVec 10
  c : BitVec 10
  tail : BitVec 8
  deriving DecidableEq, Repr

/-- Cuts a word at the bit positions of R45. -/
def split (w : W64) : Fields where
  op := w.extractLsb' 56 8
  g := w.extractLsb' 52 4
  fn := w.extractLsb' 48 4
  d := w.extractLsb' 38 10
  a := w.extractLsb' 28 10
  b := w.extractLsb' 18 10
  c := w.extractLsb' 8 10
  tail := w.extractLsb' 0 8

/-- Puts the fields of R45 together. -/
def join (f : Fields) : W64 :=
  (f.op ++ f.g ++ f.fn ++ f.d ++ f.a ++ f.b ++ f.c ++ f.tail : BitVec 64)

/-! ### The word forms -/

def Fields.ctl (f : Fields) : CtlW := ⟨f.g, f.fn, f.d, f.a, f.b, f.c, f.tail⟩
def Fields.base (f : Fields) : BaseW := ⟨f.g, f.d, f.a, f.b, f.c, f.tail⟩
/-- I-form (R58): the immediate stands in bits 27:8. -/
def Fields.imm (f : Fields) : ImmW := ⟨f.g, f.d, f.a, (f.b ++ f.c : BitVec 20), f.tail⟩
/-- J-form (R59): the offset stands in bits 37:8. -/
def Fields.jump (f : Fields) : JumpW := ⟨f.g, f.fn, f.d, (f.a ++ f.b ++ f.c : BitVec 30), f.tail⟩
/-- W-form (R60): the immediate stands in bits 37:6. -/
def Fields.wide (f : Fields) : WideW :=
  ⟨f.g, f.fn, f.d, (f.a ++ f.b ++ f.c ++ f.tail.extractLsb' 6 2 : BitVec 32), f.tail.extractLsb' 0 6⟩

def CtlW.fields (w : CtlW) (op : Nat) : Fields := ⟨BitVec.ofNat 8 op, w.g, w.fn, w.d, w.a, w.b, w.c, w.tail⟩
def BaseW.fields (w : BaseW) (op fn : Nat) : Fields :=
  ⟨BitVec.ofNat 8 op, w.g, BitVec.ofNat 4 fn, w.d, w.a, w.b, w.c, w.tail⟩
def ImmW.fields (w : ImmW) (op fn : Nat) : Fields :=
  ⟨BitVec.ofNat 8 op, w.g, BitVec.ofNat 4 fn, w.d, w.a, w.imm.extractLsb' 10 10, w.imm.extractLsb' 0 10, w.tail⟩
def JumpW.fields (w : JumpW) (op : Nat) : Fields :=
  ⟨BitVec.ofNat 8 op, w.g, w.fn, w.link, w.off.extractLsb' 20 10, w.off.extractLsb' 10 10, w.off.extractLsb' 0 10, w.low⟩
def WideW.fields (w : WideW) (op : Nat) : Fields :=
  ⟨BitVec.ofNat 8 op, w.g, w.fn, w.d, w.imm.extractLsb' 22 10, w.imm.extractLsb' 12 10, w.imm.extractLsb' 2 10,
    (w.imm.extractLsb' 0 2 ++ w.low : BitVec 8)⟩

/-! ### FN selectors -/

def ISize.ofCode : Nat → ISize | 0 => .w | 1 => .d | 2 => .h2 | _ => .b4
def ISize.code : ISize → Nat | .w => 0 | .d => 1 | .h2 => 2 | .b4 => 3
def DSize.ofCode : Nat → Option DSize | 0 => some .w | 1 => some .d | _ => none
def DSize.code : DSize → Nat | .w => 0 | .d => 1
def Sgn.ofCode : Nat → Option Sgn | 0 => some .s | 1 => some .u | _ => none
def Sgn.code : Sgn → Nat | .s => 0 | .u => 1
def ShrKind.ofCode : Nat → Option ShrKind | 0 => some .l | 1 => some .a | _ => none
def ShrKind.code : ShrKind → Nat | .l => 0 | .a => 1
def Dir.ofCode : Nat → Option Dir | 0 => some .l | 1 => some .r | _ => none
def Dir.code : Dir → Nat | .l => 0 | .r => 1
def FFmt.ofCode : Nat → Option FFmt | 0 => some .f32 | 1 => some .f64 | 2 => some .h2 | 3 => some .b2 | _ => none
def FFmt.code : FFmt → Nat | .f32 => 0 | .f64 => 1 | .h2 => 2 | .b2 => 3
def SFmt.ofCode : Nat → Option SFmt | 0 => some .f32 | 2 => some .h2 | 3 => some .b2 | _ => none
def SFmt.code : SFmt → Nat | .f32 => 0 | .h2 => 2 | .b2 => 3
def FFPair.ofCode : Nat → Option FFPair
  | 0 => some .f32f64 | 1 => some .f64f32 | 2 => some .h2f32 | 3 => some .b2f32
  | 4 => some .f32h2 | 5 => some .f32b2 | 6 => some .h2b2 | 7 => some .b2h2 | _ => none
def FFPair.code : FFPair → Nat
  | .f32f64 => 0 | .f64f32 => 1 | .h2f32 => 2 | .b2f32 => 3 | .f32h2 => 4 | .f32b2 => 5 | .h2b2 => 6 | .b2h2 => 7
def IKind.ofCode : Nat → IKind | 0 => .s32 | 1 => .u32 | 2 => .s64 | _ => .u64
def IKind.code : IKind → Nat | .s32 => 0 | .u32 => 1 | .s64 => 2 | .u64 => 3
def FKind.ofCode : Nat → Option FKind | 0 => some .f32 | 1 => some .f64 | _ => none
def FKind.code : FKind → Nat | .f32 => 0 | .f64 => 1
def QForm.ofCode : Nat → Option QForm
  | 0 => some .e4m3 | 1 => some .e5m2 | 2 => some .mx8e4 | 3 => some .mx8e5 | 4 => some .mx4 | _ => none
def QForm.code : QForm → Nat | .e4m3 => 0 | .e5m2 => 1 | .mx8e4 => 2 | .mx8e5 => 3 | .mx4 => 4
def VoteKind.ofCode : Nat → Option VoteKind | 0 => some .all | 1 => some .any | 2 => some .uni | 3 => some .ballot | _ => none
def VoteKind.code : VoteKind → Nat | .all => 0 | .any => 1 | .uni => 2 | .ballot => 3
def ShflMode.ofCode : Nat → ShflMode | 0 => .idx | 1 => .up | 2 => .down | _ => .xor
def ShflMode.code : ShflMode → Nat | .idx => 0 | .up => 1 | .down => 2 | .xor => 3
def GType.ofCode : Nat → Option GType | 0 => some .w | 1 => some .d | 2 => some .f32 | 3 => some .f64 | _ => none
def GType.code : GType → Nat | .w => 0 | .d => 1 | .f32 => 2 | .f64 => 3
def ElectKind.ofCode : Nat → Option ElectKind | 0 => some .lo | 1 => some .hi | _ => none
def ElectKind.code : ElectKind → Nat | .lo => 0 | .hi => 1
def GMaskKind.ofCode : Nat → Option GMaskKind | 0 => some .act | 1 => some .live | _ => none
def GMaskKind.code : GMaskKind → Nat | .act => 0 | .live => 1
/-- Sizes of loads (R73): bit 2 sign-extends bytes and halfwords, bit 3 with size 3 is `.q`. -/
def LdSize.ofCode : Nat → Option LdSize
  | 0 => some .b | 1 => some .h | 2 => some .w | 3 => some .d | 4 => some .sb | 5 => some .sh | 11 => some .q | _ => none
def LdSize.code : LdSize → Nat | .b => 0 | .h => 1 | .w => 2 | .d => 3 | .sb => 4 | .sh => 5 | .q => 11
def StSize.ofCode : Nat → Option StSize
  | 0 => some .b | 1 => some .h | 2 => some .w | 3 => some .d | 11 => some .q | _ => none
def StSize.code : StSize → Nat | .b => 0 | .h => 1 | .w => 2 | .d => 3 | .q => 11
def LdaSize.ofCode : Nat → Option LdaSize
  | 0 => some .b | 1 => some .h | 2 => some .w | 3 => some .d | 4 => some .sb | 5 => some .sh | _ => none
def LdaSize.code : LdaSize → Nat | .b => 0 | .h => 1 | .w => 2 | .d => 3 | .sb => 4 | .sh => 5
def StrSize.ofCode : Nat → Option StrSize | 0 => some .b | 1 => some .h | 2 => some .w | 3 => some .d | _ => none
def StrSize.code : StrSize → Nat | .b => 0 | .h => 1 | .w => 2 | .d => 3
/-- `.w` and `.d` of `LDK`, `LDRES` and `STCOND`: FN 2 and 3 (R73, R200). -/
def DSize.ofMem : Nat → Option DSize | 2 => some .w | 3 => some .d | _ => none
def DSize.mem : DSize → Nat | .w => 2 | .d => 3
def PrefLvl.ofCode : Nat → Option PrefLvl | 0 => some .l1 | 1 => some .die | 2 => some .wr | _ => none
def PrefLvl.code : PrefLvl → Nat | .l1 => 0 | .die => 1 | .wr => 2
def ClineOp.ofCode : Nat → Option ClineOp | 0 => some .wb | 1 => some .drop | _ => none
def ClineOp.code : ClineOp → Nat | .wb => 0 | .drop => 1
def AmoOp.ofCode : Nat → Option AmoOp
  | 0 => some .swap | 1 => some .add | 2 => some .and | 3 => some .or | 4 => some .xor
  | 5 => some .smin | 6 => some .smax | 7 => some .umin | 8 => some .umax | _ => none
def AmoOp.code : AmoOp → Nat
  | .swap => 0 | .add => 1 | .and => 2 | .or => 3 | .xor => 4 | .smin => 5 | .smax => 6 | .umin => 7 | .umax => 8
def WaitCond.ofCode : Nat → Option WaitCond
  | 0 => some .eq | 1 => some .ne | 2 => some .ge | 3 => some .geu | 4 => some .lt | 5 => some .ltu | _ => none
def WaitCond.code : WaitCond → Nat | .eq => 0 | .ne => 1 | .ge => 2 | .geu => 3 | .lt => 4 | .ltu => 5
def BarSpace.ofCode : Nat → Option BarSpace | 0 => some .mem | 1 => some .forme | _ => none
def BarSpace.code : BarSpace → Nat | .mem => 0 | .forme => 1
def PType.ofCode : Nat → Option PType
  | 0 => some .bf16 | 1 => some .f16 | 2 => some .e4m3 | 3 => some .e5m2
  | 4 => some .mx8e4 | 5 => some .mx8e5 | 6 => some .mx4 | 7 => some .int8 | _ => none
def PType.code : PType → Nat
  | .bf16 => 0 | .f16 => 1 | .e4m3 => 2 | .e5m2 => 3 | .mx8e4 => 4 | .mx8e5 => 5 | .mx4 => 6 | .int8 => 7
def DrainV.ofCode : Nat → Option DrainV
  | 0 => some .bf16 | 1 => some .f16 | 2 => some .e4m3 | 3 => some .e5m2 | 7 => some .i32 | _ => none
def DrainV.code : DrainV → Nat | .bf16 => 0 | .f16 => 1 | .e4m3 => 2 | .e5m2 => 3 | .i32 => 7
def SpSpace.ofCode : Nat → SpSpace | 0 => .gg | 1 => .gf | 2 => .fg | _ => .ff
def SpSpace.code : SpSpace → Nat | .gg => 0 | .gf => 1 | .fg => 2 | .ff => 3
def FillSpace.ofCode : Nat → Option FillSpace | 0 => some .gg | 1 => some .gf | _ => none
def FillSpace.code : FillSpace → Nat | .gg => 0 | .gf => 1
def RedOp.ofCode : Nat → Option RedOp
  | 1 => some .add | 2 => some .min | 3 => some .max | 4 => some .minu | 5 => some .maxu
  | 6 => some .or | 7 => some .and | 8 => some .first | _ => none
def RedOp.code : RedOp → Nat
  | .add => 1 | .min => 2 | .max => 3 | .minu => 4 | .maxu => 5 | .or => 6 | .and => 7 | .first => 8

/-! ### The decoder -/

/-- FN bits 3:2: the size of an integer opcode, the source of `CVTIF`, the spaces of a spool opcode. -/
def Fields.hi (f : Fields) : Nat := f.fn.toNat / 4
/-- FN bits 1:0: the variant of an integer opcode, or a queue. -/
def Fields.lo (f : Fields) : Nat := f.fn.toNat % 4
/-- All four bits of FN. -/
def Fields.fnv (f : Fields) : Nat := f.fn.toNat

/-- The row that `SRW` takes by its register number; the others are rows of their own for the effect of that write. -/
def srwRow (w : CtlW) : Instr :=
  match w.num with
  | 0x002 => .fcsrWrite w
  | 0x006 => .shapeixWrite w
  | 0x032 => .ballastCapWrite w
  | 0x041 => .admodeWrite w
  | 0x042 => .finjWrite w
  | 0x056 => .ptbrWrite w
  | 0x058 => .drainintWrite w
  | _ => .srw w

/-- Opcodes 0x01-0x1B (R68). -/
def decodeControl (f : Fields) : Option Instr :=
  match f.op.toNat with
  | 0x01 => some (.br f.jump)
  | 0x02 => some (.brx f.ctl)
  | 0x03 => some (.call f.jump)
  | 0x04 => some (.callx f.ctl)
  | 0x05 => some (.ret f.ctl)
  | 0x06 => some (.exit f.ctl)
  | 0x07 => match f.fnv with
    | 0 => some (.migrOut f.base)
    | 1 => some (.migrOutSolo f.base)
    | _ => none
  | 0x08 => if f.fnv = 0 then some (.migrInSolo f.base) else (RedOp.ofCode f.fnv).map (.migrIn · f.base)
  | 0x09 => some (.yield f.ctl)
  | 0x0A => some (.sleep f.ctl)
  | 0x0B => some (.trap f.ctl)
  | 0x0C => some (.sys f.ctl)
  | 0x0D => some (.brk f.ctl)
  | 0x0E => some (.nop f.ctl)
  | 0x0F => some (.time f.ctl)
  | 0x10 => some (.srr f.ctl)
  | 0x11 => some (srwRow f.ctl)
  | 0x12 => some (.srset f.ctl)
  | 0x13 => some (.srclr f.ctl)
  | 0x14 => some (.proof f.ctl)
  | 0x15 => some (.eret f.ctl)
  | 0x16 => some (.wfi f.ctl)
  | 0x17 => some (.tlbsync f.ctl)
  | 0x18 => some (.tlbkill f.ctl)
  | 0x19 => some (.harvest f.ctl)
  | 0x1A => some (.fstopStop f.ctl)
  | 0x1B => some (.fresumeRestart f.ctl)
  | _ => none

/-- An opcode with the four sizes and one variant (R69). -/
def intOp (f : Fields) (k : ISize → BaseW → Instr) : Option Instr :=
  if f.lo = 0 then some (k (.ofCode f.hi) f.base) else none
/-- An opcode with the four sizes and an I-form in `.w` and `.d` (R69). -/
def intOpI (f : Fields) (k : ISize → BaseW → Instr) (ki : DSize → ImmW → Instr) : Option Instr :=
  match f.lo with
  | 0 => some (k (.ofCode f.hi) f.base)
  | 1 => (DSize.ofCode f.hi).map (ki · f.imm)
  | _ => none
/-- An opcode with sizes `.w` and `.d` and one variant. -/
def intOpD (f : Fields) (k : DSize → BaseW → Instr) : Option Instr :=
  if f.lo = 0 then (DSize.ofCode f.hi).map (k · f.base) else none
/-- An opcode with sizes `.w` and `.d` and a signed and an unsigned variant. -/
def intOpDS (f : Fields) (k : DSize → Sgn → BaseW → Instr) : Option Instr :=
  (DSize.ofCode f.hi).bind fun z => (Sgn.ofCode f.lo).map fun v => k z v f.base

/-- Opcodes 0x20-0x55 (R69, R70). -/
def decodeInteger (f : Fields) : Option Instr :=
  match f.op.toNat with
  | 0x20 => intOpI f .add .addI
  | 0x21 => intOp f .sub
  | 0x22 => (Sgn.ofCode f.lo).map (.addsat (.ofCode f.hi) · f.base)
  | 0x23 => (Sgn.ofCode f.lo).map (.subsat (.ofCode f.hi) · f.base)
  | 0x24 => intOpI f .mul .mulI
  | 0x25 => intOpDS f .mulh
  | 0x26 => intOp f .mad
  | 0x27 => if f.hi = 0 then (Sgn.ofCode f.lo).map (.madw · f.base) else none
  | 0x28 => intOpDS f .div
  | 0x29 => intOpDS f .rem
  | 0x2A => intOp f .abs
  | 0x2B => intOp f .neg
  | 0x2C => intOpI f .and .andI
  | 0x2D => intOpI f .or .orI
  | 0x2E => intOpI f .xor .xorI
  | 0x2F => intOp f .andn
  | 0x30 => intOp f .shl
  | 0x31 => (ShrKind.ofCode f.lo).map (.shr (.ofCode f.hi) · f.base)
  | 0x32 => (DSize.ofCode f.hi).bind fun z => (Dir.ofCode f.lo).map fun v => .rot z v f.base
  | 0x33 => (Sgn.ofCode f.lo).map (.min (.ofCode f.hi) · f.base)
  | 0x34 => (Sgn.ofCode f.lo).map (.max (.ofCode f.hi) · f.base)
  | 0x35 => intOp f .clz
  | 0x36 => intOp f .ctz
  | 0x37 => intOp f .popc
  | 0x38 => intOp f .brev
  | 0x39 => intOpD f .bext
  | 0x3A => intOpD f .bins
  | 0x3B => if f.fnv = 0 then some (.perm f.base) else none
  | 0x3C => intOp f .sel
  | 0x3D => intOpDS f .cmp
  | 0x3E => match f.lo with
    | 0 => (DSize.ofCode f.hi).map (.lea · f.base)
    | 1 => (DSize.ofCode f.hi).map (.leaI · f.imm)
    | _ => none
  | 0x3F => intOpD f .mov
  | 0x40 => some (.li f.wide)
  | 0x41 => some (.lih f.wide)
  | 0x42 => intOpDS f .ext
  | 0x43 => if f.hi = 0 then (Dir.ofCode f.lo).map (.fshf · f.base) else none
  | 0x44 => intOpD f .addc
  | 0x45 => intOpD f .subb
  | 0x50 => some (.pand f.ctl)
  | 0x51 => some (.por f.ctl)
  | 0x52 => some (.pxor f.ctl)
  | 0x53 => some (.pandn f.ctl)
  | 0x54 => some (.pset f.ctl)
  | 0x55 => some (.pget f.ctl)
  | _ => none

/-- Opcodes 0x60-0x7B (R71). -/
def decodeFloat (f : Fields) : Option Instr :=
  let fm (k : FFmt → BaseW → Instr) := (FFmt.ofCode f.fnv).map (k · f.base)
  let sf (k : SFmt → BaseW → Instr) := (SFmt.ofCode f.fnv).map (k · f.base)
  match f.op.toNat with
  | 0x60 => fm .fadd
  | 0x61 => fm .fsub
  | 0x62 => fm .fmul
  | 0x63 => fm .ffma
  | 0x64 => fm .ffms
  | 0x65 => fm .fnma
  | 0x66 => fm .fmin
  | 0x67 => fm .fmax
  | 0x68 => fm .fsgn
  | 0x69 => fm .fcmp
  | 0x6A => fm .fclass
  | 0x6B => fm .fdiv
  | 0x6C => fm .fsqrt
  | 0x6D => sf .frcp
  | 0x6E => sf .frsq
  | 0x6F => sf .fexp2
  | 0x70 => sf .flog2
  | 0x71 => sf .fsin
  | 0x72 => sf .fcos
  | 0x73 => sf .ftanh
  | 0x74 => fm .frnd
  | 0x75 => fm .fscale
  | 0x76 => if f.fnv = 3 then some (.fdot2 f.base) else none
  | 0x77 => (FFPair.ofCode f.fnv).map (.cvtff · f.base)
  | 0x78 => (FKind.ofCode f.lo).map fun k => .cvtfi (.ofCode f.hi) k f.base
  | 0x79 => (FKind.ofCode f.lo).map fun k => .cvtif (.ofCode f.hi) k f.base
  | 0x7A => (QForm.ofCode f.fnv).map (.qpack · f.base)
  | 0x7B => (QForm.ofCode f.fnv).map (.qunpk · f.base)
  | _ => none

/-- Opcodes 0x90-0xCA (R72-R74). -/
def decodeMemory (f : Fields) : Option Instr :=
  match f.op.toNat with
  | 0x90 => some (.grpon f.ctl)
  | 0x91 => some (.grpoff f.ctl)
  | 0x92 => (VoteKind.ofCode f.fnv).map (.vote · f.base)
  | 0x93 => (DSize.ofCode f.hi).map fun z => .shfl z (.ofCode f.lo) f.base
  | 0x94 => (GType.ofCode f.fnv).map (.gred · f.base)
  | 0x95 => (GType.ofCode f.fnv).map (.gscan · f.base)
  | 0x96 => (DSize.ofCode f.fnv).map (.gmatch · f.base)
  | 0x97 => (ElectKind.ofCode f.fnv).map (.gelect · f.base)
  | 0x98 => (GMaskKind.ofCode f.fnv).map (.gmask · f.base)
  | 0x99 => some (.qbind f.ctl)
  | 0x9A => some (.qfree f.ctl)
  | 0xA0 => (LdSize.ofCode f.fnv).map (.ld · f.imm)
  | 0xA1 => (StSize.ofCode f.fnv).map (.st · f.imm)
  | 0xA2 => (LdaSize.ofCode f.fnv).map (.lda · f.base)
  | 0xA3 => (StrSize.ofCode f.fnv).map (.str · f.base)
  | 0xA4 => (LdSize.ofCode f.fnv).map (.ldf · f.imm)
  | 0xA5 => (StSize.ofCode f.fnv).map (.stf · f.imm)
  | 0xA6 => (LdSize.ofCode f.fnv).map (.ldfc · f.base)
  | 0xA7 => (StSize.ofCode f.fnv).map (.stfc · f.base)
  | 0xA8 => (DSize.ofMem f.fnv).map (.ldk · f.imm)
  | 0xA9 => (PrefLvl.ofCode f.fnv).map (.pref · f.imm)
  | 0xAA => (ClineOp.ofCode f.fnv).map (.cline · f.imm)
  | 0xAB => if f.fnv = 0 then some (.fence f.base) else none
  | 0xAC => (DSize.ofMem f.fnv).map (.ldres · f.imm)
  | 0xAD => (DSize.ofMem f.fnv).map (.stcond · f.imm)
  | 0xC0 => (AmoOp.ofCode f.fnv).map (.amo · f.base)
  | 0xC1 => if f.fnv = 0 then some (.acas f.base) else none
  | 0xC2 => (FFmt.ofCode f.fnv).map (.afadd · f.base)
  | 0xC3 => if f.fnv = 0 then some (.aaddt f.base) else none
  | 0xC4 => (WaitCond.ofCode f.fnv).map (.waitv · f.base)
  | 0xC5 => if f.fnv = 0 then some (.wake f.base) else none
  | 0xC6 => (BarSpace.ofCode f.fnv).map (.bari · f.base)
  | 0xC7 => (BarSpace.ofCode f.fnv).map (.bara · f.base)
  | 0xC8 => (BarSpace.ofCode f.fnv).map (.barw · f.base)
  | 0xC9 => (BarSpace.ofCode f.fnv).map (.bart · f.base)
  | 0xCA => (BarSpace.ofCode f.fnv).map (.barx · f.base)
  | _ => none

/-- Opcodes 0xD0-0xED (R75, R76). -/
def decodeEngine (f : Fields) : Option Instr :=
  let q : QueueNo := BitVec.ofNat 2 f.lo
  let sp : SpSpace := .ofCode f.hi
  let only0 (i : Instr) := if f.fnv = 0 then some i else none
  match f.op.toNat with
  | 0xD0 => (PType.ofCode f.fnv).map (.mma · f.base)
  | 0xD1 => (PType.ofCode f.fnv).map (.mmac · f.base)
  | 0xD2 => only0 (.mzero f.base)
  | 0xD3 => only0 (.mload f.base)
  | 0xD4 => (PType.ofCode f.fnv).map (.mdrain · f.base)
  | 0xD5 => (DrainV.ofCode f.fnv).map (.mdrainv · f.base)
  | 0xD6 => only0 (.mstat f.base)
  | 0xE0 => some (.cpy q sp f.base)
  | 0xE1 => some (.cpyt q sp f.base)
  | 0xE2 => some (.cgath q sp f.base)
  | 0xE3 => some (.cscat q sp f.base)
  | 0xE4 => some (.cpart q sp f.base)
  | 0xE5 => (FillSpace.ofCode f.hi).map (.cfill q · f.base)
  | 0xE6 => if f.fnv = 0 then none else some (.cfence f.fn f.base)
  | 0xE7 => if f.hi = 0 then some (.cstat q f.base) else none
  | 0xE8 => match f.fnv with
    | 0 => some (.hash false f.base)
    | 1 => some (.hash true f.base)
    | _ => none
  | 0xE9 => only0 (.shash f.base)
  | 0xEA => only0 (.scmp f.base)
  | 0xEB => only0 (.spfx f.base)
  | 0xEC => only0 (.npost f.base)
  | 0xED => only0 (.nstat f.base)
  | _ => none

/-- The reserved opcodes of R77. -/
def reservedOp (op : Nat) : Bool :=
  op == 0x00 || (0x1C ≤ op && op ≤ 0x1F) || (0x46 ≤ op && op ≤ 0x4F) || (0x56 ≤ op && op ≤ 0x5F) ||
  (0x7C ≤ op && op ≤ 0x8F) || (0x9B ≤ op && op ≤ 0x9F) || (0xAE ≤ op && op ≤ 0xBF) || (0xCB ≤ op && op ≤ 0xCF) ||
  (0xD7 ≤ op && op ≤ 0xDF) || (0xEE ≤ op && op ≤ 0xFD) || op == 0xFF

/-- The instruction of one opcode and FN, by the range that the opcode lies in. -/
def decodeRow (f : Fields) : Option Instr :=
  let op := f.op.toNat
  if op < 0x20 then decodeControl f
  else if op < 0x60 then decodeInteger f
  else if op < 0x90 then decodeFloat f
  else if op < 0xD0 then decodeMemory f
  else decodeEngine f

/-- The decoder over fields: the second line of R66, and the FN values of R77. -/
def decodeFields (f : Fields) : Except Reject Instr :=
  let op := f.op.toNat
  if op = 0xFE then .error .header
  else if reservedOp op then .error (.reservedOp op)
  else match decodeRow f with
    | some i => .ok i
    | none => .error (.undefinedFn op f.fnv)

/-- The decoder: total on every 64-bit word. -/
def decode (w : W64) : Except Reject Instr := decodeFields (split w)

/-- Eight bytes, the lowest address first, as one word (R44: little-endian). -/
def wordOfBytes (bs : List Byte) : W64 :=
  BitVec.ofNat 64 (bs.foldr (fun b acc => b.toNat + 256 * acc) 0)
/-- The bytes of a word, the lowest address first. -/
def bytesOfWord (w : W64) : List Byte := (List.range 8).map fun k => w.extractLsb' (8 * k) 8

/-- The decoder over bytes: an instruction is one word of eight bytes; fewer bytes hold none. -/
def decodeBytes (bs : List Byte) : Option (Except Reject Instr) :=
  if bs.length < 8 then none else some (decode (wordOfBytes (bs.take 8)))

/-- What this decoder reads from the word `w` of a table row. Every instruction is one 64-bit word (R44). -/
def decodeTableWord (_nbits w : Nat) : Option Instr :=
  match decodeBytes (bytesOfWord (BitVec.ofNat 64 w)) with
  | some (.ok i) => some i
  | _ => none

/-! ### The encoder -/

/-- The opcode and FN of a spool opcode's queue and spaces (R236). -/
def spFn (q : QueueNo) (sp : Nat) : Nat := 4 * sp + q.toNat
/-- The FN of an integer opcode: 4 × size + variant (R137). -/
def intFn (size var : Nat) : Nat := 4 * size + var

/-- The fields of an instruction's word; `none` for the steps that are no instruction. -/
def encodeFields : Instr → Option Fields
  | .br w => some (w.fields 0x01)
  | .brx w => some (w.fields 0x02)
  | .call w => some (w.fields 0x03)
  | .callx w => some (w.fields 0x04)
  | .ret w => some (w.fields 0x05)
  | .exit w => some (w.fields 0x06)
  | .migrOut w => some (w.fields 0x07 0)
  | .migrOutSolo w => some (w.fields 0x07 1)
  | .migrInSolo w => some (w.fields 0x08 0)
  | .migrIn op w => some (w.fields 0x08 op.code)
  | .yield w => some (w.fields 0x09)
  | .sleep w => some (w.fields 0x0A)
  | .trap w => some (w.fields 0x0B)
  | .sys w => some (w.fields 0x0C)
  | .brk w => some (w.fields 0x0D)
  | .nop w => some (w.fields 0x0E)
  | .time w => some (w.fields 0x0F)
  | .srr w => some (w.fields 0x10)
  | .srw w => some (w.fields 0x11)
  | .shapeixWrite w => some (w.fields 0x11)
  | .fcsrWrite w => some (w.fields 0x11)
  | .ballastCapWrite w => some (w.fields 0x11)
  | .finjWrite w => some (w.fields 0x11)
  | .admodeWrite w => some (w.fields 0x11)
  | .ptbrWrite w => some (w.fields 0x11)
  | .drainintWrite w => some (w.fields 0x11)
  | .srset w => some (w.fields 0x12)
  | .srclr w => some (w.fields 0x13)
  | .proof w => some (w.fields 0x14)
  | .eret w => some (w.fields 0x15)
  | .eretResumeFamily w => some (w.fields 0x15)
  | .wfi w => some (w.fields 0x16)
  | .tlbsync w => some (w.fields 0x17)
  | .tlbkill w => some (w.fields 0x18)
  | .harvest w => some (w.fields 0x19)
  | .fstopStop w => some (w.fields 0x1A)
  | .fstopEnd w => some (w.fields 0x1A)
  | .fresumeRestart w => some (w.fields 0x1B)
  | .fresumeResume w => some (w.fields 0x1B)
  | .fresumeSkip w => some (w.fields 0x1B)
  | .fresumeKill w => some (w.fields 0x1B)
  | .add z w => some (w.fields 0x20 (intFn z.code 0))
  | .addI z w => some (w.fields 0x20 (intFn z.code 1))
  | .sub z w => some (w.fields 0x21 (intFn z.code 0))
  | .addsat z v w => some (w.fields 0x22 (intFn z.code v.code))
  | .subsat z v w => some (w.fields 0x23 (intFn z.code v.code))
  | .mul z w => some (w.fields 0x24 (intFn z.code 0))
  | .mulI z w => some (w.fields 0x24 (intFn z.code 1))
  | .mulh z v w => some (w.fields 0x25 (intFn z.code v.code))
  | .mad z w => some (w.fields 0x26 (intFn z.code 0))
  | .madw v w => some (w.fields 0x27 (intFn 0 v.code))
  | .div z v w => some (w.fields 0x28 (intFn z.code v.code))
  | .rem z v w => some (w.fields 0x29 (intFn z.code v.code))
  | .abs z w => some (w.fields 0x2A (intFn z.code 0))
  | .neg z w => some (w.fields 0x2B (intFn z.code 0))
  | .and z w => some (w.fields 0x2C (intFn z.code 0))
  | .andI z w => some (w.fields 0x2C (intFn z.code 1))
  | .or z w => some (w.fields 0x2D (intFn z.code 0))
  | .orI z w => some (w.fields 0x2D (intFn z.code 1))
  | .xor z w => some (w.fields 0x2E (intFn z.code 0))
  | .xorI z w => some (w.fields 0x2E (intFn z.code 1))
  | .andn z w => some (w.fields 0x2F (intFn z.code 0))
  | .shl z w => some (w.fields 0x30 (intFn z.code 0))
  | .shr z k w => some (w.fields 0x31 (intFn z.code k.code))
  | .rot z d w => some (w.fields 0x32 (intFn z.code d.code))
  | .min z v w => some (w.fields 0x33 (intFn z.code v.code))
  | .max z v w => some (w.fields 0x34 (intFn z.code v.code))
  | .clz z w => some (w.fields 0x35 (intFn z.code 0))
  | .ctz z w => some (w.fields 0x36 (intFn z.code 0))
  | .popc z w => some (w.fields 0x37 (intFn z.code 0))
  | .brev z w => some (w.fields 0x38 (intFn z.code 0))
  | .bext z w => some (w.fields 0x39 (intFn z.code 0))
  | .bins z w => some (w.fields 0x3A (intFn z.code 0))
  | .perm w => some (w.fields 0x3B 0)
  | .sel z w => some (w.fields 0x3C (intFn z.code 0))
  | .cmp z v w => some (w.fields 0x3D (intFn z.code v.code))
  | .lea z w => some (w.fields 0x3E (intFn z.code 0))
  | .leaI z w => some (w.fields 0x3E (intFn z.code 1))
  | .mov z w => some (w.fields 0x3F (intFn z.code 0))
  | .li w => some (w.fields 0x40)
  | .lih w => some (w.fields 0x41)
  | .ext z v w => some (w.fields 0x42 (intFn z.code v.code))
  | .fshf d w => some (w.fields 0x43 (intFn 0 d.code))
  | .addc z w => some (w.fields 0x44 (intFn z.code 0))
  | .subb z w => some (w.fields 0x45 (intFn z.code 0))
  | .pand w => some (w.fields 0x50)
  | .por w => some (w.fields 0x51)
  | .pxor w => some (w.fields 0x52)
  | .pandn w => some (w.fields 0x53)
  | .pset w => some (w.fields 0x54)
  | .pget w => some (w.fields 0x55)
  | .fadd f w => some (w.fields 0x60 f.code)
  | .fsub f w => some (w.fields 0x61 f.code)
  | .fmul f w => some (w.fields 0x62 f.code)
  | .ffma f w => some (w.fields 0x63 f.code)
  | .ffms f w => some (w.fields 0x64 f.code)
  | .fnma f w => some (w.fields 0x65 f.code)
  | .fmin f w => some (w.fields 0x66 f.code)
  | .fmax f w => some (w.fields 0x67 f.code)
  | .fsgn f w => some (w.fields 0x68 f.code)
  | .fcmp f w => some (w.fields 0x69 f.code)
  | .fclass f w => some (w.fields 0x6A f.code)
  | .fdiv f w => some (w.fields 0x6B f.code)
  | .fsqrt f w => some (w.fields 0x6C f.code)
  | .frcp f w => some (w.fields 0x6D f.code)
  | .frsq f w => some (w.fields 0x6E f.code)
  | .fexp2 f w => some (w.fields 0x6F f.code)
  | .flog2 f w => some (w.fields 0x70 f.code)
  | .fsin f w => some (w.fields 0x71 f.code)
  | .fcos f w => some (w.fields 0x72 f.code)
  | .ftanh f w => some (w.fields 0x73 f.code)
  | .frnd f w => some (w.fields 0x74 f.code)
  | .fscale f w => some (w.fields 0x75 f.code)
  | .fdot2 w => some (w.fields 0x76 3)
  | .cvtff p w => some (w.fields 0x77 p.code)
  | .cvtfi d k w => some (w.fields 0x78 (intFn d.code k.code))
  | .cvtif k d w => some (w.fields 0x79 (intFn k.code d.code))
  | .qpack f w => some (w.fields 0x7A f.code)
  | .qunpk f w => some (w.fields 0x7B f.code)
  | .grpon w => some (w.fields 0x90)
  | .grpoff w => some (w.fields 0x91)
  | .vote k w => some (w.fields 0x92 k.code)
  | .shfl z m w => some (w.fields 0x93 (intFn z.code m.code))
  | .gred t w => some (w.fields 0x94 t.code)
  | .gscan t w => some (w.fields 0x95 t.code)
  | .gmatch z w => some (w.fields 0x96 z.code)
  | .gelect k w => some (w.fields 0x97 k.code)
  | .gmask k w => some (w.fields 0x98 k.code)
  | .qbind w => some (w.fields 0x99)
  | .qfree w => some (w.fields 0x9A)
  | .ld z w => some (w.fields 0xA0 z.code)
  | .st z w => some (w.fields 0xA1 z.code)
  | .lda z w => some (w.fields 0xA2 z.code)
  | .str z w => some (w.fields 0xA3 z.code)
  | .ldf z w => some (w.fields 0xA4 z.code)
  | .stf z w => some (w.fields 0xA5 z.code)
  | .ldfc z w => some (w.fields 0xA6 z.code)
  | .stfc z w => some (w.fields 0xA7 z.code)
  | .ldk z w => some (w.fields 0xA8 z.mem)
  | .pref l w => some (w.fields 0xA9 l.code)
  | .cline o w => some (w.fields 0xAA o.code)
  | .fence w => some (w.fields 0xAB 0)
  | .ldres z w => some (w.fields 0xAC z.mem)
  | .stcond z w => some (w.fields 0xAD z.mem)
  | .amo o w => some (w.fields 0xC0 o.code)
  | .acas w => some (w.fields 0xC1 0)
  | .afadd f w => some (w.fields 0xC2 f.code)
  | .aaddt w => some (w.fields 0xC3 0)
  | .waitv c w => some (w.fields 0xC4 c.code)
  | .wake w => some (w.fields 0xC5 0)
  | .bari s w => some (w.fields 0xC6 s.code)
  | .bara s w => some (w.fields 0xC7 s.code)
  | .barw s w => some (w.fields 0xC8 s.code)
  | .bart s w => some (w.fields 0xC9 s.code)
  | .barx s w => some (w.fields 0xCA s.code)
  | .mma t w => some (w.fields 0xD0 t.code)
  | .mmac t w => some (w.fields 0xD1 t.code)
  | .mzero w => some (w.fields 0xD2 0)
  | .mload w => some (w.fields 0xD3 0)
  | .mdrain t w => some (w.fields 0xD4 t.code)
  | .mdrainv t w => some (w.fields 0xD5 t.code)
  | .mstat w => some (w.fields 0xD6 0)
  | .cpy q sp w => some (w.fields 0xE0 (spFn q sp.code))
  | .cpyt q sp w => some (w.fields 0xE1 (spFn q sp.code))
  | .cgath q sp w => some (w.fields 0xE2 (spFn q sp.code))
  | .cscat q sp w => some (w.fields 0xE3 (spFn q sp.code))
  | .cpart q sp w => some (w.fields 0xE4 (spFn q sp.code))
  | .cfill q sp w => some (w.fields 0xE5 (spFn q sp.code))
  | .cfence m w => some (w.fields 0xE6 m.toNat)
  | .cstat q w => some (w.fields 0xE7 (spFn q 0))
  | .hash comb w => some (w.fields 0xE8 (if comb then 1 else 0))
  | .shash w => some (w.fields 0xE9 0)
  | .scmp w => some (w.fields 0xEA 0)
  | .spfx w => some (w.fields 0xEB 0)
  | .npost w => some (w.fields 0xEC 0)
  | .nstat w => some (w.fields 0xED 0)
  | _ => none

/-- The instructions whose word decodes to themselves: the row of `SRW` goes with the register number, `CFENCE` names a queue, and
the rows that a run-time value selects are left to `Machine/Step.lean`. -/
def Instr.canonical : Instr → Bool
  | .srw w => srwRow w == .srw w
  | .fcsrWrite w => w.num == 0x002
  | .shapeixWrite w => w.num == 0x006
  | .ballastCapWrite w => w.num == 0x032
  | .admodeWrite w => w.num == 0x041
  | .finjWrite w => w.num == 0x042
  | .ptbrWrite w => w.num == 0x056
  | .drainintWrite w => w.num == 0x058
  | .cfence m _ => m != 0#4
  | .eretResumeFamily _ => false
  | .fstopEnd _ => false
  | .fresumeResume _ => false
  | .fresumeSkip _ => false
  | .fresumeKill _ => false
  | i => (encodeFields i).isSome

/-- The word of an instruction; 0, a reserved word (R66), for the steps that are no instruction. -/
def encode (i : Instr) : W64 :=
  match encodeFields i with
  | some f => join f
  | none => 0#64

end Sys2Proof
end

