-- ==== Sys2Proof/Machine/State.lean ====
section
/-!
DEFINITION. The state of the machine as plain data, and the state after reset (the end of bring-up, R427 step 9). Every piece of
state of INVENTORY.md has one home here.
-/

namespace Sys2Proof.Machine

/-! ### Threads and groups -/

/-- Shape tag and value of a register (R19): U, A (base, stride), G (the lanes' values, lane 0 first). -/
inductive Shaped where
  | u (v : W32)
  | a (base stride : W32)
  | g (vs : List W32)
  deriving DecidableEq, Repr

/-- A general register of a group, with its poison mark for each lane (R17, R18, R141). (DESIGN CHOICE, unsafe: log entry 2.) -/
structure Reg where
  sh : Shaped := .u 0#32
  poison : Mask := 0#64
  deriving DecidableEq, Repr

/-- A predicate of a group: a bit for each lane, tag U or G, poison marks (R25, R20). (DESIGN CHOICE, unsafe: log entry 2.) -/
structure PredV where
  bits : Mask := 0#64
  uni : Bool := true
  poison : Mask := 0#64
  deriving DecidableEq, Repr

/-- The block that a thread executes: its header's address and word (R61, R62). -/
structure Blk where
  addr : W64
  word : W64
  deriving DecidableEq, Repr

/-- An open lookahead window: words left, and what the instruction writes (R55). -/
structure Win where
  left : Nat
  regs : List Nat
  preds : List Nat
  deriving DecidableEq, Repr

/-- The states of a thread (R347), and the waits at a proof point (R376), for a once-operation (R385) and for a deferred
access. A thread in its family trap handler is READY with a handler context. -/
inductive TState where
  | ready
  | parked
  | rejoin (point : Nat)
  | sleep (target : W64)
  | formeWait
  | engineWait
  | arrived
  | binding
  | faulted
  | proofWait
  | onceWait
  deriving DecidableEq, Repr

/-- Retention hints (R54, R188, R311). -/
inductive Retain where | dflt | strm | stky | byp
  deriving DecidableEq, Repr

/-- A held store of a proofed family (R372, R375). -/
structure Entry where
  va : W64
  data : List Byte
  rh : Retain := .dflt
  /-- the instruction that held it: its word, and the PT of its issue; the bytes over which a higher lane's store of the same instruction has
  already been performed (R379) -/
  pc : W64 := 0#64
  at_ : Nat := 0
  newer : List Nat := []
  deriving DecidableEq, Repr

/-- What entry to the family trap handler keeps for its return (R282, R283). -/
structure HandlerCtx where
  ftret : W64
  blk : Option Blk
  /-- the token of a `BARX` whose wait took trap 0x20 after its arrival (R221) -/
  barTok : Option Nat := none
  deriving DecidableEq, Repr

/-- One thread: the state of one lane. -/
structure Thread where
  fam : W32 := 0#32
  tix : Nat := 0
  pc : W64 := 0#64
  blk : Option Blk := none
  st : TState := .ready
  fcsr : W32 := 0#32
  ftret : W64 := 0#64
  wins : List Win := []
  /-- open rejoin points, innermost first (R121), and the stack at arrival at `GRPON` (R172) -/
  rej : List Nat := []
  savedRej : List Nat := []
  handler : Option HandlerCtx := none
  /-- a value that an engine has delivered for the word at `pc`, and whether it is poisoned (R210, R211, R384) -/
  got : Option (Nat × Bool) := none
  /-- the release or proof point of the word at `pc` has been performed (R295, R376) -/
  passed : Bool := false
  /-- the once-operation at `pc` has compared equal and is this thread's to perform (R385) -/
  onceGo : Bool := false
  /-- the token of a `BARX` that waits (R347) -/
  barTok : Option Nat := none
  /-- that wait was parked before a save: it stays parked whatever promise has passed (R221, R347) -/
  stood : Bool := false
  /-- an acquire returned poisoned data: cause 0x18 before the next instruction (R185) -/
  pendPoison : Bool := false
  /-- held stores of the open interval, oldest first; interval count; once count (R372-R385) -/
  held : List Entry := []
  q : Nat := 0
  e : Nat := 0
  /-- the last PT value read (R33) -/
  lastPt : Nat := 0
  /-- resumed inside a region at an earlier word than the rest of its group (R171 rule 4) -/
  behind : Bool := false
  /-- the first pass of a `TLBSYNC`, or another wait that counts from its issue (R285) -/
  since : Option Nat := none
  /-- the scope of a release that a later step performs (log entry 6) -/
  rel : Option Nat := none
  /-- an `FRESUME` action that takes effect at the next dispatch (R286), 0 none -/
  ordered : Nat := 0
  deriving DecidableEq, Repr

/-- States of a group (R346). -/
inductive GState where | opened | arriving | region | suspended | ended
  deriving DecidableEq, Repr

/-- An open rejoin point (R121, R122): the header, the expected set, the threads parked, and `s.cyc` when the first parked. -/
structure Point where
  id : Nat
  hdr : W64
  expect : Mask
  arrived : Mask
  first : Option Nat
  deriving DecidableEq, Repr

/-- The tag that a write gives when it reaches every non-exited thread (R20). -/
inductive Hint where
  | u
  | a (base stride : W32)
  | g
  deriving DecidableEq, Repr

/-- A load whose threads have gone on before its value is there (R292, R300): its destination, the tag of its address, the lanes whose access
is still to be performed, and the values that have come. The scoreboard holds back what names its destination (R55). -/
structure OutLoad where
  d : BitVec 10
  size : LdSize
  hint : Hint
  want : Mask
  vals : List (Nat × Nat × Bool) := []
  deriving DecidableEq, Repr

/-- A group (R5): 64 lanes on a SIMT core; the thread of a latency core is a group of one lane. (DESIGN CHOICE, unsafe: log entry 2.) -/
structure Group where
  live : Mask := 0#64
  /-- registers that differ from U 0, in ascending order -/
  regs : List (Nat × Reg) := []
  preds : List PredV := List.replicate 7 {}
  threads : List Thread := []
  gst : GState := .opened
  rh : Nat := 0
  ackout : Nat := 0
  shapeix : W32 := 0#32
  mpPred : Nat := 0
  mpMiss : Nat := 0
  points : List Point := []
  /-- PT at which the windows of the windowed stores sent are closed (R295, R302) -/
  wuntil : Nat := 0
  /-- PT at which the windows toward a removed package close (R401) -/
  wlost : Nat := 0
  /-- the next issue selection passes over the group once (R134) -/
  passOver : Bool := false
  /-- parked threads, and the core's cycle at which each was first seen parked (R14) -/
  parkedAt : List (Nat × Nat) := []
  /-- the core's cycle at the latest issue, and the lowest lane of the run that issued (R120, R351) -/
  lastIssue : Nat := 0
  turnLane : Nat := 0
  /-- the group slot of its quarter that it holds (R350, R351) -/
  gslot : Nat := 0
  /-- the loads on whose values the scoreboard waits (R55, R300) -/
  loads : List OutLoad := []
  deriving DecidableEq, Repr

/-- An open speculative window (R123-R125): the group before the branch, the branch, the predicted and the actual taken set, the
quarter's predictor entry, and the instructions issued in it. -/
structure Spec where
  before : Group
  pc : W64
  run : Mask
  predicted : Mask
  actual : Mask
  index : Nat
  issued : Nat
  /-- what each of those instructions wrote: registers, predicates, lanes (R22) -/
  wrote : List (List Nat × List Nat × Mask) := []
  deriving DecidableEq, Repr

/-! ### Latency cores -/

/-- A pending interrupt: number, `s.tval` (R268). -/
structure Irq where
  num : Nat
  tval : W64
  deriving DecidableEq, Repr

/-- A reservation (R203, R204): the line, the PT until which a recall is deferred, and whether one is. -/
structure Resv where
  line : Nat
  deferEnd : Nat
  recalled : Bool
  deriving DecidableEq, Repr

/-- What a latency core waits for inside `WFI` or `TLBSYNC` (R271, R285). -/
inductive LWait where
  | none
  | wfi
  | tlbsync (issued : Nat)
  deriving DecidableEq, Repr

/-- A latency core: its thread (a group of one lane) and its supervisor registers (R26, R40).
(DESIGN CHOICE, unsafe: log entry 2.) (DESIGN CHOICE, safe in part: log entry 6.) -/
structure LCore where
  grp : Group := { live := 1#64, threads := [{}] }
  status : W32 := 3#32
  tvec : W64 := 0#64
  epc : W64 := 0#64
  cause : W32 := 0#32
  tval : W64 := 0#64
  scratch : W64 := 0#64
  ptbr : W64 := 0#64
  famsel : W32 := 0#32
  cws : List W64 := List.replicate 8 0#64
  /-- cycles of this core beyond `State.cycles` -/
  cyc : Nat := 0
  halted : Bool := false
  held : Bool := true
  resv : Option Resv := none
  pend : List Irq := []
  wait : LWait := .none
  /-- the instruction at pc waits inside itself: no interrupt is taken (R268) -/
  inside : Bool := false
  /-- the thread stands at `s.tvec`, whose header has not been fetched yet (R269) -/
  vector : Bool := false
  deriving DecidableEq, Repr

/-! ### Teams -/

/-- States of a team (R345). -/
inductive TeamState where | pending | resident | saving | saved | restart | ended
  deriving DecidableEq, Repr

/-- An accumulator tile (R39): words that differ from the free value of `seed`, by row × 256 + column, and the status bits
NV, OF, SAT, NAN-IN. -/
structure Tile where
  seed : Nat := 0
  cells : List (Nat × W32) := []
  status : BitVec 4 := 0#4
  deriving DecidableEq, Repr

/-- Kinds of queued platen instructions (R224). -/
inductive PlKind where
  | mma (t : PType)
  | mmac (t : PType)
  | mzero
  | mload
  deriving DecidableEq, Repr

/-- One member's issue (R225): quarter, control block, B register, C field, active set, promise. -/
structure PlMember where
  quarter : Nat
  kind : PlKind
  ctl : List W32
  breg : Nat
  c : BitVec 10
  act : Mask
  promise : Nat
  deriving DecidableEq, Repr

/-- An operation of the platen queue (R224). `bspan`: the members' B spans as read at its start, by quarter and lane, none outside an active
set (R228, R230). `next`: the next K block; `marks`: status bits that become visible at completion (R114). -/
structure PlOp where
  members : List PlMember := []
  started : Bool := false
  bspan : List (List (Option (List W32))) := []
  next : Nat := 0
  marks : List (BitVec 4) := []
  raised : Bool := false
  deriving DecidableEq, Repr

/-- Kinds of spool operations (R237). -/
inductive SpKind where | cpy | cpyt | cgath | cscat | cpart | cfill
  deriving DecidableEq, Repr

/-- A spool operation (R236-R241): operands read at issue, the parameter block, the thread that entered it, its promise, the next
element, and the cause it is parked with. -/
structure SpOp where
  kind : SpKind
  srcG : Bool
  dstG : Bool
  grp : Nat
  lane : Nat
  pc : W64
  a : W64
  b : W64
  par : List W32
  promise : Nat
  next : Nat := 0
  started : Bool := false
  parked : Option Nat := none
  raised : Bool := false
  num : Nat := 0
  seg : Nat := 0
  /-- the rest of an element that the end of a segment has cut: source, destination, bytes left (R387) -/
  part : Option (W64 × W64 × Nat) := none
  /-- the latest write completion time that it has met, and the window end of what it has written (R305) -/
  rh : Nat := 0
  wuntil : Nat := 0
  deriving DecidableEq, Repr

/-- An entry of a spool queue: an operation or a fence joined with other queues (R244). -/
inductive SpItem where
  | op (o : SpOp)
  | fence (id : Nat)
  deriving DecidableEq, Repr

/-- A spool queue (R236, R243-R245). -/
structure SpQueue where
  items : List SpItem := []
  done : Nat := 0
  lastp : Nat := 0
  floor : Nat := 0
  deriving DecidableEq, Repr

/-- A team of one replica (R10, R345). -/
structure Team where
  tid : Nat
  fam : W32
  rid : Nat := 0
  num : Nat := 0
  cip : Nat := 0
  packed : Bool := false
  st : TeamState := .pending
  restarts : Nat := 0
  core : Nat := 0
  firstCore : Nat := 0
  firstDie : Nat := 0
  /-- the structure and unit that met the error of a machine check that is due (R414) -/
  check : Option (Nat × Nat) := none
  /-- forme: size, base on the core, the seed of its undefined bytes, written bytes, poisoned 8-byte granules (R37, R319) -/
  fsize : Nat := 4096
  fbase : Nat := 0
  fseed : Nat := 0
  forme : List (Nat × Byte) := []
  fpoison : List Nat := []
  tiles : List Tile := List.replicate 4 {}
  /-- the quad (R179): formed, and the member group of each quarter with the PT of its `QBIND` -/
  quad : Bool := false
  qmem : List (Option (Nat × Nat)) := [none, none, none, none]
  plq : List PlOp := []
  plPromise : Nat := 0
  spq : List SpQueue := List.replicate 4 {}
  fenceId : Nat := 0
  groups : List (Option Group) := []
  specs : List (Nat × Spec) := []
  /-- PT at which the slice started (R352), PT of the latest dispatch (R353); the mark of a relaunch (R363) -/
  since : Nat := 0
  dispatched : Nat := 0
  relaunch : Bool := false
  /-- the record of the solo pool that a packed group uses (R366) -/
  slot : Nat := 0
  deriving DecidableEq, Repr

/-! ### Families -/

/-- States of a family (R344). -/
inductive FState where | walking | ready | running | stopped | ended
  deriving DecidableEq, Repr

/-- A fault queue (R281): that of dw7 in the family's space, or the one of all solo families (R260). -/
structure FQueue where
  solo : Bool
  ptbr : W64 := 0#64
  va : Nat := 0
  deriving DecidableEq, Repr

/-- A fault record that waits for its queue (R281): its family, the family's origin core, its eight doublewords but SEQ. -/
structure FRec where
  fam : W32
  origin : Nat
  queue : FQueue
  dws : List W64
  /-- the page of an admission record (R343) -/
  page : Option W64 := none
  /-- no record: interrupt 0x02 of the family, with this `s.tval`, which follows its records (R364) -/
  ends : Option W64 := none
  deriving DecidableEq, Repr

/-- The resumption of the parent (R264): pc, result pair, flags to merge, exit mark (R133). -/
structure Completed where
  pc : W64
  result : Option W64
  flags : W32
  exitMark : Bool
  deriving DecidableEq, Repr

/-- A value that replica 0 has read for the others (R275, R384, R385): thread, once count, operands, value, replicas still to take it. -/
structure Pinned where
  tix : Nat
  e : Nat
  operands : List Nat
  value : Nat
  left : List Nat
  deriving DecidableEq, Repr

/-- A family (R16, R258, R344). -/
structure Family where
  famid : W32
  n : Nat
  solo : Bool := false
  /-- descriptor doublewords dw0-dw7 (R84, R255) -/
  desc : List W64
  ptbr : W64
  cws : List W64
  /-- the parent record: the thread, D, origin core, the `MIGR.OUT` address (R258) -/
  parent : Group
  d : Nat
  origin : Nat
  outPc : W64
  state : FState := .ready
  /-- the state that `FRESUME` restores (R344) -/
  fromWalking : Bool := false
  /-- the family enters STOPPED once every team is saved (R344) -/
  stopping : Bool := false
  teams : Nat
  /-- the instances below this number have had teams created; the others are PENDING -/
  nextInst : Nat := 0
  closed : Option (Nat × W64) := none
  redval : W64 := 0#64
  redIdx : Option Nat := none
  redAny : Bool := false
  flags : W32 := 0#32
  ended : Nat := 0
  cause : Option Nat := none
  completed : Option Completed := none
  /-- s.ballast: whole units and thousandths (R252), rate, cap -/
  ballast : Nat
  ballastFrac : Nat := 0
  /-- PT up to which the balance has accrued -/
  accAt : Nat := 0
  /-- runs that stall on ballast, each its group and its PC, in the order in which they stalled (R252) -/
  stalled : List (Party × W64) := []
  rate : Nat
  cap : Nat
  repairs : W32 := 0#32
  /-- SIMT time up to the latest change, and the PT since which it runs (R354) -/
  simt : Nat := 0
  simtFrom : Option Nat := none
  watchFired : Bool := false
  /-- admission: the ranges of the lease list, pages still to walk, records written per page (R343) -/
  lease : List (Nat × Nat) := []
  admitPages : List W64 := []
  admitRecs : List (W64 × Nat) := []
  affinity : List (Nat × Nat) := []
  homeDie : Option Nat := none
  rank : Nat := 0
  /-- instances passed over: instance number, PT (R348) -/
  passed : List (Nat × Nat) := []
  reserving : List Nat := []
  pinned : List Pinned := []
  deriving DecidableEq, Repr

/-- An open packing interval (R261): key, PT at which it opened, the families and their threads. -/
structure Pack where
  ptbr : W64
  hdr : W64
  key : W64
  opened : Nat
  members : List (W32 × Group)
  deriving DecidableEq, Repr

/-! ### Cores and dies -/

/-- A predictor entry (R123): quarter, index, mask, confidence. -/
structure PEntry where
  quarter : Nat
  index : Nat
  mask : Mask
  conf : Nat
  /-- the teams that have trained the entry (R357) -/
  tids : List Nat := []
  deriving DecidableEq, Repr

/-- A SIMT core that differs from its reset state. (DESIGN CHOICE, unsafe: log entry 2.) -/
structure SCore where
  num : Nat
  /-- cycles of this core beyond `State.cycles` -/
  cyc : Nat := 0
  tdrepl : Nat := 0
  removed : Bool := false
  predictor : List PEntry := []
  deriving DecidableEq, Repr

/-- A die: supply steps (R416), governor (R419), regulator (R418), edges (R395), placement (R326). (DESIGN CHOICE, unsafe: log entry 2.) -/
structure Die where
  v : Nat := 350
  f : Nat := 1800
  quiet : Nat := 0
  replays : Nat := 0
  /-- end of the running window of 1 ms (R416) -/
  winEnd : Nat := 1000000
  govSum : Nat := 0
  govEnd : Nat := 0
  overcur : Option Nat := none
  hot : Bool := false
  spared : List Nat := []
  failed : List Nat := []
  isolated : Bool := false
  accesses : Nat := 0
  maxMoves : Nat := 16
  hbmLow : Nat := 8192
  epochUs : Nat := 1000
  tmove : Nat := 64
  tmargin : Nat := 32
  tcold : Nat := 2
  mode : Nat := 0
  epochStart : Nat := 0
  deriving DecidableEq, Repr

/-! ### The memory system -/

/-- Who holds a copy or a translation below the home (R309, R337). -/
inductive Holder where
  | l1 (core : Nat)
  | kc (core : Nat)
  | ic (core : Nat)
  | rdc (die : Nat)
  | lc (n : Nat)
  | hdie (die : Nat)
  deriving DecidableEq, Repr

/-- A leased copy of a line (R312): its expiry, the bytes in which it is older than the home, and its sticky mark (R311). -/
structure Copy where
  holder : Holder
  line : Nat
  expiry : Nat
  stale : List (Nat × Byte)
  sticky : Bool := false
  deriving DecidableEq, Repr

/-- What the home keeps for a line (R313-R315). A line that has left the home level keeps the write completion time of its value alone. -/
structure LineInfo where
  line : Nat
  /-- the line is at the home level: in the L2 or the home cache of its home (R309) -/
  home : Bool := false
  lx : Nat := 0
  code : Nat := 3
  granted : Bool := false
  stored : Bool := false
  /-- the latest write completion time of the line's current bytes (R296) -/
  wct : Nat := 0
  deriving DecidableEq, Repr

/-- MOESI states of a latency core's copy (R316). -/
inductive Moesi where | m | o | e | s
  deriving DecidableEq, Repr

/-- A copy of a line in a latency core's private cache (R309, R316), with its sticky mark (R311). -/
structure PCopy where
  line : Nat
  core : Nat
  st : Moesi
  sticky : Bool := false
  deriving DecidableEq, Repr

/-- A translation held by a TLB (R337, R338): the leaf, its address, its level. -/
structure Tlb where
  holder : Holder
  asid : Nat
  vpage : Nat
  level : Nat
  leaf : W64
  ea : Nat
  expiry : Nat
  deriving DecidableEq, Repr

/-- An entry of a die's cache of non-leaf entries (R337, R338): the die by its holder, the address prefix that leads to the entry, its
level, the table that it names. (DEDUCED, unsafe: log entry 37.) -/
structure NLeaf where
  holder : Holder
  asid : Nat
  pre : Nat
  level : Nat
  base : Nat
  expiry : Nat
  deriving DecidableEq, Repr

/-- What a waiter waits for (R210, R218). -/
inductive WCond where
  | cond (c : WaitCond) (b : W64)
  | phase (tok : Nat)
  deriving DecidableEq, Repr

/-- A waiter (R211): the thread, the virtual and physical address, the width, the condition; not yet registered when the waiter
table and the overflow pool are full (R324). For a forme barrier object `forme` names the team and `pa` the offset. -/
structure Waiter where
  party : Party
  lane : Nat
  fam : W32
  va : W64
  pa : Nat
  n : Nat
  cond : WCond
  registered : Bool
  forme : Option Nat
  /-- selected while its family was saved (R211) -/
  selected : Bool := false
  deriving DecidableEq, Repr

/-- An access that its instruction has issued and that is performed by a later step (R292): a store, a load, or an RMW with its
operands. -/
inductive PKind where
  | store (data : List Byte) (rh : Retain)
  /-- memory type, lease class, retention hint -/
  | load (mt lc : Nat) (rh : Retain)
  | rmw (i : Instr) (b1 b2 : W64)
  deriving DecidableEq, Repr
structure Pend where
  party : Party
  lane : Nat
  va : W64
  pa : Nat
  n : Nat
  kind : PKind
  /-- the widest scope at which a release of its thread has found a store performed before its home has performed it (R295) -/
  reach : Nat := 0
  /-- the destination of a load whose thread has gone on (R300) -/
  out : Option (BitVec 10) := none
  deriving DecidableEq, Repr

/-- A store of the hardware itself (a record, an entry's bits) that its home holds back (R204, R392): bytes to write, or bits to OR into a
doubleword. -/
structure HwStore where
  pa : Nat
  data : List Byte
  set : Bool := false
  /-- the requester die of a walker's update (R325); none for a store of the scheduler or of the log -/
  die : Option Nat := none
  deriving DecidableEq, Repr

/-- A windowed store of an open window (R302, R401): the party that sent it, the packages that it travels to, and whether it has been
applied there. It is listed until its window closes. -/
structure WStore where
  party : Option Party
  pa : Nat
  data : List Byte
  window : Nat
  peers : W64
  applied : Bool
  deriving DecidableEq, Repr

/-- A replica of a page of another package (R399). -/
structure Replica where
  page : Nat
  expiry : Nat
  filled : Bool
  deriving DecidableEq, Repr

/-- A page record (R397) that differs from its reset value: REPL, LEXP in units of 2^16 ns, the package to which a hand-over runs, WRITER;
the PT of the latest switch; the windowed stores of each package in the last two periods of 100 µs, keyed by period and package, up to
period `wper`; the page of the own memory in which this package holds it as its WRITER; replica requests that wait for the switch (R400). -/
structure PageRec where
  page : Nat
  repl : W64 := 0#64
  lexp : Nat := 0
  ho : Option Nat := none
  writer : Nat
  lastHo : Option Nat := none
  wper : Nat := 0
  wcount : List ((Nat × Nat) × Nat) := []
  alloc : Option Nat := none
  asks : List Nat := []
  deriving DecidableEq, Repr

/-- A page move (R328). -/
structure Move where
  page : Nat
  dest : Nat
  copied : Bool
  ea : Nat
  /-- the later of the end of the copy and the translation horizon of the last store to the entry; stores to the entry that are still to be
  performed (R328 step 4) -/
  switchAt : Nat
  owed : Nat := 0
  /-- aborted (R329): the new page is freed at the translation horizon -/
  aborted : Bool := false
  deriving DecidableEq, Repr

/-- An entry of an imposition controller's table (R325): the page, a counter for each requester die. -/
structure Track where
  page : Nat
  cnt : List (Nat × Nat)
  deriving DecidableEq, Repr

/-! ### Links, network, host, reliability, proofs -/

/-- States of the link (R398). -/
inductive LinkState where | down | quiet | active | hold
  deriving DecidableEq, Repr

/-- The values of the link control block in force (R398), and the time servo (R408, R409). (PRESUMED, unsafe: log entry 5.) -/
structure Link where
  state : LinkState := .down
  pkg : Nat := 0
  domain : W64 := 1#64
  epoch : Nat := 0
  hothresh : Nat := 4096
  thold : Nat := 40
  w : Nat := 4000
  ptpdom : Nat := 0
  route : Nat := 0
  /-- REQ until it is done -/
  req : Nat := 0
  /-- PT has been set at the first transition to ACTIVE (R429) -/
  ptSet : Bool := false
  offset : Int := 0
  gm : Option Nat := none
  /-- PT since which the offset has stayed within THOLD div 2 (R409) -/
  within : Option Nat := none
  sublinks : List Bool := List.replicate 8 true
  /-- the role of each PTP port: the Ethernet ports, and the sub-links from 8 on (R408) -/
  roles : List PtpRole := List.replicate 16 .initializing
  /-- a quiesce runs: no windowed store is admitted (R398); a value of EPOCH that has been written and not yet judged (R429) -/
  quiescing : Bool := false
  epochReq : Option Nat := none
  deriving DecidableEq, Repr

/-- A network request accepted by an engine (R249, R250), or the answer to a peer's READ (`answer`; wr2 is then the source). Its packets
take the sequence numbers from `base` on (R407); `sent` holds, for a packet index, the transmissions, the PT of the latest, and whether
it is acknowledged. -/
structure NetReq where
  id : Nat
  fam : W32
  ptbr : W64
  sup : Bool
  wr : List W64
  base : Nat
  path : Nat
  answer : Bool := false
  sent : List (Nat × Nat × Nat × Bool) := []
  /-- bytes of a READ placed, by packet index; the release that the counter addition is (R307) -/
  placed : List Nat := []
  /-- bytes placed of packets that a home has held back part-way, by packet index -/
  parts : List (Nat × Nat) := []
  /-- the party that posted the request (R250) -/
  who : Option Party := none
  rh : Nat := 0
  wuntil : Nat := 0
  refusals : Nat := 0
  retryAt : Nat := 0
  /-- completed or failed: its slot waits for the counter addition -/
  done : Bool := false
  deriving DecidableEq, Repr

/-- A message being received (R405, R406): the peer, the message number, the buffer, the packets placed; the ring, its descriptor, the
completion counter. -/
structure NetMsg where
  peer : Nat
  msg : Nat
  space : W64
  buf : Nat
  len : Nat
  placed : List Nat := []
  /-- bytes placed of packets that a home has held back part-way, by packet index -/
  parts : List (Nat × Nat) := []
  rh : Nat := 0
  wuntil : Nat := 0
  caddr : W64 := 0#64
  cinc : Nat := 0
  ring : Option (Nat × Nat × Nat) := none
  refused : Bool := false
  deriving DecidableEq, Repr

/-- A counter addition that the engine still has to make (R250, R406): in completion order, as a release at `.sys`. `req`: the request
that it completes, with its family and whether it failed. -/
structure NetAdd where
  ptbr : W64
  sup : Bool
  caddr : W64
  inc : Nat
  rh : Nat
  wuntil : Nat
  req : Option (Nat × W32 × Bool)
  deriving DecidableEq, Repr

/-- A network engine (R404). `seen`: packets received from a peer; `ackd`: packets that a peer has acknowledged; `early`: packets
that wait, for earlier ones of in-order delivery or for a home. (PRESUMED, unsafe: log entry 5.) -/
structure NetEngine where
  peers : Nat := 0
  npeer : Nat := 0
  res : Nat := 0
  nres : Nat := 0
  rto : Nat := 100000
  slots : Nat := 256
  paths : Nat := 4
  retry : Nat := 7
  reqs : List NetReq := []
  nextId : Nat := 0
  seqs : List (Nat × Nat) := []
  rx : List NetMsg := []
  seen : List (Nat × Nat) := []
  ackd : List (Nat × Nat) := []
  early : List Packet := []
  adds : List NetAdd := []
  fails : List (W32 × Nat) := []
  ports : List Bool := [true, true]
  deriving DecidableEq, Repr

/-- What the device hands to a network port (R406, R407): engine and path of a packet; an acknowledgement; a refusal of a message. And to the
Mohosa link (R397, R399, R400): a replica request or another request forwarded to a page's WRITER, the answer to one, a switch. -/
inductive OutMsg where
  | packet (e path : Nat) (p : Packet)
  | ack (e peer : Nat) (m : AckMap)
  | refusal (e peer msg : Nat) (final : Bool)
  | ask (dest page pkg : Nat)
  | forward (dest : Nat) (r : RemoteReq)
  | reply (dest tag v : Nat) (poison : Bool)
  | handover (dest : Nat) (h : HandOver)
  deriving DecidableEq, Repr

/-- An answer to the host (R303, R304, R391): address, bytes, poison, and the PT from which it may be given. -/
structure HostAnswer where
  pa : Nat
  data : List Byte
  poison : Bool
  pt : Nat
  deriving DecidableEq, Repr

/-- A write-through store to host memory that the host has not completed (R391): its line, and whether an RMW's. -/
structure Ack where
  who : Acker
  line : Nat
  rmw : Bool
  deriving DecidableEq, Repr

/-- The host as the device sees it (R390-R392, R303). -/
structure HostIf where
  /-- write-through stores that the host has not completed -/
  acks : List Ack := []
  /-- snoops not yet answered: line, ownership asked, the bytes that the host writes once it owns the line -/
  snoops : List (Nat × Bool × List (Nat × Byte)) := []
  /-- 64-byte halves that the host holds: half, owned -/
  halves : List (Nat × Bool) := []
  /-- back-invalidate snoops sent -/
  binv : List Nat := []
  /-- committed decoders: port, base, length (R390) -/
  hdm : List (Nat × Nat × Nat) := []
  /-- answers given to the host, latest first -/
  answers : List HostAnswer := []
  deriving DecidableEq, Repr

/-- A proof-unit entry (R377): key thread, replica, interval, pc, count, signature. -/
structure ProofEntry where
  fam : W32
  tix : Nat
  rid : Nat
  q : Nat
  pc : W64
  count : Nat
  sig : W64
  deriving DecidableEq, Repr
/-- A once-operation request (R385): thread, replica, once count, compared operands; an atomic is performed in lane order. -/
structure OnceReq where
  fam : W32
  tix : Nat
  rid : Nat
  e : Nat
  pc : W64
  operands : List Nat
  deriving DecidableEq, Repr
/-- The key of a comparison beside its thread (R377, R385, R387): an interval, a once count, a segment of a queue's operation. -/
inductive ClockKey where
  | interval (q : Nat)
  | once (e : Nat)
  | seg (queue op seg : Nat)
  deriving DecidableEq, Repr
/-- A timeout clock (R380). -/
structure Clock where
  fam : W32
  tix : Nat
  key : ClockKey
  count : Nat
  deriving DecidableEq, Repr
/-- A repair in progress (R383): source and dissenting team. -/
structure RepairP where
  fam : W32
  src : Nat
  dst : Nat
  deriving DecidableEq, Repr
/-- A staged spool segment of a proofed family (R387): team key, queue, operation, segment, replica, writes with
their poison. -/
structure Segment where
  fam : W32
  num : Nat
  queue : Nat
  op : Nat
  seg : Nat
  rid : Nat
  writes : List (W64 × List Byte × Bool)
  /-- it has gone to the proof unit -/
  posted : Bool
  deriving DecidableEq, Repr

/-- Corrected errors of one structure and die in one second of PT (R414). -/
structure Fold where
  struct : Nat
  die : Nat
  n : Nat
  sec : Nat
  deriving DecidableEq, Repr

/-- A self-test drain (R367). -/
structure Drain where
  unit : Nat := 0
  last : Nat := 0
  busy : Bool := false
  deriving DecidableEq, Repr

/-- The SIMTOP entry of a C-die (R421). -/
structure SimTop where
  vfloor : Nat := 300
  vnom : Nat := 350
  dbud : Nat := 1000000
  deriving DecidableEq, Repr

/-- A signed section of the device table (R420, R421): whether it verifies, its errata (number, capability bit), and the records that it
carries. -/
structure RomSection where
  good : Bool := true
  errata : List (Nat × Option Nat) := []
  caps : Option (BitVec 9) := none
  harvest : Option (List Nat) := none
  lcHarvest : Option (List Nat) := none
  simtop : Option (List SimTop) := none
  defaults : Option (Nat × Nat × Nat) := none
  deriving DecidableEq, Repr

/-- Facts of this device (R420-R423, R427): its ROM section and errata sections, whether the boot firmware verifies, the SIMT and latency
cores whose self-test fails at bring-up, its package number, and the effective values of the records (log entry 4). -/
structure Dev where
  rom : RomSection := { caps := some 0x1FF#9, harvest := some [], lcHarvest := some [], simtop := some (List.replicate 24 {}),
                        defaults := some (1000, 1048576, 0) }
  errata : List RomSection := []
  flash : Bool := true
  scanFails : List Nat := []
  lcFails : List Nat := []
  site : Nat := 0
  caps : BitVec 9 := 0x1FF#9
  harvest : List Nat := []
  lcHarvest : List Nat := []
  simtop : List SimTop := List.replicate 24 {}
  rate : Nat := 1000
  cap : Nat := 1048576
  tdlim : Nat := 0
  deriving DecidableEq, Repr

/-- The sections that bring-up copies (R423): those that verify. -/
def Dev.sections (d : Dev) : List RomSection := d.rom :: d.errata.filter (·.good)
/-- The effective values of the records in the sections copied (R421). -/
def Dev.load (d : Dev) : Dev :=
  let ss := d.sections
  let last {α : Type} (l : List (Option α)) (old : α) : α := l.foldl (fun x y => y.getD x) old
  let dflt := last (ss.map (·.defaults)) (1000, 1048576, 0)
  { d with
    caps := (ss.filterMap (·.caps)).foldl (· &&& ·) 0x1FF#9
    harvest := (ss.filterMap (·.harvest)).flatten.eraseDups, lcHarvest := (ss.filterMap (·.lcHarvest)).flatten.eraseDups
    simtop := last (ss.map (·.simtop)) (List.replicate 24 {}), rate := dflt.1, cap := dflt.2.1, tdlim := dflt.2.2 }
/-- The SIMTOP entry of a C-die. -/
def Dev.top (d : Dev) (die : Nat) : SimTop := d.simtop.getD die {}

/-- Choices that the hardware makes (log entry 6): whether loads, stores, atomics and releases are performed at once or by a later step;
whether a guard is read late; which of two matching translations is used; whether copies and translations have been evicted. -/
structure Choices where
  deferLoads : Bool := false
  deferStores : Bool := false
  deferAtomics : Bool := false
  deferReleases : Bool := false
  guardLate : Bool := false
  tlbOlder : Bool := false
  evict : Bool := false
  deriving DecidableEq, Repr

/-- An uncorrectable error that the protection of R410 finds: in a register of a lane, an 8-byte word of forme, a tile, the proof buffer of a
team, or a latency core; in a granule of a home (STRUCT 6 L2, 7 H-die home cache, 8 tether engine), in a latency core's copy of a line, in
a tether engine's entry of a waiter, or in a store that a latency core has issued (the `k`-th of its store buffer). Poison that the host
returns with a line (R411). An error that is corrected (R414). -/
inductive Upset where
  | reg (p : Party) (lane r : Nat)
  | forme (tid off : Nat)
  | tile (tid : Nat)
  | proofBuffer (tid : Nat)
  | granule (pa struct : Nat)
  | copy (core line : Nat)
  | waiter (k : Nat)
  | store (core k : Nat)
  | hostLine (line : Nat)
  | corrected (struct die : Nat)
  deriving DecidableEq, Repr

/-- What the next step is to be, when nothing is owed: an issue by a run, an event, or time passing (log entry 6). -/
inductive Plan where
  | issue (p : Party) (lane : Nat)
  | event (i : Instr)
  | elapse (ns : Nat)
  | choose (c : Choices)
  | upset (u : Upset)
  deriving DecidableEq, Repr

/-! ### The state -/

/-- The whole machine. -/
structure State where
  pt : Nat := 0
  packint : W32 := 2000#32
  capbase : W64 := BitVec.ofNat 64 Config.capbase
  admode : Bool := false
  finj : W64 := 0#64
  finjSeen : Nat := 0
  tdlim : W32 := 0#32
  drainint : W32 := 600#32
  dev : Dev := {}
  /-- bring-up has stopped at a section or firmware that does not verify: only the status page of BAR0 responds (R423, R427) -/
  stopped : Bool := false
  lcs : List LCore
  cores : List SCore := []
  dies : List Die := List.replicate 28 {}
  fams : List Family := []
  gens : List (Nat × Nat) := []
  teams : List Team := []
  nextTid : Nat := 0
  packs : List Pack := []
  /-- bytes that differ from what an unlisted address reads as, in ascending order (log entry 1) -/
  mem : List Host.Cell := []
  mpoison : List Nat := []
  lines : List LineInfo := []
  copies : List Copy := []
  tlbs : List Tlb := []
  nleaf : List NLeaf := []
  /-- what latency cores hold, the latest used first -/
  dir : List PCopy := []
  /-- EVH of the sets of the home level (R315) -/
  evh : List (Nat × Nat) := []
  tether : List (Nat × Nat) := []
  waiters : List Waiter := []
  ovf : List (Nat × Nat) := []
  pend : List Pend := []
  /-- stores of the hardware's own that wait for their home, in order (R204, R392) -/
  hwq : List HwStore := []
  srec : List Nat := []
  moves : List Move := []
  track : List Track := []
  /-- pages that a move has switched: old page, new page (R328) -/
  moved : List (Nat × Nat) := []
  wstores : List WStore := []
  /-- stores of this package's own parties to each page in the period of 100 µs `storePer` (R400) -/
  ownStores : List ((Nat × Nat) × Nat) := []
  storePer : Nat := 0
  replicas : List Replica := []
  pages : List PageRec := []
  link : Link := {}
  nets : List NetEngine := List.replicate 4 {}
  host : HostIf := {}
  /-- records that wait for the error log; corrected errors that no record counts yet -/
  errq : List (List W64) := []
  folds : List Fold := []
  /-- fault records that wait for their queues, in the order in which they were raised (R281) -/
  frecs : List FRec := []
  proofs : List ProofEntry := []
  onces : List OnceReq := []
  clocks : List Clock := []
  repairs : List RepairP := []
  /-- repairs that a comparison has decided, and the keys of it whose commit must be finished first (R383) -/
  dueRepairs : List (RepairP × List (Nat × ClockKey)) := []
  segs : List Segment := []
  drain : Drain := {}
  /-- messages handed to the network ports, oldest first (R406, R407) -/
  outbox : List OutMsg := []
  -- the model's own fields (log entries 6, 7, 8)
  agenda : List Instr := []
  schedule : List Plan := []
  cur : Party := .lc 0
  curLane : Nat := 0
  cycles : Nat := 0
  turn : Nat := 0
  nsPerStep : Nat := 1
  cycPerStep : Nat := 1
  deferLoads : Bool := false
  deferStores : Bool := false
  deferAtomics : Bool := false
  deferReleases : Bool := false
  guardLate : Bool := false
  tlbOlder : Bool := false
  evict : Bool := false
  fresh : Nat := 0
  /-- a byte beyond the memory of its die that this step has accessed: the step ends in `Fault.absentMemory` -/
  absent : Option Nat := none
  deriving DecidableEq, Repr

/-- Why the machine stops. -/
inductive Fault where
  /-- raised by every access (fetch, load, store, walk, engine) to a physical address whose OFFSET lies beyond the memory that R4
  gives its die: the spec gives no such memory and no outcome. Safe: the machine stops where hardware may go on. -/
  | absentMemory (pa : Nat)
  deriving DecidableEq, Repr

/-- Why the model gives no meaning. -/
inductive Refusal where
  /-- raised by an arm of `Machine/Dispatch.lean` whose instruction has no meaning yet. Safe: nothing follows from it. -/
  | notModelled (mnemonic : String)
  deriving DecidableEq, Repr

/-- A latency core as it enters its first header (R427 step 9, R428): supervisor mode, v0:v1 = `s.capbase`. -/
def LCore.boot (capbase pc : W64) : LCore :=
  { grp := { live := 1#64, threads := [{ pc := pc }], regs := [(0, { sh := .u (lo32 capbase) }), (1, { sh := .u (hi32 capbase) })] },
    held := false }

/-- The machine at the end of bring-up (R427 step 9): the state after reset.
(DESIGN CHOICE, unsafe: log entry 2.) (DESIGN CHOICE, unsafe in part: log entry 4.) (DESIGN CHOICE, unsafe: log entry 35.) -/
def State.reset : State :=
  { lcs := LCore.boot (BitVec.ofNat 64 Config.capbase) (BitVec.ofNat 64 Config.loaderEntry) :: List.replicate 95 {} }

end Sys2Proof.Machine
end

