-- ==== Sys2Proof/Machine/Float.lean ====
section
/-!
DEFINITION. Number formats and arithmetic (R95-R117): values as exact dyadic numbers, one rounding, the special cases and flags of
every operation, the special functions inside their bounds, MX quantisation.
-/

namespace Sys2Proof.Machine

/-! ### Flags, at their bits of `s.fcsr` (R28) -/

abbrev Flags := W32
def fNV : Flags := 1#32
def fDZ : Flags := 2#32
def fOF : Flags := 4#32
def fUF : Flags := 8#32
def fNX : Flags := 16#32
def fSAT : Flags := 64#32
def fNANIN : Flags := 128#32

/-! ### Formats (R97, R98) -/

/-- A format: exponent and mantissa bits, bias, and whether the top exponent holds infinity (`ieee`), a NaN alone (`e4m3`), or
finite values only. -/
inductive Top where | ieee | e4m3 | finite
  deriving DecidableEq, Repr
structure Fmt where
  eb : Nat
  mb : Nat
  bias : Nat
  top : Top
  deriving DecidableEq, Repr

def F32 : Fmt := ⟨8, 23, 127, .ieee⟩
def F64 : Fmt := ⟨11, 52, 1023, .ieee⟩
def F16 : Fmt := ⟨5, 10, 15, .ieee⟩
def BF16 : Fmt := ⟨8, 7, 127, .ieee⟩
def E5M2 : Fmt := ⟨5, 2, 15, .ieee⟩
def E4M3 : Fmt := ⟨4, 3, 7, .e4m3⟩
def E2M1 : Fmt := ⟨2, 1, 1, .finite⟩

def Fmt.bits (f : Fmt) : Nat := 1 + f.eb + f.mb
def Fmt.emask (f : Fmt) : Nat := 2 ^ f.eb - 1
def Fmt.signBit (f : Fmt) (neg : Bool) : Nat := if neg then 2 ^ (f.eb + f.mb) else 0
def Fmt.inf (f : Fmt) (neg : Bool) : Nat := f.signBit neg + f.emask * 2 ^ f.mb
/-- The canonical NaN (R98): positive, top mantissa bit; 0x7F in E4M3; 0x7E in E5M2. -/
def Fmt.nan (f : Fmt) : Nat :=
  match f.top with
  | .e4m3 => f.emask * 2 ^ f.mb + (2 ^ f.mb - 1)
  | _ => f.emask * 2 ^ f.mb + 2 ^ (f.mb - 1)
/-- The largest finite value, as a pattern. -/
def Fmt.max (f : Fmt) (neg : Bool) : Nat :=
  f.signBit neg + match f.top with
    | .ieee => f.emask * 2 ^ f.mb - 1
    | .e4m3 => f.emask * 2 ^ f.mb + (2 ^ f.mb - 2)
    | .finite => f.emask * 2 ^ f.mb + (2 ^ f.mb - 1)

/-- A decoded value: a NaN (signalling or not), an infinity, or (−1)^neg × m × 2^e. -/
inductive FV where
  | nan (sig : Bool)
  | inf (neg : Bool)
  | fin (neg : Bool) (m : Nat) (e : Int)
  deriving DecidableEq, Repr

/-- The value of a pattern (R97, R98). -/
def Fmt.dec (f : Fmt) (x : Nat) : FV :=
  let neg := x / 2 ^ (f.eb + f.mb) % 2 == 1
  let e := x / 2 ^ f.mb % 2 ^ f.eb
  let m := x % 2 ^ f.mb
  let fin : FV := .fin neg (if e = 0 then m else 2 ^ f.mb + m) ((if e = 0 then 1 else (e : Int)) - f.bias - f.mb)
  if e = f.emask then
    match f.top with
    | .ieee => if m = 0 then .inf neg else .nan (f.bits > 8 && m / 2 ^ (f.mb - 1) == 0)
    | .e4m3 => if m = 2 ^ f.mb - 1 then .nan false else fin
    | .finite => fin
  else fin

/-- A subnormal operand reads as zero of its sign under FZ (R105). -/
def FV.flush (f : Fmt) (fz : Bool) : FV → FV
  | .fin neg m e => if fz && m < 2 ^ f.mb then .fin neg 0 e else .fin neg m e
  | v => v
def Fmt.decZ (f : Fmt) (fz : Bool) (x : Nat) : FV := (f.dec x).flush f fz

def FV.isNan : FV → Bool | .nan _ => true | _ => false
def FV.isSnan : FV → Bool | .nan s => s | _ => false
def FV.isZero : FV → Bool | .fin _ m _ => m == 0 | _ => false
def FV.isInf : FV → Bool | .inf _ => true | _ => false
def FV.neg : FV → Bool | .nan _ => false | .inf n => n | .fin n _ _ => n
def FV.negate : FV → FV | .nan s => .nan s | .inf n => .inf (!n) | .fin n m e => .fin (!n) m e

/-! ### Rounding (R101, R102, R105) -/

/-- The number of bits of `m`. -/
def bitLen (m : Nat) : Nat := if m = 0 then 0 else Nat.log2 m + 1

/-- Rounds m × 2^e (plus something below 2^e when `st`) to a multiple of 2^q: the multiple, and whether it is inexact. -/
def roundAt (rm : Nat) (neg : Bool) (m : Nat) (e : Int) (st : Bool) (q : Int) : Nat × Bool :=
  if q ≤ e then (m * 2 ^ (e - q).toNat, st)
  else
    -- beyond two bits more than `m` has, the shift changes neither the quotient 0 nor the order against one half
    let sh := Nat.min (q - e).toNat (bitLen m + 2)
    let r := m / 2 ^ sh
    let rem := m % 2 ^ sh
    let half := 2 ^ (sh - 1)
    let inexact := rem != 0 || st
    let above := rem > half || (rem == half && st)
    let tie := rem == half && !st
    let up := match rm with
      | 0 => above || (tie && r % 2 == 1)
      | 1 => false
      | 2 => neg && inexact
      | 3 => !neg && inexact
      | _ => above || tie
    (if up then r + 1 else r, inexact)

/-- The overflow result (R102): saturation gives ±max with SAT and NX. -/
def Fmt.over (f : Fmt) (rm : Nat) (sat neg : Bool) : Nat × Flags :=
  if sat then (f.max neg, fSAT ||| fNX)
  else match f.top with
    | .finite => (f.max neg, fSAT)
    | t =>
      let toMax := rm == 1 || (rm == 2 && !neg) || (rm == 3 && neg)
      if toMax then (f.max neg, fOF ||| fNX)
      else match t with
        | .e4m3 => (f.nan, fOF ||| fNX ||| fNV)
        | _ => (f.inf neg, fOF ||| fNX)

/-- Delivers a nonzero exact value m × 2^e (plus a sticky part) in a format (R101, R102, R105). -/
def Fmt.round (f : Fmt) (rm : Nat) (fz sat neg : Bool) (m : Nat) (e : Int) (st : Bool) : Nat × Flags :=
  if m = 0 && !st then (f.signBit neg, 0#32)
  else
    -- the part below 2^e stands as one low bit: callers give at least two bits beyond the format's
    let (m, e) := if st then (2 * m + 1, e - 1) else (m, e)
    let q : Int := (bitLen m : Int) - 1 + e - f.mb
    let (r, ix) := roundAt rm neg m e false q
    let (r, q) := if r = 2 ^ (f.mb + 1) then (2 ^ f.mb, q + 1) else (r, q)
    let ex := q + f.mb                       -- exponent after unbounded rounding
    let emin : Int := 1 - f.bias
    if ex < emin then
      if fz then (f.signBit neg, fUF ||| fNX)
      else
        let (r', ix') := roundAt rm neg m e false (emin - f.mb)
        (f.signBit neg + r', if ix' then fUF ||| fNX else 0#32)
    else
      let field := (ex + f.bias).toNat
      let pat := field * 2 ^ f.mb + (r - 2 ^ f.mb)
      if pat > f.max false then f.over rm sat neg
      else (f.signBit neg + pat, if ix then fNX else 0#32)

/-! ### Dyadic sums -/

/-- An exact number m × 2^e. -/
structure Dy where
  m : Int
  e : Int
  deriving DecidableEq, Repr
def Dy.add (a b : Dy) : Dy :=
  if a.m = 0 then b else if b.m = 0 then a
  else
    let e := min a.e b.e
    ⟨a.m * 2 ^ (a.e - e).toNat + b.m * 2 ^ (b.e - e).toNat, e⟩
def Dy.mul (a b : Dy) : Dy := ⟨a.m * b.m, a.e + b.e⟩
def Dy.scale (a : Dy) (k : Int) : Dy := ⟨a.m, a.e + k⟩
def FV.dy : FV → Dy | .fin n m e => ⟨if n then -(m : Int) else m, e⟩ | _ => ⟨0, 0⟩
/-- a < b. -/
def Dy.lt (a b : Dy) : Bool := (a.add ⟨-b.m, b.e⟩).m < 0
def Fmt.roundDy (f : Fmt) (rm : Nat) (fz sat : Bool) (x : Dy) : Nat × Flags :=
  f.round rm fz sat (x.m < 0) x.m.natAbs x.e false

/-! ### Arithmetic (R157) -/

def nanFlags (vs : List FV) : Flags := if vs.any FV.isSnan then fNV else 0#32

/-- A sum of two values, one of them perhaps a product: signs of exact zeros follow R106. -/
def Fmt.sum (f : Fmt) (rm : Nat) (fz : Bool) (a b : FV) : Nat × Flags :=
  match a, b with
  | .inf n, .inf k => if n == k then (f.inf n, 0#32) else (f.nan, fNV)
  | .inf n, _ => (f.inf n, 0#32)
  | _, .inf k => (f.inf k, 0#32)
  | a, b =>
    let s := a.dy.add b.dy
    if s.m = 0 then
      (f.signBit (if a.isZero && b.isZero && a.neg == b.neg then a.neg else rm == 2), 0#32)
    else f.roundDy rm fz false s

/-- The exact product of two values that are no NaN; `none` for 0 × ∞. -/
def FV.times (a b : FV) : Option FV :=
  match a, b with
  | .fin n m e, .fin k p g => some (.fin (n != k) (m * p) (e + g))
  | .inf n, .fin k m _ => if m = 0 then none else some (.inf (n != k))
  | .fin n m _, .inf k => if m = 0 then none else some (.inf (n != k))
  | .inf n, .inf k => some (.inf (n != k))
  | _, _ => none

def Fmt.add (f : Fmt) (rm : Nat) (fz : Bool) (x y : Nat) : Nat × Flags :=
  let a := f.decZ fz x
  let b := f.decZ fz y
  if a.isNan || b.isNan then (f.nan, nanFlags [a, b]) else f.sum rm fz a b
def Fmt.sub (f : Fmt) (rm : Nat) (fz : Bool) (x y : Nat) : Nat × Flags :=
  let a := f.decZ fz x
  let b := f.decZ fz y
  if a.isNan || b.isNan then (f.nan, nanFlags [a, b]) else f.sum rm fz a b.negate
def Fmt.mul (f : Fmt) (rm : Nat) (fz : Bool) (x y : Nat) : Nat × Flags :=
  let a := f.decZ fz x
  let b := f.decZ fz y
  if a.isNan || b.isNan then (f.nan, nanFlags [a, b])
  else match a.times b with
    | none => (f.nan, fNV)
    | some (.inf n) => (f.inf n, 0#32)
    | some (.fin n m e) => f.round rm fz false n m e false
    | some (.nan _) => (f.nan, 0#32)

/-- ±(a × b) ± c, rounded once (R157): 0 × ∞ is invalid whatever c holds. -/
def Fmt.fma (f : Fmt) (rm : Nat) (fz negP negC : Bool) (x y z : Nat) : Nat × Flags :=
  let a := f.decZ fz x
  let b := f.decZ fz y
  let c := f.decZ fz z
  let zeroInf := (a.isZero && b.isInf) || (a.isInf && b.isZero)
  if a.isNan || b.isNan || c.isNan then (f.nan, nanFlags [a, b, c] ||| if zeroInf then fNV else 0#32)
  else match a.times b with
    | none => (f.nan, fNV)
    | some p => f.sum rm fz (if negP then p.negate else p) (if negC then c.negate else c)

def Fmt.div (f : Fmt) (rm : Nat) (fz : Bool) (x y : Nat) : Nat × Flags :=
  let a := f.decZ fz x
  let b := f.decZ fz y
  if a.isNan || b.isNan then (f.nan, nanFlags [a, b])
  else match a, b with
    | .inf _, .inf _ => (f.nan, fNV)
    | .inf n, .fin k _ _ => (f.inf (n != k), 0#32)
    | .fin n _ _, .inf k => (f.signBit (n != k), 0#32)
    | .fin n m e, .fin k p g =>
      let sg := n != k
      if p = 0 then (if m = 0 then (f.nan, fNV) else (f.inf sg, fDZ))
      else if m = 0 then (f.signBit sg, 0#32)
      else
        let sh := 2 * f.mb + 8 + bitLen p
        let num := m * 2 ^ sh
        f.round rm fz false sg (num / p) (e - g - sh) (num % p != 0)
    | _, _ => (f.nan, 0#32)

/-- The integer square root of a number of at most 2k bits, bit by bit. -/
def isqrt (n : Nat) : Nat → Nat → Nat
  | 0, r => r
  | k + 1, r => isqrt n k (let t := r + 2 ^ k; if t * t ≤ n then t else r)
def natSqrt (n : Nat) : Nat := isqrt n (bitLen n / 2 + 1) 0

/-- The square root of m × 2^e to at least `p` bits: mantissa, exponent, inexact. -/
def sqrtDy (m : Nat) (e : Int) (p : Nat) : Nat × Int × Bool :=
  let k := 2 * p
  let odd := (e % 2).toNat
  let n := m * 2 ^ (k + odd)
  let r := natSqrt n
  (r, (e - odd - k) / 2, r * r != n)

def Fmt.sqrt (f : Fmt) (rm : Nat) (fz : Bool) (x : Nat) : Nat × Flags :=
  match f.decZ fz x with
  | .nan s => (f.nan, if s then fNV else 0#32)
  | .inf n => if n then (f.nan, fNV) else (f.inf false, 0#32)
  | .fin n m e =>
    if m = 0 then (f.signBit n, 0#32)
    else if n then (f.nan, fNV)
    else let (r, g, ix) := sqrtDy m e (f.mb + 4); f.round rm fz false false r g ix

/-- `FRND` (R158): never OF or UF; a zero result carries the sign of a. -/
def Fmt.rnd (f : Fmt) (rm : Nat) (fz : Bool) (x : Nat) : Nat × Flags :=
  match f.decZ fz x with
  | .nan s => (f.nan, if s then fNV else 0#32)
  | .inf n => (f.inf n, 0#32)
  | .fin n m e =>
    let (r, ix) := roundAt rm n m e false 0
    if m = 0 || r = 0 then (f.signBit n, if ix && m != 0 then fNX else 0#32)
    else if e ≥ 0 then ((f.round rm fz false n m e false).1, 0#32)
    else ((f.round rm fz false n r 0 false).1, if ix then fNX else 0#32)

/-- `FSCALE` (R158). -/
def Fmt.scale (f : Fmt) (rm : Nat) (fz : Bool) (x : Nat) (n : Int) : Nat × Flags :=
  match f.decZ fz x with
  | .nan s => (f.nan, if s then fNV else 0#32)
  | .inf k => (f.inf k, 0#32)
  | .fin k m e => if m = 0 then (f.signBit k, 0#32) else f.round rm fz false k m (e + n) false

/-- The pattern of a value, flushed under FZ. -/
def Fmt.flushPat (f : Fmt) (fz : Bool) (x : Nat) : Nat :=
  match f.decZ fz x with | .fin n m _ => if m = 0 then f.signBit n else x | _ => x

/-- a below b, with −0 below +0 when `zs`; neither is a NaN. -/
def FV.below (zs : Bool) (a b : FV) : Bool :=
  match a, b with
  | .inf n, .inf k => n && !k
  | .inf n, _ => n
  | _, .inf k => !k
  | a, b => if a.isZero && b.isZero then zs && a.neg && !b.neg else a.dy.lt b.dy

/-- `FMIN` and `FMAX` (R159). -/
def Fmt.minmax (f : Fmt) (mx fz : Bool) (x y : Nat) : Nat × Flags :=
  let a := f.decZ fz x
  let b := f.decZ fz y
  let fl := nanFlags [a, b]
  let px := f.flushPat fz x
  let py := f.flushPat fz y
  if a.isNan && b.isNan then (f.nan, fl)
  else if a.isNan then (py, fl)
  else if b.isNan then (px, fl)
  else if mx then (if a.below true b then py else px, fl)
  else (if b.below true a then py else px, fl)

/-- `FSGN` (R160). -/
def Fmt.sgn (f : Fmt) (mode : Nat) (x y : Nat) : Nat :=
  let sb := y / 2 ^ (f.eb + f.mb) % 2 == 1
  let sa := x / 2 ^ (f.eb + f.mb) % 2 == 1
  if (f.dec x).isNan then f.nan
  else x % 2 ^ (f.eb + f.mb) + f.signBit (match mode with | 0 => sb | 1 => !sb | _ => sa != sb)

/-- A relation of `FCMP` (R161), and its flags. -/
def Fmt.cmp (f : Fmt) (rel : Nat) (fz : Bool) (x y : Nat) : Bool × Flags :=
  let a := f.decZ fz x
  let b := f.decZ fz y
  let un := a.isNan || b.isNan
  let lt := !un && a.below false b
  let gt := !un && b.below false a
  let eq := !un && !lt && !gt
  let r := match rel with
    | 0 => eq | 1 => un || !eq | 2 => lt | 3 => lt || eq | 4 => gt | 5 => gt || eq | 6 => un | _ => !un
  let ordered := 2 ≤ rel && rel ≤ 5
  (r, if (ordered && un) || a.isSnan || b.isSnan then fNV else 0#32)

/-- `FCLASS` (R161). -/
def Fmt.cls (f : Fmt) (x : Nat) : Nat :=
  match f.dec x with
  | .nan s => if s then 2 ^ 8 else 2 ^ 9
  | .inf n => if n then 1 else 2 ^ 7
  | .fin n m _ =>
    if m = 0 then (if n then 2 ^ 3 else 2 ^ 4)
    else if m < 2 ^ f.mb then (if n then 2 ^ 2 else 2 ^ 5)
    else if n then 2 else 2 ^ 6

/-- `FDOT2` (R117, R162): two BF16 products and a binary32 addend, rounded once. -/
def dot2 (rm : Nat) (fz : Bool) (a0 b0 a1 b1 c : Nat) : Nat × Flags :=
  let vs := [BF16.decZ fz a0, BF16.decZ fz b0, BF16.decZ fz a1, BF16.decZ fz b1, F32.decZ fz c]
  match vs with
  | [a0, b0, a1, b1, c] =>
    let bad := (a0.isZero && b0.isInf) || (a0.isInf && b0.isZero) || (a1.isZero && b1.isInf) || (a1.isInf && b1.isZero)
    -- the terms that are no NaN: an ∞ − ∞ among them raises NV beside a quiet NaN (R157)
    let terms := [a0.times b0, a1.times b1, some c].filterMap fun x => x.bind fun y => if y.isNan then none else some y
    let apart := terms.any (fun x => x.isInf && x.neg) && terms.any fun x => x.isInf && !x.neg
    if vs.any FV.isNan then (F32.nan, nanFlags vs ||| if bad || apart then fNV else 0#32)
    else match a0.times b0, a1.times b1 with
      | some p, some q =>
        let infs := [p, q, c].filter FV.isInf
        if infs.any (fun x => x.neg) && infs.any (fun x => !x.neg) then (F32.nan, fNV)
        else match infs with
          | i :: _ => (F32.inf i.neg, 0#32)
          | [] =>
            let s := (p.dy.add q.dy).add c.dy
            if s.m = 0 then
              let allZ := p.isZero && q.isZero && c.isZero
              (F32.signBit (if allZ && p.neg == q.neg && q.neg == c.neg then p.neg else rm == 2), 0#32)
            else F32.roundDy rm fz false s
      | _, _ => (F32.nan, fNV)
  | _ => (F32.nan, 0#32)

/-! ### Conversions (R107, R108) -/

/-- A conversion between float formats (R107). FZ applies to operands and results of the four vector formats. -/
def convFF (src dst : Fmt) (rm : Nat) (fz sat : Bool) (x : Nat) : Nat × Flags :=
  let vecS := src.bits ≥ 16
  let vecD := dst.bits ≥ 16
  match src.decZ (fz && vecS) x with
  | .nan s => (dst.nan, if s then fNV else 0#32)
  | .inf n => match dst.top with
    | .e4m3 => if sat then (dst.max n, fSAT) else (dst.nan, fNV)
    | .finite => (dst.max n, fSAT)
    | .ieee => (dst.inf n, 0#32)
  | .fin n m e => if m = 0 then (dst.signBit n, 0#32) else dst.round rm (fz && vecD) sat n m e false

/-- `CVTFI` (R108): the integer modulo 2^w. -/
def convFI (src : Fmt) (w : Nat) (signed : Bool) (rm : Nat) (fz : Bool) (x : Nat) : Nat × Flags :=
  let lo : Int := if signed then -(2 ^ (w - 1)) else 0
  let hi : Int := if signed then 2 ^ (w - 1) - 1 else 2 ^ w - 1
  let out (i : Int) : Nat := (i % 2 ^ w).toNat
  match src.decZ fz x with
  | .nan _ => (0, fNV)
  | .inf n => (out (if n then lo else hi), fNV)
  | .fin n m e =>
    let (r, ix) := roundAt rm n m e false 0
    let i : Int := if n then -(r : Int) else r
    if i > hi then (out hi, fNV) else if i < lo then (out lo, fNV) else (out i, if ix && m != 0 then fNX else 0#32)

/-- `CVTIF` (R108). -/
def convIF (dst : Fmt) (w : Nat) (signed : Bool) (rm : Nat) (fz : Bool) (x : Nat) : Nat × Flags :=
  let i : Int := if signed && x ≥ 2 ^ (w - 1) then (x : Int) - 2 ^ w else x
  if i = 0 then (0, 0#32) else dst.round rm fz false (i < 0) i.natAbs 0 false

/-! ### Special functions (R163, R164) -/

/-- Fixed point with `P` fraction bits. -/
def fxP : Nat := 64
def fxMul (a b : Nat) : Nat := a * b / 2 ^ fxP
/-- 2^f for f = x / 2^64 in [0, 1), times 2^64: a product of repeated square roots of two, one for each fraction bit. -/
def exp2Frac (x : Nat) : Nat :=
  ((List.range 64).foldl (fun (acc : Nat × Nat) k =>
    let c := natSqrt (acc.2 * 2 ^ fxP)
    (if x.testBit (63 - k) then fxMul acc.1 c else acc.1, c)) (2 ^ fxP, 2 ^ (fxP + 1))).1
/-- log2 of y / 2^64 in [1, 2), times 2^64: by repeated squaring. -/
def log2Frac (y : Nat) : Nat :=
  ((List.range 64).foldl (fun (acc : Nat × Nat) _ =>
    let sq := fxMul acc.2 acc.2
    if sq ≥ 2 ^ (fxP + 1) then (2 * acc.1 + 1, sq / 2) else (2 * acc.1, sq)) (0, y)).1
/-- π and log2 e, times 2^64. -/
def fxPi : Nat := 57952155664616982739
def fxLog2E : Nat := 26613026195688644984
/-- sin(π u) for u = x / 2^64 in [0, 1/2], times 2^64: the Taylor series. -/
def sinPi (x : Nat) : Nat :=
  let y := fxMul fxPi x
  let y2 := fxMul y y
  let r := (List.range 14).foldl (fun (acc : Int × Nat) k =>
    let t := fxMul acc.2 y2 / ((2 * k + 2) * (2 * k + 3))
    (if k % 2 = 0 then acc.1 - t else acc.1 + t, t)) ((y : Int), y)
  r.1.toNat

/-- The choice that the device makes among the results of a bound (log entry 10): a pattern of the format when it lies within `tol`
of the reference, else the reference itself, rounded. -/
def pickWithin (fn : Nat) (neg : Bool) (x : Nat) (ref tol : Dy) : Nat × Flags :=
  let c := Config.specialChoice fn 0 x % 2 ^ 32
  let near := (F32.roundDy 0 false false ref).1
  let r := match F32.dec c with
    | .fin n m e =>
      let d := Dy.add ⟨if n then -(m : Int) else m, e⟩ ⟨-ref.m, ref.e⟩
      if !(Dy.lt tol ⟨d.m.natAbs, d.e⟩) then c else near
    | _ => near
  match F32.dec r with
  | .fin n m _ => (if m = 0 && (fn = 4 || fn = 5) then F32.signBit (fn == 4 && neg) else F32.signBit n + r % 2 ^ 31,
      if m < 2 ^ 23 then fUF ||| fNX else fNX)
  | _ => (r, fOF ||| fNX)

/-- One unit in the last place of binary32 near a value. -/
def ulp32 (r : Dy) : Dy := ⟨1, max ((bitLen r.m.natAbs : Int) - 1 + r.e - 23) (-149)⟩

/-- The reference value and the tolerance of a special function at a finite nonzero argument that is no exact case (R164): function
0 `FRCP`, 1 `FRSQ`, 2 `FEXP2`, 3 `FLOG2`, 4 `FSIN`, 5 `FCOS`, 6 `FTANH`. The references carry errors below 2^-40 of the bound.
(DESIGN CHOICE, safe in part: log entry 10.) -/
def specialRef (fn : Nat) (neg : Bool) (m : Nat) (e : Int) : Dy × Dy :=
  let times (d : Dy) (k : Int) : Dy := ⟨k * d.m, d.e⟩
  let ulps (r : Dy) (k : Int) : Dy × Dy := (r, times (ulp32 r) k)
  let sgn (n : Bool) (r : Dy) : Dy := if n then ⟨-r.m, r.e⟩ else r
  -- x as fixed point: floor(|x| × 2^64)
  let fx : Nat := if e + 64 ≥ 0 then m * 2 ^ (e + 64).toNat else m / 2 ^ (-(e + 64)).toNat
  match fn with
  | 0 => ulps (sgn neg ⟨(2 ^ 120 / m : Nat), -120 - e⟩) 1
  | 1 => let (r, g, _) := sqrtDy m e 100; ulps ⟨(2 ^ 260 / r : Nat), -260 - g⟩ 1
  | 2 =>
    let i : Int := fx / 2 ^ 64
    let fr := fx % 2 ^ 64
    if neg then
      (if fr = 0 then ulps ⟨1, -i⟩ 2 else ulps ⟨(exp2Frac (2 ^ 64 - fr) : Nat), -i - 1 - 64⟩ 2)
    else ulps ⟨(exp2Frac fr : Nat), i - 64⟩ 2
  | 3 =>
    let b := bitLen m
    let ip : Int := (b : Int) - 1 + e
    let y := m * 2 ^ (65 - b)
    let r : Dy := Dy.add ⟨ip, 0⟩ ⟨(log2Frac y : Nat), -64⟩
    let inside := ip == 0 || ip == -1 || (ip == 1 && m == 2 ^ (b - 1))
    if inside then (r, ⟨1, -22⟩) else ulps r 2
  | 4 =>
    let t := fx % 2 ^ 65                       -- |x| mod 2
    let (t, flip) := if t ≥ 2 ^ 64 then (t - 2 ^ 64, true) else (t, false)
    let u := if t > 2 ^ 63 then 2 ^ 64 - t else t
    (sgn (neg != flip) ⟨(sinPi u : Nat), -64⟩, ⟨1, -22⟩)
  | 5 =>
    let t := (fx + 2 ^ 63) % 2 ^ 65            -- cos(πx) = sin(π(x + 1/2))
    let (t, flip) := if t ≥ 2 ^ 64 then (t - 2 ^ 64, true) else (t, false)
    let u := if t > 2 ^ 63 then 2 ^ 64 - t else t
    (sgn flip ⟨(sinPi u : Nat), -64⟩, ⟨1, -22⟩)
  | _ =>
    let z := fxMul (2 * fx) fxLog2E             -- e^(-2x) = 2^(-z)
    let i := z / 2 ^ 64
    let fr := z % 2 ^ 64
    let ex := if fr = 0 then 2 ^ 64 / 2 ^ i else exp2Frac (2 ^ 64 - fr) / 2 ^ (i + 1)
    let r := sgn neg ⟨((2 ^ 64 - ex) * 2 ^ 64 / (2 ^ 64 + ex) : Nat), -64⟩
    let u := times (ulp32 r) 2
    (r, if u.lt ⟨1, -24⟩ then ⟨1, -24⟩ else u)

/-- m is a power of two; x is a multiple of 1/2. -/
def isPow2 (m : Nat) : Bool := m != 0 && 2 ^ Nat.log2 m == m
def halfMult (m : Nat) (e : Int) : Bool := e ≥ -1 || m % 2 ^ (-1 - e).toNat == 0

/-- The exact cases of R164: sign, mantissa and exponent of the result. -/
def specialExact (fn : Nat) (neg : Bool) (m : Nat) (e : Int) : Option Dy :=
  let k : Int := Nat.log2 m + e
  match fn with
  | 0 => if isPow2 m then some ⟨if neg then -1 else 1, -k⟩ else none
  | 1 => if isPow2 m && k % 2 == 0 then some ⟨1, -k / 2⟩ else none
  | 2 =>
    if e ≥ 0 || m % 2 ^ (-e).toNat == 0 then
      let i : Int := if e ≥ 0 then m * 2 ^ e.toNat else m / 2 ^ (-e).toNat
      let x := if neg then -i else i
      if -149 ≤ x && x ≤ 127 then some ⟨1, x⟩ else none
    else none
  | 3 => if isPow2 m then some ⟨k, 0⟩ else none
  | 4 => if halfMult m e then
      let h := (if e ≥ -1 then m * 2 ^ (e + 1).toNat else m / 2 ^ (-1 - e).toNat) % 4    -- |x| in halves, mod 4
      some ⟨(match h with | 1 => 1 | 3 => -1 | _ => 0) * (if neg then -1 else 1), 0⟩ else none
  | 5 => if halfMult m e then
      let h := (if e ≥ -1 then m * 2 ^ (e + 1).toNat else m / 2 ^ (-1 - e).toNat) % 4
      some ⟨match h with | 0 => 1 | 2 => -1 | _ => 0, 0⟩ else none
  | _ => none

/-- A special function in binary32 (R164): pattern and flags. (DESIGN CHOICE, safe in part: log entry 10.) -/
def special32 (fn : Nat) (fz : Bool) (x : Nat) : Nat × Flags :=
  let fzOut (r : Nat × Flags) : Nat × Flags :=
    match F32.dec r.1 with
    | .fin n m _ => if fz && m != 0 && m < 2 ^ 23 then (F32.signBit n, fUF ||| fNX) else r
    | _ => r
  match F32.decZ fz x with
  | .nan s => (F32.nan, if s then fNV else 0#32)
  | .inf n => match fn with
    | 0 => (F32.signBit n, 0#32)
    | 1 => if n then (F32.nan, fNV) else (0, 0#32)
    | 2 => if n then (0, 0#32) else (F32.inf false, 0#32)
    | 3 => if n then (F32.nan, fNV) else (F32.inf false, 0#32)
    | 4 => (F32.nan, fNV)
    | 5 => (F32.nan, fNV)
    | _ => (F32.signBit n + 0x3F800000, 0#32)
  | .fin n m e =>
    if m = 0 then match fn with
      | 0 => (F32.inf n, fDZ)
      | 1 => (F32.inf n, fDZ)
      | 2 => (0x3F800000, 0#32)
      | 3 => (F32.inf true, fDZ)
      | 4 => (F32.signBit n, 0#32)
      | 5 => (0x3F800000, 0#32)
      | _ => (F32.signBit n, 0#32)
    else if (fn = 1 || fn = 3) && n then (F32.nan, fNV)
    else
      let abs : Dy := ⟨m, e⟩
      if fn = 2 && !n && !(abs.lt ⟨128, 0⟩) then (F32.inf false, fOF ||| fNX)
      else if fn = 2 && n && Dy.lt ⟨150, 0⟩ abs then (0, fUF ||| fNX)
      else if fn = 6 && !(abs.lt ⟨10, 0⟩) then (F32.signBit n + 0x3F800000, fNX)
      else match specialExact fn n m e with
        | some d =>
          if d.m = 0 then (F32.signBit (fn == 4 && n), 0#32) else fzOut (F32.roundDy 0 false false d)
        | none =>
          let (r, t) := specialRef fn n m e
          let big : Dy := ⟨r.m.natAbs, r.e⟩
          if !(big.lt ⟨1, 128⟩) then (F32.inf n, fOF ||| fNX) else fzOut (pickWithin fn n x r t)

/-- A special function in a 16-bit format (R163): evaluated in binary32, rounded RNE, flags judged on the delivered element.
(DESIGN CHOICE, safe in part: log entry 10.) -/
def special16 (f : Fmt) (fn : Nat) (fz : Bool) (x : Nat) : Nat × Flags :=
  let (x32, _) := convFF f F32 0 false false (f.flushPat fz x)
  let (r, fl) := special32 fn fz x32
  let special := fl &&& (fNV ||| fDZ)
  match f.decZ fz x with
  | .nan s => (f.nan, if s then fNV else 0#32)
  | _ =>
    let (y, g) := convFF F32 f 0 fz false r
    let tiny := match f.dec y with | .fin _ m _ => m < 2 ^ f.mb | _ => false
    let inexact := fl &&& fNX != 0#32 || g &&& fNX != 0#32
    let ovf := g &&& fOF != 0#32 || fl &&& fOF != 0#32
    (y, special ||| (if inexact then fNX else 0#32) ||| (if ovf then fOF else 0#32) ||| (if tiny && inexact then fUF else 0#32))

/-! ### MX quantisation (R109, R110) -/

/-- emax: the exponent of the largest finite binade (R109). -/
def emaxOf (f : Fmt) : Int := if f = E4M3 then 8 else if f = E5M2 then 15 else 2

/-- An element of an MX block (R110): RNE, saturating; SAT is its only flag. -/
def mxElem (f : Fmt) (neg : Bool) (m : Nat) (e : Int) : Nat × Flags :=
  if m = 0 then (f.signBit neg, 0#32)
  else
    let (p, fl) := f.round 0 false true neg m e false
    (p, fl &&& fSAT)

/-- Quantises 32 binary32 patterns (R109): scale code, elements, flags. -/
def mxQuantise (f : Fmt) (fz : Bool) (vs : List Nat) : Nat × List Nat × Flags :=
  let ds := vs.map (F32.decZ fz)
  if ds.any fun v => v.isNan || v.isInf then (0xFF, vs.map fun _ => 0, fNV)
  else
    let big := ds.foldl (fun (b : Dy) v => let a : Dy := ⟨v.dy.m.natAbs, v.dy.e⟩; if b.lt a then a else b) ⟨0, 0⟩
    let x : Int := if big.m = 0 then -127
      else max (-127) (min 127 ((bitLen big.m.natAbs : Int) - 1 + big.e - emaxOf f))
    let es := ds.map fun v => match v with
      | .fin n m e => mxElem f n m (e - x)
      | _ => (0, 0#32)
    ((x + 127).toNat, es.map (·.1), es.foldl (fun a b => a ||| b.2) 0#32)

/-! ### Tiles (R111-R116) -/

/-- One platen term: the exact sum of 32 products with its special cases (R112). -/
structure PSum where
  sum : Dy := ⟨0, 0⟩
  nanIn : Bool := false
  invalid : Bool := false
  pinf : Bool := false
  ninf : Bool := false
  /-- every product so far is −0 -/
  negZ : Bool := true
  deriving DecidableEq, Repr

/-- Adds the product of two scaled elements. -/
def PSum.addProd (s : PSum) (a b : FV) (sc : Int) : PSum :=
  if a.isNan || b.isNan then { s with nanIn := true }
  else match a.times b with
    | none => { s with invalid := true }
    | some (.inf n) => if n then { s with ninf := true, negZ := false } else { s with pinf := true, negZ := false }
    | some p => { s with sum := s.sum.add (p.dy.scale sc), negZ := s.negZ && p.isZero && p.neg }

/-- acc := round(acc + S) with the tile status bits NV 1, OF 2, SAT 4, NAN-IN 8 (R112). -/
def accumulate (acc : Nat) (s : PSum) (sat : Bool) : Nat × Nat :=
  let a := F32.dec acc
  if s.nanIn then (F32.nan, 9)
  else if s.invalid then (F32.nan, 1)
  else if s.pinf && s.ninf then (F32.nan, 1)
  else if (match a with | .inf n => (n && s.pinf) || (!n && s.ninf) | _ => false) then (F32.nan, 1)
  else if a.isNan then (F32.nan, 0)
  else if s.pinf then (F32.inf false, 0)
  else if s.ninf then (F32.inf true, 0)
  else if a.isInf then (acc, 0)
  else
    let t := a.dy.add s.sum
    if t.m = 0 then
      let sNeg := s.sum.m == 0 && s.negZ
      (F32.signBit (a.isZero && s.sum.m == 0 && a.neg && sNeg), 0)
    else
      let (p, fl) := F32.roundDy 0 false sat t
      (p, (if fl &&& fOF != 0#32 then 2 else 0) + (if fl &&& fSAT != 0#32 then 4 else 0))

/-- A drain conversion (R116): the element and the status bits it sets. -/
def drainConv (f : Fmt) (sat : Bool) (x : Nat) : Nat × Nat :=
  match F32.dec x with
  | .nan _ => (f.nan, 0)
  | .inf n => match f.top with
    | .e4m3 => if sat then (f.max n, 4) else (f.nan, 1)
    | _ => (f.inf n, 0)
  | .fin n m e =>
    if m = 0 then (f.signBit n, 0)
    else
      let (p, fl) := f.round 0 false sat n m e false
      if f.top == .e4m3 then (p, if fl &&& fSAT != 0#32 then 4 else if fl &&& fNV != 0#32 then 1 else 0)
      else (p, (if fl &&& fSAT != 0#32 then 4 else 0) + (if fl &&& fOF != 0#32 then 2 else 0))

end Sys2Proof.Machine
end

