-- ==== Sys2Proof/Machine/Flags.lean ====
section
/-!
DEFINITION. The float environment of a thread (R28, R101, R104): the rounding mode in force, flushing, sticky flags and their
enables; and the flag computations of the integer instructions with predicate results (R150, R151).
-/

namespace Sys2Proof.Machine

/-- The rounding mode of a tail (R53, R101): 7 takes `s.fcsr`. -/
def rmIn (fcsr : W32) (rm : Nat) : Nat := if rm = 7 then fcsr.toNat / 256 % 8 else rm
/-- FZ (R28, R105). -/
def fzIn (fcsr : W32) : Bool := fcsr.getLsbD 12
/-- The sticky flags that a float instruction may raise. -/
def flagMask : W32 := 0xDF#32
/-- A raised flag among NV, DZ, OF, UF, NX is enabled (R28, R104). -/
def enabledIn (fcsr fl : W32) : Bool := ((fcsr >>> (16 : Nat)) &&& fl &&& 0x1F#32) != 0#32
/-- `s.fcsr` with flags ORed in. -/
def orFlags (fcsr fl : W32) : W32 := fcsr ||| (fl &&& flagMask)

/-- What a write of `v` makes of `s.fcsr` (R28): reserved bits stay, an RM of 5 to 7 leaves the field. -/
def fcsrWrite (old v : W32) : W32 :=
  let m : W32 := if v.toNat / 256 % 8 ≤ 4 then 0x001F17DF#32 else 0x001F10DF#32
  (old &&& ~~~m) ||| (v &&& m)

/-- The relation codes of `CMP` on two integers (R151). -/
def relInt (rel : Nat) (a b : Int) : Bool :=
  match rel with | 0 => a == b | 1 => a != b | 2 => a < b | 3 => a ≤ b | 4 => a > b | _ => a ≥ b
/-- The combining codes of `CMP` and `FCMP` (R151, R161). -/
def combineP (opc : Nat) (r q : Bool) : Bool := match opc with | 0 => r | 1 => r && q | 2 => r || q | _ => r != q

/-- Carry of an addition and borrow of a subtraction (R150). -/
def carryOut (w a b ci : Nat) : Bool := a + b + ci ≥ 2 ^ w
def borrowOut (a b ci : Nat) : Bool := a < b + ci

end Sys2Proof.Machine
end

