-- ==== Sys2Proof/Machine/Regs.lean ====
section
/-!
DEFINITION. Registers, predicates and lanes of a group: the one home of every read and write, with the tags of R19-R21 and the
poison marks of R141; and the accessors of groups, cores, teams and families inside the state.
-/

namespace Sys2Proof

def Party.isLc : Party → Bool | .lc _ => true | .grp _ _ => false
/-- The latency core's number, or the team's. -/
def Party.id : Party → Nat | .lc n => n | .grp t _ => t

end Sys2Proof

namespace Sys2Proof.Machine

/-! ### Lists with one entry changed -/

/-- The list with entry `k` changed by `f`. -/
def setAt {α : Type} (l : List α) (k : Nat) (f : α → α) : List α := l.modify k f
/-- Adds an element to a list that stands for a set. -/
def addSet {α : Type} [BEq α] (x : α) (l : List α) : List α := if l.contains x then l else x :: l
/-- The first entry with the key, or nothing. -/
def assoc {α β : Type} [BEq α] (k : α) (l : List (α × β)) : Option β := (l.find? (·.1 == k)).map (·.2)
/-- The association list with the entry of `k` set. -/
def setAssoc {α β : Type} [BEq α] (k : α) (v : β) (l : List (α × β)) : List (α × β) := (k, v) :: l.filter (fun e => !(e.1 == k))

/-! ### Registers -/

/-- The value that the thread in lane `l` sees (R19). -/
def Shaped.lane : Shaped → Nat → W32
  | .u v, _ => v
  | .a b s, l => b + s * BitVec.ofNat 32 l
  | .g vs, l => vs.getD l 0#32

/-- The tag code (R19). -/
def Shaped.code : Shaped → Nat | .u _ => 0 | .a _ _ => 1 | .g _ => 2

/-- Register `r` of an ascending register list; an unlisted register is U 0. -/
def findReg : List (Nat × Reg) → Nat → Reg
  | [], _ => {}
  | (k, x) :: rest, r => if k = r then x else findReg rest r
/-- The list with register `r` set. -/
def putReg : List (Nat × Reg) → Nat → Reg → List (Nat × Reg)
  | [], r, x => [(r, x)]
  | (k, y) :: rest, r, x =>
    if r < k then (r, x) :: (k, y) :: rest else if r = k then (r, x) :: rest else (k, y) :: putReg rest r x

def Group.reg (g : Group) (r : Nat) : Reg := findReg g.regs r
/-- The value of register `r` in lane `l`. -/
def Group.rd (g : Group) (l r : Nat) : W32 := (g.reg r).sh.lane l
/-- The pair vr:v(r+1) in lane `l` (R7). -/
def Group.rd64 (g : Group) (l r : Nat) : W64 := pair64 (g.rd l (r + 1)) (g.rd l r)
/-- The poison mark of `n` registers from `r` in lane `l`. -/
def Group.poi (g : Group) (l r n : Nat) : Bool := (List.range n).any fun k => Mask.has (g.reg (r + k)).poison l

/-- One latency-core thread, or a group of a SIMT core. -/
def Group.single (g : Group) : Bool := g.threads.length == 1

/-- The tag describes the values of the lanes `who`. (DEDUCED, safe in part: log entry 17.) -/
def Hint.holds (h : Hint) (who : Mask) (val : Nat → W32) : Bool :=
  match h with
  | .u => (Mask.lanes who).all fun l => val l == val ((Mask.lanes who).headD 0)
  | .a b s => (Mask.lanes who).all fun l => val l == b + s * BitVec.ofNat 32 l
  | .g => true

/-- Writes register `r` in the lanes `who` (R20, R21): the tag is the hint's when every non-exited lane is written, else G. Threads whose
results differ although every source is U (they round differently, or their own stores come first) hold them under tag G (log entry 17).
A latency core holds one value, tag U (R24). -/
def Group.wr (g : Group) (r : Nat) (who : Mask) (val : Nat → W32) (h : Hint) (poi : Mask) : Group :=
  let old := g.reg r
  let vals := fun l => if Mask.has who l then val l else old.sh.lane l
  let sh :=
    if g.single then .u (vals 0)
    else if g.live &&& ~~~who == 0#64 && h.holds who val then
      match h with
      | .u => .u (val ((Mask.lanes who).headD 0))
      | .a b s => .a b s
      | .g => .g (allLanes.map vals)
    else .g (allLanes.map vals)
  { g with regs := putReg g.regs r { sh := sh, poison := (old.poison &&& ~~~who) ||| (poi &&& who) } }

/-- Writes the register that a D code names; 1023 discards (R47). (DEDUCED, safe in part: log entry 17.) -/
def Group.wrD (g : Group) (d : BitVec 10) (who : Mask) (val : Nat → W32) (h : Hint) (poi : Mask) : Group :=
  if inReg d then g.wr d.toNat who val h poi else g

/-- Writes the pair that a D code names, both registers with one hint. -/
def Group.wrD64 (g : Group) (d : BitVec 10) (who : Mask) (val : Nat → W64) (h : Hint) (poi : Mask) : Group :=
  if inReg d then
    (g.wr d.toNat who (fun l => lo32 (val l)) h poi).wr (d.toNat + 1) who (fun l => hi32 (val l)) h poi
  else g

/-! ### Predicates -/

/-- Predicate `n` in lane `l`; p7 reads true (R25). -/
def Group.pred (g : Group) (n l : Nat) : Bool := n ≥ 7 || Mask.has ((g.preds.getD n {}).bits) l
def Group.predPoi (g : Group) (n l : Nat) : Bool := n < 7 && Mask.has ((g.preds.getD n {}).poison) l
/-- Whether a predicate has tag U. -/
def Group.predUni (g : Group) (n : Nat) : Bool := n ≥ 7 || (g.preds.getD n {}).uni
/-- Writes predicate `n`; a write to p7 is discarded (R25). -/
def Group.wrP (g : Group) (n : Nat) (who : Mask) (val : Nat → Bool) (uni : Bool) (poi : Mask) : Group :=
  if n ≥ 7 then g
  else
    let o := g.preds.getD n {}
    let x : PredV := { bits := (o.bits &&& ~~~who) ||| (Mask.ofTest val &&& who),
                       uni := g.single || (uni && (g.live &&& ~~~who == 0#64)),
                       poison := (o.poison &&& ~~~who) ||| (poi &&& who) }
    { g with preds := (List.range 7).map fun k => if k = n then x else g.preds.getD k {} }

/-! ### Threads -/

def Group.thr (g : Group) (l : Nat) : Thread := g.threads.getD l {}
def Group.modThr (g : Group) (l : Nat) (f : Thread → Thread) : Group := { g with threads := setAt g.threads l f }
/-- Changes the threads of the lanes of a mask. -/
def Group.modLanes (g : Group) (m : Mask) (f : Thread → Thread) : Group :=
  { g with threads := g.threads.mapIdx fun l t => if Mask.has m l then f t else t }
/-- The lanes, of those that exist, in ascending order. -/
def Group.lanes (g : Group) (m : Mask) : List Nat := (List.range g.threads.length).filter (Mask.has m)

/-- Threads whose PC would make a seventeenth run are parked (R14). -/
def Group.limitRuns (g : Group) (run : List Nat) : Group :=
  let ready := fun l => Mask.has g.live l && (g.thr l).st == .ready
  let others := ((g.lanes g.live).filter fun l => ready l && !run.contains l).foldl (fun ps l => addSet (g.thr l).pc ps) []
  (run.foldl (fun (acc : Group × List W64) l =>
    if !ready l then acc
    else
      let pc := (g.thr l).pc
      if acc.2.contains pc then acc
      else if acc.2.length < 16 then (acc.1, pc :: acc.2)
      else (acc.1.modThr l fun t => { t with st := .parked }, acc.2)) (g, others)).1

/-! ### Parts of the state -/

def State.lc (s : State) (n : Nat) : LCore := s.lcs.getD n {}
def State.modLc (s : State) (n : Nat) (f : LCore → LCore) : State := { s with lcs := setAt s.lcs n f }
def State.team? (s : State) (tid : Nat) : Option Team := s.teams.find? (·.tid == tid)
def State.team (s : State) (tid : Nat) : Team := (s.team? tid).getD { tid := tid, fam := 0#32 }
def State.modTeam (s : State) (tid : Nat) (f : Team → Team) : State :=
  { s with teams := s.teams.map fun t => if t.tid == tid then f t else t }
def Team.grp (t : Team) (j : Nat) : Group := ((t.groups.getD j none).getD {})
def Team.modGrp (t : Team) (j : Nat) (f : Group → Group) : Team := { t with groups := setAt t.groups j (·.map f) }
def State.grp (s : State) : Party → Group
  | .lc n => (s.lc n).grp
  | .grp tid j => (s.team tid).grp j
def State.modGrp (s : State) (p : Party) (f : Group → Group) : State :=
  match p with
  | .lc n => s.modLc n fun c => { c with grp := f c.grp }
  | .grp tid j => s.modTeam tid (·.modGrp j f)
def State.modThr (s : State) (p : Party) (l : Nat) (f : Thread → Thread) : State := s.modGrp p (·.modThr l f)
/-- A thread that waited is ready again, if the run table has an entry for its PC (R14). -/
def State.wake (s : State) (p : Party) (l : Nat) (f : Thread → Thread) : State :=
  s.modGrp p fun g => (g.modThr l fun t => { f t with st := .ready }).limitRuns [l]
def State.thr (s : State) (p : Party) (l : Nat) : Thread := (s.grp p).thr l
def State.fam? (s : State) (id : W32) : Option Family := s.fams.find? (·.famid == id)
def State.modFam (s : State) (id : W32) (f : Family → Family) : State :=
  { s with fams := s.fams.map fun x => if x.famid == id then f x else x }
def State.die (s : State) (d : Nat) : Die := s.dies.getD d {}
def State.modDie (s : State) (d : Nat) (f : Die → Die) : State := { s with dies := setAt s.dies d f }
def State.core (s : State) (c : Nat) : SCore := (s.cores.find? (·.num == c)).getD { num := c }
def State.modCore (s : State) (c : Nat) (f : SCore → SCore) : State :=
  { s with cores := f (s.core c) :: s.cores.filter (fun x => !(x.num == c)) }
def State.net (s : State) (e : Nat) : NetEngine := s.nets.getD e {}
def State.modNet (s : State) (e : Nat) (f : NetEngine → NetEngine) : State := { s with nets := setAt s.nets e f }
/-- Takes a fresh index for a free value. (DESIGN CHOICE, unsafe in part: log entry 7.) -/
def State.tick (s : State) : State := { s with fresh := s.fresh + 1 }

/-- The die on which a party executes (R3). -/
def State.dieOf (s : State) : Party → Nat
  | .lc n => 24 + n / 24 % 4
  | .grp t _ => (s.team t).core / 24
/-- The core number of a party: the latency core, or the SIMT core of the team. -/
def State.coreOf (s : State) : Party → Nat
  | .lc n => n
  | .grp t _ => (s.team t).core
/-- Supervisor mode on a latency core (R36, R40). -/
def LCore.sup (c : LCore) : Bool := c.status.getLsbD 0
def State.sup (s : State) : Party → Bool
  | .lc n => (s.lc n).sup
  | .grp _ _ => false
/-- The family of the thread in a lane; none on a latency core. -/
def State.famOf (s : State) (p : Party) (l : Nat) : Option Family :=
  match p with
  | .lc _ => none
  | .grp _ _ => s.fam? (s.thr p l).fam

/-! ### Descriptor fields (R84, R255) -/

def Family.dw (f : Family) (k : Nat) : Nat := (f.desc.getD k 0#64).toNat
/-- s.cyc of a party's core (R34). (DESIGN CHOICE, unsafe in part: log entry 7.) -/
def State.cycOf (s : State) : Party → Nat
  | .lc n => s.cycles + (s.lc n).cyc
  | .grp t _ => s.cycles + (s.core (s.team t).core).cyc

end Sys2Proof.Machine
end

