-- ==== Sys2Proof/Machine/Operands.lean ====
section
/-!
DEFINITION. Operand forms: what a source field supplies to an operation in each lane (R47-R49, R52), with its shape tag (R19) and its
poison marks (R141), and the tags of results (R20).
-/

namespace Sys2Proof.Machine

/-- How an operand enters an operation (R48): an integer of one or two registers, packed elements of a width, a float format, or two
16-bit floats. -/
inductive OKind where
  | int
  | pack (w : Nat)
  | flt (f : Fmt)
  | flt2 (f : Fmt)
  deriving DecidableEq, Repr

/-- A source operand: the value in each lane, its shape, the lanes in which it is poisoned. -/
structure Src where
  val : Nat → W64
  tag : Hint
  poi : Mask

/-- The exact pattern of a small integer in a float format (R48). -/
def Fmt.ofSmall (f : Fmt) (n : Int) : Nat := if n = 0 then 0 else (f.round 0 false false (n < 0) n.natAbs 0 false).1

/-- `k` copies of a `w`-bit pattern, side by side. -/
def spread (w k x : Nat) : Nat := (List.range k).foldl (fun acc j => acc + x * 2 ^ (w * j)) 0

/-- The value that an inline integer supplies (R48). -/
def inlineVal (k : OKind) (c : BitVec 10) : W64 :=
  let n : Int := (c.toNat : Int) - 832
  match k with
  | .int => BitVec.ofInt 64 n
  | .pack w => BitVec.ofNat 64 (spread w (32 / w) (n % 2 ^ w).toNat)
  | .flt f => BitVec.ofNat 64 (f.ofSmall n)
  | .flt2 f => BitVec.ofNat 64 (spread 16 2 (f.ofSmall n))

/-- The tag of one register. -/
def Shaped.hint : Shaped → Hint
  | .u _ => .u
  | .a b s => .a b s
  | .g _ => .g

/-- The tag of `n` registers: A belongs to single registers alone (R20). -/
def Group.hintOf (g : Group) (r n : Nat) : Hint :=
  if n = 1 then (g.reg r).sh.hint
  else if (List.range n).all (fun k => (g.reg (r + k)).sh.code == 0) then .u else .g

/-- A register operand of one or two registers, or an inline integer. -/
def Group.src (g : Group) (k : OKind) (n : Nat) (c : BitVec 10) : Src :=
  if inReg c then
    { val := fun l => if n = 2 then g.rd64 l c.toNat else (g.rd l c.toNat).setWidth 64,
      tag := g.hintOf c.toNat n, poi := Mask.ofTest fun l => g.poi l c.toNat n }
  else { val := fun _ => inlineVal k c, tag := .u, poi := 0#64 }

/-- No operand. -/
def Src.none : Src := { val := fun _ => 0#64, tag := .u, poi := 0#64 }

/-- B, or the constant-window operand in its place (R52). -/
def Group.srcB (g : Group) (k : OKind) (n : Nat) (w : BaseW) (kop : Src) : Src := if w.kf then kop else g.src k n w.b
/-- The immediate of an I-form (R58). -/
def immSrc (i : BitVec 20) : Src := { val := fun _ => i.signExtend 64, tag := .u, poi := 0#64 }

/-- Every source U gives U; any other mixture gives G (R20). -/
def Hint.join (a b : Hint) : Hint := if a == .u && b == .u then .u else .g
def tagOf (l : List Src) : Hint := l.foldl (fun h s => h.join s.tag) .u
def poiOf (l : List Src) : Mask := l.foldl (fun m s => m ||| s.poi) 0#64

/-- `ADD.w` and `SUB.w` of A and U operands keep the A shape (R20). -/
def tagLinear (sub : Bool) (a b : Src) : Hint :=
  let op (x y : W32) : W32 := if sub then x - y else x + y
  let ub (s : Src) : W32 := (s.val 0).setWidth 32
  match a.tag, b.tag with
  | .a x s, .a y t => .a (op x y) (op s t)
  | .a x s, .u => .a (op x (ub b)) s
  | .u, .a y t => .a (op (ub a) y) (op 0#32 t)
  | .u, .u => .u
  | _, _ => .g
/-- `MUL.w` of an A and a U operand (R20). -/
def tagMul (a b : Src) : Hint :=
  let ub (s : Src) : W32 := (s.val 0).setWidth 32
  match a.tag, b.tag with
  | .a x s, .u => .a (x * ub b) (s * ub b)
  | .u, .a y t => .a (ub a * y) (ub a * t)
  | .u, .u => .u
  | _, _ => .g
/-- `SHL.w` of an A operand by a U count (R20). -/
def tagShl (a b : Src) : Hint :=
  let n := (b.val 0).toNat % 32
  match a.tag, b.tag with
  | .a x s, .u => .a (x <<< n) (s <<< n)
  | .u, .u => .u
  | _, _ => .g
/-- `MOV.w` keeps any shape (R20). -/
def tagMov (a : Src) : Hint := a.tag

end Sys2Proof.Machine

namespace Sys2Proof

/-! ### Elements (R95, R137) -/

/-- Element width and number of elements of a size. -/
def ISize.width : ISize → Nat | .w => 32 | .d => 64 | .h2 => 16 | .b4 => 8
def ISize.count : ISize → Nat | .h2 => 2 | .b4 => 4 | _ => 1
def ISize.kind : ISize → Machine.OKind | .h2 => .pack 16 | .b4 => .pack 8 | _ => .int
def DSize.width : DSize → Nat | .w => 32 | .d => 64
def DSize.isize : DSize → ISize | .w => .w | .d => .d

end Sys2Proof

namespace Sys2Proof.Machine

/-- Element `k` of width `w`. -/
def el (w k : Nat) (x : W64) : Nat := x.toNat / 2 ^ (w * k) % 2 ^ w
/-- Puts elements together, each modulo 2^w. -/
def unEl (w : Nat) (l : List Nat) : W64 := BitVec.ofNat 64 ((l.foldr (fun x acc => x % 2 ^ w + 2 ^ w * acc) 0))
/-- An operation per element. -/
def map1 (z : ISize) (f : Nat → Nat) (a : W64) : W64 := unEl z.width ((List.range z.count).map fun k => f (el z.width k a))
def map2 (z : ISize) (f : Nat → Nat → Nat) (a b : W64) : W64 :=
  unEl z.width ((List.range z.count).map fun k => f (el z.width k a) (el z.width k b))
def map3 (z : ISize) (f : Nat → Nat → Nat → Nat) (a b c : W64) : W64 :=
  unEl z.width ((List.range z.count).map fun k => f (el z.width k a) (el z.width k b) (el z.width k c))
/-- An element read as signed, and a signed value wrapped to the width. -/
def sgn (w x : Nat) : Int := (BitVec.ofNat w x).toInt
def wrap (w : Nat) (i : Int) : Nat := (i % 2 ^ w).toNat
/-- An element read in a variant. -/
def asInt (sg : Sgn) (w x : Nat) : Int := match sg with | .s => sgn w x | .u => x

/-! ### Results -/

/-- Writes a result of one or two registers, with the poison of its sources (R20, R141). -/
def Group.put (g : Group) (n : Nat) (d : BitVec 10) (act : Mask) (val : Nat → W64) (h : Hint) (poi : Mask) : Group :=
  if n = 2 then g.wrD64 d act val h poi else g.wrD d act (fun l => (val l).setWidth 32) h poi

end Sys2Proof.Machine
end

