-- ==== Sys2Proof/Machine/Mem.lean ====
section
/-!
DEFINITION. Physical memory in one canonical form, byte order, poison granules, what an unlisted address reads as (the regions of
bring-up), and the home of every location: stores performed there, write completion times, leased copies, waiters (R293, R309-R316).
-/

namespace Sys2Proof.Machine

/-! ### Bytes -/

/-- A number from its bytes, the lowest address first (R95). -/
def leNat (bs : List Byte) : Nat := bs.foldr (fun b acc => b.toNat + 256 * acc) 0
/-- The `n` bytes of a number, the lowest address first. -/
def natLe (n v : Nat) : List Byte := (List.range n).map fun k => BitVec.ofNat 8 (v >>> (8 * k))

/-- One record of the capability table (R420): TYPE, LENGTH, value, padding to a multiple of 8. -/
def capRecord (ty : Nat) (val : List Byte) : List Byte :=
  let body := natLe 2 ty ++ natLe 2 val.length ++ val
  body ++ List.replicate ((8 - body.length % 8) % 8) 0#8

/-- Bits of a list, as a number. -/
def bitsOf (l : List Nat) : Nat := l.foldl (fun v k => v ||| 2 ^ k) 0
/-- The records of a signed section (R421): SIGNATURE bytes are free values. (DESIGN CHOICE, unsafe in part: log entry 4.) -/
def RomSection.records (x : RomSection) (kind num : Nat) : List Byte :=
  let opt {α : Type} (o : Option α) (g : α → List Byte) : List Byte := match o with | some v => g v | none => []
  capRecord 1 (natLe 4 kind) ++
  (if kind = 0 then capRecord 0x10 (natLe 2 1 ++ natLe 6 0) ++ capRecord 0x11 (natLe 16 0) else []) ++
  x.errata.flatMap (fun e => capRecord 0x40 (natLe 4 e.1 ++ natLe 4 (e.2.getD 0xFFFFFFFF))) ++
  opt x.caps (fun c => capRecord 0x12 (natLe 8 c.toNat)) ++
  opt x.harvest (fun h => capRecord 0x20 ((List.range 24).flatMap fun d => natLe 4 (bitsOf ((h.filter fun c => c / 24 == d).map (· % 24))))) ++
  opt x.lcHarvest (fun h => capRecord 0x21 (natLe 16 (bitsOf h))) ++
  opt x.simtop (fun l => capRecord 0x30 ((List.range 24).flatMap fun d =>
    let y := l.getD d {}
    natLe 2 y.vfloor ++ natLe 2 y.vnom ++ natLe 4 y.dbud)) ++
  opt x.defaults (fun y => capRecord 0x31 (natLe 4 y.1 ++ natLe 8 y.2.1 ++ natLe 4 y.2.2)) ++
  capRecord 2 ((List.range 104).map fun k => Config.formatByte num k 0)
/-- The sections of the copy (R420, R421, R423): the ROM section, the errata sections that verify, the bring-up section. -/
def capRecords (d : Dev) : List Byte :=
  let own (a : Nat) : List Byte := natLe 8 (d.site * 2 ^ 46 + a)
  (d.sections.mapIdx fun k x => x.records (if k = 0 then 0 else 1) k).flatten ++
  capRecord 1 (natLe 4 2) ++ capRecord 0x41 (natLe 1 d.site) ++ capRecord 0x42 (own Config.errlog) ++
  capRecord 0x43 ((List.range 28).flatMap fun k => own (Config.placement k)) ++ capRecord 0x44 (own Config.linkctl) ++
  capRecord 0x45 ((List.range 4).flatMap fun k => own (Config.netctl k)) ++
  capRecord 0x46 (own Config.soloPool ++ natLe 8 (2 ^ 31)) ++
  capRecord 0x47 ((List.range 28).flatMap fun k => own (Config.ovfpool k)) ++
  capRecord 0x48 (own Config.storeRec ++ natLe 8 (2 ^ 21)) ++ capRecord 0x49 (own Config.startTable) ++ capRecord 0 []

/-- The capability table at `s.capbase` (R420). (DESIGN CHOICE, unsafe in part: log entry 4.) -/
def capTable (d : Dev) : List Byte :=
  let r := capRecords d
  natLe 8 0x000000015443564B ++ natLe 4 (32 + r.length) ++ natLe 4 (d.sections.length + 1) ++ natLe 16 0 ++ r

/-- The reset values of a placement control block (R326). -/
def placementInit : List Byte :=
  natLe 8 0x000003E840200200 ++ natLe 8 0x0000001000002000 ++ natLe 48 0
/-- The reset values of the link control block (R398), with DOMAIN holding the own bit. -/
def linkInit : List Byte :=
  natLe 16 0 ++ natLe 4 0 ++ natLe 4 4000 ++ natLe 4 40 ++ natLe 4 4096 ++ natLe 24 0 ++ natLe 8 1
/-- The reset values of a network control block (R404). -/
def netInit : List Byte := natLe 8 0x0000000000000407 ++ natLe 4 256 ++ natLe 4 100000 ++ natLe 48 0
/-- The header of the error log (R413). -/
def errInit : List Byte := natLe 16 0 ++ natLe 8 Config.errlogSize ++ natLe 232 0
/-- The header of the solo fault queue (R281, R260). -/
def soloQInit : List Byte := natLe 16 0 ++ natLe 8 Config.soloQueueSize ++ natLe 40 0

/-- What an unlisted address reads as: the regions that bring-up writes (R427 steps 6 and 7), and 0 elsewhere (log entry 1). -/
def initByte (pa : Nat) : Byte :=
  let a := pa % 2 ^ 46
  let at? (base : Nat) (l : List Byte) : Option Byte := if base ≤ a then l[a - base]? else none
  if a < Config.soloPool then 0#8
  else if a < Config.soloPool + 64 then (at? Config.soloPool soloQInit).getD 0#8
  else if a < Config.placement 0 then 0#8
  else if a < Config.placement 28 then placementInit.getD ((a - Config.placement 0) % 64) 0#8
  else if a < Config.linkctl then 0#8
  else if a < Config.linkctl + 64 then linkInit.getD (a - Config.linkctl) 0#8
  else if a < Config.netctl 0 then 0#8
  else if a < Config.netctl 4 then netInit.getD ((a - Config.netctl 0) % 64) 0#8
  else if a < Config.errlog then 0#8
  else if a < Config.errlog + 256 then errInit.getD (a - Config.errlog) 0#8
  else if a < Config.capbase then 0#8
  else (at? Config.capbase (capTable {})).getD 0#8

/-- The byte listed for an address, in an ascending list. -/
def findCell : List Host.Cell → Nat → Option Byte
  | [], _ => none
  | (k, v) :: rest, a => if k = a then some v else findCell rest a
/-- The list with the byte of address `a` set, keeping it ascending and without entries that equal `initByte`. -/
def putCell : List Host.Cell → Nat → Byte → List Host.Cell
  | [], a, v => if v = initByte a then [] else [(a, v)]
  | (k, x) :: rest, a, v =>
    if a < k then (if v = initByte a then (k, x) :: rest else (a, v) :: (k, x) :: rest)
    else if a = k then (if v = initByte a then rest else (a, v) :: rest)
    else (k, x) :: putCell rest a v

/-- The canonical form of memory: addresses strictly rising, no entry equal to what an unlisted address reads as. -/
def Memory.wf : List Host.Cell → Bool
  | [] => true
  | [(a, v)] => v != initByte a
  | (a, v) :: (b, w) :: rest => decide (a < b) && v != initByte a && Memory.wf ((b, w) :: rest)

/-- The model's read of one byte of physical memory. (DESIGN CHOICE, unsafe: log entry 1.) -/
def State.byte (s : State) (a : Nat) : Byte := (findCell s.mem a).getD (initByte a)
def State.bytes (s : State) (a n : Nat) : List Byte := (List.range n).map fun k => s.byte (a + k)
/-- A little-endian number of `n` bytes. -/
def State.rdN (s : State) (a n : Nat) : Nat := leNat (s.bytes a n)
/-- Writes bytes from an address on, one after another. -/
def putCells : List Host.Cell → Nat → List Byte → List Host.Cell
  | m, _, [] => m
  | m, a, b :: bs => putCells (putCell m a b) (a + 1) bs
def State.setBytes (s : State) (a : Nat) (bs : List Byte) : State := { s with mem := putCells s.mem a bs }

/-! ### Physical addresses (R331) -/

def paPkg (pa : Nat) : Nat := pa / 2 ^ 46 % 64
def paDie (pa : Nat) : Nat := pa / 2 ^ 41 % 32
def paOff (pa : Nat) : Nat := pa % 2 ^ 41
/-- The physical address of a place in the own package's memory (R331). -/
def State.own (s : State) (a : Nat) : Nat := s.link.pkg * 2 ^ 46 + a
def lineOf (pa : Nat) : Nat := pa / 128
def pageOf (pa : Nat) : Nat := pa / 2 ^ 17

/-- The host-proxy home of a host line (R309), or the die of the address. -/
def homeDie (pa : Nat) : Nat := if paDie pa = 31 then 24 + pa / 128 % 4 else paDie pa

/-- Where the bytes of a physical address lie after the page moves that have switched (R328 step 6). (DEDUCED, unsafe: log entry 30.) -/
def State.redirect (s : State) (pa : Nat) : Nat :=
  match assoc (pageOf pa) s.moved with
  | some p => p * 2 ^ 17 + pa % 2 ^ 17
  | none => pa

/-- Notes an access beyond the memory of its die (R4). -/
def State.touch (s : State) (pa n : Nat) : State :=
  if paPkg pa = s.link.pkg && paOff pa + n > Config.dieBytes (paDie pa) then { s with absent := some pa } else s

/-! ### Poison granules (R411) -/

def granules (a n : Nat) : List Nat := (List.range ((a + n + 31) / 32 - a / 32)).map (a / 32 + ·)
def State.poisoned (s : State) (a n : Nat) : Bool := (granules a n).any s.mpoison.contains
/-- A write clears the granules that it covers whole. -/
def clearPoison (l : List Nat) (a n : Nat) : List Nat := l.filter fun g => !(a ≤ 32 * g && 32 * g + 32 ≤ a + n)
def State.poisonAt (s : State) (a n : Nat) : State :=
  { s with mpoison := (granules a n).foldl (fun l g => addSet g l) s.mpoison }

/-! ### Caches (R309, R311) -/

/-- Sets of a cache of leased copies, and of a private cache (R309): a line lies in the set that its number names modulo their count.
(DESIGN CHOICE, safe: log entry 40.) -/
def Holder.sets : Holder → Nat
  | .l1 _ => 128
  | .kc _ => 64
  | .ic _ => 128
  | .rdc _ => 16384
  | _ => 512
/-- Ways of a cache (R309). -/
def Holder.ways : Holder → Nat | .kc _ => 8 | .ic _ => 8 | _ => 16
/-- The record is that of the page, named by its address or by the page of this package's memory that holds it (R400). -/
def PageRec.isFor (r : PageRec) (k : Nat) : Bool := r.page == k || r.alloc == some k
/-- The package whose homes perform a page's coherence (R397). -/
def State.writerOf (s : State) (pa : Nat) : Nat :=
  match s.pages.find? (·.isFor (pageOf pa)) with | some r => r.writer | none => paPkg pa
def State.remote (s : State) (pa : Nat) : Bool := s.writerOf pa != s.link.pkg
/-- The die of this package at which a line is homed (R309); a replica of a page of another WRITER lies at an H-die (R399). -/
def State.homeAt (s : State) (pa : Nat) : Nat := if s.remote pa then 24 + pageOf pa % 4 else homeDie pa
/-- The set of the home level that a line lies in (R309, R315): 24,576 sets of an L2, 32,768 of an H-die's home cache.
(DESIGN CHOICE, safe: log entry 40.) -/
def State.homeSet (s : State) (line : Nat) : Nat := let d := s.homeAt (128 * line); d * 32768 + line % (if d < 24 then 24576 else 32768)

/-- What leaves a full set, of a list in the order of last use (R311): the least recently used line that is not sticky, else the least
recently used one. -/
def victim {α : Type} (ways : Nat) (inSet sticky : α → Bool) (l : List α) : Option α :=
  let set := l.filter inSet
  if set.length < ways then none else (set.filter fun x => !sticky x).getLast?.or set.getLast?
/-- The place of a line that is filled or touched (R311): last with `.strm`, else first. -/
def placed {α : Type} (rh : Retain) (x : α) (l : List α) : List α := if rh == .strm then l ++ [x] else x :: l
/-- At most 12 lines of a set are sticky: the mark of the least recently used one is cleared (R311). -/
def unstick {α : Type} [BEq α] (inSet sticky : α → Bool) (clear : α → α) (l : List α) : List α :=
  let marked := l.filter fun x => inSet x && sticky x
  if marked.length ≤ 12 then l else l.map fun x => if some x == marked.getLast? then clear x else x

/-! ### Lines, leases and copies (R309-R316) -/

/-- EVH of a line's set (R315). -/
def State.evhOf (s : State) (line : Nat) : Nat := (assoc (s.homeSet line) s.evh).getD 0
def State.raiseEvh (s : State) (line e : Nat) : State := { s with evh := setAssoc (s.homeSet line) (Nat.max (s.evhOf line) e) s.evh }
/-- What the home knows of a line: one that is not at the home level has LX = EVH, length code 3 and no grant (R313, R315). -/
def State.lineInfo (s : State) (line : Nat) : LineInfo :=
  match s.lines.find? (·.line == line) with
  | some i => if i.home then i else { line := line, lx := s.evhOf line, wct := i.wct }
  | none => { line := line, lx := s.evhOf line }
/-- A change of what the home knows of a line, which keeps the line's place in the order of use (R311). -/
def State.modLine (s : State) (line : Nat) (f : LineInfo → LineInfo) : State :=
  { s with lines := if s.lines.any (·.line == line) then s.lines.map fun x => if x.line == line then f (s.lineInfo line) else x
                    else f (s.lineInfo line) :: s.lines }

/-- A leased copy is used only while PT is below its expiry - 4 (R312). -/
def Copy.usable (c : Copy) (pt : Nat) : Bool := pt + 4 < c.expiry

/-- The caches that a party's accesses pass on the way to the home (R309): first level, then the RDC for lines homed elsewhere. -/
def State.pathOf (s : State) (p : Party) (first : Nat → Holder) (pa : Nat) : List Holder :=
  match p with
  | .lc _ => []
  | .grp _ _ =>
    let c := s.coreOf p
    if s.homeAt pa = c / 24 then [first c] else [first c, .rdc (c / 24)]

/-- Lines of a page that takes windowed stores (R302): every page, once other packages belong to the domain. (DEDUCED, safe: log entry 32.) -/
def State.takesWindowed (s : State) (_pa : Nat) : Bool := s.link.domain != 1#64 <<< s.link.pkg

/-- RESERVATION_CANCEL for every core but `except` whose reservation is on a line (R204). -/
def State.cancelOn (s : State) (line : Nat) (but : Option Nat) : State :=
  { s with lcs := s.lcs.mapIdx fun n c =>
      if some n != but && c.resv.any (·.line == line) then { c with resv := none } else c }
/-- LATENCY_CORE_RECALL (R314): no other core keeps a copy of the line. -/
def State.recall (s : State) (line : Nat) (but : Option Nat) : State :=
  { s.cancelOn line but with dir := s.dir.filter fun e => !(e.line == line && some e.core != but) }

/-- A recall of the line is deferred (R204): a reservation of the last 128 ns lies on it. -/
def State.deferred (s : State) (line : Nat) : Bool := s.lcs.any fun c => c.resv.any fun r => r.line == line && s.pt < r.deferEnd
/-- The recall of a line arrives at the cores that have reserved it (R204). -/
def State.markRecall (s : State) (line : Nat) : State :=
  { s with lcs := s.lcs.map fun c => { c with resv := c.resv.map fun r => if r.line == line then { r with recalled := true } else r } }
/-- A line comes to the home level or is touched there (R309, R311): a line that enters a full set takes the place of the least recently
used one, which leaves with its LX folded into the set's EVH (R315) and with its latency-core copies recalled (R317). A line whose recall
is deferred (R204) stays, and the next one leaves. (DESIGN CHOICE, safe: log entry 40.) -/
def State.enterHome (s : State) (line : Nat) (rh : Retain) : State :=
  let i := { s.lineInfo line with home := true }
  let others := s.lines.filter fun x => !(x.line == line)
  match victim 16 (fun x => x.home && s.homeSet x.line == s.homeSet line) (fun x => s.deferred x.line) others with
  | some v =>
    if (s.lines.any fun x => x.line == line && x.home) then { s with lines := placed rh i others }
    else if s.deferred v.line then State.markRecall { s with lines := placed rh i others } v.line
    else
      let left := others.map fun x => if x.line == v.line then { line := v.line, wct := v.wct } else x
      State.recall { s.raiseEvh v.line v.lx with lines := placed rh i left } v.line none
  | none => { s with lines := placed rh i others }
/-- The home's LX for a line is at least `e` (R335). -/
def State.raiseLx (s : State) (line e : Nat) : State := (s.enterHome line .dflt).modLine line fun i => { i with lx := Nat.max i.lx e }

/-- The length code at a fill (R313): it rises when the fill finds no store since the previous grant. -/
def LineInfo.nextCode (i : LineInfo) : Nat := if i.granted && !i.stored then Nat.min 6 (i.code + 1) else i.code
/-- The expiry of a lease that the home grants at `g` (R312, R313), of the length that the fill leaves; `none` for lease class 3.
(DESIGN CHOICE, safe in part: log entry 41.) -/
def State.leaseEnd (s : State) (line lc g : Nat) (win : Bool) : Option Nat :=
  let e := match lc with
    | 0 => some (g + 256 * 2 ^ (s.lineInfo line).nextCode)
    | 1 => some (g + 256)
    | 2 => some (g + 16000)
    | _ => none
  let cap := match s.replicas.find? fun r => r.page == line / 1024 with | some r => r.expiry | none => g + 16000
  e.map fun x => Nat.min (Nat.min x (Nat.min cap (g + 16000))) (if win then g + s.link.w / 4 else x)

/-- LEASE_GRANT (R312, R313): a fill from the home. -/
def State.grant (s : State) (line lc : Nat) (win : Bool) : State × Option Nat :=
  match s.leaseEnd line lc s.pt win with
  | none => (s, none)
  | some e => (s.modLine line fun i => { i with lx := Nat.max i.lx e, code := i.nextCode, granted := true, stored := false }, some e)

/-- The usable copy of a line that one of the holders has, if it has not been evicted (log entry 6). -/
def State.copyAt (s : State) (hs : List Holder) (line : Nat) : Option Copy :=
  if s.evict then none else hs.findSome? fun h => s.copies.find? fun c => c.holder == h && c.line == line && c.usable s.pt

/-- A cache fills or touches a line (R311). -/
def putCopy (l : List Copy) (rh : Retain) (c0 : Copy) : List Copy :=
  let c := { c0 with sticky := rh == .stky }
  let inSet (x : Copy) : Bool := x.holder == c.holder && x.line % c.holder.sets == c.line % c.holder.sets
  let rest := l.filter (fun x => !(x.holder == c.holder && x.line == c.line))
  let room := match victim c.holder.ways inSet (·.sticky) rest with | some v => rest.erase v | none => rest
  unstick inSet (·.sticky) (fun x => { x with sticky := false }) (placed rh c room)

/-- A read through leased caches (R309, R312, R294): from the first usable copy on the path, filling the levels before it; else a
fill from the home, as for a normal access of `p`. `.byp` reads the home and fills nothing below it. The second part is the bytes in which
the copy is older, the third whether the read has reached the home. -/
def State.through (s : State) (hs : List Holder) (pa lc : Nat) (rh : Retain) (win : Bool) : State × List (Nat × Byte) × Bool :=
  if rh == .byp || hs.isEmpty then
    ({ s.enterHome (lineOf pa) rh with copies := s.copies.filter fun c => !(hs.contains c.holder && c.line == lineOf pa) }, [], true)
  else match s.copyAt hs (lineOf pa) with
    | some c =>
      let near := hs.takeWhile fun h => (s.copyAt [h] (lineOf pa)).isNone
      ({ s with copies := near.foldl (fun l h => putCopy l rh { c with holder := h }) (putCopy s.copies rh c) }, c.stale, false)
    | none => match (s.enterHome (lineOf pa) rh).grant (lineOf pa) lc win with
      | (s1, none) => (s1, [], true)
      | (s1, some e) =>
        ({ s1 with copies := hs.foldr (fun h l => putCopy l rh { holder := h, line := lineOf pa, expiry := e, stale := [] }) s1.copies }, [], true)

/-- The bytes of a read, with the older bytes of a copy over the home's. -/
def State.overlay (s : State) (stale : List (Nat × Byte)) (a n : Nat) : List Byte :=
  (List.range n).map fun k => (assoc (a + k) stale).getD (s.byte (a + k))

/-- Copies keep the old bytes of a store unless the store passed through them (R310). -/
def ageCopies (s : State) (own : List Holder) (pa : Nat) (data : List Byte) : List Copy :=
  s.copies.map fun c =>
    if own.contains c.holder then { c with stale := c.stale.filter fun x => !(pa ≤ x.1 && x.1 < pa + data.length) }
    else
      { c with stale := (List.range data.length).foldl (fun st k =>
          if c.line == lineOf (pa + k) && (assoc (pa + k) st).isNone then (pa + k, s.byte (pa + k)) :: st else st) c.stale }

/-- The write completion time of a store performed at the home now (R314). (DEDUCED, unsafe: log entry 57.) -/
def State.wctOf (s : State) (line : Nat) : Nat := Nat.max s.pt (Nat.max (s.lineInfo line).lx (s.evhOf line))

/-- LX is reset and the length code falls by 2 when a lease is alive (R313, R314). -/
def State.storeLine (s : State) (line : Nat) (rh : Retain := .dflt) : State :=
  let w := s.wctOf line
  let lx := s.pt
  (s.enterHome line rh).modLine line fun i =>
    { i with code := if i.lx > lx then i.code - 2 else i.code, lx := lx, stored := true, wct := Nat.max i.wct w }

/-! ### Latency-core copies, reservations, host copies (R204, R316, R392) -/

/-- A latency core holds a copy of a line (R316), in the private cache's order of use (R311). -/
def State.setDir (s : State) (n line : Nat) (x : Moesi) (rh : Retain) : State :=
  let inSet (e : PCopy) : Bool := e.core == n && e.line % 512 == line % 512
  let rest := s.dir.filter fun e => !(e.line == line && e.core == n)
  let room := match victim 16 inSet (·.sticky) rest with | some v => rest.erase v | none => rest
  let new : PCopy := { line := line, core := n, st := x, sticky := rh == .stky }
  { s with dir := unstick inSet (·.sticky) (fun e => { e with sticky := false }) (placed rh new room) }
def State.holdsLine (s : State) (n line : Nat) : Bool := s.dir.any fun e => e.line == line && e.core == n
def State.dropDir (s : State) (n line : Nat) : State := { s with dir := s.dir.filter fun e => !(e.line == line && e.core == n) }
/-- The directory grants exclusive or modified ownership only while no waiter is registered on the line and no tether engine holds it (R316). -/
def State.mayOwn (s : State) (line : Nat) : Bool :=
  !(s.tether.any (·.1 == line)) && !(s.waiters.any fun w => w.registered && w.forme.isNone && lineOf w.pa == line)
/-- Another party reads a line (R316): its owner keeps it owned or shared, and a downgrade cancels the owner's reservation (R204). -/
def State.downgrade (s : State) (line : Nat) (but : Option Nat) : State :=
  let hit (e : PCopy) : Bool := e.line == line && some e.core != but && (e.st == .m || e.st == .e)
  { s with
    lcs := s.lcs.mapIdx fun n c => if (s.dir.any fun e => hit e && e.core == n) && c.resv.any (·.line == line) then { c with resv := none } else c
    dir := s.dir.map fun e => if hit e then { e with st := if e.st == .m then .o else .s } else e }

/-- An operation of the tether engine holds the line (R323): the line store of a die has 16,384 lines, and the least recently used one
returns when a slot is needed. (DESIGN CHOICE, safe: log entry 40.) -/
def State.holdLine (s : State) (line : Nat) : State :=
  let rest := s.tether.filter (·.1 != line)
  let full := victim 16384 (fun e => homeDie (128 * e.1) == homeDie (128 * line)) (fun _ => false) rest
  { s with tether := (line, s.pt) :: (match full with | some v => rest.erase v | none => rest) }
/-- A store to a held line is an operation of its engine (R323). -/
def State.renewLine (s : State) (line : Nat) : State :=
  if s.tether.any (·.1 == line) then s.holdLine line else s

/-- The halves that the host holds of the lines that a range touches (R392). -/
def State.hostHalves (s : State) (pa n : Nat) : List (Nat × Bool) :=
  s.host.halves.filter fun h => lineOf pa ≤ h.1 / 2 && h.1 / 2 ≤ lineOf (pa + n - 1)
/-- A store to the line must wait (R204: a deferred recall; R392: the host holds a half). -/
def State.homeBusy (s : State) (pa n : Nat) (who : Option Party) : Bool :=
  let line := lineOf pa
  (s.lcs.mapIdx (fun k c => (k, c))).any (fun (k, c) =>
      some (Party.lc k) != who && c.resv.any fun r => r.line == line && s.pt < r.deferEnd) ||
  !(s.hostHalves pa n).isEmpty
/-- What a store that must wait sets going: the recall is deferred, back-invalidate snoops are sent. (DESIGN CHOICE, safe in part: log entry 6.) -/
def State.press (s : State) (pa n : Nat) (who : Option Party) : State :=
  { s with
    lcs := s.lcs.mapIdx fun k c =>
      if some (Party.lc k) != who && c.resv.any (·.line == lineOf pa) then
        { c with resv := c.resv.map fun r => { r with recalled := true } } else c
    host := { s.host with binv := (s.hostHalves pa n).foldl (fun b h => addSet (h.1 / 2) b) s.host.binv } }

/-- The replicas' copies of a thread. -/
def State.replicasOf (s : State) (p : Party) : List Party :=
  match p with
  | .lc _ => []
  | .grp tid j =>
    let t := s.team tid
    (s.teams.filter fun x => x.fam == t.fam && x.num == t.num && !x.packed).map fun x => .grp x.tid j
/-- A value that comes from the home by another way than the caches replaces the party's copies of the line (R294). -/
def State.dropLine (s : State) (p : Party) (pa0 : Nat) : State :=
  match p with
  | .lc _ => s
  | .grp _ _ =>
    let pa := s.redirect pa0
    { s with copies := s.copies.filter fun c => !((s.pathOf p .l1 pa ++ s.pathOf p .kc pa).contains c.holder && c.line == lineOf pa) }

/-- A team comes to a core with values that it has read elsewhere: the caches there hold nothing older (R293, R357). (DEDUCED, unsafe: log entry 28.) -/
def State.dropCore (s : State) (core : Nat) : State :=
  { s with copies := s.copies.filter fun c => c.holder != .l1 core && c.holder != .kc core && c.holder != .rdc (core / 24) }

/-! ### Store records (R341) -/

/-- The byte and the bit of a host page in the bitmap that bring-up reserves; the record of a page of the package's own memory lies at its
home. (DESIGN CHOICE, unsafe in part: log entry 3.) -/
def State.recordAt (s : State) (page : Nat) : Option (Nat × Nat) :=
  let pa := page * 2 ^ 17
  if paDie pa = 31 && paPkg pa = s.link.pkg then some (s.own (Config.storeRec + paOff pa / 2 ^ 20), paOff pa / 2 ^ 17 % 8) else none
/-- The page's store record is set. -/
def State.recorded (s : State) (page : Nat) : Bool :=
  match s.recordAt page with
  | some (a, k) => (s.byte a).getLsbD k
  | none => s.srec.contains page
/-- Sets or clears the page's store record. -/
def State.record (s : State) (page : Nat) (on : Bool) : State :=
  match s.recordAt page with
  | some (a, k) =>
    let bit : Byte := 1#8 <<< k
    s.setBytes a [if on then s.byte a ||| bit else s.byte a &&& ~~~bit]
  | none => { s with srec := if on then addSet page s.srec else s.srec.erase page }

/-! ### Waiters (R211) -/

/-- A waiter's condition on the bytes it waits on, read little-endian (R210, R218). -/
def WCond.holds (w : WCond) (n m : Nat) : Bool :=
  match w with
  | .cond c b =>
    let bw := 8 * n
    let u := m
    let b' := b.toNat % 2 ^ bw
    let sg (x : Nat) : Int := (BitVec.ofNat bw x).toInt
    match c with
    | .eq => u == b'
    | .ne => u != b'
    | .ge => sg u ≥ sg b'
    | .geu => u ≥ b'
    | .lt => sg u < sg b'
    | .ltu => u < b'
  | .phase tok => m / 2 ^ 32 % 2 ^ 16 != tok

/-- Raises `s.rh` with a value read from the home whose write completion time has not passed (R296). -/
def State.learn (s : State) (p : Party) (line : Nat) : State :=
  let w := (s.lineInfo line).wct
  if w > s.pt then s.modGrp p fun g => { g with rh := Nat.max g.rh w } else s

/-- The thread of a waiter returns with the current value of its bytes; a waiter whose team is not resident is marked and
returns at restore (R211). -/
def State.release1 (s : State) (w : Waiter) : State :=
  let s0 := { s with waiters := s.waiters.filter fun x => !(x.party == w.party && x.lane == w.lane) }
  match w.party with
  | .lc n =>
    if n ≥ 96 then { s0 with outbox := s0.outbox ++ [.reply (n - 96) w.lane (s.rdN w.pa w.n) (s.poisoned w.pa w.n)] }
    else (s0.learn w.party (lineOf w.pa)).wake w.party w.lane fun t => { t with got := some (s.rdN w.pa w.n, s.poisoned w.pa w.n) }
  | .grp tid _ =>
    if (s.team tid).st == .resident then
      ((s0.learn w.party (lineOf w.pa)).dropLine w.party w.pa).wake w.party w.lane fun t => { t with got := some (s.rdN w.pa w.n, s.poisoned w.pa w.n) }
    else { s0 with waiters := s0.waiters ++ [{ w with selected := true }] }

/-- WAITER_REEVALUATE (R211): every registered waiter whose bytes a write overlaps. -/
def State.reeval (s : State) (pa n : Nat) : State :=
  (s.waiters.filter fun w => w.registered && w.forme.isNone && !w.selected && w.pa < pa + n && pa < w.pa + w.n &&
      w.cond.holds w.n (s.rdN w.pa w.n)).foldl (fun st w => st.release1 w) s

/-! ### Stores at the home -/

/-- Writes to the control blocks are read by the hardware (R326, R398, R404, R428): the steps that they owe. -/
def State.windowEvents (s : State) (pa n : Nat) (data : List Byte) : List Instr :=
  let hits (base len : Nat) : Bool := pa < base + len && base < pa + n
  (if hits (s.own Config.linkctl) 64 then [Instr.linkControlWrite] else []) ++
  ((List.range 4).filterMap fun k => if hits (s.own (Config.netctl k)) 64 then some (Instr.networkControlWrite k) else none) ++
  ((List.range 96).filterMap fun k =>
    let a := s.own Config.startTable + 8 * k
    if hits a 8 && (data.mapIdx fun j b => (pa + j, b)).any (fun x => a ≤ x.1 && x.1 < a + 8 && x.2 != 0#8) then some (Instr.latencyCoreStart k) else none)

/-- The family whose slot the samples of a party carry (R325). -/
def State.samplesFor (s : State) : Party → Option W32
  | .lc _ => none
  | .grp tid _ => (s.team? tid).map (·.fam)

/-- A sampled access reaches its home (R325): one in 64 on each die. The page's entry counts the requester die; a new page takes an
entry, at the cost of the least recently sampled one of the die; the family's affinity to the home die rises, up to 65,535.
(DESIGN CHOICE, unsafe: log entry 30.) -/
def State.sample (s : State) (pa req : Nat) (fam : Option W32) : State :=
  let h := homeDie pa
  let d := s.die h
  if paPkg pa != s.link.pkg || d.mode % 2 = 0 || d.epochUs = 0 then s
  else
    let s1 := s.modDie h fun x => { x with accesses := (x.accesses + 1) % 64 }
    if (d.accesses + 1) % 64 != 0 then s1
    else
      let page := pageOf pa
      let entry : Track := match s.track.find? (·.page == page) with
        | some t => { t with cnt := setAssoc req (Nat.min 255 ((assoc req t.cnt).getD 0 + 1)) t.cnt }
        | none => { page := page, cnt := [(req, 1)] }
      let rest := s.track.filter (·.page != page)
      let full := (rest.filter fun t => homeDie (t.page * 2 ^ 17) == h).length ≥ 16384
      let rest' := if full then match rest.find? fun t => homeDie (t.page * 2 ^ 17) == h with
        | some old => rest.erase old
        | none => rest else rest
      let s2 := { s1 with track := rest' ++ [entry] }
      match fam with
      | some id => if h < 24 then s2.modFam id fun f =>
          { f with affinity := setAssoc h (Nat.min 65535 ((assoc h f.affinity).getD 0 + 1)) f.affinity } else s2
      | none => s2

/-- The bytes are written; while a hand-over of the page to another package runs, they are sent on to it (R400 step 2). -/
def State.handForward (s : State) (pa : Nat) (data : List Byte) : State :=
  let s1 := s.setBytes pa data
  match s.pages.find? (·.isFor (pageOf pa)) with
  | some r => (match r.ho with
    | some q => if q = s.link.pkg || r.writer != s.link.pkg then s1
                else { s1 with outbox := s1.outbox ++ [.forward q { pkg := s.link.pkg, window := s.pt / s.link.w, pa := r.page * 2 ^ 17 + pa % 2 ^ 17,
                                                                    op := .store data }] }
    | none => s1)
  | none => s1
/-- HOME_STORE_PERFORM (R314): in a proofed family the store is every replica's own (R379), and passes through the caches of each. The recall,
the bytes, poison, the store record (R341), LX, copies, waiters. The second part is the write completion time. `who` is the party whose path
the store passed through, `req` the requester die of a store that is no party's (R325: of a host access, the proxying H-die). -/
def State.homeStore (s : State) (pa0 : Nat) (data : List Byte) (who : Option Party) (rh : Retain := .dflt) (req : Option Nat := none) : State × Nat :=
  let pa := s.redirect pa0
  let n := data.length
  let s0 := s.touch pa n
  let w := s0.wctOf (lineOf pa)
  let own := match who with
    | some (.grp t j) => (Party.grp t j :: s0.replicasOf (.grp t j)).flatMap fun q => s0.pathOf q .l1 pa ++ s0.pathOf q .kc pa
    | _ => []
  let but := match who with
    | some (.lc k) => some k
    | _ => none
  let s1 := { s0 with copies := ageCopies s0 own pa data }
  let s2 := s1.recall (lineOf pa) but
  let s3 := State.record { s2.handForward pa data with mpoison := clearPoison s2.mpoison pa n, agenda := s2.agenda ++ s2.windowEvents pa n data }
    (pageOf pa) true
  ((((s3.storeLine (lineOf pa) rh).renewLine (lineOf pa)).reeval pa n).sample pa
    (match who with | some p => s.dieOf p | none => req.getD (24 + pa / 128 % 4)) (who.bind s.samplesFor), w)

/-- One more in a period, of counts that are kept for two periods. -/
def bump (per k : Nat) (l : List ((Nat × Nat) × Nat)) : List ((Nat × Nat) × Nat) :=
  setAssoc (per, k) ((assoc (per, k) l).getD 0 + 1) (l.filter fun e => e.1.1 + 1 ≥ per)
/-- Counts a store of this package's own parties to a page (R400). -/
def State.countStore (s : State) (pa : Nat) : State :=
  { s with storePer := s.pt / 100000, ownStores := bump (s.pt / 100000) (pageOf pa) s.ownStores }
/-- The party as which another package acts at this package's homes (R399): no thread of this package. -/
def pkgParty (pkg : Nat) : Party := .lc (96 + pkg)
def pkgOf? : Party → Option Nat | .lc n => if n < 96 then none else some (n - 96) | .grp _ _ => none

/-- A store of a party: `s.rh` rises to the write completion time (R189). -/
def State.storeBy (s : State) (p : Party) (pa : Nat) (data : List Byte) (rh : Retain := .dflt) : State :=
  let (s1, w) := (if (pkgOf? p).isSome then s else s.countStore pa).homeStore pa data (some p) rh
  s1.modGrp p fun g => { g with rh := Nat.max g.rh w }

/-! ### Windows (R302, R398-R401) -/

/-- The link admits windowed stores (R398, R401, R409): while it is ACTIVE and no quiesce runs, over a sub-link that is up. -/
def Link.admits (l : Link) : Bool := l.state == .active && !l.quiescing && l.sublinks.any id
/-- PT at which a window opened now closes (R302). -/
def State.windowEnd (s : State) : Nat := (s.pt / s.link.w + 2) * s.link.w
/-- The packages to which a store travels in a window (R302, R399): the page's WRITER, or the holders of its replicas. -/
def State.windowPeers (s : State) (pa : Nat) : W64 :=
  if s.remote pa then 1#64 <<< s.writerOf pa
  else match s.pages.find? (·.isFor (pageOf pa)) with | some r => r.repl &&& ~~~(1#64 <<< s.link.pkg) | none => 0#64
/-- A store to the page travels in a window. -/
def State.travels (s : State) (pa : Nat) : Bool := s.windowPeers pa != 0#64
/-- A windowed store that the link does not admit waits (R398, R401, R409). -/
def State.barred (s : State) (pa : Nat) : Bool := s.travels pa && !s.link.admits
/-- A windowed store of the own package to these bytes is not yet applied: later accesses to them wait (R399). -/
def State.windowedOver (s : State) (pa n : Nat) : Bool :=
  s.wstores.any fun w => !w.applied && w.pa < pa + n && pa < w.pa + w.data.length
/-- A store enters the window of its PT (R302, R401): `applied` when the home has performed it. (DESIGN CHOICE, safe in part: log entry 6.) -/
def State.openWindow (s : State) (who : Option Party) (pa : Nat) (data : List Byte) (applied : Bool) : State :=
  let w : WStore := { party := who, pa := pa, data := data, window := s.pt / s.link.w, peers := s.windowPeers pa, applied := applied }
  { s with wstores := s.wstores ++ [w] }
/-- A store that no party waits for (the hardware's own, or the host's) is performed at its home, and in the windows of the page's
replicas (R302). -/
def State.openFor (s : State) (pa : Nat) (data : List Byte) : State := if s.travels pa then s.openWindow none pa data true else s

/-- The hardware's own store or update of a doubleword, performed at its home now: an update is an RMW at the tether engine, which holds the
line (R323, R340). The translation horizon of a page move counts from the store to its entry (R328 step 4). -/
def State.hwNow (s : State) (x : HwStore) : State :=
  let pa := s.redirect x.pa
  let data := if x.set then natLe 8 (s.rdN pa 8 ||| leNat x.data) else x.data
  let s0 := if x.set then ((s.enterHome (lineOf pa) .dflt).recall (lineOf pa) none).holdLine (lineOf pa) else s
  let s1 := State.openFor ((s0.countStore pa).homeStore x.pa data none .dflt x.die).1 pa data
  { s1 with moves := s1.moves.map fun m => if !x.set && 0 < m.owed && s.redirect m.ea == pa then
      { m with owed := m.owed - 1, switchAt := Nat.max m.switchAt (s.pt + 16004) } else m }
/-- The home of a store lets it be performed now (R204, R392, R398, R399). -/
def State.mayStore (s : State) (pa n : Nat) (who : Option Party) : Bool := !s.homeBusy pa n who && !s.barred pa && !s.windowedOver pa n
/-- The hardware's own stores are performed in order, each when its home lets it (R204, R392). -/
def State.hwDrain (s : State) : List HwStore → State
  | [] => { s with hwq := [] }
  | x :: xs =>
    if s.mayStore (s.redirect x.pa) x.data.length none then State.hwDrain (s.hwNow x) xs
    else { s.press (s.redirect x.pa) x.data.length none with hwq := x :: xs }
def State.hwStore (s : State) (x : HwStore) : State := s.hwDrain (s.hwq ++ [x])
/-- A store of the hardware's own. (DEDUCED, safe: log entry 42.) -/
def State.storeHw (s : State) (pa : Nat) (data : List Byte) : State := s.hwStore { pa := pa, data := data }
/-- What the hardware reads of what it has written itself: its waiting stores come first. (DEDUCED, safe: log entry 42.) -/
def State.rdHw (s : State) (pa n : Nat) : Nat :=
  leNat ((List.range n).map fun k => s.hwq.foldl (fun b x =>
    if x.pa ≤ pa + k && pa + k < x.pa + x.data.length then
      (if x.set then b ||| x.data.getD (pa + k - x.pa) 0#8 else x.data.getD (pa + k - x.pa) 0#8) else b) (s.byte (pa + k)))

end Sys2Proof.Machine
end

