-- ==== Sys2Proof/Machine/Translate.lean ====
section
/-!
DEFINITION. Address translation (R330-R343), the access checks of R183, and the loads, stores and read-modify-writes of a thread:
what each returns, when it must wait, and what it traps on.
-/

namespace Sys2Proof.Machine

/-- A trap: the cause (R278), the faulting address or branch target, and the detail of the fault record (R280). -/
structure Trap where
  cause : Nat
  va : W64 := 0#64
  detail : W64 := 0#64
  /-- of a machine check: the physical address of a store that a latency core has lost (R410), and the structure and unit that met the error
  (R414), where they are known -/
  lost : W64 := 0#64
  met : Option (Nat × Nat) := none
  deriving DecidableEq, Repr

/-- Why a lane does not go on: it traps, or it waits at its word and issues again. -/
inductive Stop where
  | trap (t : Trap)
  | stall
  deriving DecidableEq, Repr

/-- An operation of one lane: the state it leaves, and its value or why it stops. -/
abbrev Eff (α : Type) := State × Except Stop α

def Eff.ok {α : Type} (s : State) (a : α) : Eff α := (s, .ok a)
def Eff.stall {α : Type} (s : State) : Eff α := (s, .error .stall)
def Eff.trap {α : Type} (s : State) (t : Trap) : Eff α := (s, .error (.trap t))
/-- Runs the next operation when the first has a value. -/
def Eff.bind {α β : Type} (x : Eff α) (k : State → α → Eff β) : Eff β :=
  match x with
  | (s, .ok a) => k s a
  | (s, .error e) => (s, .error e)

/-- Access codes of DETAIL bits 1:0 (R280). -/
def kindCode : AccKind → Nat | .load => 0 | .store => 1 | .rmw => 2 | .fetch => 3

/-! ### Leaves (R334) -/

def leafBit (l : W64) (k : Nat) : Bool := l.getLsbD k
def leafMt (l : W64) : Nat := l.toNat / 256 % 4
def leafLc (l : W64) : Nat := l.toNat / 1024 % 4
def leafPin (l : W64) : Nat := l.toNat / 4096 % 32
/-- The physical base of a leaf's page: bits 51:17, or 51:30 at level 2. -/
def leafBase (l : W64) : Nat := l.toNat % 2 ^ 52 / 2 ^ 17 * 2 ^ 17
/-- Bits of the page offset at a level. -/
def pageBits (level : Nat) : Nat := if level = 2 then 30 else 17

/-- A canonical address: bits 63:56 equal bit 55 (R36). -/
def canonical (va : W64) : Bool :=
  let t := va.toNat / 2 ^ 55
  t == 0 || t == 511
def upper (va : W64) : Bool := va.getLsbD 55

/-- The address space through which a thread translates (R332). -/
structure Space where
  root : Nat
  asid : Nat
  en : Bool
  sup : Bool
  deriving DecidableEq, Repr

def spaceOfPtbr (ptbr : W64) (sup : Bool) : Space :=
  { root := ptbr.toNat % 2 ^ 52 / 2 ^ 16 * 2 ^ 16, asid := ptbr.toNat / 2 ^ 52, en := ptbr.getLsbD 0, sup := sup }
def State.spaceOf (s : State) (p : Party) (l : Nat) : Space :=
  match p with
  | .lc n => spaceOfPtbr (s.lc n).ptbr (s.lc n).sup
  | .grp _ _ => spaceOfPtbr ((s.famOf p l).map (·.ptbr) |>.getD 0#64) false

/-- The core's TLB and the die's (R337). -/
def State.tlbPath (s : State) : Party → List Holder
  | .lc n => [.lc n, .hdie (24 + n / 24)]
  | .grp t _ => [.l1 (s.team t).core, .rdc ((s.team t).core / 24)]

/-- Table pointers lie in memory of dies 0-27 of the own package (R333). -/
def State.tableOk (s : State) (a : Nat) : Bool := paPkg a == s.link.pkg && paDie a ≤ 27

/-- The index of a level (R330). -/
def vaIndex (va : W64) (level : Nat) : Nat := va.toNat / 2 ^ (56 - 13 * level) % 8192

/-- A walk's read of an entry at its home, as a `.byp` load (R335, R316): the owner is downgraded, the line's LX rises to the expiry `x`, and
the read is sampled for the walker's die (R325). -/
def State.walkRead (s : State) (ra x die : Nat) : State :=
  (((s.touch ra 8).downgrade (lineOf ra) none).raiseLx (lineOf ra) x).sample ra die none
/-- The walk (R335) over the remaining levels; `e` is the expiry that each entry's LX rises to, with the walker's die; none for a quiet walk
(R342). -/
def walkFrom (s : State) (va : W64) (base : Nat) (e : Option (Nat × Nat)) : List Nat → State × Except Nat (W64 × Nat × Nat)
  | [] => (s, .error 0x13)
  | level :: rest =>
    let ea := base + 8 * vaIndex va level
    if !s.tableOk ea then (s, .error 0x13)
    else
      let s1 := match e with | some x => s.walkRead (s.redirect ea) x.1 x.2 | none => s
      let pte := BitVec.ofNat 64 (s1.rdN (s1.redirect ea) 8)
      if s1.poisoned (s1.redirect ea) 8 then (s1, .error 0x19)
      else if !leafBit pte 0 then (s1, .error 0x10)
      else if pte.toNat / 2 ^ 52 % 256 != 0 then (s1, .error 0x13)
      else if !leafBit pte 1 && !leafBit pte 2 && !leafBit pte 3 then
        if level = 3 || pte.toNat % 2 ^ 16 / 2 != 0 then (s1, .error 0x13)
        else walkFrom s1 va (pte.toNat % 2 ^ 52 / 2 ^ 16 * 2 ^ 16) e rest
      else if level = 1 || (level = 2 && pte.toNat / 2 ^ 17 % 8192 != 0) || (leafBit pte 2 && !leafBit pte 1) || leafPin pte > 28
      then (s1, .error 0x13)
      else (s1, .ok (pte, ea, level))

/-- A walk without LX, A or install (R342). -/
def State.walkQuiet (s : State) (root : Nat) (va : W64) : Except Nat (W64 × Nat × Nat) := (walkFrom s va root none [1, 2, 3]).2

/-- ACCESSED_BIT_SET (R340, R342): an atomic OR at the entry's tether engine, which its issuer does not wait for. -/
def State.orEntry (s : State) (ea bits : Nat) (die : Option Nat := none) : State :=
  s.hwStore { pa := ea, data := natLe 8 bits, set := true, die := die }
/-- What a walk answers, in place of a cause, while the home of an entry that it has to update lets no store pass (R340 with R204, R392). -/
def walkBusy : Nat := 0x100

/-- The user, supervisor and access checks of a leaf (R336). -/
def permits (leaf : W64) (sup : Bool) (k : AccKind) : Bool :=
  (sup || leafBit leaf 4) && !(sup && k == .fetch && leafBit leaf 4) &&
  (match k with
   | .load => leafBit leaf 1
   | .store => leafBit leaf 2
   | .rmw => leafBit leaf 1 && leafBit leaf 2
   | .fetch => leafBit leaf 3)

/-- A translated address: physical address, memory type (R334), lease class. -/
structure Xl where
  pa : Nat
  mt : Nat
  lc : Nat
  deriving DecidableEq, Repr

/-- The memory type in force: host memory is host-coherent, other dies are not (R334). -/
def mtOf (pa mt : Nat) : Nat := if paDie pa = 31 then (if mt = 0 then 2 else mt) else if mt = 2 then 0 else mt

/-- A TLB entry that matches (R337) and is still usable (R338). -/
def Tlb.hits (t : Tlb) (h : Holder) (sp : Space) (va : W64) (pt : Nat) : Bool :=
  t.holder == h && (t.asid == sp.asid || leafBit t.leaf 5) && va.toNat / 2 ^ pageBits t.level == t.vpage && pt + 4 < t.expiry

/-- The entry used at one holder: of two that match, the older or the newer (R338, log entry 6). -/
def State.tlbAt (s : State) (h : Holder) (sp : Space) (va : W64) : Option Tlb :=
  (s.tlbs.filter (·.hits h sp va s.pt)).foldl (fun best t => match best with
    | none => some t
    | some b => if s.tlbOlder then (if t.expiry < b.expiry then some t else some b)
                else (if b.expiry < t.expiry then some t else some b)) none

def State.tlbFind (s : State) (hs : List Holder) (sp : Space) (va : W64) : Option Tlb :=
  if s.evict then none else hs.findSome? fun h => s.tlbAt h sp va

/-- The die whose second-level TLB and walkers a path ends at (R337). -/
def walkerDie (hs : List Holder) : Nat := match hs.getLast? with | some (.rdc d) => d | some (.hdie d) => d | _ => 24
/-- Entries of a core's TLB and of a die's (R337). -/
def Holder.entries : Holder → Nat | .rdc _ => 16384 | .hdie _ => 16384 | _ => 256
/-- A full TLB gives up the entry that it has held longest. (DESIGN CHOICE, safe: log entry 40.) -/
def State.tlbRoom (s : State) (hs : List Holder) : State :=
  { s with tlbs := hs.foldl (fun l h => match victim h.entries (·.holder == h) (fun _ => false) l with
      | some v => l.erase v
      | none => l) s.tlbs }
/-- Installs a leaf at every holder of the path; a holder keeps no other entry of that page size for the page. -/
def State.install (s : State) (hs : List Holder) (t : Tlb) : State :=
  let s1 : State := { s with tlbs := s.tlbs.filter fun x => !(hs.contains x.holder && x.vpage == t.vpage && x.level == t.level && x.asid == t.asid &&
        !(x.expiry > s.pt && x.leaf != t.leaf)) }
  { s1 with tlbs := hs.map (fun h => { t with holder := h }) ++ (s1.tlbRoom hs).tlbs }

/-- The address bits that lead to the entry of a level (R330). -/
def vaPrefix (va : W64) (level : Nat) : Nat := va.toNat / 2 ^ (56 - 13 * level)
/-- The die's non-leaf entry for a level of an address, used below its expiry (R337, R338). (DEDUCED, unsafe: log entry 37.) -/
def State.nleafAt (s : State) (hs : List Holder) (sp : Space) (va : W64) (level : Nat) : Option NLeaf :=
  if s.evict then none else s.nleaf.find? fun x => hs.getLast? == some x.holder && x.asid == sp.asid && x.level == level &&
    x.pre == vaPrefix va level && s.pt + 4 < x.expiry
/-- The tables that a walk's non-leaf entries name, by level. (DEDUCED, unsafe: log entry 37.) -/
def walkTables (s : State) (va : W64) (base : Nat) : List Nat → List (Nat × Nat)
  | [] => []
  | level :: rest =>
    let ea := base + 8 * vaIndex va level
    let pte := BitVec.ofNat 64 (s.rdN (s.redirect ea) 8)
    if leafBit pte 0 && !leafBit pte 1 && !leafBit pte 2 && !leafBit pte 3 then
      let next := pte.toNat % 2 ^ 52 / 2 ^ 16 * 2 ^ 16
      (level, next) :: walkTables s va next rest
    else []
/-- A walk that starts behind the entries that the die's cache supplies (R337); a translation built from a cached entry does not outlive
it (R338). The last part is the expiry. (DEDUCED, unsafe: log entry 37.) -/
def State.walkCached (s : State) (hs : List Holder) (sp : Space) (va : W64) : State × Except Nat (W64 × Nat × Nat × Nat) :=
  let start := match s.nleafAt hs sp va 2, s.nleafAt hs sp va 1 with
    | some x, _ => (x.base, x.expiry, [3])
    | none, some x => (x.base, x.expiry, [2, 3])
    | none, none => (sp.root, s.pt + 16000, [1, 2, 3])
  let e := Nat.min start.2.1 (s.pt + 16000)
  match walkFrom s va start.1 (some (e, walkerDie hs)) start.2.2 with
  | (s1, .error c) => (s1, .error c)
  | (s1, .ok (leaf, ea, level)) =>
    let new : List NLeaf := match hs.getLast? with
      | some h => (walkTables s va start.1 start.2.2).map fun t =>
          ({ holder := h, asid := sp.asid, pre := vaPrefix va t.1, level := t.1, base := t.2, expiry := e } : NLeaf)
      | none => []
    let same (x y : NLeaf) : Bool := x.holder == y.holder && x.asid == y.asid && x.level == y.level && x.pre == y.pre
    let rest := s1.nleaf.filter fun x => !(new.any (same x))
    -- 1,024 entries for each die (R337)
    let add (l : List NLeaf) (x : NLeaf) : List NLeaf :=
      x :: (match victim 1024 (·.holder == x.holder) (fun _ => false) l with | some v => l.erase v | none => l)
    ({ s1 with nleaf := new.foldl add rest }, .ok (leaf, ea, level, e))

/-- A walk that installs its leaf (R335, R340): A is set, and D for a store when `s.admode` is 1. In mode 1 the walker changes the entry in
place before it installs it, and waits for the entry's home; in mode 0 it does not wait. -/
def State.fill (s : State) (hs : List Holder) (sp : Space) (va : W64) (k : AccKind) : State × Except Nat Tlb :=
  match s.walkCached hs sp va with
  | (s1, .error c) => (s1, .error c)
  | (s1, .ok (leaf, ea, level, e)) =>
    let wr := s.admode && (k == .store || k == .rmw)
    let bits := if wr && permits leaf sp.sup k then 0xC0 else 0x40
    let want := leaf ||| BitVec.ofNat 64 bits
    let t : Tlb := { holder := .hdie 0, asid := sp.asid, vpage := va.toNat / 2 ^ pageBits level, level := level,
                     leaf := if s.admode then want else leaf ||| 0x40#64, ea := ea, expiry := e }
    if want == leaf then (s1.install hs t, .ok t)
    else if s.admode && (!s1.hwq.isEmpty || !s1.mayStore (s1.redirect ea) 8 none) then (s1.press (s1.redirect ea) 8 none, .error walkBusy)
    else ((s1.orEntry ea bits (some (walkerDie hs))).install hs t, .ok t)

/-- A translation from the TLBs or by a walk. Under `s.admode` = 1 a store through an entry with D = 0 walks again (R340). -/
def State.lookup (s : State) (hs : List Holder) (sp : Space) (va : W64) (k : AccKind) : State × Except Nat Tlb :=
  match s.tlbFind hs sp va with
  | some t =>
    if s.admode && (k == .store || k == .rmw) && !leafBit t.leaf 7 then s.fill hs sp va k
    else (s.install (hs.filter fun h => (s.tlbAt h sp va).isNone) t, .ok t)
  | none => s.fill hs sp va k

/-- The physical address must name a package of the domain and a die that exists (R331, R401, R2). -/
def State.paOk (s : State) (pa : Nat) : Bool :=
  s.link.domain.getLsbD (paPkg pa) && !(28 ≤ paDie pa && paDie pa ≤ 30)

/-- The translation of an access (R332, R336), or its cause. -/
def State.translate (s : State) (hs : List Holder) (sp : Space) (va : W64) (k : AccKind) : State × Except Nat Xl :=
  if !sp.en then
    if sp.sup then
      let pa := va.toNat % 2 ^ 52
      if s.paOk pa then (s, .ok { pa := pa, mt := mtOf pa 0, lc := 0 }) else (s, .error 0x13)
    else (s, .error 0x13)
  else match s.lookup hs sp va k with
    | (s1, .error c) => (s1, .error c)
    | (s1, .ok t) =>
      let b := pageBits t.level
      let pa := leafBase t.leaf / 2 ^ b * 2 ^ b + va.toNat % 2 ^ b
      if !permits t.leaf sp.sup k then (s1, .error 0x13)
      else if !s1.paOk pa then (s1, .error 0x13)
      else (s1, .ok { pa := pa, mt := mtOf pa (leafMt t.leaf), lc := leafLc t.leaf })

/-! ### The checks of R183 -/

/-- A range lies inside the lease list (R257). -/
def inLease (lease : List (Nat × Nat)) (a n : Nat) : Bool := lease.any fun r => r.1 ≤ a && a + n ≤ r.1 + r.2
/-- The leased bit of a descriptor: dw1 bit 36 (R89). -/
def Family.leased (f : Family) : Bool := (f.dw 1).testBit 36
/-- Replication: dw1 bits 33:32 (R89). -/
def Family.repl (f : Family) : Nat := f.dw 1 / 2 ^ 32 % 4

/-- The checks of R183 for an access to global memory, from the canonical check on; `n` is the size in bytes, and the alignment is
checked when `aligned`. `data` is false for fetches and constant-window reads, which lease lists do not bind. -/
def State.access (s : State) (p : Party) (l : Nat) (va : W64) (n : Nat) (k : AccKind) (aligned data : Bool) : Eff Xl :=
  let fault (c : Nat) : Trap :=
    { cause := c, va := va, detail := if c = 0x10 || c = 0x13 then BitVec.ofNat 64 (kindCode k) else 0#64 }
  let sp := s.spaceOf p l
  let lease := match s.famOf p l with | some f => if f.leased then some f.lease else none | none => none
  if !canonical va then Eff.trap s (fault 0x13)
  else if upper va && !sp.sup then Eff.trap s (fault 0x13)
  else if aligned && va.toNat % n != 0 then Eff.trap s (fault 0x12)
  else if data && lease.any (fun r => !inLease r va.toNat (if aligned then n else 1)) then Eff.trap s (fault 0x11)
  else match s.translate (s.tlbPath p) sp va k with
    | (s1, .ok x) => if k == .rmw && x.mt = 1 then Eff.trap s1 (fault 0x13) else Eff.ok s1 x
    | (s1, .error c) =>
      if c = walkBusy then Eff.stall s1
      else Eff.trap s1 (fault (if c = 0x10 && lease.any (fun r => inLease r va.toNat 1) then 0x13 else c))

/-! ### Replicas and other packages (R397-R401) -/

/-- A replica that can serve a read (R399). -/
def State.replicaFor (s : State) (pa : Nat) : Option Replica :=
  s.replicas.find? fun r => r.page == pageOf pa && r.filled && s.pt < r.expiry

/-! ### Loads -/

/-- What a load returns: its bytes and whether they are poisoned (R185). -/
abbrev Loaded := List Byte × Bool

/-- The first-level cache of a plain load, a constant-window read, a fetch (R309). -/
inductive Via where | data | const | code
  deriving DecidableEq, Repr
def Via.holder : Via → Nat → Holder | .data => .l1 | .const => .kc | .code => .ic

/-- The retention hint in force (R187, R188, R312): nothing below the home keeps a line of uncached or device memory or of lease class 3. -/
def Xl.hint (x : Xl) (rh : Retain) : Retain := if x.mt = 1 || x.mt = 3 || x.lc = 3 then .byp else rh

/-- A read that misses its first-level cache, or passes it by, replaces the older copies of the line in the core's L1 and constant cache
(R294). -/
def State.replaceOther (s : State) (p : Party) (via : Via) (pa : Nat) (byp : Bool) : State :=
  let own := via.holder (s.coreOf p)
  if !byp && (s.copyAt [own] (lineOf pa)).isSome then s
  else
    let old (h : Holder) : Bool := (h == .l1 (s.coreOf p) || h == .kc (s.coreOf p)) && h != own
    { s with copies := s.copies.filter fun c => !(old c.holder && c.line == lineOf pa) }

/-- A latency core's access to a line homed in this package (R316): a copy that it holds serves it; else the home does, after the owner's
downgrade, and a copy is filled unless `.byp` passes the private cache by. -/
def State.fillHome (s : State) (p : Party) (k pa : Nat) (rh : Retain) : State :=
  let line := lineOf pa
  match s.dir.find? fun e => e.line == line && e.core == k with
  | some e => if rh == .byp then s else s.setDir k line e.st rh
  | none =>
    let s1 := (s.downgrade line (some k)).enterHome line rh
    let s2 := if rh == .byp then s1 else s1.setDir k line .s rh
    s2.sample pa (s.dieOf p) (s.samplesFor p)
/-- A latency core's read: the value brings its write completion time (R296). -/
def State.readHome (s : State) (p : Party) (k pa : Nat) (rh : Retain) : State := (s.fillHome p k pa rh).learn p (lineOf pa)

/-- Asks for a replica of a page of another package (R399). -/
def State.askReplica (s : State) (pa : Nat) : State := { s with agenda := addSet (.replicaRequest (pageOf pa) s.link.pkg) s.agenda }

/-- A SIMT core's fill or read through its caches (R309, R312); one that reaches the home is sampled there (R325). -/
def State.fillLeased (s : State) (p : Party) (hs : List Holder) (pa lc : Nat) (rh : Retain) (win : Bool) : State × List (Nat × Byte) :=
  match s.through hs pa lc rh win with
  | (s1, stale, home) => (if home then (s1.downgrade (lineOf pa) none).sample pa (s.dieOf p) (s.samplesFor p) else s1, stale)
/-- A SIMT core's read of `n` bytes through its caches: bytes that the copy holds as the home does bring their write completion time (R296). -/
def State.readLeased (s : State) (p : Party) (hs : List Holder) (pa n lc : Nat) (rh : Retain) (win : Bool) : State × List (Nat × Byte) :=
  match s.fillLeased p hs pa lc rh win with
  | (s1, stale) => (if (List.range n).all fun k => (assoc (pa + k) stale).isSome then s1 else s1.learn p (lineOf pa), stale)

/-- One access of `n` bytes at a translated address (R191, R294, R312, R399): through leased copies on a SIMT core, coherently on a latency
core, through a replica for a page of another package. A windowed store of the package to these bytes comes first (R399). -/
def State.read1 (s : State) (p : Party) (x : Xl) (n : Nat) (via : Via) (rh0 : Retain) : Eff Loaded :=
  let pa := s.redirect x.pa
  let rh := x.hint rh0
  let s0 := s.touch pa n
  if s0.remote pa then
    match s0.replicaFor pa with
    | some r =>
      if s0.windowedOver pa n then Eff.stall s0
      else
        let s1 := if r.expiry < s0.pt + 10000 then s0.askReplica pa else s0
        (match p with
          | .lc k => Eff.ok (if rh == .byp then s1 else s1.setDir k (lineOf pa) .s rh) (s1.bytes pa n, s1.poisoned pa n)
          | .grp _ _ =>
            let (s2, stale, _) := (s1.replaceOther p via pa (rh == .byp)).through (s1.pathOf p via.holder pa) pa x.lc rh true
            Eff.ok s2 (s2.overlay stale pa n, s2.poisoned pa n))
    | none => Eff.stall (s0.askReplica pa)
  else if s0.windowedOver pa n then Eff.stall s0
  else
    match p with
    | .lc k => Eff.ok (s0.readHome p k pa rh) (s0.bytes pa n, s0.poisoned pa n)
    | .grp _ _ =>
      let (s1, stale) := (s0.replaceOther p via pa (rh == .byp)).readLeased p (s0.pathOf p via.holder pa) pa n x.lc rh (s0.takesWindowed pa)
      Eff.ok s1 (s1.overlay stale pa n, s1.poisoned pa n)
/-- Reads `n` bytes at a translated address; 16 bytes of device memory are two accesses at ascending addresses (R187). -/
def State.read (s : State) (p : Party) (x : Xl) (n : Nat) (via : Via) (rh : Retain) : Eff Loaded :=
  if x.mt = 1 && n = 16 then
    (s.read1 p x 8 via rh).bind fun s1 lo => (s1.read1 p { x with pa := x.pa + 8 } 8 via rh).bind fun s2 hi => Eff.ok s2 (lo.1 ++ hi.1, lo.2 || hi.2)
  else s.read1 p x n via rh

/-- The bytes of the thread's own held stores over those of memory (R374). -/
def forward (held : List Entry) (va : W64) (bs : List Byte) : List Byte :=
  bs.mapIdx fun k b =>
    let a := va.toNat + k
    match held.reverse.find? (fun e => e.va.toNat ≤ a && a < e.va.toNat + e.data.length) with
    | some e => e.data.getD (a - e.va.toNat) b
    | none => b
/-- Every byte is covered by held stores. -/
def covered (held : List Entry) (va : W64) (n : Nat) : Bool :=
  (List.range n).all fun k => held.any fun e => e.va.toNat ≤ va.toNat + k && va.toNat + k < e.va.toNat + e.data.length
def overlapsHeld (held : List Entry) (va : W64) (n : Nat) : Bool :=
  held.any fun e => e.va.toNat < va.toNat + n && va.toNat < e.va.toNat + e.data.length

/-- What a load returns with the thread's held stores over it. -/
def forwarded (held : List Entry) (va : W64) (r : Loaded) : Loaded := (forward held va r.1, r.2 && !covered held va r.1.length)

/-! ### Stores -/

/-- The thread's stores are held in a proof buffer (R372). -/
def State.proofed (s : State) (p : Party) (l : Nat) : Bool := (s.famOf p l).any fun f => f.repl > 1

/-- A windowed store of a party, which raises its `.sys` condition. -/
def State.sendWindowed (s : State) (p : Party) (pa : Nat) (data : List Byte) (applied : Bool) : State :=
  (s.openWindow (some p) pa data applied).modGrp p fun g => { g with wuntil := Nat.max g.wuntil s.windowEnd }

/-- A party's store to host memory is counted until the host has completed it (R189, R303, R391). -/
def State.awaitAck (s : State) (p : Party) (pa : Nat) (rmw : Bool) : State :=
  if paDie pa = 31 then
    State.modGrp { s with host := { s.host with acks := s.host.acks ++ [{ who := .party p, line := lineOf pa, rmw := rmw }] } } p
      fun g => { g with ackout := g.ackout + 1 }
  else s
/-- A performed store to a page of which other packages hold replicas is windowed (R302). -/
def State.sendReplicated (s : State) (p : Party) (pa : Nat) (data : List Byte) : State :=
  if s.travels pa then s.sendWindowed p pa data true else s
/-- The copies that a store passes through are touched with its hint (R188, R310, R311); a latency core holds the line modified when the
directory grants it (R316), and passes its private cache by with `.byp`. -/
def State.storeCaches (s : State) (p : Party) (pa : Nat) (rh : Retain) : State :=
  match p with
  | .lc k =>
    if paDie pa = 31 then s
    else if !s.mayOwn (lineOf pa) then s.dropDir k (lineOf pa)
    else if rh == .byp && !s.holdsLine k (lineOf pa) then s
    else s.setDir k (lineOf pa) .m rh
  | .grp _ _ =>
    let own := s.pathOf p .l1 pa
    if rh == .byp then s
    else { s with copies := (s.copies.filter fun c => own.contains c.holder && c.line == lineOf pa).foldl (fun l c => putCopy l rh c) s.copies }

/-- Performs a store at its home now (R189, R303): it waits for the home (R204, R392); stores to host memory count in `s.ackout`;
stores to pages of other packages and to replicated pages are windowed. -/
def State.putNow (s : State) (p : Party) (pa0 : Nat) (data : List Byte) (rh : Retain) : Eff Unit :=
  let pa := s.redirect pa0
  if s.barred pa then Eff.stall s
  else if s.remote pa then Eff.ok (s.sendWindowed p pa data false) ()
  else if s.windowedOver pa data.length then Eff.stall s
  else if s.homeBusy pa data.length (some p) then Eff.stall (s.press pa data.length (some p))
  else Eff.ok ((((s.storeBy p pa data rh).storeCaches p pa rh).sendReplicated p pa data).awaitAck p pa false) ()

/-- The issued stores to perform with those selected: every older one of the same party that shares a byte with one of them (R192, R292). -/
def withOlder (sel : Pend → Bool) : List Pend → List Pend
  | [] => []
  | x :: xs =>
    let r := withOlder sel xs
    if (match x.kind with | .store _ _ => true | _ => false) &&
        (sel x || r.any fun y => y.party == x.party && x.pa < y.pa + y.n && y.pa < x.pa + x.n) then x :: r else r
/-- Performs the issued stores that are selected, in the order of their issue (R192, R292). -/
def State.flush (s : State) (sel : Pend → Bool) : Eff Unit :=
  (withOlder sel s.pend).foldl (fun acc x =>
    acc.bind fun st _ => match x.kind with
      | .store d rh => (st.putNow x.party x.pa d rh).bind fun st' _ => Eff.ok { st' with pend := st'.pend.erase x } ()
      | _ => Eff.ok st ()) (Eff.ok s ())
/-- An issued store that a party finds before its home has performed it (R295): one of its own group; one of its team that has reached the
L1 stage; one of its die that has reached the L2 or RDC. (DEDUCED, safe: log entry 43.) -/
def State.finds (s : State) (p : Party) (x : Pend) : Bool :=
  x.party == p || (match p, x.party with
    | .grp t _, .grp u _ => (t == u && 1 ≤ x.reach) || (s.coreOf p / 24 == s.coreOf x.party / 24 && 2 ≤ x.reach)
    | _, _ => false)
/-- The stores that a party finds over the bytes of an access are performed before it (R192). -/
def State.settleOver (s : State) (p : Party) (pa n : Nat) : Eff Unit :=
  s.flush fun x => s.finds p x && x.pa < pa + n && pa < x.pa + x.n

/-- A store that a thread issues outside a proofed family: at once, or by a later HOME_STORE_PERFORM, also when its home or the link holds
it back (log entry 6). Stores to device memory are performed singly and in order (R187). -/
def State.put (s : State) (p : Party) (l : Nat) (va : W64) (x : Xl) (data : List Byte) (rh0 : Retain) : Eff Unit :=
  let rh := x.hint rh0
  let k : PKind := .store data rh
  let later (st : State) : Eff Unit :=
    Eff.ok { st with pend := st.pend ++ [{ party := p, lane := l, va := va, pa := x.pa, n := data.length, kind := k }] } ()
  if s.deferStores && x.mt != 1 then later s
  else match (s.settleOver p x.pa data.length).bind fun s1 _ =>
      -- 16 bytes of device memory are two accesses at ascending addresses (R187)
      if x.mt = 1 && data.length = 16 then (s1.putNow p x.pa (data.take 8) rh).bind fun s2 _ => s2.putNow p (x.pa + 8) (data.drop 8) rh
      else s1.putNow p x.pa data rh with
    | (s1, .ok _) => Eff.ok s1 ()
    | (s1, .error e) => if e = .stall && x.mt != 1 then later s1 else (s1, .error e)

/-! ### Read-modify-writes at the tether engine (R205, R294, R323) -/

/-- One atomic step at the tether engine of the line: reads `n` bytes and stores what `f` gives, if anything; a step that stores nothing
brings no write completion time (R207). Poisoned data is not updated (R185). A page of another package is reached through the windows, in
the order of the party's stores (R292, R399). The value is the old number and its poison. -/
def State.rmw (s : State) (p : Party) (pa0 n : Nat) (f : Nat → Option Nat) : Eff (Nat × Bool) :=
  let pa := s.redirect pa0
  (s.settleOver p pa n).bind fun s0 _ =>
  if s0.barred pa || s0.windowedOver pa n then Eff.stall s0
  else if s0.homeBusy pa n none then Eff.stall (s0.press pa n none)
  else
    let s1 := (((s0.touch pa n).enterHome (lineOf pa) .dflt).recall (lineOf pa) none).holdLine (lineOf pa)
    let m := s1.rdN pa n
    if s1.poisoned pa n then Eff.ok ((s1.learn p (lineOf pa)).sample pa (s.dieOf p) (s.samplesFor p)) (m, true)
    else
      match f m with
      | none =>
        -- a wait or a read of another package's page is windowed too (R399)
        let s2 := if s0.remote pa then s1.modGrp p fun g => { g with wuntil := Nat.max g.wuntil s1.windowEnd } else s1
        Eff.ok ((s2.dropLine p pa0).sample pa (s.dieOf p) (s.samplesFor p)) (m, false)
      | some v =>
        let s2 := (((s1.learn p (lineOf pa)).storeBy p pa (natLe n v)).sendReplicated p pa (natLe n v)).awaitAck p pa true
        Eff.ok (s2.dropLine p pa0) (m, false)

/-! ### Release and acquire (R295) -/

/-- The release condition of a scope holds for a party whose issued stores have been performed. -/
def State.relReady (s : State) (p : Party) (scope : Nat) : Bool :=
  let g := s.grp p
  (scope < 4 || s.pt ≥ g.rh + 4) && (scope < 5 || (g.ackout == 0 && s.pt ≥ g.wuntil && s.link.state != .hold))
/-- A release at a scope (R295). Below `.pkg` the stores of a SIMT thread need only have come as far as the scope asks: the store queue, the
L1 stage, the die's L2 or RDC. At `.pkg` and wider, and for a latency core at `.clu` and `.die`, they are performed, and the thread
waits for the condition; those to other packages travel in windows, which `.pkg` does not wait for (R302). A release at `.sys` that waits on
windows toward a removed package takes a machine check (R401). (DEDUCED, safe: log entry 43.) -/
def State.release (s : State) (p : Party) (scope : Nat) : Eff Unit :=
  if scope < (if p.isLc then 2 else 4) then
    Eff.ok { s with pend := s.pend.map fun x => if s.finds p x then { x with reach := Nat.max x.reach scope } else x } ()
  else
    let mine (x : Pend) : Bool := s.finds p x && (scope = 5 || !s.remote (s.redirect x.pa))
    (s.flush mine).bind fun s1 _ =>
      let owed := ((s.pend.filter fun x => mine x).map fun x => (s1.grp x.party).rh).foldl Nat.max 0
      let s2 := s1.modGrp p fun g => { g with rh := Nat.max g.rh owed }
      -- the narrower rungs hold of what still has to travel (R295)
      let s3 : State := { s2 with pend := s2.pend.map fun x => if s.finds p x then { x with reach := Nat.max x.reach 3 } else x }
      if scope = 5 && s3.pt < (s3.grp p).wlost then Eff.trap s3 { cause := 0x19, met := some (13, 24) }
      else if s3.relReady p scope then Eff.ok s3 () else Eff.stall s3
/-- The latest release horizon of the parties whose releases at a scope the party may have acquired: of its team, or of its die. -/
def State.peerRh (s : State) (p : Party) (scope : Nat) : Nat :=
  let near (q : Party) : Bool := match p, q with
    | .grp t _, .grp u _ => t == u || (2 ≤ scope && s.coreOf p / 24 == s.coreOf q / 24)
    | .lc n, .lc m => 2 ≤ scope && n / 24 == m / 24
    | _, _ => false
  let groups := s.teams.flatMap fun t => (List.range t.groups.length).map fun j => Party.grp t.tid j
  ((((List.range s.lcs.length).map Party.lc ++ groups).filter fun q => near q).map fun q => (s.grp q).rh).foldl Nat.max 0
/-- The acquire effect of a scope (R295): at `.clu` and wider a SIMT core drops its L1 and constant-cache lines. A later `.pkg` release of the
party covers what a releasing party of its team or die has stored (R298). (DEDUCED, safe: log entry 43.) -/
def State.acquire (s : State) (p : Party) (scope : Nat) : State :=
  let e := if scope = 0 then 0 else s.peerRh p scope
  let s1 := if (s.grp p).rh < e then s.modGrp p fun g => { g with rh := e } else s
  match p with
  | .lc _ => s1
  | .grp _ _ =>
    if scope < 2 then s1
    else { s1 with copies := s1.copies.filter fun c => c.holder != .l1 (s1.coreOf p) && c.holder != .kc (s1.coreOf p) }

/-! ### Instruction fetch -/

/-- Fetches a word (R44, R128, R336, R411): the trap carries the fetch address as VA. -/
def State.fetch (s : State) (p : Party) (l : Nat) (pc : W64) : Eff W64 :=
  (s.access p l pc 8 .fetch false false).bind fun s1 x =>
    (s1.read p x 8 .code .dflt).bind fun s2 (bs, poi) =>
      if poi then Eff.trap s2 { cause := 0x18 } else Eff.ok s2 (wordLe bs)
where
  wordLe (bs : List Byte) : W64 := BitVec.ofNat 64 (leNat bs)

end Sys2Proof.Machine
end

