-- ==== Sys2Proof/Machine/Ops.lean ====
section
/-!
DEFINITION. Operations that every family of instructions shares: interrupts, fault records and error records, entering a block,
taking an exception on a latency core (R269) and the return from one (R270), parking and the family trap handler on a SIMT core
(R184, R282), and the ends of threads, groups, teams and families (R132, R264).
-/

namespace Sys2Proof.Machine

/-! ### Error log (R413, R414) and interrupts (R268) -/

/-- Writes the records that wait while the log has room; TAIL follows each (R413). -/
def State.logDrain (s : State) : Nat → State
  | 0 => s
  | k + 1 =>
    match s.errq with
    | [] => s
    | r :: rest =>
      let head := s.rdHw (s.own Config.errlog) 8
      let tail := s.rdHw (s.own Config.errlog + 8) 8
      if tail - head ≥ Config.errlogSize then s
      else
        let s1 := s.storeHw (s.own Config.errlog + 256 + 64 * (tail % Config.errlogSize)) (r.flatMap fun w => natLe 8 w.toNat)
        State.logDrain { s1.storeHw (s.own Config.errlog + 8) (natLe 8 (tail + 1)) with errq := rest } k

/-- An error record (R414): KIND, STRUCT, UNIT, family, physical address, DETAIL. A CORR record is dropped and counted in LOST while
the log is full (R413). (DEDUCED, safe in part: log entry 27.) -/
def State.logError (s : State) (kind struct unit : Nat) (fam : W32) (pa detail : Nat) : State :=
  let r := [BitVec.ofNat 64 (kind * 2 ^ 56 + struct * 2 ^ 48 + unit * 2 ^ 38 + fam.toNat), BitVec.ofNat 64 s.pt, BitVec.ofNat 64 pa,
            BitVec.ofNat 64 detail, 0#64, 0#64, 0#64, 0#64]
  let full := s.rdHw (s.own Config.errlog + 8) 8 - s.rdHw (s.own Config.errlog) 8 ≥ Config.errlogSize
  if kind = 0 && full then s.storeHw (s.own Config.errlog + 24) (natLe 8 (s.rdHw (s.own Config.errlog + 24) 8 + 1))
  else State.logDrain { s with errq := s.errq ++ [r] } 1

/-- The core that takes an interrupt addressed to core `n` (R412): of a halted core the lowest-numbered one that has started and not halted. -/
def State.irqCore (s : State) (n : Nat) : Nat :=
  if (s.lc n).halted then ((List.range s.lcs.length).find? fun k => !(s.lc k).halted && !(s.lc k).held).getD n else n
/-- An interrupt becomes pending; those of codes 2 and 3 are held per family (R268). -/
def State.raise (s : State) (n : Nat) (irq : Irq) : State :=
  s.modLc (s.irqCore n) fun c => { c with pend := if c.pend.contains irq then c.pend else c.pend ++ [irq] }
/-- An external event: interrupt 0x10 with source and unit on the core that ROUTE names (R393). -/
def State.external (s : State) (source unit : Nat) : State :=
  s.raise s.link.route { num := 0x10, tval := BitVec.ofNat 64 (source + 256 * unit) }

/-! ### Blocks (R61-R65) -/

def Blk.len (b : Blk) : Nat := b.word.toNat / 2 ^ 46 % 1024
def Blk.live (b : Blk) : Nat := b.word.toNat / 2 ^ 36 % 1024
/-- REJOIN: a signed word offset (R61). -/
def Blk.rejoin (b : Blk) : Int := (b.word.extractLsb' 16 20).toInt
def Blk.mpx (b : Blk) : Bool := b.word.getLsbD 7
def Blk.uni (b : Blk) : Bool := b.word.getLsbD 6
/-- The header of the rejoin point (R121). -/
def Blk.point (b : Blk) : W64 := b.addr + BitVec.ofInt 64 (8 * b.rejoin)
def isHeader (w : W64) : Bool := w.toNat / 2 ^ 56 == 0xFE
/-- The word at `pc` lies inside the block (R62, R63). -/
def Blk.inside (b : Blk) (pc : W64) : Bool :=
  let k := (pc - b.addr).toNat / 8
  1 ≤ k && k ≤ b.len
/-- Words from the header to `pc`: HOFF (R266). -/
def Blk.off (b : Blk) (pc : W64) : Nat := (pc - b.addr).toNat / 8

/-- The register count of a thread: 768 on a latency core (R65), the descriptor's on a SIMT core (R17). -/
def Family.nregs (f : Family) : Nat := if f.solo then 768 else f.dw 0 / 2 ^ 32 % 1024
def State.nregs (s : State) (p : Party) (l : Nat) : Nat :=
  match s.famOf p l with | some f => f.nregs | none => 768

/-- The checks of a header word (R62). -/
def headerCause (w : W64) (nregs : Nat) : Option Nat :=
  let b : Blk := { addr := 0#64, word := w }
  if b.len = 0 then some 0x02
  else if w.toNat % 32 != 0 then some 0x02
  else if b.live > 768 || b.live > nregs then some 0x07
  else none

/-- How an entry ends: in the block, at a word that is no header, or with a trap at the entered address. -/
inductive Entered where
  | block (b : Blk)
  | notHeader
  | trapped (t : Trap)
  | wait
  deriving DecidableEq, Repr

/-- Fetches and checks the header at an address (R62, R128). -/
def State.header (s : State) (p : Party) (l : Nat) (pc : W64) : State × Entered :=
  match s.fetch p l pc with
  | (s1, .error (.trap t)) => (s1, .trapped t)
  | (s1, .error .stall) => (s1, .wait)
  | (s1, .ok w) =>
    if !isHeader w then (s1, .notHeader)
    else match headerCause w (s.nregs p l) with
      | some c => (s1, .trapped { cause := c })
      | none => (s1, .block { addr := pc, word := w })

/-! ### Taking an exception on a latency core (R269) -/

/-- What `s.tval` receives for a trap (R269). -/
def Trap.tval (t : Trap) : W64 :=
  if t.cause = 0x10 || t.cause = 0x12 || t.cause = 0x13 || t.cause = 0x05 then t.va
  else if t.cause = 0x32 || t.cause = 0x33 then t.detail
  else if t.cause = 0x19 then t.lost
  else 0#64

/-- Halts a core whose `s.tvec` names no valid header; its pending interrupts are another core's (R412). (DEDUCED, safe in part: log entry 27.) -/
def State.haltCore (s : State) (n : Nat) : State :=
  ((s.lc n).pend.foldl (fun st i => st.raise n i) (s.modLc n fun c => { c with halted := true, vector := false, pend := [] })).logError 6 11 n 0#32 0 0

/-- Trap and interrupt entry (R269): `s.epc`, `s.cause`, `s.tval`, HOFF, PIE, PMODE, MODE and IE are set, lookahead windows end, the
reservation is cancelled (R204), and PC takes `s.tvec` as a block entry; the core halts when no valid header stands there (R412). A fetch that
waits leaves the core at the vector, and the header is judged when it comes.
(DEDUCED, unsafe: log entry 23.) -/
def State.takeTrap (s : State) (n : Nat) (intr : Bool) (code : Nat) (tval epc : W64) (hoff : Nat) : State :=
  let c := s.lc n
  let st := c.status.toNat
  let mode := st % 2
  let ie := st / 4 % 2
  let status := BitVec.ofNat 32 (st / 2 ^ 31 * 2 ^ 31 + hoff % 1024 * 2 ^ 10 + ie * 8 + 0 * 4 + mode * 2 + 1)
  let s1 := s.modLc n fun c => { c with
    status := status, epc := epc, cause := BitVec.ofNat 32 ((if intr then 2 ^ 31 else 0) + code), tval := tval,
    resv := none, wait := .none, inside := false, vector := false
    grp := c.grp.modThr 0 fun t => { t with pc := c.tvec, blk := none, wins := [], st := .ready, got := none, passed := false,
                                            barTok := none, pendPoison := false, since := none } }
  if c.tvec.toNat % 8 != 0 then s1.haltCore n
  else match s1.header (.lc n) 0 c.tvec with
  | (s2, .block b) => s2.modThr (.lc n) 0 fun t => { t with pc := c.tvec + 8#64, blk := some b }
  | (s2, .wait) => s2.modLc n fun c => { c with vector := true }
  | (s2, _) => s2.haltCore n

/-- The position of the trapping word in its block (R266): 0 at a header. -/
def Thread.hoff (t : Thread) : Nat := match t.blk with | some b => b.off t.pc | none => 0
/-- A trap of the thread of core `n` at its own word, or at another address; a machine check makes a record (R414). -/
def State.trapLc (s : State) (n : Nat) (t : Trap) : State :=
  let th := s.thr (.lc n) 0
  let s1 := s.takeTrap n false t.cause t.tval th.pc th.hoff
  if t.cause = 0x19 then s1.logError 2 11 n 0#32 t.lost.toNat 0 else s1

/-! ### Fault records (R280, R281) -/

/-- The fault queue of a family. -/
def Family.queue (f : Family) : FQueue := if f.solo then { solo := true } else { solo := false, ptbr := f.ptbr, va := f.dw 7 }
/-- The physical address of an offset of a fault queue: through the family's space (it is pinned, R256), or the solo queue (R260). A page
whose leaf software has unmapped all the same lies at its virtual address. (DESIGN CHOICE, unsafe: log entry 53.) -/
def State.faultQueue (s : State) (q : FQueue) (off : Nat) : Nat :=
  if q.solo then s.own Config.soloPool + off
  else
    let va := BitVec.ofNat 64 (q.va + off)
    match s.walkQuiet (spaceOfPtbr q.ptbr false).root va with
    | .ok (leaf, _, level) => s.redirect (leafBase leaf / 2 ^ pageBits level * 2 ^ pageBits level + va.toNat % 2 ^ pageBits level)
    | .error _ => q.va + off

def faultQueueSize (s : State) (q : FQueue) : Nat := s.rdN (s.faultQueue q 16) 8

/-- Writes a record, with TAIL and interrupt 0x03 on the origin core; nothing when the queue is full (R281). -/
def State.writeRecord (s : State) (r : FRec) : Option State :=
  let head := s.rdN (s.faultQueue r.queue 0) 8
  let tail := s.rdHw (s.faultQueue r.queue 8) 8
  let size := faultQueueSize s r.queue
  if size = 0 || tail - head ≥ size then none
  else
    let dws := r.dws ++ [BitVec.ofNat 64 tail, 0#64]
    let s1 := (dws.zipIdx).foldl (fun st (w, i) => st.storeHw (s.faultQueue r.queue (64 + 64 * (tail % size) + 8 * i)) (natLe 8 w.toNat)) s
    let s2 := s1.storeHw (s.faultQueue r.queue 8) (natLe 8 (tail + 1))
    let s3 := s2.modFam r.fam fun x => { x with
      admitRecs := match r.page with | some pg => setAssoc pg tail x.admitRecs | none => x.admitRecs }
    some (s3.raise r.origin { num := 3, tval := BitVec.ofNat 64 r.fam.toNat })
/-- Records that wait are written in their order while their queues have room; the interrupt of a family's end follows its records
(R281, R364). What must wait is kept in `frecs`. -/
def State.drainRecords (s : State) : List FRec → State
  | [] => s
  | r :: rest =>
    let keep := { s with frecs := s.frecs ++ [r] }
    State.drainRecords (match r.ends with
      | some tval => if s.frecs.any (·.fam == r.fam) then keep else s.raise r.origin { num := 2, tval := tval }
      | none => if s.frecs.any (fun x => x.ends.isNone && x.queue == r.queue) then keep else (s.writeRecord r).getD keep) rest
def State.faultDrain (s : State) : State := State.drainRecords { s with frecs := [] } s.frecs

/-- The eight doublewords of a fault record but SEQ and the last (R280). -/
def faultRecord (fam : W32) (rid cause tindex core lane : Nat) (pc va : W64) (pt : Nat) (detail : W64) : List W64 :=
  [BitVec.ofNat 64 (fam.toNat * 2 ^ 32 + rid * 2 ^ 8 + cause), BitVec.ofNat 64 (tindex * 2 ^ 32 + core * 2 ^ 16 + lane * 2 ^ 8),
   pc, va, BitVec.ofNat 64 pt, detail]

/-- Posts a record of a family: it is written at once, or waits in the order in which it was raised (R281). -/
def State.postFault (s : State) (fam : W32) (dws : List W64) (page : Option W64) : State :=
  match s.fam? fam with
  | none => s
  | some f => State.faultDrain { s with frecs := s.frecs ++ [{ fam := fam, origin := f.origin, queue := f.queue, dws := dws, page := page }] }

/-- The faulting address that a record carries (R280): of page, lease, alignment and access faults on memory. (DEDUCED, unsafe: log entry 56.) -/
def Trap.recVa (t : Trap) : W64 := if t.cause = 0x10 || t.cause = 0x11 || t.cause = 0x12 || t.cause = 0x13 then t.va else 0#64
/-- DETAIL of a record (R280). -/
def Trap.recDetail (t : Trap) : W64 :=
  if t.cause = 0x10 || t.cause = 0x13 || (0x28 ≤ t.cause && t.cause ≤ 0x33) then t.detail else 0#64

/-- FAULT_PARK (R184): the thread parks at its word and its record is posted. -/
def State.park (s : State) (tid j l : Nat) (t : Trap) : State :=
  let tm := s.team tid
  let th := s.thr (.grp tid j) l
  (s.modThr (.grp tid j) l fun x => { x with st := .faulted, pendPoison := false, since := none }).postFault th.fam
    (faultRecord th.fam tm.rid t.cause th.tix tm.core l th.pc t.recVa s.pt t.recDetail) none

/-! ### Rejoin points (R121, R122) and group regions (R170) -/

/-- Every thread of an expected set leaves the point, and those that had arrived are ready (R122). -/
def Group.releasePoint (g : Group) (id : Nat) : Group :=
  let back := (g.lanes g.live).filter fun l => (g.thr l).st == .rejoin id
  Group.limitRuns { g with
    points := g.points.filter fun p => !(p.id == id)
    threads := g.threads.map fun t =>
      { t with rej := t.rej.filter (· != id), savedRej := t.savedRej.filter (· != id), st := if t.st == .rejoin id then .ready else t.st } } back
/-- REJOIN_RELEASE (R122): the points at which every expected thread has arrived. -/
def Group.rejoinCheck (g : Group) : Group :=
  (g.points.filter fun p => p.expect &&& ~~~p.arrived == 0#64).foldl (fun g p => g.releasePoint p.id) g
/-- A thread leaves every expected set (R122). -/
def Group.leavePoints (g : Group) (l : Nat) : Group :=
  Group.rejoinCheck { g with points := g.points.map fun p => { p with expect := Mask.put p.expect l false } }

/-- GROUP_REGION_OPEN (R170): when every non-exited thread has parked at a `GRPON`. `none` when they parked at different words. -/
def Group.regionCheck (g : Group) : Option Group :=
  let ls := g.lanes g.live
  if g.gst != .arriving || ls.isEmpty || !(ls.all fun l => (g.thr l).st == .arrived) then some g
  else
    let pc0 := (g.thr (ls.headD 0)).pc
    if ls.all fun l => (g.thr l).pc == pc0 then
      let g1 := g.modLanes g.live fun t => { t with
        st := .ready, pc := t.pc + 8#64, savedRej := t.rej, rej := [], since := none, behind := false
        blk := t.blk.bind fun b => if b.inside (t.pc + 8#64) then some b else none }
      some { g1 with gst := .region }
    else none
/-- The region opens when every non-exited thread has arrived; at different words every one of them traps with cause 0x22 (R170). -/
def State.regionSettle (s : State) (tid j : Nat) : State :=
  let p : Party := .grp tid j
  match Group.regionCheck (s.grp p) with
  | some g => s.modGrp p fun _ => g
  | none => ((s.grp p).lanes (s.grp p).live).foldl (fun st k => st.park tid j k { cause := 0x22 })
      (s.modGrp p fun g => { g with gst := .opened })
/-- The group after threads have left the handler: when none is left in it the region is whole again (R171 rule 5). Threads that return
to an earlier word than the rest issue alone until they reach it. -/
def Group.leaveHandler (g : Group) : Group :=
  let ls := g.lanes g.live
  if g.gst != .suspended || ls.any (fun l => (g.thr l).handler.isSome) then g else { g with gst := .region }
/-- A lane is exited (R132, R265): its windows end, it leaves every expected set, and a handler that it was the last to run is left. -/
def Group.exitLane (g : Group) (l : Nat) : Group :=
  let g0 : Group := { g with live := Mask.put g.live l false }
  let g1 := ((g0.modThr l fun x =>
    { x with wins := [], st := .ready, rej := [], held := [], got := none, barTok := none }).leavePoints l).leaveHandler
  { g1 with gst := if g1.live == 0#64 then .ended else g1.gst }

/-! ### Ends (R132, R264, R265) -/

/-- The teams of a family in every replica. -/
def State.teamsOf (s : State) (fam : W32) : List Team := s.teams.filter fun t => t.fam == fam && !t.packed

/-- Forgets what a team has in engines: waiters, issued accesses, proof and once requests of its threads. -/
def State.dropParty (s : State) (tid : Nat) : State :=
  let mine (p : Party) : Bool := match p with | .grp t _ => t == tid | .lc _ => false
  { s with waiters := s.waiters.filter fun w => !mine w.party, pend := s.pend.filter fun x => !mine x.party
           host := { s.host with acks := s.host.acks.filter fun a => match a.who with
             | .party p => !mine p
             | .spool t _ => t != tid
             | .net _ => true } }

/-- The balance of a family at a PT (R252), in thousandths. -/
def Family.balance (f : Family) (pt : Nat) : Nat :=
  Nat.min (f.cap * 1000) (f.ballast * 1000 + f.ballastFrac + f.rate * (pt - f.accAt))
/-- The family with its balance brought up to a PT. -/
def Family.accrue (f : Family) (pt : Nat) : Family :=
  { f with ballast := f.balance pt / 1000, ballastFrac := f.balance pt % 1000, accAt := pt }
/-- The reduction's identity (R262). -/
def redIdentity (fn : Nat) : W64 :=
  match fn with
  | 2 => 0x7FFFFFFFFFFFFFFF#64
  | 3 => 0x8000000000000000#64
  | 4 => 0xFFFFFFFFFFFFFFFF#64
  | 7 => 0xFFFFFFFFFFFFFFFF#64
  | _ => 0#64

/-- SIMT time runs while a team of the family is RESIDENT or SAVING (R354). -/
def State.simtTime (s : State) (f : Family) : Nat := f.simt + (match f.simtFrom with | some t => s.pt - t | none => 0)
def State.simtUpdate (s : State) (fam : W32) : State :=
  let on := s.teams.any fun t => (t.fam == fam || (t.packed && t.groups.any fun g => g.any fun x => x.threads.any (·.fam == fam)))
    && (t.st == .resident || t.st == .saving)
  s.modFam fam fun f => { f with simt := s.simtTime f, simtFrom := if on then some s.pt else none }

/-- FAMILY_END (R264): the parent record is completed, and interrupt 0x02 goes to the origin core once no record of the family waits (R364). -/
def State.familyEnd (s : State) (fam : W32) (cause : Option Nat) : State :=
  match s.fam? fam with
  | none => s
  | some f =>
    if f.state == .ended then s
    else
      let comp : Completed := match cause, f.completed with
        | some c, _ => { pc := f.outPc + 8#64, result := some (BitVec.ofInt 64 (-(256 + (c : Int)))), flags := 0#32, exitMark := false }
        | none, some x => x
        | none, none => match f.closed with
          | some (fn, h) => { pc := h, result := some (if f.redAny then f.redval else redIdentity fn), flags := f.flags, exitMark := false }
          | none => { pc := f.outPc + 8#64, result := some (BitVec.ofInt 64 (-9)), flags := f.flags, exitMark := false }
      let gone := s.teamsOf fam
      let s1 := gone.foldl (fun st t => st.dropParty t.tid) s
      let s2 := { s1 with
        teams := s1.teams.filter fun t => !(t.fam == fam && !t.packed)
        proofs := s1.proofs.filter (·.fam != fam), onces := s1.onces.filter (·.fam != fam)
        clocks := s1.clocks.filter (·.fam != fam), repairs := s1.repairs.filter (·.fam != fam)
        dueRepairs := s1.dueRepairs.filter (·.1.fam != fam)
        segs := s1.segs.filter (·.fam != fam)
        finj := if (BitVec.truncate 32 s1.finj : W32) == fam then s1.finj &&& 0x7FFFFFFFFFFFFFFF#64 else s1.finj }
      let s3 := s2.modFam fam fun x => { x.accrue s.pt with
        state := .ended, completed := some comp, cause := cause, simt := s.simtTime f, simtFrom := none }
      let c := cause.getD 0
      State.faultDrain { s3 with frecs := s3.frecs ++
        [{ fam := fam, origin := f.origin, queue := f.queue, dws := [], ends := some (BitVec.ofNat 64 (fam.toNat + c * 2 ^ 32)) }] }

/-- A team without its quad (R180), and without the promises of its queue (R227). -/
def State.dissolveQuad (t : Team) : Team := { t with quad := false, qmem := [none, none, none, none], plPromise := 0 }

/-- Every thread has ended and every spool and platen operation has completed (R132). -/
def Team.done (t : Team) : Bool :=
  (t.groups.all fun g => match g with | some x => x.live == 0#64 | none => true) && t.plq.isEmpty && t.spq.all (·.items.isEmpty)

/-- A spool operation of the team's group 0 belongs to a thread of the family. (DEDUCED, unsafe: log entry 19.) -/
def Team.spoolOf (t : Team) (fam : W32) : Bool :=
  t.spq.any fun q => q.items.any fun i => match i with | .op o => ((t.grp 0).thr o.lane).fam == fam | .fence _ => false
/-- The families of ended lanes of a packed group end once their spool operations have completed (R261, R264). (DEDUCED, unsafe: log entry 19.) -/
def State.packedEnds (s : State) (t : Team) : State :=
  (List.range (t.grp 0).threads.length).foldl (fun st l =>
    let fam := ((t.grp 0).thr l).fam
    if Mask.has (t.grp 0).live l || t.spoolOf fam || !((st.fam? fam).any fun f => f.ended ≥ 1) then st
    else st.familyEnd fam none) s

/-- Teams of a family that occupy cores. -/
def State.active (s : State) (fam : W32) : List Team := s.teams.filter fun t => t.fam == fam && !t.packed && (t.st == .resident || t.st == .saving)

/-- A running family with no team on a core, and not to be stopped, is READY (R344). -/
def State.idleReady (s : State) (fam : W32) : State :=
  if (s.active fam).isEmpty then s.modFam fam fun f => if f.state == .running && !f.stopping && !f.solo then { f with state := .ready } else f else s

/-- TEAM_END and FAMILY_END when they are due (R132, R264). -/
def State.endCheck (s0 : State) (tid : Nat) : State :=
  match s0.team? tid with
  | none => s0
  | some t =>
    let s := if t.packed then s0.packedEnds t else s0
    if t.st != .resident || !t.done then s
    else
      let s1 := (s.modTeam tid fun x => { State.dissolveQuad x with st := .ended }).simtUpdate t.fam
      if t.packed then { s1 with teams := s1.teams.filter (·.tid != tid) }
      else match s1.fam? t.fam with
        | none => s1
        | some f =>
          if f.ended ≥ f.n && (s1.teamsOf t.fam).all (·.st == .ended) && (s1.proofs.all (·.fam != t.fam)) then s1.familyEnd t.fam none
          else s1.idleReady t.fam

/-- A thread ends (R132, R263): its lane is exited, its windows end, it leaves every expected set; the group, the team and the
family end when it was the last. Threads are counted in replica 0. -/
def State.endThread (s : State) (tid j l : Nat) : State :=
  let t := s.team tid
  let th := s.thr (.grp tid j) l
  let s1 := s.modGrp (.grp tid j) fun g => g.exitLane l
  let s2 := { s1 with
    waiters := s1.waiters.filter fun w => !(w.party == Party.grp tid j && w.lane == l)
    proofs := s1.proofs.filter fun e => !(e.fam == th.fam && e.tix == th.tix && e.rid == t.rid) }
  let s3 := if t.rid = 0 then s2.modFam th.fam fun f => { f with ended := f.ended + 1 } else s2
  (s3.regionSettle tid j).endCheck tid

/-! ### Traps on a SIMT core (R278, R282) -/

/-- The lanes of a family in a packed group become exited, and its spool operations and waits are dropped (R265, R344). -/
def State.dropLanes (s : State) (tid : Nat) (fam : W32) : State :=
  let g := (s.team tid).grp 0
  let mine := (g.lanes g.live).filter fun l => (g.thr l).fam == fam
  if mine.isEmpty then s
  else
    let s1 := s.modTeam tid fun t => { t with spq := t.spq.map fun q => { q with items := q.items.filter fun i =>
      match i with | .op o => !(mine.contains o.lane) | .fence _ => true } }
    let s2 := mine.foldl (fun st l => st.modGrp (.grp tid 0) fun g => g.exitLane l) s1
    let s3 := State.regionSettle { s2 with
      waiters := s2.waiters.filter fun w => !(w.party == Party.grp tid 0 && mine.contains w.lane)
      pend := s2.pend.filter fun w => !(w.party == Party.grp tid 0 && mine.contains w.lane && w.out.isNone) } tid 0
    s3.endCheck tid

/-- A cause of R265 ends a family: the teams of a fan-out family, the lane of a packed one, or its place in an open packing interval. -/
def State.endFamilyBy (s : State) (fam : W32) (cause : Nat) : State :=
  let s0 := s.familyEnd fam (some cause)
  let s1 : State := { s0 with packs := (s0.packs.map fun k => { k with members := k.members.filter (·.1 != fam) }).filter fun k => !k.members.isEmpty }
  (s1.teams.filter (·.packed)).foldl (fun st t => st.dropLanes t.tid fam) s1
/-- UNIT of an error that a structure of a core or of its die has met (R414). -/
def recUnit (struct core : Nat) : Nat := if struct ≤ 4 then core else core / 24
/-- A machine check of a team is due, met in a structure of a unit (R414). -/
def State.dueCheck (s : State) (tid : Nat) (met : Option (Nat × Nat)) : State :=
  { s.modTeam tid fun t => { t with check := t.check.or met } with agenda := addSet (Instr.machineCheck tid) s.agenda }
/-- The record of a machine check of a team (R414): the structure and unit that met the error; for one met in a page table the structure is
the implementation's. (DESIGN CHOICE, safe: log entry 4.) -/
def State.checkRecord (s : State) (t : Team) (fam : W32) : State :=
  let free := (Config.formatByte 5 0 s.fresh).toNat % 18
  let met := t.check.getD (free, recUnit free t.core)
  ((s.logError 2 met.1 met.2 fam 0 0).modTeam t.tid fun x => { x with check := none }).tick

/-- KIND of `s.ftret` (R282). -/
def handlerKind (cause : Nat) : Nat := if cause = 0x20 then 1 else if cause = 0x31 then 2 else 3
/-- The causes that enter the family trap handler (R278). -/
def handlerCause (c : Nat) : Bool := c == 0x20 || c == 0x31 || c == 0x32
/-- The handler address dw6; a solo family has none (R260). -/
def Family.handler (f : Family) : Nat := if f.solo then 0 else f.dw 6

/-- FAMILY_TRAP_HANDLER_ENTRY (R282): `s.ftret` takes the return address and the kind, windows end, and the thread enters the
handler's block; a bad header parks it there. -/
def State.enterHandler (s : State) (tid j l : Nat) (f : Family) (t : Trap) : State :=
  let p : Party := .grp tid j
  let th := s.thr p l
  let h := BitVec.ofNat 64 f.handler
  let rpc := if t.cause = 0x20 then th.pc else th.pc + 8#64
  let ft := rpc ||| BitVec.ofNat 64 (handlerKind t.cause)
  let s1 := s.modGrp p fun g =>
    let g1 := g.modThr l fun x => { x with ftret := ft, handler := some { ftret := ft, blk := th.blk, barTok := th.barTok }, barTok := none, wins := [], pc := h,
                                           blk := none, st := .ready, got := none, passed := false, since := none }
    { g1 with gst := if g.gst == .region then .suspended else g.gst }
  match s1.header p l h with
  | (s2, .block b) => s2.modThr p l fun x => { x with pc := h + 8#64, blk := some b }
  | (s2, .notHeader) => s2.park tid j l { cause := 0x05, va := h }
  | (s2, .trapped u) => s2.park tid j l u
  | (s2, .wait) => s2

/-- Restartable: dw1 bit 34 (R89). -/
def Family.restartable (f : Family) : Bool := !f.solo && (f.dw 1).testBit 34

/-- What a trap of a SIMT thread does (R278): inside the family trap handler it parks the thread, whatever the cause; lease violations end the family, and so does a machine check in a lane of a packed group; any other machine check, and consumed poison in triple mode
(R388), strike the team; recoverable traps enter the handler; every other cause parks the thread. -/
def State.trapSimt (s : State) (tid j l : Nat) (t : Trap) : State :=
  let th := s.thr (.grp tid j) l
  match s.fam? th.fam with
  | none => s
  | some f =>
    if th.handler.isSome then s.park tid j l t
    else if t.cause = 0x11 then s.endFamilyBy th.fam 0x11
    else if t.cause = 0x19 && (s.team tid).packed then (s.checkRecord (s.team tid) th.fam).endFamilyBy th.fam 0x19
    else if t.cause = 0x19 || (t.cause = 0x18 && f.repl = 3) then State.modThr (s.dueCheck tid t.met) (.grp tid j) l fun x => { x with st := .faulted }
    else if handlerCause t.cause && f.handler != 0 then s.enterHandler tid j l f t
    else s.park tid j l t

/-- A trap of a lane of a party. -/
def State.trapLane (s : State) (p : Party) (l : Nat) (t : Trap) : State :=
  match p with
  | .lc n => s.trapLc n t
  | .grp tid j => s.trapSimt tid j l t

/-! ### Entering a block by a transfer (R63, R128) -/

/-- A thread arrives at its innermost open point when it enters the point's block, and parks there (R122). -/
def Group.arrives (g : Group) (l : Nat) (pc : W64) : Option Point :=
  match (g.thr l).rej with
  | [] => none
  | id :: _ => g.points.find? fun p => p.id == id && p.hdr == pc

/-- The thread stands in its new block, or parks at a rejoin point (R62, R122). -/
def State.settle (s : State) (p : Party) (l : Nat) (pc : W64) (b : Blk) : State :=
  let g := s.grp p
  match g.arrives l pc with
  | some pt =>
    let cyc := s.cycOf p
    s.modGrp p fun g =>
      let g1 := g.modThr l fun t => { t with pc := pc, blk := none, st := .rejoin pt.id }
      Group.rejoinCheck { g1 with points := g1.points.map fun (x : Point) => if x.id == pt.id then
        { x with arrived := Mask.put x.arrived l true, first := some (x.first.getD cyc) } else x }
  | none => s.modThr p l fun t => { t with pc := pc + 8#64, blk := some b }

/-- How a lane leaves its instruction. -/
inductive LaneEnd where
  /-- at the following word -/
  | next
  /-- by a transfer: the header at the target is checked (R63) -/
  | jump (target : W64)
  /-- at an address with a block context taken over (R283) -/
  | resume (pc : W64) (blk : Option Blk)
  /-- still at its word: it waits inside the instruction and issues again -/
  | stay
  /-- parked at its word -/
  | hold (st : TState)
  | trap (t : Trap)
  /-- the instruction itself has placed the thread, or ended it -/
  | placed
  deriving DecidableEq, Repr

/-- Enters the block at a transfer's target: 0x05 at the branch for a word that is no header; other faults with PC at the target
(R63, R128). -/
def State.enter (s : State) (p : Party) (l : Nat) (target : W64) : State :=
  match s.header p l target with
  | (s1, .block b) => s1.settle p l target b
  | (s1, .notHeader) => s1.trapLane p l { cause := 0x05, va := target }
  | (s1, .trapped t) => (s1.modThr p l fun x => { x with pc := target, blk := none }).trapLane p l t
  | (s1, .wait) => s1

/-- The header at a target cannot be fetched yet. -/
def State.entryWaits (s : State) (p : Party) (l : Nat) (target : W64) : Bool :=
  match (s.header p l target).2 with
  | .wait => true
  | _ => false

/-- The following word: in the block, or the next block's header, which the next fetch checks (R63). -/
def Thread.advance (t : Thread) : Thread :=
  let pc := t.pc + 8#64
  { t with pc := pc, blk := match t.blk with | some b => if b.inside pc then some b else none | none => none,
           got := none, passed := false, onceGo := false, barTok := none, stood := false, behind := false, since := none, rel := none }

/-- The windows after one more word (R55), and the one that the instruction opens. -/
def stepWins (ws : List Win) (new : List Win) : List Win :=
  ((ws.map fun w => { w with left := w.left - 1 }).filter fun w => w.left != 0) ++ new

/-! ### Return from an exception (R270) -/

/-- Enters the block of a return: HOFF 0 is a block entry; otherwise the context is the header HOFF words before (R270). A PC past the last
word of that block is the next block's (R63). -/
def State.returnTo (s : State) (n : Nat) (pc : W64) (hoff : Nat) : State :=
  let hdr := pc - BitVec.ofNat 64 (8 * hoff)
  let s0 := s.modThr (.lc n) 0 fun t => { t with pc := pc, blk := none, wins := stepWins t.wins [], got := none, passed := false, st := .ready,
                                                 barTok := none, since := none, pendPoison := false }
  if pc.toNat % 8 != 0 then (s0.modThr (.lc n) 0 fun t => { t with pc := pc &&& 0xFFFFFFFFFFFFFFF8#64 }).trapLc n { cause := 0x05, va := pc }
  else match s0.header (.lc n) 0 hdr with
  | (s1, .block b) => s1.modThr (.lc n) 0 fun t => { t with
      pc := if hoff = 0 then pc + 8#64 else pc, blk := if hoff = 0 || b.inside pc then some b else none }
  | (s1, .notHeader) => s1.trapLc n { cause := 0x05, va := pc }
  | (s1, .trapped t) => s1.trapLc n t
  | (s1, .wait) => s1
/-- The header that a return needs cannot be fetched yet. -/
def State.returnWaits (s : State) (n : Nat) (pc : W64) (hoff : Nat) : Bool :=
  match (s.header (.lc n) 0 (pc - BitVec.ofNat 64 (8 * hoff))).2 with
  | .wait => true
  | _ => false

/-! ### The memory-fault outcome -/

/-- Every meaning ends here: an access beyond the memory of a die stops the machine by name. -/
def finish (s : State) : Host.Outcome State Fault Refusal :=
  match s.absent with
  | some pa => .fault (.absentMemory pa)
  | none => .next s

end Sys2Proof.Machine
end

