-- ==== Sys2Proof/Machine/Issue.lean ====
section
/-!
DEFINITION. How one instruction issues: the run that issues it (R6, R171, R347), the checks of R66 in their order, guards, ballast and the
governor (R56, R252, R419), the limits of a speculative window (R124), the constant-window operand (R52), lookahead windows (R55), and
how each lane leaves it. Every meaning of an instruction is a body that `issue` runs in the lanes whose guard is true.
-/

namespace Sys2Proof

def classCost (c : Nat) : Nat := match c with | 0 => 0 | 1 => 1 | 2 => 4 | _ => 16
/-- The cost of an issue: 0 without a long-latency tail. -/
def Sig.cost (x : Sig) : Nat := if x.long.isSome then classCost (ecOf x.tail) else 0

/-- The window that an instruction opens (R55). -/
def Sig.newWin (x : Sig) : List Machine.Win :=
  let ps := x.writesP.filter (· < 7)
  if x.long.isSome && laOf x.tail != 0 && !(x.writesR.isEmpty && ps.isEmpty) then
    [{ left := laOf x.tail, regs := x.writesR, preds := ps }] else []

end Sys2Proof

namespace Sys2Proof.Machine

/-! ### The run -/

/-- The team of a party is resident and not under repair (R383), or the latency core runs. -/
def State.running (s : State) : Party → Bool
  | .lc n => n < s.lcs.length && !(s.lc n).held && !(s.lc n).halted
  | .grp tid j => ((s.team? tid).any fun t => t.st == .resident && ((t.groups.getD j none).isSome)) &&
      !(s.repairs.any fun r => r.src == tid || r.dst == tid)

/-- The lane's solo family has been stopped: it keeps its place in the packed group and does not issue (R366). (DEDUCED, unsafe: log entry 19.) -/
def State.laneStopped (s : State) (p : Party) (l : Nat) : Bool := (s.famOf p l).any fun f => f.solo && f.state == .stopped

/-- The lanes that issue together with a lane: its run. Inside a region every non-exited thread must be ready, and threads that stayed
behind at an earlier word issue alone (R171); during a handler the threads in it issue (R171 rule 5). Threads that a handler has sent to
another word never make the region's one run again (R171 rule 1). (DEDUCED, unsafe: log entry 58.) -/
def State.runWith (s : State) (p : Party) (l0 : Nat) : List Nat :=
  let g := s.grp p
  let t0 := g.thr l0
  let ls := g.lanes g.live
  if !s.running p || !Mask.has g.live l0 || t0.st != .ready || s.laneStopped p l0 then []
  else List.filter (fun l => !s.laneStopped p l) <| match g.gst with
    | .region =>
      if ls.all fun l => (g.thr l).st == .ready && !s.laneStopped p l then
        (if ls.any fun l => (g.thr l).behind then
          (if t0.behind then ls.filter fun l => (g.thr l).behind && (g.thr l).pc == t0.pc else [])
        else ls.filter fun l => (ls.all fun k => (g.thr k).pc == t0.pc) && (g.thr l).pc == t0.pc && (g.thr l).blk == t0.blk) else []
    | .suspended =>
      if t0.handler.isNone then []
      else ls.filter fun l => (g.thr l).st == .ready && (g.thr l).handler.isSome && (g.thr l).pc == t0.pc && (g.thr l).blk == t0.blk
    | _ => ls.filter fun l => (g.thr l).st == .ready && (g.thr l).pc == t0.pc && (g.thr l).blk == t0.blk &&
        (g.thr l).handler.isSome == t0.handler.isSome

def State.runLanes (s : State) : List Nat := s.runWith s.cur s.curLane

/-! ### Checks (R66) -/

/-- The system register that the word names is absent on the core kind, or is the supervisor's (R27, R41): checks of the word. -/
def sysAbsent (s : State) (p : Party) (x : Sig) : Option Nat :=
  x.sys.bind fun r => (sysCause r.1 p.isLc (s.sup p) r.2.1 r.2.2).filter fun c => c == 0x0B || c == 0x0A
/-- Where and in which mode the instruction exists (R41, R253, R422), and the register that it names (R27). -/
def availCause (s : State) (p : Party) (x : Sig) : Option Nat :=
  if x.cap.any (fun k => !s.dev.caps.getLsbD k) then some 0x01
  else (sysAbsent s p x).or <| match x.avail with
    | .both => none
    | .lc => if p.isLc then none else some 0x0B
    | .simt => if p.isLc then some 0x0B else none
    | .sup => if p.isLc && s.sup p then none else some 0x0A
    | .lcUser => if !p.isLc then some 0x0B else if s.sup p then some 0x0A else none

/-- The word breaks an open lookahead promise (R55). -/
def breaksWindow (x : Sig) (t : Thread) : Bool :=
  t.wins.any fun w => x.namesR.any w.regs.contains || x.namesP.any w.preds.contains

/-- The guard is true for a lane (R46). -/
def guardIn (g : Group) (x : Sig) (l : Nat) : Bool := g.pred (x.g.toNat % 8) l != x.g.getLsbD 3

/-- The checks of R66 in their order, then a poisoned guard (R141), then the group region, which a thread needs whose guard is true (R66, R169).
A poisoned acquire traps before them (R185). An open lookahead window stops only the thread that has it (R55). (DEDUCED, unsafe: log entry 44.) -/
def laneCause (s : State) (p : Party) (x : Sig) (live : Nat) (l : Nat) : Option Nat :=
  let g := s.grp p
  let t := g.thr l
  if t.pendPoison then some 0x18
  else match availCause s p x with
    | some c => some c
    | none => match x.staticCause live with
      | some c => some c
      | none =>
        if breaksWindow x t then some 0x08
        else if g.predPoi (x.g.toNat % 8) l then some 0x18
        else if x.grp && g.gst != .region && guardIn g x l then some 0x22
        else none

/-! ### Energy (R56, R252, R419) -/

/-- The balance allows a cost; a cost above the cap needs the full cap. -/
def Family.affords (f : Family) (pt cost : Nat) : Bool :=
  if cost > f.cap then f.balance pt ≥ f.cap * 1000 else f.balance pt ≥ cost * 1000
def Family.debit (f : Family) (pt cost : Nat) : Family :=
  let b := if cost > f.cap then 0 else f.balance pt - cost * 1000
  { f with ballast := b / 1000, ballastFrac := b % 1000, accAt := pt }

/-- The families of the lanes of a mask, each once. (DEDUCED, unsafe: log entry 19.) -/
def State.famsOf (s : State) (p : Party) (m : Mask) : List W32 :=
  ((s.grp p).lanes m).foldl (fun l k => addSet (s.thr p k).fam l) []

/-- The governor's sum of the running microsecond (R419). -/
def Die.sum (d : Die) (pt : Nat) : Nat := if pt < d.govEnd then d.govSum else 0

/-- The issue is the first of its instruction: a wait inside it that issues again debits nothing. -/
def State.firstIssue (s : State) (p : Party) (act : Mask) : Bool :=
  ((s.grp p).lanes act).any fun l => (s.thr p l).since.isNone

/-- The stalled runs of a family on a die that still wait, in order: each its group and its PC. -/
def State.stallsOn (s : State) (f : Family) (die : Nat) : List (Party × W64) :=
  f.stalled.filter fun q => s.running q.1 && s.dieOf q.1 == die && (s.grp q.1).threads.any fun t => t.st == .ready && t.pc == q.2
/-- A run of a group, by its PC (R347). -/
def State.runKey (s : State) (p : Party) (act : Mask) : Party × W64 := (p, (s.thr p (((s.grp p).lanes act).headD 0)).pc)
/-- The run waits behind those of its families on the die that stalled before it (R252). -/
def State.stallOn (s : State) (p : Party) (x : Sig) (act : Mask) : State :=
  if p.isLc || x.cost = 0 || act == 0#64 then s
  else
    let r := s.runKey p act
    (s.famsOf p act).foldl (fun st id => st.modFam id fun f => { f with stalled := if f.stalled.contains r then f.stalled else f.stalled ++ [r] }) s

/-- Ballast and governor allow the issue (R56, R419); stalled runs of a family on one die go in the order in which they stalled (R252). -/
def State.powered (s : State) (p : Party) (x : Sig) (act : Mask) : Bool :=
  p.isLc || x.cost = 0 || act == 0#64 || !s.firstIssue p act ||
  ((s.famsOf p act).all (fun id => (s.fam? id).any fun f =>
      f.affords s.pt x.cost && ((s.stallsOn f (s.dieOf p)).head?.all (· == s.runKey p act))) && (s.die (s.dieOf p)).sum s.pt < (s.dev.top (s.dieOf p)).dbud)

/-- Debits the cost of an issue. (DEDUCED, unsafe: log entry 19.) -/
def State.debit (s : State) (p : Party) (x : Sig) (act : Mask) : State :=
  if p.isLc || x.cost = 0 || act == 0#64 || !s.firstIssue p act then s
  else
    let r := s.runKey p act
    let s1 := (s.famsOf p act).foldl (fun st id => st.modFam id fun f =>
      { f.debit s.pt x.cost with stalled := f.stalled.filter (· != r) }) s
    s1.modDie (s.dieOf p) fun d => { d with govSum := d.sum s.pt + x.cost, govEnd := (s.pt / 1000 + 1) * 1000 }

/-! ### Speculation (R124) -/

/-- The primary opcode of an instruction. -/
def opOf (i : Instr) : Nat := match encodeFields i with | some f => f.op.toNat | none => 0
/-- The opcodes that a speculative run issues. -/
def specOp (op : Nat) : Bool :=
  (0x20 ≤ op && op ≤ 0x45 && op != 0x28 && op != 0x29) || (0x50 ≤ op && op ≤ 0x55) || (0x60 ≤ op && op ≤ 0x6C) ||
  (0x74 ≤ op && op ≤ 0x7B)
/-- The open speculative window of a group. -/
def State.specOf (s : State) : Party → Option Spec
  | .lc _ => none
  | .grp tid j => (s.team tid).specs.find? (·.1 == j) |>.map (·.2)
/-- What an open window of the group lets issue: at most 8 instructions of these opcodes by its own threads, none that would trap.
(DEDUCED, safe: log entry 22.) -/
def State.specAllows (s : State) (p : Party) (i : Instr) (x : Sig) (run : List Nat) (noTrap : Bool) : Bool :=
  match s.specOf p with
  | none => true
  | some sp =>
    let op := opOf i
    specOp op && sp.issued < 8 && x.kw = 0 && noTrap && run.all (Mask.has sp.run) &&
    (op < 0x60 || run.all fun l => (s.thr p l).fcsr &&& 0x001F0000#32 == 0#32)
/-- An issue in an open window is counted, with what it writes. -/
def State.specCount (s : State) (p : Party) (x : Sig) (act : Mask) : State :=
  match p with
  | .lc _ => s
  | .grp tid j => s.modTeam tid fun t =>
      { t with specs := t.specs.map fun e =>
          if e.1 == j then (e.1, { e.2 with issued := e.2.issued + 1, wrote := (x.writesR, x.writesP, act) :: e.2.wrote }) else e }

/-! ### The interlock on B spans (R228) -/

/-- The quarter's member of a team's quad. -/
def Team.member (t : Team) (j : Nat) : Bool := ((t.qmem.getD (j % 4) none).map (·.1)) == some j

/-- What a thread issues while an earlier load of it is outstanding: arithmetic, branches, loads and stores. Every other instruction waits for
the load. (DEDUCED, safe: log entry 6.) -/
def passesLoads (i : Instr) : Bool :=
  match i with
  | .ld _ _ => true
  | .st _ _ => true
  | _ => (1 ≤ opOf i && opOf i ≤ 5) || specOp (opOf i)
/-- The scoreboard (R55, R67): the word names a register on whose value a load still waits, or may not pass the load. -/
def Group.scoreboard (g : Group) (i : Instr) (x : Sig) : Bool :=
  g.loads.any fun o => !passesLoads i || x.kw != 0 || x.namesR.any fun r => o.d.toNat ≤ r && r < o.d.toNat + o.size.n
/-- A platen operation that has not started still has to read a register that the instruction writes, in the group that issued it;
of an `MMAC`, the team at cluster row 0 alone supplies B (R231). -/
def State.platenLocked (s : State) (p : Party) (x : Sig) : Bool :=
  match p with
  | .lc _ => false
  | .grp tid j =>
    let row0 := (s.fam? (s.team tid).fam).all fun f => (s.team tid).cip < Nat.max 1 (f.dw 0 / 2 ^ 16 % 256)
    (s.team tid).plq.any fun o => !o.started && o.members.any fun m =>
      m.quarter == j % 4 && (match m.kind with
        | .mma t => x.writesR.any fun r => m.breg ≤ r && r < m.breg + (if t.mx then 17 else 16)
        | .mmac t => row0 && x.writesR.any fun r => m.breg ≤ r && r < m.breg + (if t.mx then 17 else 16)
        | _ => false) && (s.team tid).member j
/-- The interlocks of an issue: the scoreboard, and the B spans of the platen. -/
def State.interlocked (s : State) (p : Party) (i : Instr) (x : Sig) : Bool := (s.grp p).scoreboard i x || s.platenLocked p x

/-! ### Constant-window operands (R31, R38, R52) -/

/-- The window that a lane uses. -/
def State.window (s : State) (p : Party) (l k : Nat) : W64 :=
  match p with
  | .lc n => (s.lc n).cws.getD k 0#64
  | .grp _ _ => ((s.famOf p l).map (·.cws.getD k 0#64)).getD 0#64
/-- The address of word `k` of a window: BASE × 128 + 4k, where BASE holds VA bits 55:7 and bits 63:56 copy bit 55 (R31, R330).
(DEDUCED, unsafe: log entry 20.) -/
def windowAddr (w : W64) (k : Nat) : W64 := (BitVec.ofNat 56 (w.toNat % 2 ^ 56 / 128 * 128)).signExtend 64 + BitVec.ofNat 64 (4 * k)
/-- Reads words of a constant window: cause 0x13 when V is 0; lease lists do not bind it; the thread's own held stores come first (R193, R374).
(DEDUCED, unsafe: log entry 20.) -/
def State.readWindow (s : State) (p : Party) (l win off words : Nat) : Eff Loaded :=
  let w := s.window p l win
  let va := windowAddr w off
  if !w.getLsbD 0 then Eff.trap s { cause := 0x13, va := va }
  else (s.access p l va (4 * words) .load true false).bind fun s1 x =>
    (s1.settleOver p x.pa (4 * words)).bind fun s2 _ => (s2.read p x (4 * words) .const .dflt).bind fun s3 r =>
      Eff.ok s3 (if s3.proofed p l then forwarded (s3.thr p l).held va r else r)

/-! ### Lanes -/

/-- What a body gets: the party, the lanes that perform the instruction, the constant-window operand. -/
structure Ctx where
  p : Party
  /-- the lanes of the run that passed the checks, whatever their guard -/
  ok : Mask
  act : Mask
  k : Src

/-- How a stopped lane leaves the instruction. -/
def Stop.done : Stop → LaneEnd
  | .trap t => .trap t
  | .stall => .stay
def nexts (m : Mask) : List (Nat × LaneEnd) := (Mask.lanes m).map fun l => (l, .next)

/-- Runs an operation in each lane of a mask, in ascending order. -/
def eachLane {α : Type} (s : State) (ls : List Nat) (f : State → Nat → Eff α) : State × List (Nat × Except Stop α) :=
  ls.foldl (fun (acc : State × List (Nat × Except Stop α)) l =>
    let (s1, r) := f acc.1 l
    (s1, acc.2 ++ [(l, r)])) (s, [])
/-- The lanes that have a value, and how each lane ends. -/
def okLanes {α : Type} (rs : List (Nat × Except Stop α)) : List (Nat × α) :=
  rs.filterMap fun r => match r.2 with | .ok a => some (r.1, a) | .error _ => none
def endsOf {α : Type} (rs : List (Nat × Except Stop α)) : List (Nat × LaneEnd) :=
  rs.map fun r => (r.1, match r.2 with | .ok _ => .next | .error e => e.done)

/-- The constant-window operand of an issue: read in every lane that performs it, before it does. -/
def State.kOperand (s : State) (p : Party) (x : Sig) (act : Mask) : State × Src × List (Nat × LaneEnd) :=
  if x.kw = 0 then (s, Src.none, [])
  else
    let (s1, rs) := eachLane s (Mask.lanes act) fun st l => st.readWindow p l x.kwin x.koff x.kw
    let vs := (okLanes rs).map fun r => (r.1, BitVec.ofNat 64 (leNat r.2.1))
    let v0 : W64 := (vs.map (·.2)).headD 0#64
    (s1, { val := fun l => (assoc l vs).getD v0, tag := if vs.all (·.2 == v0) then .u else .g,
           poi := Mask.ofLanes (((okLanes rs).filter (·.2.2)).map (·.1)) },
      (endsOf rs).filter fun e => e.2 != .next)

/-! ### Leaving an instruction -/

/-- What a completed instruction clears in its thread. -/
def Thread.clear (t : Thread) : Thread :=
  { t with got := none, passed := false, onceGo := false, barTok := none, stood := false, behind := false, since := none, rel := none }

/-- The lane has executed the word (R55). -/
def LaneEnd.counts : LaneEnd → Bool | .next => true | .jump _ => true | .resume _ _ => true | _ => false

/-- The party's team no longer exists: its family has ended (R265). -/
def State.gone (s : State) : Party → Bool
  | .lc _ => false
  | .grp tid _ => (s.team? tid).isNone

/-- A transfer to a word that is no header: it traps at its own word, which is not executed (R63). -/
def State.noBlock (s : State) (p : Party) (l : Nat) : LaneEnd → Bool
  | .jump t => (match (s.header p l t).2 with | .notHeader => true | _ => false)
  | _ => false
/-- A trap of a lane that is a machine check: it is taken before other traps of the same issue (R279, R355). -/
def State.checksFirst (s : State) (p : Party) (l : Nat) : LaneEnd → Bool
  | .trap t => !p.isLc && (s.thr p l).handler.isNone && (t.cause == 0x19 || (t.cause == 0x18 && (s.famOf p l).any (·.repl == 3)))
  | _ => false

/-- How one lane leaves its instruction. -/
def State.endLane (s : State) (p : Party) (x : Sig) (l : Nat) (e : LaneEnd) : State :=
  if s.gone p then s
  else
  let reg := (s.grp p).gst == .region
  let s1 := if e.counts && !(s.noBlock p l e) then s.modThr p l fun t => { t with wins := stepWins t.wins x.newWin } else s
  let mark (t : Thread) : Thread := { t with since := some (t.since.getD s.pt), behind := reg }
  match e with
  | .next => s1.modThr p l Thread.advance
  | .jump t => (s1.modThr p l Thread.clear).enter p l t
  | .resume pc b => s1.modThr p l fun t => { t.clear with pc := pc, blk := b }
  | .stay => s1.modThr p l mark
  | .hold st => s1.modThr p l fun t => { mark t with st := st }
  | .trap t => (s1.modThr p l fun th => { th with behind := reg }).trapLane p l t
  | .placed => s1

/-- Branches, calls and returns: every thread of the run takes part, whatever its guard (R121, R128). -/
def isTransfer (i : Instr) : Bool := 1 ≤ opOf i && opOf i ≤ 5

/-- The instructions whose wait an interrupt ends at their own word (R268); `WFI` completes first (R271). -/
def endsForInterrupt (i : Instr) : Bool := [0x0A, 0xC4, 0xC8, 0xCA].contains (opOf i)

/-- Every lane of the run leaves the instruction, in ascending order. Beside a machine check the other traps wait at their word: it is taken
first, and drops what it restarts or ends (R279, R355). (DEDUCED, safe in part: log entry 27.) -/
def State.endAll (s : State) (p : Party) (i : Instr) (x : Sig) (ends : List (Nat × LaneEnd)) : State :=
  let first := ends.any fun e => s.checksFirst p e.1 e.2
  let s1 := ends.foldl (fun st e => st.endLane p x e.1 (match e.2 with
    | .trap t => if first && !(s.checksFirst p e.1 e.2) then .stay else .trap t
    | y => y)) s
  match p with
  | .grp _ _ => s1.modGrp p (·.limitRuns (ends.map (·.1)))
  | .lc n =>
    let waits := ends.any fun e => match e.2 with | .stay => true | .hold _ => true | _ => false
    s1.modLc n fun c => { c with inside := waits && !endsForInterrupt i }

/-- Issues an instruction to the run of the current lane: nothing happens while it may not issue; the lanes whose
guard is true perform `body`, and every lane leaves the word, those that fail a check by a trap. -/
def issue (i : Instr) (s : State) (body : State → Ctx → State × List (Nat × LaneEnd)) : Host.Outcome State Fault Refusal :=
  let p := s.cur
  let run := s.runLanes
  match (s.thr p s.curLane).blk with
  | none => .next s
  | some b =>
    let x := sig i
    let bad := run.filterMap fun l => (laneCause s p x b.live l).map fun c => (l, c)
    let ok := run.filter fun l => (laneCause s p x b.live l).isNone
    let act := Mask.ofLanes (ok.filter (guardIn (s.grp p) x))
    if run.isEmpty || s.interlocked p i x || !s.specAllows p i x run bad.isEmpty then .next s
    else if !s.powered p x act then .next (s.stallOn p x act)
    else
      let s2 := (s.debit p x act).specCount p x act
      let (s3, kop, kends) := s2.kOperand p x act
      let act' := act &&& ~~~(Mask.ofLanes (kends.map (·.1)))
      let (s4, ends) := if act' == 0#64 && !isTransfer i then (s3, [])
        else body s3 { p := p, ok := Mask.ofLanes ok, act := act', k := kop }
      let all := run.map fun l => (l, match assoc l bad with
        | some c => .trap { cause := c }
        | none => (assoc l ends).getD ((assoc l kends).getD .next))
      finish (s4.endAll p i x all)

/-- An instruction that changes its group's registers and predicates alone. -/
def issueG (i : Instr) (s : State) (f : Ctx → Group → Group) : Host.Outcome State Fault Refusal :=
  issue i s fun st c => (st.modGrp c.p (f c), nexts c.act)

/-! ### Results of lanes -/

/-- Registers from `d` on take the values that lanes deliver. -/
def Group.putLanes (g : Group) (d : BitVec 10) (n : Nat) (vs : List (Nat × List W32 × Bool)) (h : Hint) : Group :=
  if !inReg d || vs.isEmpty then g
  else
    let who := Mask.ofLanes (vs.map (·.1))
    let poi := Mask.ofLanes ((vs.filter (·.2.2)).map (·.1))
    (List.range n).foldl (fun g k => g.wr (d.toNat + k) who (fun l => ((assoc l vs).getD ([], false)).1.getD k 0#32) h poi) g

/-- An instruction whose lanes each perform an operation that gives `n` registers and a poison mark. -/
def issueL (i : Instr) (s : State) (d : BitVec 10) (n : Nat) (h : Ctx → Group → Hint)
    (f : Ctx → State → Nat → Eff (List W32 × Bool)) : Host.Outcome State Fault Refusal :=
  issue i s fun st c =>
    let hint := h c (st.grp c.p)
    let (s1, rs) := eachLane st (Mask.lanes c.act) (f c)
    (s1.modGrp c.p fun g => g.putLanes d n (okLanes rs) hint, endsOf rs)

/-- The words of a number of `n` registers, the low word first. -/
def wordsOf (n v : Nat) : List W32 := (List.range n).map fun k => BitVec.ofNat 32 (v / 2 ^ (32 * k))

end Sys2Proof.Machine
end

