-- ==== Sys2Proof/Machine/Integer.lean ====
section
/-!
DEFINITION. The integer instructions (R137-R152). Each is an operation on elements, over the operand forms of `Operands.lean`; tags
follow R20, poison R141.
-/

namespace Sys2Proof.Machine

/-! ### Shapes of integer instructions -/

/-- A and B values of the same size (R138); `tag` gives the result's tag from the sources. -/
def intAB (i : Instr) (z : ISize) (w : BaseW) (s : State) (tag : Src → Src → Hint) (f : Nat → Nat → Nat) :
    Host.Outcome State Fault Refusal :=
  issueG i s fun c g =>
    let a := g.src z.kind z.n w.a
    let b := g.srcB z.kind z.n w c.k
    g.put z.n w.d c.act (fun l => map2 z f (a.val l) (b.val l)) (tag a b) (poiOf [a, b])
/-- The join of two tags (R20). -/
def tagJoin (a b : Src) : Hint := tagOf [a, b]
/-- A value, and a count or descriptor in one 32-bit register, which packed sizes read per element (R137). -/
def intCount (i : Instr) (z : ISize) (w : BaseW) (s : State) (tag : Src → Src → Hint) (f : Nat → Nat → Nat) :
    Host.Outcome State Fault Refusal :=
  issueG i s fun c g =>
    let a := g.src z.kind z.n w.a
    let b := g.srcB z.kind 1 w c.k
    let cnt (x : W64) : W64 := if z = .d then x &&& 0xFFFFFFFF#64 else x
    g.put z.n w.d c.act (fun l => map2 z f (a.val l) (cnt (b.val l))) (tag a b) (poiOf [a, b])
/-- A value and the immediate of an I-form (R58, R139). -/
def intImm (i : Instr) (z : DSize) (w : ImmW) (s : State) (tag : Src → Src → Hint) (f : Nat → Nat → Nat) :
    Host.Outcome State Fault Refusal :=
  issueG i s fun c g =>
    let a := g.src .int z.n w.a
    let b := immSrc w.imm
    g.put z.n w.d c.act (fun l => map2 z.isize f (a.val l) (b.val l)) (tag a b) (poiOf [a, b])
/-- A, B and C values. -/
def intABC (i : Instr) (z : ISize) (w : BaseW) (s : State) (nc : Nat) (f : Nat → Nat → Nat → Nat) : Host.Outcome State Fault Refusal :=
  issueG i s fun c g =>
    let a := g.src z.kind z.n w.a
    let b := g.src z.kind z.n w.b
    let x := g.src z.kind nc w.c
    let low (v : W64) : W64 := if nc = 1 && z = .d then v &&& 0xFFFFFFFF#64 else v
    g.put z.n w.d c.act (fun l => map3 z f (a.val l) (b.val l) (low (x.val l))) (tagOf [a, b, x]) (poiOf [a, b, x])
/-- A alone. -/
def intA (i : Instr) (z : ISize) (w : BaseW) (s : State) (f : Nat → Nat) : Host.Outcome State Fault Refusal :=
  issueG i s fun c g =>
    let a := g.src z.kind z.n w.a
    g.put z.n w.d c.act (fun l => map1 z f (a.val l)) (tagOf [a]) (poiOf [a])

/-- The tag of a `.w` operation that keeps the A shape, and of the other sizes (R20). -/
def tagW (z : ISize) (k : Src → Src → Hint) (a b : Src) : Hint := if z = .w then k a b else tagJoin a b

/-! ### Element operations (R142-R148) -/

def clampTo (sg : Sgn) (w : Nat) (i : Int) : Nat :=
  let lo : Int := match sg with | .s => -(2 ^ (w - 1)) | .u => 0
  let hi : Int := match sg with | .s => 2 ^ (w - 1) - 1 | .u => 2 ^ w - 1
  wrap w (max lo (min hi i))
/-- `DIV` and `REM` (R144): quotient and remainder. -/
def divRem (sg : Sgn) (w a b : Nat) : Nat × Nat :=
  let x := asInt sg w a
  let y := asInt sg w b
  if b = 0 then (2 ^ w - 1, a)
  else if sg == .s && x == -(2 ^ (w - 1)) && y == -1 then (a, 0)
  else (wrap w (x.tdiv y), wrap w (x.tmod y))
def clzN (w a : Nat) : Nat := w - bitLen (a % 2 ^ w)
def ctzN (w a : Nat) : Nat := ((List.range w).find? fun k => a.testBit k).getD w
def popcN (w a : Nat) : Nat := ((List.range w).filter fun k => a.testBit k).length
def brevN (w a : Nat) : Nat := ((List.range w).map fun k => if a.testBit k then 2 ^ (w - 1 - k) else 0).sum
def rotlN (w n a : Nat) : Nat := (a * 2 ^ n + a / 2 ^ (w - n)) % 2 ^ w
def shrA (w n a : Nat) : Nat := wrap w ((sgn w a) >>> n)
/-- `BEXT` and `BINS` with a field descriptor (R148). -/
def bextN (w a d : Nat) : Nat :=
  let p := d % 256
  let l := d / 256 % 256
  if p ≥ w || l = 0 then 0 else a / 2 ^ p % 2 ^ Nat.min l (w - p)
def binsN (w a b d : Nat) : Nat :=
  let p := d % 256
  let l := d / 256 % 256
  if p ≥ w || l = 0 then a
  else
    let n := Nat.min l (w - p)
    a % 2 ^ p + (b % 2 ^ n) * 2 ^ p + a / 2 ^ (p + n) * 2 ^ (p + n)
def extN (sg : Sgn) (w a b : Nat) : Nat :=
  let m := b % 256
  if m = 0 || m ≥ w then a
  else match sg with
    | .u => a % 2 ^ m
    | .s => wrap w (sgn m (a % 2 ^ m))
/-- `PERM` (R148). -/
def permN (a b c : Nat) : Nat :=
  ((List.range 4).map fun k =>
    let s := c / 2 ^ (4 * k) % 16
    let x := (a + b * 2 ^ 32) / 2 ^ (8 * (s % 8)) % 256
    (if s ≥ 8 then (if x ≥ 128 then 255 else 0) else x) * 2 ^ (8 * k)).sum
/-- `FSHF` (R146). -/
def fshfN (dir : Dir) (a b c : Nat) : Nat :=
  let x := a * 2 ^ 32 + b
  let n := c % 32
  match dir with
  | .l => x * 2 ^ n / 2 ^ 32 % 2 ^ 32
  | .r => x / 2 ^ n % 2 ^ 32

/-! ### Meanings -/

def execAdd (sz : ISize) (w : BaseW) (s : State) := intAB (.add sz w) sz w s (tagW sz (tagLinear false)) (· + ·)
def execAddI (sz : DSize) (w : ImmW) (s : State) := intImm (.addI sz w) sz w s (tagW sz.isize (tagLinear false)) (· + ·)
def execSub (sz : ISize) (w : BaseW) (s : State) :=
  intAB (.sub sz w) sz w s (tagW sz (tagLinear true)) fun a b => wrap sz.width ((a : Int) - b)
def execAddsat (sz : ISize) (sg : Sgn) (w : BaseW) (s : State) :=
  intAB (.addsat sz sg w) sz w s tagJoin fun a b => clampTo sg sz.width (asInt sg sz.width a + asInt sg sz.width b)
def execSubsat (sz : ISize) (sg : Sgn) (w : BaseW) (s : State) :=
  intAB (.subsat sz sg w) sz w s tagJoin fun a b => clampTo sg sz.width (asInt sg sz.width a - asInt sg sz.width b)
def execMul (sz : ISize) (w : BaseW) (s : State) := intAB (.mul sz w) sz w s (tagW sz tagMul) (· * ·)
def execMulI (sz : DSize) (w : ImmW) (s : State) := intImm (.mulI sz w) sz w s (tagW sz.isize tagMul) (· * ·)
def execMulh (sz : DSize) (sg : Sgn) (w : BaseW) (s : State) :=
  intAB (.mulh sz sg w) sz.isize w s tagJoin fun a b =>
    wrap sz.width ((asInt sg sz.width a * asInt sg sz.width b) / 2 ^ sz.width)
def execMad (sz : ISize) (w : BaseW) (s : State) := intABC (.mad sz w) sz w s sz.n fun a b c => a * b + c
/-- 32 by 32 bits, accumulated in 64 (R143). -/
def execMadw (sg : Sgn) (w : BaseW) (s : State) :=
  issueG (.madw sg w) s fun c g =>
    let a := g.src .int 1 w.a
    let b := g.src .int 1 w.b
    let x := g.src .int 2 w.c
    let e (v : W64) : Int := asInt sg 32 (v.toNat % 2 ^ 32)
    g.put 2 w.d c.act (fun l => BitVec.ofInt 64 (e (a.val l) * e (b.val l) + (x.val l).toNat)) (tagOf [a, b, x]) (poiOf [a, b, x])
def execDiv (sz : DSize) (sg : Sgn) (w : BaseW) (s : State) :=
  issueG (.div sz sg w) s fun c g =>
    let a := g.src .int sz.n w.a
    let b := g.src .int sz.n w.b
    g.put sz.n w.d c.act (fun l => map2 sz.isize (fun x y => (divRem sg sz.width x y).1) (a.val l) (b.val l))
      (tagOf [a, b]) (poiOf [a, b])
def execRem (sz : DSize) (sg : Sgn) (w : BaseW) (s : State) :=
  issueG (.rem sz sg w) s fun c g =>
    let a := g.src .int sz.n w.a
    let b := g.src .int sz.n w.b
    g.put sz.n w.d c.act (fun l => map2 sz.isize (fun x y => (divRem sg sz.width x y).2) (a.val l) (b.val l))
      (tagOf [a, b]) (poiOf [a, b])
def execAbs (sz : ISize) (w : BaseW) (s : State) := intA (.abs sz w) sz w s fun a => (sgn sz.width a).natAbs
def execNeg (sz : ISize) (w : BaseW) (s : State) := intA (.neg sz w) sz w s fun a => wrap sz.width (-(a : Int))
def execAnd (sz : ISize) (w : BaseW) (s : State) := intAB (.and sz w) sz w s tagJoin (· &&& ·)
def execAndI (sz : DSize) (w : ImmW) (s : State) := intImm (.andI sz w) sz w s tagJoin (· &&& ·)
def execOr (sz : ISize) (w : BaseW) (s : State) := intAB (.or sz w) sz w s tagJoin (· ||| ·)
def execOrI (sz : DSize) (w : ImmW) (s : State) := intImm (.orI sz w) sz w s tagJoin (· ||| ·)
def execXor (sz : ISize) (w : BaseW) (s : State) := intAB (.xor sz w) sz w s tagJoin (· ^^^ ·)
def execXorI (sz : DSize) (w : ImmW) (s : State) := intImm (.xorI sz w) sz w s tagJoin (· ^^^ ·)
def execAndn (sz : ISize) (w : BaseW) (s : State) :=
  intAB (.andn sz w) sz w s tagJoin fun a b => a &&& (2 ^ sz.width - 1 - b)
def execShl (sz : ISize) (w : BaseW) (s : State) :=
  intCount (.shl sz w) sz w s (tagW sz tagShl) fun a k => a * 2 ^ (k % sz.width)
def execShr (sz : ISize) (k : ShrKind) (w : BaseW) (s : State) :=
  intCount (.shr sz k w) sz w s tagJoin fun a n => match k with
    | .l => a / 2 ^ (n % sz.width)
    | .a => shrA sz.width (n % sz.width) a
def execRot (sz : DSize) (dir : Dir) (w : BaseW) (s : State) :=
  intCount (.rot sz dir w) sz.isize w s tagJoin fun a n => match dir with
    | .l => rotlN sz.width (n % sz.width) a
    | .r => rotlN sz.width ((sz.width - n % sz.width) % sz.width) a
def execFshf (dir : Dir) (w : BaseW) (s : State) := intABC (.fshf dir w) .w w s 1 (fshfN dir)
def execMin (sz : ISize) (sg : Sgn) (w : BaseW) (s : State) :=
  intAB (.min sz sg w) sz w s tagJoin fun a b => if asInt sg sz.width b < asInt sg sz.width a then b else a
def execMax (sz : ISize) (sg : Sgn) (w : BaseW) (s : State) :=
  intAB (.max sz sg w) sz w s tagJoin fun a b => if asInt sg sz.width a < asInt sg sz.width b then b else a
def execClz (sz : ISize) (w : BaseW) (s : State) := intA (.clz sz w) sz w s (clzN sz.width)
def execCtz (sz : ISize) (w : BaseW) (s : State) := intA (.ctz sz w) sz w s (ctzN sz.width)
def execPopc (sz : ISize) (w : BaseW) (s : State) := intA (.popc sz w) sz w s (popcN sz.width)
def execBrev (sz : ISize) (w : BaseW) (s : State) := intA (.brev sz w) sz w s (brevN sz.width)
def execBext (sz : DSize) (w : BaseW) (s : State) := intCount (.bext sz w) sz.isize w s tagJoin (bextN sz.width)
def execBins (sz : DSize) (w : BaseW) (s : State) := intABC (.bins sz w) sz.isize w s 1 (binsN sz.width)
def execExt (sz : DSize) (sg : Sgn) (w : BaseW) (s : State) := intCount (.ext sz sg w) sz.isize w s tagJoin (extN sg sz.width)
def execPerm (w : BaseW) (s : State) := intABC (.perm w) .w w s 1 permN
/-- `SEL` (R149): C holds a predicate code; the packed forms are identical to `.w`, inline integers included (R137; log entry 12). -/
def execSel (sz : ISize) (w : BaseW) (s : State) :=
  issueG (.sel sz w) s fun c g =>
    let a := g.src .int sz.n w.a
    let b := g.src .int sz.n w.b
    let q := w.c.toNat
    g.put sz.n w.d c.act (fun l => if g.pred q l then a.val l else b.val l)
      (if g.predUni q then tagOf [a, b] else .g) (poiOf [a, b] ||| Mask.ofTest (g.predPoi q))
def execMov (sz : DSize) (w : BaseW) (s : State) :=
  issueG (.mov sz w) s fun c g =>
    let a := g.src .int sz.n w.a
    g.put sz.n w.d c.act a.val a.tag a.poi
def execLi (w : WideW) (s : State) :=
  issueG (.li w) s fun c g => g.wrD w.d c.act (fun _ => w.imm) .u 0#64
/-- `LIH` (R149): the odd register alone; the even one is neither read nor written. -/
def execLih (w : WideW) (s : State) :=
  issueG (.lih w) s fun c g => if inReg w.d then g.wr (w.d.toNat + 1) c.act (fun _ => w.imm) .u 0#64 else g
/-- `LEA` (R149): B is one signed 32-bit register, shifted by C bits 10:8. -/
def execLea (sz : DSize) (w : BaseW) (s : State) :=
  issueG (.lea sz w) s fun c g =>
    let a := g.src .int sz.n w.a
    let b := g.src .int 1 w.b
    let k := w.c.toNat % 8
    let off (v : W64) : W64 := ((v.setWidth 32).signExtend 64) <<< k
    let b' : Src := { val := fun l => off (b.val l), poi := b.poi,
                      tag := match b.tag with | .a x t => .a (x <<< k) (t <<< k) | h => h }
    g.put sz.n w.d c.act (fun l => a.val l + b'.val l) (if sz = .w then tagLinear false a b' else tagOf [a, b]) (poiOf [a, b])
def execLeaI (sz : DSize) (w : ImmW) (s : State) := intImm (.leaI sz w) sz w s (tagW sz.isize (tagLinear false)) (· + ·)

/-! ### Predicate results (R150, R151) -/

/-- Writes the predicate that a D code names; 1023 discards. -/
def Group.putP (g : Group) (d : BitVec 10) (act : Mask) (val : Nat → Bool) (h : Hint) (poi : Mask) : Group :=
  if d.toNat < 8 then g.wrP d.toNat act val (h == .u) poi else g

def execCmp (sz : DSize) (sg : Sgn) (w : BaseW) (s : State) :=
  issueG (.cmp sz sg w) s fun c g =>
    let a := g.src .int sz.n w.a
    let b := g.src .int sz.n w.b
    let opc := cOpc w.c
    let q := cQ w.c
    let v (x : W64) : Int := asInt sg sz.width (x.toNat % 2 ^ sz.width)
    let qp := if opc = 0 then 0#64 else Mask.ofTest (g.predPoi q)
    g.putP w.d c.act (fun l => combineP opc (relInt (cRel w.c) (v (a.val l)) (v (b.val l))) (g.pred q l))
      (if opc = 0 || g.predUni q then tagOf [a, b] else .g) (poiOf [a, b] ||| qp)

/-- `ADDC` and `SUBB` (R150): CIE is C bit 14 of the word, R bits 13:11, Q bits 10:8. -/
def carryOp (i : Instr) (sz : DSize) (w : BaseW) (s : State) (sub : Bool) : Host.Outcome State Fault Refusal :=
  issueG i s fun c g =>
    let a := g.src .int sz.n w.a
    let b := g.src .int sz.n w.b
    let cie := w.c.getLsbD 6
    let r := w.c.toNat / 8 % 8
    let q := w.c.toNat % 8
    let m := 2 ^ sz.width
    let ci (l : Nat) : Nat := if cie && g.pred q l then 1 else 0
    let av (l : Nat) : Nat := (a.val l).toNat % m
    let bv (l : Nat) : Nat := (b.val l).toNat % m
    let h := if !cie || g.predUni q then tagOf [a, b] else .g
    let poi := poiOf [a, b] ||| (if cie then Mask.ofTest (g.predPoi q) else 0#64)
    let res (l : Nat) : Nat := if sub then wrap sz.width ((av l : Int) - bv l - ci l) else (av l + bv l + ci l) % m
    let out (l : Nat) : Bool := if sub then borrowOut (av l) (bv l) (ci l) else carryOut sz.width (av l) (bv l) (ci l)
    (g.put sz.n w.d c.act (fun l => BitVec.ofNat 64 (res l)) h poi).wrP r c.act out (h == .u) poi
def execAddc (sz : DSize) (w : BaseW) (s : State) := carryOp (.addc sz w) sz w s false
def execSubb (sz : DSize) (w : BaseW) (s : State) := carryOp (.subb sz w) sz w s true

end Sys2Proof.Machine
end

