-- ==== Sys2Proof/Machine/FloatOps.lean ====
section
/-!
DEFINITION. The float instructions (R154-R168): operand forms, flags and enabled exceptions (R103, R104), over the arithmetic of
`Float.lean`.
-/

namespace Sys2Proof

/-! ### Formats (R71, R155) -/

def FFmt.fmt : FFmt → Machine.Fmt | .f32 => Machine.F32 | .f64 => Machine.F64 | .h2 => Machine.F16 | .b2 => Machine.BF16
def FFmt.packed : FFmt → Bool | .h2 => true | .b2 => true | _ => false
def FFmt.kind (f : FFmt) : Machine.OKind := if f.packed then .flt2 f.fmt else .flt f.fmt
def FFmt.count (f : FFmt) : Nat := if f.packed then 2 else 1
def FFmt.width : FFmt → Nat | .f32 => 32 | .f64 => 64 | _ => 16
def SFmt.ffmt : SFmt → FFmt | .f32 => .f32 | .h2 => .h2 | .b2 => .b2

end Sys2Proof

namespace Sys2Proof.Machine

/-! ### How a float instruction issues -/

/-- Result words and flags. -/
abbrev FOut := List W32 × Flags

/-- What a float instruction computes in one lane from the values of its sources: the rounding mode and flushing in force there, and no flag
from a poisoned source. -/
def floatLane (rm : Nat) (ss : List Src) (f : Group → Nat → Nat → Bool → List W64 → FOut) (g : Group) (l : Nat) : FOut :=
  let fc := (g.thr l).fcsr
  let r := f g l (rmIn fc rm) (fzIn fc) (ss.map fun x => x.val l)
  (r.1, if Mask.has (poiOf ss) l then 0#32 else r.2)
/-- The lanes in which a raised flag is enabled (R104). -/
def floatTraps (rm : Nat) (ss : List Src) (f : Group → Nat → Nat → Bool → List W64 → FOut) (act : Mask) (g : Group) : List Nat :=
  (Mask.lanes act).filter fun l => enabledIn (g.thr l).fcsr (floatLane rm ss f g l).2
/-- The group after a float instruction: raised flags are ORed into `s.fcsr`, and the lanes without an enabled flag take their results. -/
def floatGroup (rm : Nat) (ss : List Src) (f : Group → Nat → Nat → Bool → List W64 → FOut)
    (wr : Group → Mask → (Nat → List W32) → Hint → Mask → Group) (act : Mask) (g : Group) : Group :=
  let rs := (Mask.lanes act).map fun l => (l, floatLane rm ss f g l)
  let at_ (l : Nat) : FOut := (assoc l rs).getD ([], 0#32)
  let who := act &&& ~~~(Mask.ofLanes (floatTraps rm ss f act g))
  let g1 : Group := { g with threads := g.threads.mapIdx fun l t => if Mask.has act l then { t with fcsr := orFlags t.fcsr (at_ l).2 } else t }
  if who == 0#64 then g1 else wr g1 who (fun l => (at_ l).1) (tagOf ss) (poiOf ss)
/-- A float instruction: each lane that performs it computes words and flags; a lane with an enabled flag writes nothing and traps with
cause 0x38 (R104, R156). -/
def floatOp (i : Instr) (s : State) (rm : Nat) (srcs : Ctx → Group → List Src) (f : Group → Nat → Nat → Bool → List W64 → FOut)
    (wr : Group → Mask → (Nat → List W32) → Hint → Mask → Group) : Host.Outcome State Fault Refusal :=
  issue i s fun st c =>
    let traps := floatTraps rm (srcs c (st.grp c.p)) f c.act (st.grp c.p)
    (st.modGrp c.p fun g => floatGroup rm (srcs c g) f wr c.act g,
      (Mask.lanes c.act).map fun l => (l, if traps.contains l then .trap { cause := 0x38 } else .next))

/-- Writes `n` registers from a D code on. -/
def wrRegs (d : BitVec 10) (n : Nat) (g : Group) (who : Mask) (v : Nat → List W32) (h : Hint) (poi : Mask) : Group :=
  if inReg d then (List.range n).foldl (fun g k => g.wr (d.toNat + k) who (fun l => (v l).getD k 0#32) h poi) g else g

/-- As `wrRegs`, with a poison mask of each register. -/
def wrEach (d : BitVec 10) (n : Nat) (poi : Nat → Mask) (g : Group) (who : Mask) (v : Nat → List W32) (h : Hint) : Group :=
  if inReg d then (List.range n).foldl (fun g k => g.wr (d.toNat + k) who (fun l => (v l).getD k 0#32) h (poi k)) g else g
/-- A source whose poison the instruction handles element by element. -/
def Src.clean (x : Src) : Src := { x with poi := 0#64 }
/-- An element computed from a poisoned source raises no flag (R156). -/
def quietIf (poi : Bool) (r : Nat × Flags) : Nat × Flags := (r.1, if poi then 0#32 else r.2)

/-- Packs element results into words, and ORs their flags. -/
def packOut (w : Nat) (n : Nat) (rs : List (Nat × Flags)) : FOut :=
  (wordsOf n (unEl w (rs.map (·.1))).toNat, rs.foldl (fun a r => a ||| r.2) 0#32)
/-- An operation on the elements of float operands. -/
def fEls (f : FFmt) (vs : List W64) (op : List Nat → Nat × Flags) : FOut :=
  packOut f.width f.n ((List.range f.count).map fun k => op (vs.map (el f.width k)))

/-- A and B. -/
def fAB (i : Instr) (f : FFmt) (w : BaseW) (s : State) (op : Nat → Bool → Nat → Nat → Nat × Flags) : Host.Outcome State Fault Refusal :=
  floatOp i s w.rm (fun c g => [g.src f.kind f.n w.a, g.srcB f.kind f.n w c.k])
    (fun _ _ rm fz vs => fEls f vs fun es => op rm fz (es.getD 0 0) (es.getD 1 0)) (wrRegs w.d f.n)
/-- A, B and C. -/
def fABC (i : Instr) (f : FFmt) (w : BaseW) (s : State) (op : Nat → Bool → Nat → Nat → Nat → Nat × Flags) :
    Host.Outcome State Fault Refusal :=
  floatOp i s w.rm (fun _ g => [g.src f.kind f.n w.a, g.src f.kind f.n w.b, g.src f.kind f.n w.c])
    (fun _ _ rm fz vs => fEls f vs fun es => op rm fz (es.getD 0 0) (es.getD 1 0) (es.getD 2 0)) (wrRegs w.d f.n)
/-- A alone. -/
def fA (i : Instr) (f : FFmt) (w : BaseW) (s : State) (op : Nat → Bool → Nat → Nat × Flags) : Host.Outcome State Fault Refusal :=
  floatOp i s w.rm (fun _ g => [g.src f.kind f.n w.a])
    (fun _ _ rm fz vs => fEls f vs fun es => op rm fz (es.getD 0 0)) (wrRegs w.d f.n)

/-! ### Arithmetic (R157-R162) -/

def execFadd (f : FFmt) (w : BaseW) (s : State) := fAB (.fadd f w) f w s f.fmt.add
def execFsub (f : FFmt) (w : BaseW) (s : State) := fAB (.fsub f w) f w s f.fmt.sub
def execFmul (f : FFmt) (w : BaseW) (s : State) := fAB (.fmul f w) f w s f.fmt.mul
def execFfma (f : FFmt) (w : BaseW) (s : State) := fABC (.ffma f w) f w s fun rm fz => f.fmt.fma rm fz false false
def execFfms (f : FFmt) (w : BaseW) (s : State) := fABC (.ffms f w) f w s fun rm fz => f.fmt.fma rm fz false true
def execFnma (f : FFmt) (w : BaseW) (s : State) := fABC (.fnma f w) f w s fun rm fz => f.fmt.fma rm fz true false
def execFdiv (f : FFmt) (w : BaseW) (s : State) := fAB (.fdiv f w) f w s f.fmt.div
def execFsqrt (f : FFmt) (w : BaseW) (s : State) := fA (.fsqrt f w) f w s f.fmt.sqrt
def execFrnd (f : FFmt) (w : BaseW) (s : State) := fA (.frnd f w) f w s f.fmt.rnd
/-- `FSCALE` (R155, R158): B is a signed count, one register, or one 16-bit count per element. -/
def execFscale (f : FFmt) (w : BaseW) (s : State) :=
  let bw := if f.packed then 16 else 32
  floatOp (.fscale f w) s w.rm
    (fun c g => [g.src f.kind f.n w.a, g.srcB (if f.packed then .pack 16 else .int) 1 w c.k])
    (fun _ _ rm fz vs => packOut f.width f.n ((List.range f.count).map fun k =>
      f.fmt.scale rm fz (el f.width k (vs.getD 0 0#64)) (sgn bw (el bw k (vs.getD 1 0#64)))))
    (wrRegs w.d f.n)
def execFmin (f : FFmt) (w : BaseW) (s : State) := fAB (.fmin f w) f w s fun _ fz => f.fmt.minmax false fz
def execFmax (f : FFmt) (w : BaseW) (s : State) := fAB (.fmax f w) f w s fun _ fz => f.fmt.minmax true fz
def execFsgn (f : FFmt) (w : BaseW) (s : State) :=
  floatOp (.fsgn f w) s w.rm (fun _ g => [g.src f.kind f.n w.a, g.src f.kind f.n w.b])
    (fun _ _ _ _ vs => fEls f vs fun es => (f.fmt.sgn (w.c.toNat % 4) (es.getD 0 0) (es.getD 1 0), 0#32)) (wrRegs w.d f.n)

/-- HSEL of `FCMP` (R161). -/
def hsel (code : Nat) (rs : List Bool) : Bool :=
  match code with
  | 0 => rs.all id
  | 1 => rs.any id
  | 2 => rs.getD 0 false
  | _ => rs.getD 1 false
/-- The combining predicate of `FCMP` as a source of 0 or 1; none when it is not combined. -/
def Group.qsrc (g : Group) (opc q : Nat) : Src :=
  if opc = 0 then Src.none
  else { val := fun l => if g.pred q l then 1#64 else 0#64, tag := if g.predUni q then .u else .g, poi := Mask.ofTest (g.predPoi q) }
/-- `FCMP` (R161): the predicate as a word of 0 or 1 until it is written. -/
def execFcmp (f : FFmt) (w : BaseW) (s : State) :=
  let opc := cOpc w.c
  floatOp (.fcmp f w) s w.rm (fun _ g => [g.src f.kind f.n w.a, g.src f.kind f.n w.b, g.qsrc opc (cQ w.c)])
    (fun _ _ _ fz vs =>
      let rs := (List.range f.count).map fun k =>
        f.fmt.cmp (cRel w.c) fz (el f.width k (vs.getD 0 0#64)) (el f.width k (vs.getD 1 0#64))
      -- the flags of both elements count, whatever HSEL selects (R99)
      let r := combineP opc (hsel (if f.packed then cHsel w.c else 0) (rs.map (·.1))) (vs.getD 2 0#64 == 1#64)
      ([if r then 1#32 else 0#32], rs.foldl (fun a x => a ||| x.2) 0#32))
    (fun g who v h poi => g.putP w.d who (fun l => (v l).getD 0 0#32 == 1#32) h poi)
def execFclass (f : FFmt) (w : BaseW) (s : State) :=
  floatOp (.fclass f w) s w.rm (fun _ g => [g.src f.kind f.n w.a])
    (fun _ _ _ _ vs => (wordsOf 1 ((List.range f.count).map fun k => f.fmt.cls (el f.width k (vs.getD 0 0#64)) * 2 ^ (16 * k)).sum, 0#32))
    (wrRegs w.d 1)
/-- `FDOT2.b2` (R162). -/
def execFdot2 (w : BaseW) (s : State) :=
  floatOp (.fdot2 w) s w.rm (fun _ g => [g.src (.flt2 BF16) 1 w.a, g.src (.flt2 BF16) 1 w.b, g.src (.flt F32) 1 w.c])
    (fun _ _ rm fz vs =>
      let a := vs.getD 0 0#64
      let b := vs.getD 1 0#64
      let (v, fl) := dot2 rm fz (el 16 0 a) (el 16 0 b) (el 16 1 a) (el 16 1 b) (el 32 0 (vs.getD 2 0#64))
      (wordsOf 1 v, fl))
    (wrRegs w.d 1)

/-! ### Special functions (R163, R164) -/

/-- Function `fn` of `special32`; in packed formats each element by way of binary32. -/
def specialOp (i : Instr) (fn : Nat) (f : SFmt) (w : BaseW) (s : State) : Host.Outcome State Fault Refusal :=
  floatOp i s 0 (fun _ g => [g.src f.ffmt.kind 1 w.a])
    (fun _ _ _ fz vs => fEls f.ffmt vs fun es =>
      if f.ffmt.packed then special16 f.ffmt.fmt fn fz (es.getD 0 0) else special32 fn fz (es.getD 0 0)) (wrRegs w.d 1)
def execFrcp (f : SFmt) (w : BaseW) (s : State) := specialOp (.frcp f w) 0 f w s
def execFrsq (f : SFmt) (w : BaseW) (s : State) := specialOp (.frsq f w) 1 f w s
def execFexp2 (f : SFmt) (w : BaseW) (s : State) := specialOp (.fexp2 f w) 2 f w s
def execFlog2 (f : SFmt) (w : BaseW) (s : State) := specialOp (.flog2 f w) 3 f w s
def execFsin (f : SFmt) (w : BaseW) (s : State) := specialOp (.fsin f w) 4 f w s
def execFcos (f : SFmt) (w : BaseW) (s : State) := specialOp (.fcos f w) 5 f w s
def execFtanh (f : SFmt) (w : BaseW) (s : State) := specialOp (.ftanh f w) 6 f w s

/-! ### Conversions (R165-R168) -/

/-- `CVTFF` (R165). -/
def execCvtff (p : FFPair) (w : BaseW) (s : State) :=
  let one (k : OKind) (n : Nat) (_ : Ctx) (g : Group) : List Src := [g.src k n w.a]
  let a (g : Group) : Src := g.src (.flt F32) 1 w.a
  let b (g : Group) : Src := g.src (.flt F32) 1 w.b
  let v (vs : List W64) (k : Nat) : W64 := vs.getD k 0#64
  let narrow2 (i : Instr) (d : Fmt) : Host.Outcome State Fault Refusal :=
    floatOp i s w.rm (fun _ g => [(a g).clean, (b g).clean])
      (fun g l rm fz vs => packOut 16 1 [quietIf (Mask.has (a g).poi l) (convFF F32 d rm fz false (el 32 0 (v vs 0))),
                                         quietIf (Mask.has (b g).poi l) (convFF F32 d rm fz false (el 32 0 (v vs 1)))])
      (fun g who r h _ => wrRegs w.d 1 g who r h ((a g).poi ||| (b g).poi))
  let widen2 (x : Fmt) (rm : Nat) (fz : Bool) (vs : List W64) : FOut :=
    packOut 32 2 [convFF x F32 rm fz false (el 16 0 (v vs 0)), convFF x F32 rm fz false (el 16 1 (v vs 0))]
  let each (x d : Fmt) (rm : Nat) (fz : Bool) (vs : List W64) : FOut :=
    packOut 16 1 [convFF x d rm fz false (el 16 0 (v vs 0)), convFF x d rm fz false (el 16 1 (v vs 0))]
  let i := Instr.cvtff p w
  match p with
  | .f32f64 => floatOp i s w.rm (one (.flt F64) 2) (fun _ _ rm fz vs => packOut 32 1 [convFF F64 F32 rm fz false (v vs 0).toNat]) (wrRegs w.d 1)
  | .f64f32 => floatOp i s w.rm (one (.flt F32) 1) (fun _ _ rm fz vs => packOut 64 2 [convFF F32 F64 rm fz false (el 32 0 (v vs 0))]) (wrRegs w.d 2)
  | .h2f32 => narrow2 i F16
  | .b2f32 => narrow2 i BF16
  | .f32h2 => floatOp i s w.rm (one (.flt2 F16) 1) (fun _ _ => widen2 F16) (wrRegs w.d 2)
  | .f32b2 => floatOp i s w.rm (one (.flt2 BF16) 1) (fun _ _ => widen2 BF16) (wrRegs w.d 2)
  | .h2b2 => floatOp i s w.rm (one (.flt2 BF16) 1) (fun _ _ => each BF16 F16) (wrRegs w.d 1)
  | .b2h2 => floatOp i s w.rm (one (.flt2 F16) 1) (fun _ _ => each F16 BF16) (wrRegs w.d 1)

/-- Width and sign of an integer side (R166). -/
def iWidth : IKind → Nat | .s32 => 32 | .u32 => 32 | _ => 64
def iSigned : IKind → Bool | .s32 => true | .s64 => true | _ => false
def iRegs (k : IKind) : Nat := iWidth k / 32
def fSide : FKind → Fmt | .f32 => F32 | .f64 => F64
def execCvtfi (dst : IKind) (src : FKind) (w : BaseW) (s : State) :=
  let f := fSide src
  floatOp (.cvtfi dst src w) s w.rm (fun _ g => [g.src (.flt f) (f.bits / 32) w.a])
    (fun _ _ rm fz vs => packOut (iWidth dst) (iRegs dst)
      [convFI f (iWidth dst) (iSigned dst) rm fz ((vs.getD 0 0#64).toNat % 2 ^ f.bits)]) (wrRegs w.d (iRegs dst))
def execCvtif (src : IKind) (dst : FKind) (w : BaseW) (s : State) :=
  let f := fSide dst
  floatOp (.cvtif src dst w) s w.rm (fun _ g => [g.src .int (iRegs src) w.a])
    (fun _ _ rm fz vs => packOut f.bits (f.bits / 32)
      [convIF f (iWidth src) (iSigned src) rm fz ((vs.getD 0 0#64).toNat % 2 ^ iWidth src)]) (wrRegs w.d (f.bits / 32))

/-- A span of registers as a source: its words are read from the group (R49). -/
def Group.spanSrc (g : Group) (c : BitVec 10) (n : Nat) : Src :=
  { val := fun _ => 0#64, tag := if (List.range n).all (fun k => (g.reg (c.toNat + k)).sh.code == 0) then .u else .g,
    poi := Mask.ofTest fun l => g.poi l c.toNat n }
def Group.span (g : Group) (l : Nat) (c : BitVec 10) (n : Nat) : List Nat := (List.range n).map fun k => (g.rd l (c.toNat + k)).toNat

/-- Element format and element bits of an MX form. -/
def QForm.elem : QForm → Fmt | .mx8e5 => E5M2 | .mx4 => E2M1 | .e5m2 => E5M2 | _ => E4M3
def QForm.bits : QForm → Nat | .mx4 => 4 | _ => 8

/-- `QPACK` (R167). -/
def execQpack (f : QForm) (w : BaseW) (s : State) :=
  let e := QForm.elem f
  let regs := [w.a.toNat, w.a.toNat + 1, w.b.toNat, w.b.toNat + 1]
  let fp8 := floatOp (.qpack f w) s w.rm (fun _ g => [(g.spanSrc w.a 2).clean, (g.spanSrc w.b 2).clean])
    (fun g l rm fz _ => packOut 8 1 (regs.map fun r => quietIf (g.poi l r 1) (convFF F32 e rm fz (w.c.getLsbD 0) (g.rd l r).toNat)))
    (fun g who r h _ => wrRegs w.d 1 g who r h ((g.spanSrc w.a 2).poi ||| (g.spanSrc w.b 2).poi))
  let words := QForm.bits f
  let mx := floatOp (.qpack f w) s w.rm (fun _ g => [g.spanSrc w.a 32])
    (fun g l _ fz _ =>
      let (sc, es, fl) := mxQuantise e fz (g.span l w.a 32)
      (wordsOf words (es.foldr (fun x acc => x + 2 ^ words * acc) 0) ++ [BitVec.ofNat 32 sc], fl)) (wrRegs w.d (words + 1))
  match f with
  | .e4m3 => fp8
  | .e5m2 => fp8
  | .mx8e4 => mx
  | .mx8e5 => mx
  | .mx4 => mx

/-- One element widened to binary32 (R168): exact but for overflow, and for tiny results under FZ. -/
def widenElem (e : Fmt) (fz : Bool) (scale : Int) (x : Nat) : Nat × Flags :=
  match e.dec x with
  | .nan _ => (F32.nan, 0#32)
  | .inf n => (F32.inf n, 0#32)
  | .fin n m k => if m = 0 then (F32.signBit n, 0#32) else F32.round 0 fz false n m (k + scale) false
/-- `QUNPK` (R168). -/
def execQunpk (f : QForm) (w : BaseW) (s : State) :=
  let e := QForm.elem f
  let fp8 := floatOp (.qunpk f w) s w.rm (fun _ g => [g.spanSrc w.a 1])
    (fun g l _ fz _ =>
      let x := BitVec.ofNat 64 ((g.span l w.a 1).headD 0)
      packOut32 ((List.range 4).map fun k => widenElem e fz 0 (el 8 k x))) (wrRegs w.d 4)
  let words := QForm.bits f
  -- element k is computed from one register of the span, and from the scale
  let from_ (g : Group) (l k : Nat) : Bool := g.poi l (w.a.toNat + words * k / 32) 1 || g.poi l w.b.toNat 1
  let mx := floatOp (.qunpk f w) s w.rm (fun _ g => [(g.spanSrc w.a words).clean, (g.spanSrc w.b 1).clean])
    (fun g l _ fz _ =>
      let x := (g.span l w.a words).foldr (fun v acc => v + 2 ^ 32 * acc) 0
      let sc := (g.span l w.b 1).headD 0 % 256
      packOut32 ((List.range 32).map fun k =>
        if sc = 255 then (F32.nan, 0#32) else quietIf (from_ g l k) (widenElem e fz ((sc : Int) - 127) (x / 2 ^ (words * k) % 2 ^ words))))
    (fun g who r h _ => wrEach w.d 32 (fun k => Mask.ofTest fun l => from_ g l k) g who r h)
  match f with
  | .e4m3 => fp8
  | .e5m2 => fp8
  | .mx8e4 => mx
  | .mx8e5 => mx
  | .mx4 => mx
where
  /-- One word for each result. -/
  packOut32 (rs : List (Nat × Flags)) : FOut := (rs.map fun r => BitVec.ofNat 32 r.1, rs.foldl (fun a r => a ||| r.2) 0#32)

end Sys2Proof.Machine
end

