-- ==== Sys2Proof/Machine/Access.lean ====
section
/-!
DEFINITION. How a thread's instruction reaches global memory: releases and acquires (R195, R295), proof points, held stores and
operations performed once in a proofed family (R372-R376, R384, R385), loads, stores and the read-modify-writes of the tether engine.
-/

namespace Sys2Proof.Machine

/-! ### Proofed families (R372-R385) -/

/-- Groups per team: dw0 bits 15:0 (R89). -/
def Family.groups (f : Family) : Nat := f.dw 0 % 2 ^ 16
/-- Q: the entries that a thread may hold (R373). -/
def Family.quota (f : Family) : Nat := 128 / Nat.max 1 f.groups

/-- CRC-64 over bytes, from a start value (R377). -/
def crc64 (crc : W64) (bs : List Byte) : W64 :=
  bs.foldl (fun (c : W64) (x : Byte) =>
    let y : W64 := x.setWidth 64
    (List.range 8).foldl (fun (c : W64) _ => if c.getLsbD 63 then (c <<< (1 : Nat)) ^^^ 0x42F0E1EBA9EA3693#64 else c <<< (1 : Nat))
      (c ^^^ (y <<< (56 : Nat)))) crc
/-- The signature of an interval's stores (R377). -/
def signature (es : List Entry) : W64 :=
  es.foldl (fun c e => crc64 c (natLe 8 e.va.toNat ++ [BitVec.ofNat 8 e.data.length] ++ e.data)) 0xFFFFFFFFFFFFFFFF#64

/-- The replica of a party's team. -/
def State.ridOf (s : State) : Party → Nat | .lc _ => 0 | .grp t _ => (s.team t).rid

/-- Starts the clock of a key at its first entry (R380). -/
def State.startClock (s : State) (fam : W32) (tix : Nat) (key : ClockKey) : State :=
  if s.clocks.any (fun c => c.fam == fam && c.tix == tix && c.key == key) then s
  else { s with clocks := s.clocks ++ [{ fam := fam, tix := tix, key := key, count := 0 }] }

/-- A proof point (R376): the interval's entry goes to the proof unit, and the thread waits until it has committed. -/
def State.proofPoint (s : State) (p : Party) (l : Nat) : Eff Unit :=
  let t := s.thr p l
  if !s.proofed p l || t.passed then Eff.ok s ()
  else
    let e : ProofEntry := { fam := t.fam, tix := t.tix, rid := s.ridOf p, q := t.q, pc := t.pc, count := t.held.length, sig := signature t.held }
    Eff.stall (({ s with proofs := addSet e s.proofs }.startClock t.fam t.tix (.interval t.q)).modThr p l fun x => { x with st := .proofWait })

/-- The flip of `s.finj` (R389): counts the held stores of its target, and inverts one bit. -/
def State.flip (s : State) (fam : W32) (rid : Nat) (data : List Byte) : State × List Byte :=
  let f := s.finj
  if !f.getLsbD 63 || BitVec.truncate 32 f != fam || f.toNat / 2 ^ 58 % 4 != rid then (s, data)
  else if s.finjSeen < f.toNat / 2 ^ 32 % 2 ^ 18 then ({ s with finjSeen := s.finjSeen + 1 }, data)
  else
    let b := f.toNat / 2 ^ 50 % 256 % (8 * Nat.max 1 data.length)
    ({ s with finj := f &&& 0x7FFFFFFFFFFFFFFF#64 },
      data.mapIdx fun k x => if k = b / 8 then x ^^^ BitVec.ofNat 8 (2 ^ (b % 8)) else x)

/-- Holds a store in the proof buffer, after the full point when the quota is used up (R372, R373). -/
def State.holdStore (s : State) (p : Party) (l : Nat) (va : W64) (data : List Byte) (rh : Retain) : Eff Unit :=
  let t := s.thr p l
  let quota := ((s.famOf p l).map Family.quota).getD 1
  let hold (st : State) : Eff Unit :=
    let (s1, d) := st.flip t.fam (st.ridOf p) data
    Eff.ok (s1.modThr p l fun x =>
      { x with held := x.held ++ [{ va := va, data := d, rh := rh, pc := t.pc, at_ := t.since.getD s.pt }] }) ()
  if t.held.length < quota then hold s else (s.proofPoint p l).bind fun s1 _ => hold s1

/-- The request of an operation that is performed once for all replicas (R384, R385). `none`: this thread performs it (outside a
proofed family, or as the source once the requests have compared equal); a value: the result that the source has delivered. -/
def State.onceAsk (s : State) (p : Party) (l : Nat) (operands : List Nat) : Eff (Option (Nat × Bool)) :=
  let t := s.thr p l
  if !s.proofed p l || t.onceGo then Eff.ok s none
  else match t.got with
    | some r => Eff.ok (State.modThr { s with onces := s.onces.filter fun o => !(o.fam == t.fam && o.tix == t.tix && o.rid == s.ridOf p) } p l
        fun x => { x with e := x.e + 1 }) (some r)
    | none =>
      let r : OnceReq := { fam := t.fam, tix := t.tix, rid := s.ridOf p, e := t.e, pc := t.pc, operands := operands }
      Eff.stall (({ s with onces := addSet r s.onces }.startClock t.fam t.tix (.once t.e)).modThr p l fun x => { x with st := .onceWait })
/-- The source's result goes to every replica's thread; read from memory, it replaces the copies of the line at every replica (R294). -/
def State.onceTell (s : State) (p : Party) (l : Nat) (pa : Option Nat) (r : Nat × Bool) : State :=
  if !s.proofed p l then s
  else (((s.replicasOf p).filter (· != p)).foldl (fun st q =>
      (match pa with | some a => st.dropLine q a | none => st).modThr q l fun x =>
        { x with got := some r, st := if x.st == TState.onceWait then TState.ready else x.st }) s).modThr p l
    fun x => { x with e := x.e + 1 }
/-- An operation performed once for all replicas; outside a proofed family it is performed at once. -/
def State.once (s : State) (p : Party) (l : Nat) (operands : List Nat) (pa : Option Nat) (perform : State → Eff (Nat × Bool)) : Eff (Nat × Bool) :=
  (s.onceAsk p l operands).bind fun s1 r => match r with
    | some v => Eff.ok s1 v
    | none => (perform s1).bind fun s2 v => Eff.ok (s2.onceTell p l pa v) v

/-- The request of a thread for the value of its once count (R385). -/
def State.pinAsk (s : State) (p : Party) (l : Nat) (operands : List Nat) : State :=
  let t := s.thr p l
  let r : OnceReq := { fam := t.fam, tix := t.tix, rid := s.ridOf p, e := t.e, pc := t.pc, operands := operands }
  State.startClock { s with onces := addSet r s.onces } t.fam t.tix (.once t.e)
/-- What is compared of an instruction itself: opcode, FN and the C field (R385). -/
def onceKey (i : Instr) : List Nat := match encodeFields i with | some f => [f.op.toNat, f.fn.toNat, f.c.toNat] | none => []
/-- A value that has been read for the request of a thread with these operands. -/
def Pinned.fits (x : Pinned) (t : Thread) (operands : List Nat) : Bool := x.tix == t.tix && x.e == t.e && x.operands == operands
/-- The value is there for the thread to take, or the thread is the one that reads it. -/
def State.pinReady (s : State) (p : Party) (l : Nat) (operands : List Nat) : Bool :=
  let t := s.thr p l
  !s.proofed p l || s.ridOf p = 0 || t.onceGo || (s.famOf p l).any fun f => f.pinned.any fun x => x.fits t operands
/-- A value that replica 0 reads when its request arrives, and the others take whose requests are the same (R275, R384, R385); the requests are
compared once all have arrived. `onceGo` marks the source that stands in for replica 0: what it reads takes the place of the dissenter's value. -/
def State.pin (s : State) (p : Party) (l : Nat) (operands : List Nat) (get : State → Eff Nat) : Eff Nat :=
  let t := s.thr p l
  let rid := s.ridOf p
  match s.famOf p l with
  | none => get s
  | some f =>
    if f.repl ≤ 1 then get s
    else
      let next (st : State) : State := st.modThr p l fun x => { x with e := x.e + 1 }
      match f.pinned.find? fun x => x.fits t operands with
      | some x =>
        let s1 := s.modFam t.fam fun y => { y with pinned := (y.pinned.map fun z =>
          if z == x then { z with left := z.left.filter (· != rid) } else z).filter fun z => !z.left.isEmpty }
        Eff.ok (next (s1.pinAsk p l operands)) x.value
      | none =>
        if rid = 0 || t.onceGo then
          (get s).bind fun s1 v =>
            let s2 := s1.modFam t.fam fun x => { x with pinned := (x.pinned.filter fun y => !(y.tix == t.tix && y.e == t.e)) ++
              [{ tix := t.tix, e := t.e, operands := operands, value := v, left := (List.range f.repl).filter (· != rid) }] }
            let s3 := (s2.replicasOf p).foldl (fun st q => st.modThr q l fun x =>
              { x with st := if x.st == .onceWait && x.e == t.e then .ready else x.st }) s2
            Eff.ok (next (s3.pinAsk p l operands)) v
        else Eff.stall ((s.pinAsk p l operands).modThr p l fun x => { x with st := .onceWait })

/-! ### Releases (R295) -/

/-- The release of an instruction: performed when its condition holds, or by a later RELEASE_PERFORM (log entry 6). -/
def State.releaseFor (s : State) (p : Party) (l scope : Nat) : Eff Unit :=
  if s.proofed p l then s.release p scope
  else if (s.thr p l).passed then Eff.ok s ()
  else if s.deferReleases then Eff.stall (s.modThr p l fun t => { t with rel := some scope })
  else s.release p scope
/-- `.rel` and `.ar`; `.acq` and `.ar` (R74). -/
def isRel (order : Nat) : Bool := order = 2 || order = 3
def isAcq (order : Nat) : Bool := order = 1 || order = 3

/-! ### Results that come later -/

/-- The value of a thread's issued access arrives; the threads of one instruction go on together, when none of its accesses is still to be
performed (R119). -/
def State.returns (s : State) (p : Party) (l : Nat) (v : Nat × Bool) : State :=
  let pc := (s.thr p l).pc
  let s1 := s.modThr p l fun t => { t with got := some v }
  let more := s1.pend.any fun y => y.party == p && y.out.isNone && (s1.thr p y.lane).pc == pc && (match y.kind with | .store _ _ => false | _ => true)
  if more then s1
  else
    let back (t : Thread) : Bool := t.pc == pc && t.st == .engineWait && t.got.isSome
    s1.modGrp p fun g =>
      let ls := (g.lanes g.live).filter fun k => back (g.thr k)
      Group.limitRuns { g with threads := g.threads.map fun t => if back t then { t with st := .ready } else t } ls

/-! ### Loads and stores -/

/-- An earlier load of the thread is still to be performed on a byte of the access (R192). -/
def State.owesLoad (s : State) (p : Party) (l pa n : Nat) : Bool :=
  s.pend.any fun y => y.out.isSome && y.party == p && y.lane == l && y.pa < pa + n && pa < y.pa + y.n

/-- A load of a thread on a translated address (R191, R192, R374), after the thread's earlier accesses to the bytes. Where loads are deferred
it is performed by a later step (R292, R294): the thread waits for the value, or goes on without it when a destination is named and the line is
no other package's (R300); then the answer is none. (DEDUCED, safe in part: log entry 6.) -/
def State.loadAt (s : State) (p : Party) (l : Nat) (va : W64) (x : Xl) (n : Nat) (rh : Retain) (d : Option (BitVec 10)) : Eff (Option Loaded) :=
  if s.owesLoad p l x.pa n then Eff.stall s
  else (s.settleOver p x.pa n).bind fun s2 _ =>
    if s2.proofed p l then (s2.read p x n .data rh).bind fun s3 r => Eff.ok s3 (some (forwarded (s3.thr p l).held va r))
    else if s2.deferLoads && x.mt != 1 then
      let e : Pend := { party := p, lane := l, va := va, pa := x.pa, n := n, kind := .load x.mt x.lc rh }
      if d.isSome && !s2.remote (s2.redirect x.pa) then Eff.ok { s2 with pend := s2.pend ++ [{ e with out := d }] } none
      else Eff.stall (State.modThr { s2 with pend := s2.pend ++ [e] } p l fun t => { t with st := .engineWait })
    else (s2.read p x n .data rh).bind fun s3 r => Eff.ok s3 (some r)
/-- The load of an `LD`: its value, or none when the thread goes on without it. -/
def State.loadFree (s : State) (p : Party) (l : Nat) (va : W64) (n : Nat) (d : BitVec 10) (rh : Retain) : Eff (Option Loaded) :=
  match (s.thr p l).got with
  | some (v, poi) => Eff.ok s (some (natLe n v, poi))
  | none => (s.access p l va n .load true true).bind fun s1 x => s1.loadAt p l va x n rh (some d)
/-- A load whose thread waits for the value (R183). -/
def State.loadG (s : State) (p : Party) (l : Nat) (va : W64) (n : Nat) (rh : Retain) : Eff Loaded :=
  match (s.thr p l).got with
  | some (v, poi) => Eff.ok s (natLe n v, poi)
  | none => (s.access p l va n .load true true).bind fun s1 x =>
      (s1.loadAt p l va x n rh none).bind fun s2 r => match r with
        | some v => Eff.ok s2 v
        | none => Eff.stall s2

/-- A store of a thread (R183, R185, R189, R372). -/
def State.storeG (s : State) (p : Party) (l : Nat) (va : W64) (data : List Byte) (poi : Bool) (rh : Retain) : Eff Unit :=
  (s.access p l va data.length .store true true).bind fun s1 x =>
    if poi then Eff.trap s1 { cause := 0x18 }
    else if s1.owesLoad p l x.pa data.length then Eff.stall s1
    else if s1.proofed p l then s1.holdStore p l va data rh
    else s1.put p l va x data rh

/-- A proof point before an operation that is performed once and overlaps a held store (R376). -/
def State.proofOver (s : State) (p : Party) (l : Nat) (rel : Bool) (va : W64) (n : Nat) : Eff Unit :=
  if rel || overlapsHeld (s.thr p l).held va n then s.proofPoint p l else Eff.ok s ()

/-- Poisoned data of an acquire or of an engine's read raises cause 0x18 before the thread's next instruction (R185). -/
def State.poisonNext (s : State) (p : Party) (l : Nat) (poi : Bool) : State :=
  if poi then s.modThr p l fun t => { t with pendPoison := true } else s

/-- An address from one operand (R181): poison in it is cause 0x18 (R183). -/
def State.addrOf (s : State) (l : Nat) (a : Src) (off : W64) : Eff W64 :=
  if Mask.has a.poi l then Eff.trap s { cause := 0x18 } else Eff.ok s (a.val l + off)

end Sys2Proof.Machine
end

