-- ==== Sys2Proof/Machine/Memory.lean ====
section
/-!
DEFINITION. Memory instructions (R181-R204): loads and stores of global memory, ordered accesses and fences, forme and cluster forme,
constant windows, prefetch and line operations, reservations; and the steps that perform deferred accesses (R292-R295).
-/

namespace Sys2Proof

/-! ### Sizes (R73) -/

def LdSize.bytes : LdSize → Nat | .b => 1 | .sb => 1 | .h => 2 | .sh => 2 | .w => 4 | .d => 8 | .q => 16
def LdSize.signed : LdSize → Bool | .sb => true | .sh => true | _ => false
def StSize.bytes : StSize → Nat | .b => 1 | .h => 2 | .w => 4 | .d => 8 | .q => 16
def LdaSize.ld : LdaSize → LdSize | .b => .b | .h => .h | .w => .w | .d => .d | .sb => .sb | .sh => .sh
def StrSize.st : StrSize → StSize | .b => .b | .h => .h | .w => .w | .d => .d
def DSize.bytes : DSize → Nat | .w => 4 | .d => 8

end Sys2Proof

namespace Sys2Proof.Machine

/-! ### Values of loads and stores (R191) -/

/-- The registers that a load fills from its bytes. -/
def loadWords (z : LdSize) (bs : List Byte) : List W32 :=
  let v := leNat bs
  if z.signed then [BitVec.ofInt 32 (sgn (8 * z.bytes) v)] else wordsOf z.n v
/-- The bytes that a store takes from the data registers. -/
def storeBytes (g : Group) (l : Nat) (d : BitVec 10) (z : StSize) : List Byte :=
  natLe z.bytes (((List.range z.n).map fun k => (g.rd l (d.toNat + k)).toNat * 2 ^ (32 * k)).sum)

/-- RH (R54, R188). -/
def retain (tail : BitVec 8) : Retain := match tail.toNat % 4 with | 0 => .dflt | 1 => .strm | 2 => .stky | _ => .byp
/-- The tag of a load's result follows its address (R20). -/
def loadHint (srcs : List Src) : Hint := tagOf srcs
def offOf (i : BitVec 20) : W64 := i.signExtend 64

/-- A load of each active lane. -/
def loadOp (i : Instr) (s : State) (z : LdSize) (d : BitVec 10) (a : Group → Src) (f : State → Party → Nat → W64 → Eff Loaded) (off : W64) :
    Host.Outcome State Fault Refusal :=
  issueL i s d z.n (fun _ g => loadHint [a g]) fun c st l =>
    (st.addrOf l (a (s.grp c.p)) off).bind fun s1 va => (f s1 c.p l va).bind fun s2 (bs, poi) => Eff.ok s2 (loadWords z bs, poi)
/-- A store of each active lane. -/
def storeOp (i : Instr) (s : State) (z : StSize) (d : BitVec 10) (a : Group → Src)
    (f : State → Party → Nat → W64 → List Byte → Bool → Eff Unit) (off : W64) : Host.Outcome State Fault Refusal :=
  issueL i s 1023#10 0 (fun _ _ => .u) fun c st l =>
    (st.addrOf l (a (s.grp c.p)) off).bind fun s1 va =>
      (f s1 c.p l va (storeBytes (s.grp c.p) l d z) ((s.grp c.p).poi l d.toNat z.n)).bind fun s2 _ => Eff.ok s2 ([], false)

def addr64 (a : BitVec 10) (g : Group) : Src := g.src .int 2 a

/-- The values of a load that its lanes have, and the lanes that still wait for theirs: without any the registers are written, else when
the last has come (R300). -/
def Group.takeLoad (g : Group) (d : BitVec 10) (z : LdSize) (h : Hint) (vs : List (Nat × Option Loaded)) : Group :=
  let come := vs.filterMap fun v => v.2.map fun r => (v.1, r)
  let want := Mask.ofLanes ((vs.filter (·.2.isNone)).map (·.1))
  if want == 0#64 then g.putLanes d z.n (come.map fun v => (v.1, loadWords z v.2.1, v.2.2)) h
  else { g with loads := g.loads ++ [{ d := d, size := z, hint := h, want := want, vals := come.map fun v => (v.1, leNat v.2.1, v.2.2) }] }
/-- The value of a lane has come. -/
def Group.loadBack (g : Group) (d : BitVec 10) (l : Nat) (v : Nat × Bool) : Group :=
  match g.loads.find? fun o => o.d == d && Mask.has o.want l with
  | none => g
  | some o =>
    let o1 := { o with want := Mask.put o.want l false, vals := o.vals ++ [(l, v)] }
    if o1.want == 0#64 then
      Group.putLanes { g with loads := g.loads.erase o } d o.size.n
        ((o1.vals.filter fun x => Mask.has g.live x.1).map fun x => (x.1, loadWords o.size (natLe o.size.bytes x.2.1), x.2.2)) o.hint
    else { g with loads := g.loads.map fun y => if y == o then o1 else y }

/-- `LD`: each active lane loads; where loads are deferred the run goes on before the values have come. -/
def execLd (sz : LdSize) (w : ImmW) (s : State) : Host.Outcome State Fault Refusal :=
  issue (.ld sz w) s fun st c =>
    let hint := loadHint [addr64 w.a (st.grp c.p)]
    let (s1, rs) := eachLane st (Mask.lanes c.act) fun s0 l =>
      (s0.addrOf l (addr64 w.a (st.grp c.p)) (offOf w.imm)).bind fun s1 va => s1.loadFree c.p l va sz.bytes w.d (retain w.tail)
    (s1.modGrp c.p fun g => g.takeLoad w.d sz hint (okLanes rs), endsOf rs)
def execSt (sz : StSize) (w : ImmW) (s : State) : Host.Outcome State Fault Refusal :=
  storeOp (.st sz w) s sz w.d (addr64 w.a) (fun st p l va data poi => st.storeG p l va data poi (retain w.tail)) (offOf w.imm)

/-! ### Ordered accesses (R195, R196) -/

/-- `LDA` (R195): an acquire is performed once in a proofed family, after a proof point when it overlaps a held store. -/
def execLda (sz : LdaSize) (w : BaseW) (s : State) : Host.Outcome State Fault Refusal :=
  let z := sz.ld
  loadOp (.lda sz w) s z w.d (addr64 w.a) (fun st p l va =>
    if !isAcq (cOrder w.c) then st.loadG p l va z.bytes (retain w.tail)
    else
      (st.access p l va z.bytes .load true true).bind fun s0 x =>
      (s0.proofOver p l false va z.bytes).bind fun s1 _ =>
      (s1.once p l (onceKey (.lda sz w) ++ [va.toNat]) (some x.pa) fun s2 =>
        (s2.loadG p l va z.bytes (retain w.tail)).bind fun s3 (bs, poi) => Eff.ok s3 (leNat bs, poi)).bind fun s2 (v, poi) =>
      Eff.ok ((s2.acquire p (cScope w.c)).poisonNext p l poi) (natLe z.bytes v, poi)) 0#64
/-- `STR` (R195): a release is a proof point, and waits for its condition. -/
def execStr (sz : StrSize) (w : BaseW) (s : State) : Host.Outcome State Fault Refusal :=
  let z := sz.st
  storeOp (.str sz w) s z w.d (addr64 w.a) (fun st p l va data poi =>
    if !isRel (cOrder w.c) then st.storeG p l va data poi (retain w.tail)
    else
      (st.access p l va z.bytes .store true true).bind fun s0 _ =>
      if poi then Eff.trap s0 { cause := 0x18 }
      else (s0.proofPoint p l).bind fun s1 _ => (s1.releaseFor p l (cScope w.c)).bind fun s2 _ => s2.storeG p l va data poi (retain w.tail)) 0#64

/-- Threads that stand at the word of a party's run and still wait at its proof point, or for an operation performed once. -/
def State.awaited (s : State) (p : Party) : Bool :=
  (s.grp p).threads.any fun t => t.pc == (s.thr p s.curLane).pc && (t.st == .proofWait || t.st == .onceWait)

/-- `FENCE` (R196): it completes when its condition holds for every active thread, those that wait at its proof point among them. -/
def execFence (w : BaseW) (s : State) : Host.Outcome State Fault Refusal :=
  let rel := isRel (cOrder w.c)
  issue (.fence w) s fun st c =>
    let (s1, rs) := eachLane st (Mask.lanes c.act) fun s0 l =>
      if rel then (if cScope w.c ≥ 1 then s0.proofPoint c.p l else Eff.ok s0 ()).bind fun s1 _ => s1.releaseFor c.p l (cScope w.c)
      else Eff.ok s0 ()
    let wait := rs.any fun r => match r.2 with | .error _ => true | .ok _ => false
    let dead := rs.any fun r => match r.2 with | .error (.trap _) => true | _ => false
    if dead then (s1, rs.map fun r => (r.1, match r.2 with | .ok _ => .stay | .error e => e.done))
    else if wait || s1.awaited c.p then (s1, rs.map fun r => (r.1, .stay))
    else (if isAcq (cOrder w.c) then s1.acquire c.p (cScope w.c) else s1, nexts c.act)

/-! ### Forme (R37, R197-R199, R319) -/

def Family.cluster (f : Family) : Nat := if f.solo then 1 else (f.dw 0 / 2 ^ 16 % 256) * (f.dw 0 / 2 ^ 24 % 256)

/-- One byte of a team's forme: what was written since the dispatch, or the free value of its seed (R37). (DESIGN CHOICE, safe: log entry 8.) -/
def Team.fbyte (t : Team) (a : Nat) : Byte := (assoc a t.forme).getD (Config.formeByte t.fseed a)
def Team.fbytes (t : Team) (a n : Nat) : List Byte := (List.range n).map fun k => t.fbyte (a + k)
/-- The 8-byte granules that a range touches. -/
def fgran (a n : Nat) : List Nat := (List.range ((a + n + 7) / 8 - a / 8)).map (a / 8 + ·)
def Team.fpoi (t : Team) (a n : Nat) : Bool := (fgran a n).any t.fpoison.contains
/-- The written bytes of a forme in ascending order, with one byte set. -/
def putF : List (Nat × Byte) → Nat → Byte → List (Nat × Byte)
  | [], a, v => [(a, v)]
  | (k, x) :: rest, a, v => if a < k then (a, v) :: (k, x) :: rest else if a = k then (a, v) :: rest else (k, x) :: putF rest a v
/-- Writes bytes of a forme; granules that are written whole lose their poison. -/
def Team.fput (t : Team) (a : Nat) (bs : List Byte) : Team :=
  { t with forme := (bs.zipIdx).foldl (fun m (b, k) => putF m (a + k) b) t.forme,
           fpoison := t.fpoison.filter fun g => !(a ≤ 8 * g && 8 * g + 8 ≤ a + bs.length) }

/-- The threads that wait on a forme object whose PHASE has changed return with its value (R216, R218). -/
def State.reevalForme (s : State) (tid : Nat) : State :=
  let t := s.team tid
  (s.waiters.filter fun w => w.forme == some tid && w.cond.holds 8 (leNat (t.fbytes w.pa 8))).foldl (fun st w =>
    State.wake { st with waiters := st.waiters.erase w } w.party w.lane fun x =>
      { x with got := some (leNat (t.fbytes w.pa 8), t.fpoi w.pa 8) }) s
/-- A write of a forme. -/
def State.formeWrite (s : State) (tid a : Nat) (bs : List Byte) : State := (s.modTeam tid fun t => t.fput a bs).reevalForme tid

/-- The team of a party. -/
def State.teamOf (s : State) : Party → Option Team | .lc _ => none | .grp t _ => s.team? t
/-- The team at a position of the issuing team's cluster instance; none when the position is vacant or its team has ended (R198). -/
def State.teamAt (s : State) (t : Team) (pos : Nat) : Option Team :=
  if pos = t.cip then some t
  else s.teams.find? fun x => x.fam == t.fam && x.rid == t.rid && !x.packed && x.cip == pos && x.num + t.cip == t.num + pos &&
    (x.st == .resident || x.st == .saving)

/-- The checks of R183 for a forme access: the team that it reaches. -/
def State.formeCheck (s : State) (p : Party) (off n : Nat) (pos : Option Nat) : Except Trap (Option Team) :=
  match s.teamOf p with
  | none => .error { cause := 0x0B }
  | some t =>
    let wh := ((s.fam? t.fam).map Family.cluster).getD 1
    if pos.any (· ≥ wh) then .error { cause := 0x14 }
    else if off % n != 0 then .error { cause := 0x12, va := BitVec.ofNat 64 off }
    else if off + n > t.fsize then .error { cause := 0x14 }
    else .ok (match pos with | some k => s.teamAt t k | none => some t)
def State.formeLoad (s : State) (p : Party) (off n : Nat) (pos : Option Nat) : Eff Loaded :=
  match s.formeCheck p off n pos with
  | .error t => Eff.trap s t
  | .ok none => Eff.ok s (List.replicate n 0#8, false)
  | .ok (some t) => Eff.ok s (t.fbytes off n, t.fpoi off n)
def State.formeStore (s : State) (p : Party) (off : Nat) (pos : Option Nat) (data : List Byte) (poi : Bool) : Eff Unit :=
  match s.formeCheck p off data.length pos with
  | .error t => Eff.trap s t
  | .ok x =>
    if poi then Eff.trap s { cause := 0x18 }
    else match x with
      | none => Eff.ok s ()
      | some t => Eff.ok (s.formeWrite t.tid off data) ()

def addr32 (a : BitVec 10) (g : Group) : Src := g.src .int 1 a
/-- The forme offset: modulo 2^32 (R181). -/
def fOff (v : W64) : Nat := v.toNat % 2 ^ 32

def execLdf (sz : LdSize) (w : ImmW) (s : State) : Host.Outcome State Fault Refusal :=
  loadOp (.ldf sz w) s sz w.d (addr32 w.a) (fun st p _ va => st.formeLoad p (fOff va) sz.bytes none) (offOf w.imm)
def execStf (sz : StSize) (w : ImmW) (s : State) : Host.Outcome State Fault Refusal :=
  storeOp (.stf sz w) s sz w.d (addr32 w.a) (fun st p _ va data poi => st.formeStore p (fOff va) none data poi) (offOf w.imm)
def execLdfc (sz : LdSize) (w : BaseW) (s : State) : Host.Outcome State Fault Refusal :=
  issueL (.ldfc sz w) s w.d sz.n (fun _ g => loadHint [addr32 w.a g, addr32 w.b g]) fun c st l =>
    let b := addr32 w.b (s.grp c.p)
    if Mask.has b.poi l then Eff.trap st { cause := 0x18 }
    else (st.addrOf l (addr32 w.a (s.grp c.p)) 0#64).bind fun s1 va =>
      (s1.formeLoad c.p (fOff va) sz.bytes (some (fOff (b.val l)))).bind fun s2 (bs, poi) => Eff.ok s2 (loadWords sz bs, poi)
def execStfc (sz : StSize) (w : BaseW) (s : State) : Host.Outcome State Fault Refusal :=
  issueL (.stfc sz w) s 1023#10 0 (fun _ _ => .u) fun c st l =>
    let g := s.grp c.p
    let b := addr32 w.b g
    if Mask.has b.poi l then Eff.trap st { cause := 0x18 }
    else (st.addrOf l (addr32 w.a g) 0#64).bind fun s1 va =>
      (s1.formeStore c.p (fOff va) (some (fOff (b.val l))) (storeBytes g l w.d sz) (g.poi l w.d.toNat sz.n)).bind fun s2 _ =>
        Eff.ok s2 ([], false)

/-! ### Constant windows (R200) (DEDUCED, unsafe: log entry 18.) -/

def execLdk (sz : DSize) (w : ImmW) (s : State) : Host.Outcome State Fault Refusal :=
  issue (.ldk sz w) s fun st c =>
    let (s1, rs) := eachLane st (Mask.lanes c.act) fun s0 l => s0.readWindow c.p l w.a.toNat w.imm.toNat sz.n
    let vs := (okLanes rs).map fun r => (r.1, wordsOf sz.n (leNat r.2.1), r.2.2)
    let same := vs.all fun v => v.2.1 == ((vs.headD (0, [], false)).2.1)
    (s1.modGrp c.p fun g => g.putLanes w.d sz.n vs (if same then .u else .g), endsOf rs)

/-! ### Prefetch and line operations (R201, R202) -/

/-- The fill of a prefetch (R201), with the instruction's hint (R188); a failed check leaves everything as it was. A line of another package
is filled from its replica (R399). Write ownership waits for a deferred recall (R204), is not granted of a line with waiters or one that a
tether engine holds (R316), and sets the page's store record (R341). (DEDUCED, safe: log entry 36.) -/
def State.prefetch (s : State) (p : Party) (l : Nat) (va : W64) (lvl : PrefLvl) (rh0 : Retain) : State :=
  match s.access p l va 1 .load false true with
  | (_, .error _) => s
  | (s1, .ok x) =>
    let pa := s1.redirect x.pa
    let line := lineOf pa
    let rh := x.hint rh0
    if x.mt = 1 then s1
    else match p with
      | .grp _ _ =>
        let path := s1.pathOf p .l1 pa
        let hs := if lvl == .die then path.drop 1 else path
        let s2 := if lvl == .die then s1 else s1.replaceOther p .data pa (rh == .byp)
        if !s1.remote pa then (s2.fillLeased p hs pa x.lc rh (s1.takesWindowed pa)).1
        else if (s1.replicaFor pa).isNone then s1.askReplica pa
        else if s1.windowedOver (line * 128) 128 then s1
        else (s2.through hs pa x.lc rh true).1
      | .lc n =>
        if s1.remote pa then
          if lvl == .die then s1
          else if (s1.replicaFor pa).isNone then s1.askReplica pa
          else if rh == .byp then s1 else s1.setDir n line .s rh
        else match lvl with
          | .l1 => s1.fillHome p n pa rh
          | .die => if homeDie pa = s1.dieOf p then s1.enterHome line rh else s1
          | .wr =>
            if s1.homeBusy pa 1 (some p) then s1.press pa 1 (some p)
            else if rh == .byp || !s1.mayOwn line then s1.fillHome p n pa rh
            else
              let held := s1.dir.any fun e => e.line == line && e.core == n && (e.st == .m || e.st == .o)
              (((s1.enterHome line rh).recall line (some n)).record (pageOf pa) true).setDir n line (if held then .m else .e) rh
def execPref (l : PrefLvl) (w : ImmW) (s : State) : Host.Outcome State Fault Refusal :=
  issue (.pref l w) s fun st c =>
    let a := addr64 w.a (st.grp c.p)
    ((Mask.lanes c.act).foldl (fun s0 k => if Mask.has a.poi k then s0 else s0.prefetch c.p k (a.val k + offOf w.imm) l (retain w.tail)) st, nexts c.act)

/-- `CLINE` on a translated line. (DEDUCED, safe: log entry 36.) -/
def State.cline (s : State) (p : Party) (pa : Nat) (o : ClineOp) : State :=
  let line := lineOf pa
  match p with
  | .grp _ _ =>
    (match o with
      | .wb => s
      | .drop => { s with copies := s.copies.filter fun c =>
          !((c.holder == .l1 (s.coreOf p) || c.holder == .kc (s.coreOf p)) && c.line == line) })
  | .lc n =>
    let mine (e : PCopy) : Bool := e.line == line && e.core == n
    let dirty := s.dir.any fun e => mine e && (e.st == .m || e.st == .o)
    -- a write-back counts as a store of the thread (R202): the home returns its write completion time
    let s1 := if dirty then ((s.storeLine line).record (pageOf pa) true).modGrp p fun g => { g with rh := Nat.max g.rh (s.wctOf line) } else s
    let s2 := s1.modLc n fun c => { c with resv := if c.resv.any (·.line == line) then none else c.resv }
    (match o with
      | .wb => { s2 with dir := s2.dir.map fun e => if mine e && dirty then { e with st := if e.st == .m then .e else .s } else e }
      | .drop => s2.dropDir n line)
def execCline (o : ClineOp) (w : ImmW) (s : State) : Host.Outcome State Fault Refusal :=
  issueL (.cline o w) s 1023#10 0 (fun _ _ => .u) fun c st l =>
    (st.addrOf l (addr64 w.a (s.grp c.p)) (offOf w.imm)).bind fun s1 va =>
      (s1.access c.p l va 1 .load false true).bind fun s2 x =>
        let pa := s2.redirect x.pa
        (s2.settleOver c.p (lineOf pa * 128) 128).bind fun s3 _ => Eff.ok (s3.cline c.p pa o) ([], false)

/-! ### Reservations (R203, R204) -/

/-- `LDRES`: a load that sets the thread's reservation on the line. -/
def execLdres (sz : DSize) (w : ImmW) (s : State) : Host.Outcome State Fault Refusal :=
  issueL (.ldres sz w) s w.d sz.n (fun _ g => loadHint [addr64 w.a g]) fun c st l =>
    (st.addrOf l (addr64 w.a (s.grp c.p)) (offOf w.imm)).bind fun s1 va =>
      (s1.access c.p l va sz.bytes .load true true).bind fun s2 x =>
        if x.mt = 1 then Eff.trap s2 { cause := 0x13, va := va }
        else (s2.settleOver c.p x.pa sz.bytes).bind fun s3 _ =>
          (s3.read c.p x sz.bytes .data (retain w.tail)).bind fun s4 (bs, poi) =>
            Eff.ok (match c.p with
              | .lc n => s4.modLc n fun k => { k with resv := some { line := lineOf (s4.redirect x.pa), deferEnd := s4.pt + 128, recalled := false } }
              | .grp _ _ => s4) (wordsOf sz.n (leNat bs), poi)

/-- The reservation still holds for a line: no deferred recall has run out (R204). -/
def Resv.valid (r : Resv) (line pt : Nat) : Bool := r.line == line && !(r.recalled && pt ≥ r.deferEnd)

/-- `STCOND`: stores while the reservation holds, and gives 0 or 1. On device memory it traps before poisoned data does.
(DESIGN CHOICE, unsafe: log entry 46.) -/
def execStcond (sz : DSize) (w : ImmW) (s : State) : Host.Outcome State Fault Refusal :=
  issueL (.stcond sz w) s w.d sz.n (fun _ _ => .u) fun c st l =>
    let g := s.grp c.p
    (st.addrOf l (addr64 w.a g) (offOf w.imm)).bind fun s1 va =>
      (s1.access c.p l va sz.bytes .store true true).bind fun s2 x =>
        let data := natLe sz.bytes (if sz = .d then (g.rd64 l w.d.toNat).toNat else (g.rd l w.d.toNat).toNat)
        let pa := s2.redirect x.pa
        let n := c.p.id
        let done (st : State) (v : Nat) : Eff (List W32 × Bool) := Eff.ok (st.modLc n fun k => { k with resv := none }) (wordsOf sz.n v, false)
        if x.mt = 1 then Eff.trap s2 { cause := 0x13, va := va, detail := 1#64 }
        else if g.poi l w.d.toNat sz.n then Eff.trap s2 { cause := 0x18 }
        else if ((s2.lc n).resv).any (fun r => r.valid (lineOf pa) s2.pt) then
          (s2.settleOver c.p x.pa sz.bytes).bind fun s3 _ => (s3.putNow c.p x.pa data (x.hint (retain w.tail))).bind fun s4 _ => done s4 0
        else done s2 1

/-! ### Deferred accesses (R292-R295) -/

/-- HOME_STORE_PERFORM (R314): an issued store reaches its home, after the earlier stores of its party to the same bytes (R192). -/
def execHomeStorePerform (k : Nat) (s : State) : Host.Outcome State Fault Refusal :=
  match s.pend[k]? with
  | none => .next s
  | some x => match x.kind with
    | .store _ _ => finish (s.flush (· == x)).1
    | _ => .next s

/-- The home supplies issued loads, one after another. -/
def State.loads (s : State) : List Pend → State
  | [] => s
  | x :: xs => match x.kind with
    | .load mt lc rh =>
      (match (s.settleOver x.party x.pa x.n).bind fun s1 _ => s1.read x.party { pa := x.pa, mt := mt, lc := lc } x.n .data rh with
        | (s2, .ok (bs, poi)) =>
          let s3 : State := { s2 with pend := s2.pend.erase x }
          State.loads (match x.out with
            | some d => s3.modGrp x.party fun g => g.loadBack d x.lane (leNat bs, poi)
            | none => s3.returns x.party x.lane (leNat bs, poi)) xs
        | (s2, .error _) => s2)
    | _ => State.loads s xs
/-- The loads of one instruction on one line: threads that read the same location receive one value (R192). -/
def State.sameLoad (s : State) (x : Pend) : List Pend :=
  s.pend.filter fun y => y.party == x.party && lineOf y.pa == lineOf x.pa && y.out == x.out &&
    (x.out.isSome || (s.thr y.party y.lane).pc == (s.thr x.party x.lane).pc) && (match y.kind with | .load _ _ _ => true | _ => false)
/-- LOAD_PERFORM (R294): an issued load returns its value, with those of its instruction on the same line. (DEDUCED, safe: log entry 36.) -/
def execLoadPerform (k : Nat) (s : State) : Host.Outcome State Fault Refusal :=
  match s.pend[k]? with
  | none => .next s
  | some x => match x.kind with
    | .load _ _ _ => finish (s.loads (s.sameLoad x))
    | _ => .next s

/-- RELEASE_PERFORM (R295): the release that the threads of an instruction wait in is performed when its condition holds. -/
def execReleasePerform (p : Party) (lane : Nat) (s : State) : Host.Outcome State Fault Refusal :=
  match (s.thr p lane).rel with
  | none => .next s
  | some scope => match s.release p scope with
    | (s1, .ok _) =>
      let pc := (s1.thr p lane).pc
      let same (t : Thread) : Bool := t.pc == pc && t.rel == some scope
      finish (s1.modGrp p fun g =>
        { g with threads := g.threads.map fun t => if same t then { t with passed := true, rel := none } else t })
    | (s1, .error _) => finish s1

end Sys2Proof.Machine
end

