-- ==== Sys2Proof/Machine/Atomic.lean ====
section
/-!
DEFINITION. Atomics at the tether engine, waits and wakes (R205-R213), the registration of waiters (R211, R323, R324), and the step
that performs a deferred atomic.
-/

namespace Sys2Proof.Machine

/-! ### What an atomic makes of the old value (R206-R209) -/

def amoNew (op : AmoOp) (w m b : Nat) : Nat :=
  match op with
  | .swap => b
  | .add => (m + b) % 2 ^ w
  | .and => m &&& b
  | .or => m ||| b
  | .xor => m ^^^ b
  | .smin => if sgn w m ≤ sgn w b then m else b
  | .smax => if sgn w m ≥ sgn w b then m else b
  | .umin => Nat.min m b
  | .umax => Nat.max m b

/-- Bytes that an atomic or a wait accesses: SZ, or the format of `AFADD`. -/
def atomBytes : Instr → Nat
  | .afadd f _ => if f == .f64 then 8 else 4
  | .amo _ w => 4 * cSz w.c
  | .acas w => 4 * cSz w.c
  | .aaddt w => 4 * cSz w.c
  | .waitv _ w => 4 * cSz w.c
  | _ => 4

/-- The new value of an atomic; none when nothing is stored. `b1` and `b2` are the operands. -/
def atomNew (i : Instr) (b1 b2 m : Nat) : Option Nat :=
  let w := 8 * atomBytes i
  let x := b1 % 2 ^ w
  match i with
  | .amo op _ => some (amoNew op w m x)
  | .acas _ => if m = x then some (b2 % 2 ^ w) else none
  | .afadd f _ => some ((unEl f.width ((List.range f.count).map fun k =>
      (f.fmt.add 0 false (el f.width k (BitVec.ofNat 64 m)) (el f.width k (BitVec.ofNat 64 x))).1)).toNat)
  | .aaddt _ => some ((m + x) % 2 ^ w)
  | _ => none

/-- `AADDT`'s wake (R209): the new value, read unsigned, is at least the threshold. -/
def atomWakes (i : Instr) (b1 b2 m : Nat) : Bool :=
  match i with
  | .aaddt _ => (m + b1 % 2 ^ (8 * atomBytes i)) % 2 ^ (8 * atomBytes i) ≥ b2 % 2 ^ (8 * atomBytes i)
  | _ => false

/-- The waiters registered at exactly an address, in registration order (R211). -/
def State.waitersAt (s : State) (pa : Nat) : List Waiter :=
  s.waiters.filter fun w => w.registered && w.forme.isNone && !w.selected && w.pa == pa

/-- An atomic performed at the tether engine. -/
def State.atomic (s : State) (p : Party) (pa : Nat) (i : Instr) (b1 b2 : Nat) : Eff (Nat × Bool) :=
  (s.rmw p pa (atomBytes i) (atomNew i b1 b2)).bind fun s1 (m, poi) =>
    if !poi && atomWakes i b1 b2 m then Eff.ok ((s1.waitersAt (s1.redirect pa)).foldl (fun st w => st.release1 w) s1) (m, poi)
    else Eff.ok s1 (m, poi)

/-! ### Atomics of a thread (R205) -/

/-- One lane's atomic: checks, proof point, the request of a proofed family, release, the engine's step, acquire. -/
def State.atomLane (s : State) (p : Party) (l : Nat) (i : Instr) (c : BitVec 10) (va : W64) (b1 b2 : Nat) (poi : Bool) : Eff (Nat × Bool) :=
  let n := atomBytes i
  let rel := isRel (cOrder c)
  (s.access p l va n .rmw true true).bind fun s1 x =>
    if poi then Eff.trap s1 { cause := 0x18 }
    else
      (s1.proofOver p l rel va n).bind fun s2 _ =>
      (s2.once p l [opOf i, n, c.toNat, ((encodeFields i).map (·.fn.toNat)).getD 0, va.toNat, b1, b2] (some x.pa) fun s3 =>
        match (s3.thr p l).got with
        | some r => Eff.ok s3 r
        | none =>
          (if rel then s3.releaseFor p l (cScope c) else Eff.ok s3 ()).bind fun s4 _ =>
            let k : PKind := .rmw i (BitVec.ofNat 64 b1) (BitVec.ofNat 64 b2)
            let e : Pend := { party := p, lane := l, va := va, pa := x.pa, n := n, kind := k }
            if s4.deferAtomics && !s4.proofed p l then
              Eff.stall (State.modThr { s4 with pend := s4.pend ++ [e] } p l fun t => { t with st := .engineWait })
            else s4.atomic p x.pa i b1 b2).bind fun s5 r =>
      Eff.ok ((if isAcq (cOrder c) then s5.acquire p (cScope c) else s5).poisonNext p l r.2) r

/-- An atomic instruction: `ops` gives the operands of a lane and their poison. -/
def atomOp (i : Instr) (s : State) (w : BaseW) (ops : Group → Nat → Nat × Nat × Bool) : Host.Outcome State Fault Refusal :=
  let n := atomBytes i / 4
  issueL i s w.d n (fun _ _ => .g) fun c st l =>
    let g := s.grp c.p
    (st.addrOf l (addr64 w.a g) 0#64).bind fun s1 va =>
      let (b1, b2, poi) := ops g l
      (s1.atomLane c.p l i w.c va b1 b2 poi).bind fun s2 r => Eff.ok s2 (wordsOf n r.1, r.2)

/-- The two values of a span operand of two or four registers (R207, R209). -/
def spanOps (w : BaseW) (g : Group) (l : Nat) : Nat × Nat × Bool :=
  let b := w.b.toNat
  if cSz w.c = 2 then ((g.rd64 l b).toNat, (g.rd64 l (b + 2)).toNat, g.poi l b 4)
  else ((g.rd l b).toNat, (g.rd l (b + 1)).toNat, g.poi l b 2)

def execAmo (op : AmoOp) (w : BaseW) (s : State) : Host.Outcome State Fault Refusal :=
  atomOp (.amo op w) s w fun g l => let b := g.src .int (cSz w.c) w.b; ((b.val l).toNat, 0, Mask.has b.poi l)
def execAcas (w : BaseW) (s : State) : Host.Outcome State Fault Refusal := atomOp (.acas w) s w (spanOps w)
def execAaddt (w : BaseW) (s : State) : Host.Outcome State Fault Refusal := atomOp (.aaddt w) s w (spanOps w)
def execAfadd (f : FFmt) (w : BaseW) (s : State) : Host.Outcome State Fault Refusal :=
  atomOp (.afadd f w) s w fun g l => let b := g.src f.kind f.n w.b; ((b.val l).toNat, 0, Mask.has b.poi l)

/-- The engine performs issued atomics, one after another. -/
def State.atomics (s : State) : List Pend → State
  | [] => s
  | x :: xs => match x.kind with
    | .rmw i b1 b2 => match s.atomic x.party x.pa i b1.toNat b2.toNat with
      | (s1, .ok r) => State.atomics (({ s1 with pend := s1.pend.erase x } : State).returns x.party x.lane r) xs
      | (s1, .error _) => s1
    | _ => State.atomics s xs
/-- The atomics of one instruction on one location, in ascending lane order (R205). -/
def State.sameAtomic (s : State) (x : Pend) : List Pend :=
  (List.range 64).filterMap fun l => s.pend.find? fun y => y.lane == l && y.party == x.party && y.pa < x.pa + x.n && x.pa < y.pa + y.n &&
    (s.thr y.party y.lane).pc == (s.thr x.party x.lane).pc && (match y.kind with | .rmw _ _ _ => true | _ => false)

/-- TETHER_ATOMIC_PERFORM (R205, R294): the engine performs an issued atomic, with those of the same instruction on the same location:
each thread receives the value that its predecessor left. -/
def execTetherAtomicPerform (k : Nat) (s : State) : Host.Outcome State Fault Refusal :=
  match s.pend[k]? with
  | none => .next s
  | some x => match x.kind with
    | .rmw _ _ _ => finish (s.atomics (s.sameAtomic x))
    | _ => .next s

/-! ### Registration (R211, R323, R324, R424) -/

/-- Registrations that the engine of a die holds, and its capacity: the table, and 127 for each chunk of the overflow area. -/
def State.regCount (s : State) (d : Nat) : Nat :=
  (s.waiters.filter fun w => w.registered && w.forme.isNone && homeDie w.pa == d).length
def State.regRoom (s : State) (d : Nat) : Bool := s.regCount d < 65536 + 127 * (s.ovf.filter (·.1 == d)).length
/-- Takes a chunk from the die's pool (R424); a COUNT below LOW makes a record of kind POOL. -/
def State.takeChunk (s : State) (d : Nat) : Option State :=
  let b := s.own (Config.ovfpool d)
  let free := s.rdHw b 8
  if free = 0 then none
  else
    let count := s.rdHw (b + 8) 8 - 1
    let s1 := (s.storeHw b (natLe 8 (s.rdHw (free + 4088) 8))).storeHw (b + 8) (natLe 8 count)
    let s2 := { s1 with ovf := s1.ovf ++ [(d, free)] }
    some (if count < s.rdN (b + 16) 8 then s2.logError 8 8 d 0#32 b 0 else s2)
/-- Returns a chunk that is no longer needed (R424). -/
def State.giveChunk (s : State) (d : Nat) : State :=
  match s.ovf.find? (·.1 == d) with
  | none => s
  | some (_, c) =>
    if s.regCount d + 127 ≥ 65536 + 127 * (s.ovf.filter (·.1 == d)).length then s
    else
      let b := s.own (Config.ovfpool d)
      let s1 := (s.storeHw (c + 4088) (natLe 8 (s.rdHw b 8))).storeHw b (natLe 8 c)
      { s1.storeHw (b + 8) (natLe 8 (s1.rdHw (b + 8) 8 + 1)) with ovf := s1.ovf.erase (d, c) }

/-- The engines return the chunks that they no longer need (R424). (DESIGN CHOICE, safe: log entry 6.) -/
def State.chunkTick (s : State) : State := (s.ovf.map (·.1)).eraseDups.foldl (fun st d => st.giveChunk d) s

/-- A waiter parks (R210, R324): it registers at the engine, or stays at the issuing core until a chunk arrives. -/
def State.addWaiter (s : State) (w : Waiter) : State :=
  let d := homeDie w.pa
  let (s1, ok) := if w.forme.isSome || s.regRoom d then (s, true) else match s.takeChunk d with
    | some s' => (s', true)
    | none => (s, false)
  State.modThr { s1 with waiters := s1.waiters ++ [{ w with registered := ok }] } w.party w.lane fun t =>
    { t with st := if w.forme.isSome then .formeWait else .engineWait }

/-- OVERFLOW_REGISTRATION (R324): a waiter held at its core registers when there is room, after those registered before, and is evaluated at
once. -/
def execOverflowRegistration (k : Nat) (s : State) : Host.Outcome State Fault Refusal :=
  match s.waiters[k]? with
  | none => .next s
  | some w =>
    let d := homeDie w.pa
    if w.registered then finish (s.giveChunk d)
    else
      let s1? := if s.regRoom d then some s else s.takeChunk d
      match s1? with
      | none => finish s
      | some s1 =>
        let s2 := { s1 with waiters := s1.waiters.erase w ++ [{ w with registered := true }] }
        finish (if w.cond.holds w.n (s2.rdN w.pa w.n) then s2.release1 { w with registered := true } else s2)

/-! ### Waits and wakes (R210-R213) -/

/-- A read at the tether engine, which device memory does not allow (R187); it brings the value's write completion time (R296). -/
def State.engineRead (s : State) (p : Party) (va : W64) (x : Xl) (n : Nat) : Eff (Nat × Bool) :=
  if x.mt = 1 then Eff.trap s { cause := 0x13, va := va }
  else (s.rmw p x.pa n fun _ => none).bind fun s1 v => Eff.ok (s1.learn p (lineOf (s1.redirect x.pa))) v

/-- `WAITV` (R210, R211): returns when the condition holds, else the thread is registered. Device memory allows no wait (R187). A poisoned comparand is found after the access checks,
as an atomic's data is (R185). (DEDUCED, unsafe: log entry 21.) -/
def execWaitv (cond : WaitCond) (w : BaseW) (s : State) : Host.Outcome State Fault Refusal :=
  let i := Instr.waitv cond w
  let n := atomBytes i
  issueL i s w.d (n / 4) (fun _ _ => .g) fun c st l =>
    let g := s.grp c.p
    let b := g.src .int (n / 4) w.b
    let cnd : WCond := .cond cond (b.val l)
    (st.addrOf l (addr64 w.a g) 0#64).bind fun s1 va =>
    (s1.access c.p l va n .load true true).bind fun s2 x =>
    if x.mt = 1 then Eff.trap s2 { cause := 0x13, va := va }
    else if Mask.has b.poi l then Eff.trap s2 { cause := 0x18 }
    else
      (s2.proofOver c.p l false va n).bind fun s3 _ =>
      (s3.once c.p l [0xC4, cond.ctorIdx, n, w.c.toNat, va.toNat, (b.val l).toNat] (some x.pa) fun s4 =>
        match (s4.thr c.p l).got with
        | some r => Eff.ok s4 r
        | none => (s4.engineRead c.p va x n).bind fun s5 (m, poi) =>
            if poi || cnd.holds n m then Eff.ok s5 (m, poi)
            else
              let fam := (s5.thr c.p l).fam
              let pa := s5.redirect x.pa
              Eff.stall (s5.addWaiter { party := c.p, lane := l, fam := fam, va := va, pa := pa, n := n, cond := cnd, registered := true,
                                        forme := none })).bind fun s6 r =>
      Eff.ok ((if isAcq (cOrder w.c) then s6.acquire c.p (cScope w.c) else s6).poisonNext c.p l r.2) (wordsOf (n / 4) r.1, r.2)

/-- `WAKE` (R212): up to n waiters registered at exactly the address return, in registration order. A poisoned count is found with a poisoned
address (R185). (DEDUCED, unsafe: log entry 21.) On device memory it traps as a wait does. (DESIGN CHOICE, unsafe: log entry 46.) -/
def execWake (w : BaseW) (s : State) : Host.Outcome State Fault Refusal :=
  issueL (.wake w) s w.d 1 (fun _ _ => .g) fun c st l =>
    let g := s.grp c.p
    let b := g.src .int 1 w.b
    (st.addrOf l (addr64 w.a g) 0#64).bind fun s1 va =>
    if Mask.has b.poi l then Eff.trap s1 { cause := 0x18 }
    else (s1.access c.p l va 4 .load true true).bind fun s2 x =>
    if x.mt = 1 then Eff.trap s2 { cause := 0x13, va := va }
    else
      (s2.once c.p l [0xC5, w.c.toNat, va.toNat, (b.val l).toNat % 2 ^ 32] none fun s3 =>
        (if isRel (cOrder w.c) then s3.releaseFor c.p l (cScope w.c) else Eff.ok s3 ()).bind fun s4 _ =>
        (s4.settleOver c.p x.pa 4).bind fun s5 _ =>
          let ws := (s5.waitersAt (s5.redirect x.pa)).take ((b.val l).toNat % 2 ^ 32)
          Eff.ok (ws.foldl (fun st w => st.release1 w) s5) (ws.length, false)).bind fun s6 r =>
      Eff.ok s6 (wordsOf 1 r.1, false)

end Sys2Proof.Machine
end

