-- ==== Sys2Proof/Machine/Barrier.lean ====
section
/-!
DEFINITION. Barrier objects (R214-R222): arrival, waiting and testing, in memory and in forme, and the missed promise of R221.
-/

namespace Sys2Proof.Machine

/-! ### The object (R214, R216) -/

def objPhase (o : Nat) : Nat := o / 2 ^ 32 % 2 ^ 16
def objArrived (o : Nat) : Nat := o / 2 ^ 16 % 2 ^ 16
def objExpected (o : Nat) : Nat := o % 2 ^ 16
/-- SCOPE: codes 6 and 7 act as `.sys`. -/
def objScope (o : Nat) : Nat := Nat.min 5 (o / 2 ^ 48 % 8)

/-- An arrival with count n: the object after it. -/
def arrive (o n : Nat) : Nat :=
  let a := objArrived o + n
  if n > 0 && a ≥ objExpected o then
    let high := o / 2 ^ 48 % 2 ^ 15
    let ovr := if a > objExpected o then 1 else o / 2 ^ 63 % 2
    ovr * 2 ^ 63 + high * 2 ^ 48 + (objPhase o + 1) % 2 ^ 16 * 2 ^ 32 + objExpected o
  else o / 2 ^ 32 * 2 ^ 32 + a % 2 ^ 16 * 2 ^ 16 + objExpected o

/-- A lane's object: its place in memory, or an offset in the team's forme. -/
inductive BarRef where
  | mem (va : W64) (x : Xl)
  | forme (tid off : Nat)
  deriving DecidableEq, Repr

/-- The checks of a lane's object (R183, R187, R215). -/
def State.barCheck (s : State) (p : Party) (l : Nat) (sp : BarSpace) (va : W64) (k : AccKind) : Eff BarRef :=
  match sp with
  | .mem => (s.access p l va 8 k true true).bind fun s1 x =>
      if x.mt = 1 then Eff.trap s1 { cause := 0x13, va := va, detail := BitVec.ofNat 64 (kindCode k) } else Eff.ok s1 (.mem va x)
  | .forme => match s.formeCheck p (fOff va) 8 none with
    | .error t => Eff.trap s t
    | .ok _ => Eff.ok s (.forme p.id (fOff va))

/-- One atomic step on an object; a poisoned object is not updated (R222). -/
def State.barStep (s : State) (p : Party) (r : BarRef) (f : Nat → Option Nat) : Eff (Nat × Bool) :=
  match r with
  | .mem _ x => (s.rmw p x.pa 8 f).bind fun s1 v => Eff.ok (s1.learn p (lineOf (s1.redirect x.pa))) v
  | .forme tid off =>
    let t := s.team tid
    let o := leNat (t.fbytes off 8)
    if t.fpoi off 8 then Eff.ok s (o, true)
    else match f o with
      | none => Eff.ok s (o, false)
      | some v => Eff.ok (s.formeWrite tid off (natLe 8 v)) (o, false)

/-- The arrival of an engine operation on a forme object of its team, with n = 1 (R220). -/
def State.arriveForme (s : State) (tid off : Nat) : State := (s.barStep (.grp tid 0) (.forme tid off) fun o => some (arrive o 1)).1

/-! ### Missed promises (R221) -/

/-- BAR of a platen operation (R226): quarter 0's member names it. -/
def PlOp.bar (o : PlOp) : Option Nat :=
  (o.members.find? fun m => m.quarter == 0).bind fun m =>
    let b := (m.ctl.getD 1 0#32).toNat % 2 ^ 20
    if b = 0xFFFFF then none else some b
/-- The promise of an operation: the largest of its members' (R227), of those issued so far when fewer than four have (R221).
(DESIGN CHOICE, unsafe: log entry 45.) -/
def PlOp.promise (o : PlOp) : Nat := o.members.foldl (fun x m => Nat.max x m.promise) 0
/-- BAR of a spool operation (R237). -/
def SpOp.bar (o : SpOp) : Option Nat :=
  let b := (o.par.getD 1 0#32).toNat % 2 ^ 20
  if b = 0xFFFFF then none else some b
def PlOp.late (o : PlOp) (off pt : Nat) : Bool := o.bar == some off && !o.raised && o.promise + 4 < pt
def SpOp.late (o : SpOp) (off pt : Nat) : Bool := o.bar == some off && !o.raised && o.promise + 4 < pt
/-- An operation that names the object has missed its promise. -/
def Team.late (t : Team) (off pt : Nat) : Bool :=
  t.plq.any (·.late off pt) || t.spq.any fun q => q.items.any fun x => match x with | .op o => o.late off pt | .fence _ => false
/-- Each operation raises the trap once, and only where a family trap handler takes it (R278). (DEDUCED, unsafe: log entry 20.) -/
def Team.markLate (t : Team) (off pt : Nat) : Team :=
  { t with
    plq := t.plq.map fun o => if o.late off pt then { o with raised := true } else o
    spq := t.spq.map fun q => { q with items := q.items.map fun x => match x with
      | .op o => .op (if o.late off pt then { o with raised := true } else o)
      | .fence k => .fence k } }

/-! ### Waiting (R218, R219) -/

/-- The wait of one lane from its token: the value d with the object's scope, parked, or trapped. `park` is false for `BART`. A waiter that
`WAKE` or `AADDT` has forced awake returns, with d = 0 when PHASE has not changed (R211). -/
def State.barWait (s : State) (p : Party) (l : Nat) (r : BarRef) (tok : Nat) (park late : Bool) : Eff (Nat × Bool) :=
  let read : Eff (Nat × Bool) := match (s.thr p l).got with
    | some v => Eff.ok s v
    | none => s.barStep p r fun _ => none
  read.bind fun s1 (o, poi) =>
    let d := (objPhase o + 2 ^ 16 - tok) % 2 ^ 16
    if poi then Eff.ok s1 (Nat.min d 255 + 2 ^ 16 * objScope o, true)
    else if d ≥ 2 ^ 15 then Eff.trap s1 { cause := 0x21 }
    else if d > 0 || !park || (s.thr p l).got.isSome then Eff.ok s1 (Nat.min d 255 + 2 ^ 16 * objScope o, false)
    else if late then Eff.trap s1 { cause := 0x20 }
    else
      let w : Waiter := { party := p, lane := l, fam := (s1.thr p l).fam, va := 0#64, pa := 0, n := 8, cond := .phase tok, registered := true,
                          forme := none }
      Eff.stall (s1.addWaiter (match r with
        | .mem va x => { w with va := va, pa := s1.redirect x.pa }
        | .forme tid off => { w with forme := some tid, pa := off }))

/-- A lane's count or token: bits 15:0 of B. -/
def barB (g : Group) (w : BaseW) : Src := g.src .int 1 w.b
def barAddr (sp : BarSpace) (g : Group) (w : BaseW) : Src := match sp with | .mem => addr64 w.a g | .forme => addr32 w.a g

/-- The object of every active lane, after the checks of R183: a poisoned token or count is found with a poisoned address, before the
access (R185). (DEDUCED, unsafe: log entry 21.) -/
def State.barRefs (s : State) (c : Ctx) (sp : BarSpace) (w : BaseW) (k : AccKind) : State × List (Nat × Except Stop BarRef) :=
  let g := s.grp c.p
  eachLane s (Mask.lanes c.act) fun st l =>
    (st.addrOf l (barAddr sp g w) 0#64).bind fun s1 va =>
    if Mask.has (barB g w).poi l then Eff.trap s1 { cause := 0x18 } else s1.barCheck c.p l sp va k

/-- What a lane's barrier operation has come to: a value with its poison mark, or a stop. -/
abbrev BarOut := Nat × Except Stop (Nat × Bool)

/-- The request of a proofed family for an operation on a memory object (R384); the proof point of an overlap (R376).
(DEDUCED, unsafe: log entry 21.) -/
def State.barAsk (s : State) (p : Party) (l : Nat) (i : Instr) (w : BaseW) (r : BarRef) : Eff (Option (Nat × Bool)) :=
  match r with
  | .forme _ _ => Eff.ok s none
  | .mem va _ => (s.proofOver p l false va 8).bind fun s1 _ =>
      s1.onceAsk p l [opOf i, w.c.toNat, va.toNat, ((barB (s.grp p) w).val l).toNat % 2 ^ 32]
def State.barTell (s : State) (p : Party) (l : Nat) (r : BarRef) (v : Nat × Bool) : State :=
  match r with
  | .forme _ _ => s
  | .mem _ x => s.onceTell p l (some x.pa) v

/-- The object that a lane names: its place, whatever virtual address names it. -/
def State.sameObj (s : State) : BarRef → BarRef → Bool
  | .mem _ x, .mem _ y => s.redirect x.pa == s.redirect y.pa
  | .forme t a, .forme u b => t == u && a == b
  | _, _ => false
/-- The threads that arrive at one object arrive together (R218): the counts are summed, one arrival is made, each receives the token.
(DEDUCED, unsafe: log entry 21.) -/
def State.arriveAll (s : State) (p : Party) (rs : List (Nat × BarRef × Nat)) : State × List BarOut :=
  let objs := rs.foldl (fun (l : List BarRef) r => if l.any (s.sameObj r.2.1) then l else l ++ [r.2.1]) []
  objs.foldl (fun (acc : State × List BarOut) o =>
    let mine := rs.filter fun r => s.sameObj r.2.1 o
    let n := (mine.map fun r => r.2.2).sum
    let (s1, e) := acc.1.barStep p o fun v => some (arrive v n)
    (s1, acc.2 ++ mine.map fun r => (r.1, e.map fun v => (objPhase v.1, v.2)))) (s, [])

/-- The arrival half of `BARA` and `BARX`: checks, proof points and releases of every thread, then one arrival for each object. A thread
whose result has been delivered takes it; while one thread must wait, those that would arrive wait with it. -/
def State.barArrive (s : State) (c : Ctx) (i : Instr) (sp : BarSpace) (w : BaseW) (rel : Bool) : State × List (Nat × BarRef × Option (Nat × Bool)) × List BarOut :=
  let g := s.grp c.p
  let b (l : Nat) : Nat := ((barB g w).val l).toNat % 2 ^ 16
  let (s1, refs) := s.barRefs c sp w .rmw
  let ok := okLanes refs
  let stopped (rs : List (Nat × Except Stop BarRef)) : List BarOut := rs.filterMap fun r => match r.2 with | .error e => some (r.1, .error e) | .ok _ => none
  let refOf (l : Nat) : BarRef := (assoc l ok).getD (.forme 0 0)
  let (s2, asks) := eachLane s1 (ok.map (·.1)) fun st l =>
    if (st.thr c.p l).barTok.isSome then Eff.ok st none
    else
      (if rel && cScope w.c ≥ 1 then st.proofPoint c.p l else Eff.ok st ()).bind fun st1 _ =>
      (st1.barAsk c.p l i w (refOf l)).bind fun st2 r => match r with
        | some v => Eff.ok st2 (some v)
        | none => (if rel then st2.releaseFor c.p l (cScope w.c) else Eff.ok st2 ()).bind fun st3 _ => Eff.ok st3 none
  -- in a proofed family the threads come back from their proof points and requests one by one, and arrive together all the same
  let waits := s2.awaited c.p || asks.any fun a => match a.2 with | .error .stall => true | _ => false
  let given := (okLanes asks).filter (·.2.isSome)
  let todo := (okLanes asks).filter fun a => a.2.isNone && (s2.thr c.p a.1).barTok.isNone
  let old := (okLanes asks).filter fun a => a.2.isNone && (s2.thr c.p a.1).barTok.isSome
  let bad : List BarOut := stopped refs ++ asks.filterMap fun a => match a.2 with | .error e => some (a.1, .error e) | .ok _ => none
  let keep := (given ++ old).map fun a => (a.1, refOf a.1, a.2)
  if waits then (s2, keep, bad ++ todo.map fun a => (a.1, .error .stall))
  else
    let (s3, outs) := s2.arriveAll c.p (todo.map fun a => (a.1, refOf a.1, b a.1))
    let s4 := (okLanes outs).foldl (fun st o => st.modThr c.p o.1 fun t => { t with barTok := some o.2.1 }) s3
    (s4, keep ++ (okLanes outs).map (fun o => (o.1, refOf o.1, if o.2.2 then some o.2 else none)),
      bad ++ outs.filterMap fun o => match o.2 with | .error e => some (o.1, .error e) | .ok _ => none)

/-! ### Meanings -/

/-- `BARI` (R217): a relaxed store of the whole object. -/
def execBari (sp : BarSpace) (w : BaseW) (s : State) : Host.Outcome State Fault Refusal :=
  issueL (.bari sp w) s 1023#10 0 (fun _ _ => .u) fun c st l =>
    let g := s.grp c.p
    let v := ((barB g w).val l).toNat % 2 ^ 16 + cScope w.c * 2 ^ 48
    (st.addrOf l (barAddr sp g w) 0#64).bind fun s1 va =>
    (s1.barCheck c.p l sp va .store).bind fun s2 r =>
    if Mask.has (barB g w).poi l then Eff.trap s2 { cause := 0x18 }
    else match r with
      | .forme tid off => Eff.ok (s2.formeWrite tid off (natLe 8 v)) ([], false)
      | .mem _ x =>
        (s2.barAsk c.p l (.bari sp w) w r).bind fun s3 d => match d with
          | some _ => Eff.ok s3 ([], false)
          | none => (s3.settleOver c.p x.pa 8).bind fun s4 _ => (s4.putNow c.p x.pa (natLe 8 v) (x.hint .dflt)).bind fun s5 _ =>
              Eff.ok (s5.barTell c.p l r (0, false)) ([], false)

/-- The results of a barrier instruction: registers, poison, and how each lane ends. -/
def barDone (st : State) (c : Ctx) (w : BaseW) (h : Hint) (vs : List (Nat × Nat × Bool)) (bad : List BarOut) : State × List (Nat × LaneEnd) :=
  let s1 := vs.foldl (fun s v => s.poisonNext c.p v.1 v.2.2) st
  (s1.modGrp c.p fun g => g.putLanes w.d 1 (vs.map fun v => (v.1, wordsOf 1 v.2.1, v.2.2)) h,
    vs.map (fun v => (v.1, .next)) ++ bad.filterMap fun b => match b.2 with | .error e => some (b.1, e.done) | .ok _ => none)

/-- `BARA` (R218). -/
def execBara (sp : BarSpace) (w : BaseW) (s : State) : Host.Outcome State Fault Refusal :=
  let i := Instr.bara sp w
  issue i s fun st c =>
    let g := st.grp c.p
    let h := tagOf [barAddr sp g w, barB g w]
    let (s1, got, bad) := st.barArrive c i sp w (isRel (cOrder w.c))
    let vals := got.map fun x => (x.1, match x.2.2 with | some v => v | none => (((s1.thr c.p x.1).barTok).getD 0, false))
    let s2 := got.foldl (fun s x => match x.2.2 with
      | some v => if (s.thr c.p x.1).onceGo then s.barTell c.p x.1 x.2.1 v else s
      | none => s.barTell c.p x.1 x.2.1 (((s.thr c.p x.1).barTok).getD 0, false)) s1
    barDone s2 c w h vals bad

/-- The wait half of `BARW`, `BART` and `BARX` in the lanes that have a token: the acquire of R220, promises of R221.
(DEDUCED, unsafe: log entry 20.) -/
def barWaits (st : State) (c : Ctx) (i : Instr) (w : BaseW) (toks : List (Nat × BarRef × Nat)) (park ask : Bool) :
    State × List (Nat × Nat × Bool) × List BarOut :=
  let lateAt (l : Nat) (r : BarRef) : Bool := match r with
    | .forme tid off => park && !(st.thr c.p l).stood && (st.team tid).late off st.pt && (st.famOf c.p l).any (·.dw 6 != 0)
    | .mem _ _ => false
  let (s1, rs) := toks.foldl (fun (acc : State × List BarOut) x =>
    let (l, r, tok) := x
    let run (s0 : State) : Eff (Nat × Bool) := (s0.barWait c.p l r tok park (lateAt l r)).bind fun s1 v => Eff.ok (s1.barTell c.p l r v) v
    let (s', e) := if ask then (acc.1.barAsk c.p l i w r).bind fun s0 d => (match d with | some v => Eff.ok s0 v | none => run s0) else run acc.1
    (s', acc.2 ++ [(l, e)])) (st, [])
  let missed (l : Nat) : Bool := match assoc l rs with | some (.error (.trap t)) => t.cause == 0x20 | _ => false
  let s2 := toks.foldl (fun s x => match x.2.1 with
      | .forme tid off => if missed x.1 then s.modTeam tid fun t => t.markLate off st.pt else s
      | .mem _ _ => s) s1
  let ok := okLanes rs
  let s3 := ok.foldl (fun s v =>
    if isAcq (cOrder w.c) && v.2.1 % 2 ^ 16 ≥ 1 then s.acquire c.p (Nat.max (cScope w.c) (v.2.1 / 2 ^ 16)) else s) s2
  (s3, ok.map (fun v => (v.1, v.2.1 % 2 ^ 16, v.2.2)),
    rs.filterMap fun r => match r.2 with | .error e => some (r.1, .error e) | .ok _ => none)

/-- `BARW` and `BART` (R218). -/
def barTest (i : Instr) (sp : BarSpace) (w : BaseW) (s : State) (park : Bool) : Host.Outcome State Fault Refusal :=
  issue i s fun st c =>
    let g := st.grp c.p
    let (s1, refs) := st.barRefs c sp w .load
    let toks := (okLanes refs).map fun r => (r.1, r.2, ((barB g w).val r.1).toNat % 2 ^ 16)
    let bad0 : List BarOut := refs.filterMap fun r => match r.2 with | .error e => some (r.1, .error e) | .ok _ => none
    let (s2, vs, bad) := barWaits s1 c i w toks park true
    barDone s2 c w .g vs (bad0 ++ bad)
def execBarw (sp : BarSpace) (w : BaseW) (s : State) : Host.Outcome State Fault Refusal := barTest (.barw sp w) sp w s true
def execBart (sp : BarSpace) (w : BaseW) (s : State) : Host.Outcome State Fault Refusal := barTest (.bart sp w) sp w s false

/-- `BARX` (R219): `BARA`, then `BARW` with the token received. (DEDUCED, unsafe: log entry 21.) -/
def execBarx (sp : BarSpace) (w : BaseW) (s : State) : Host.Outcome State Fault Refusal :=
  let i := Instr.barx sp w
  issue i s fun st c =>
    let (s1, got, bad) := st.barArrive c i sp w (isRel (cOrder w.c))
    let done := got.filterMap fun x => x.2.2.map fun v => (x.1, x.2.1, v)
    let toks := got.filterMap fun x => if x.2.2.isNone then some (x.1, x.2.1, ((s1.thr c.p x.1).barTok).getD 0) else none
    let (s2, vs, bad2) := barWaits s1 c i w toks true false
    -- a result that the source of a proofed family delivered, or a poisoned object
    let s3 := done.foldl (fun s x =>
      let s' := if (s.thr c.p x.1).onceGo then s.barTell c.p x.1 x.2.1 x.2.2 else s
      if isAcq (cOrder w.c) then s'.acquire c.p (Nat.max (cScope w.c) (x.2.2.1 / 2 ^ 16)) else s') s2
    barDone s3 c w .g (vs ++ done.map fun x => (x.1, x.2.2.1 % 2 ^ 16, x.2.2.2)) (bad ++ bad2)

end Sys2Proof.Machine
end

