-- ==== Sys2Proof/Machine/Control.lean ====
section
/-!
DEFINITION. Branches, calls and returns with rejoin points and mask prediction (R118-R130), the handler's return (R283), `YIELD`,
`SLEEP` and `NOP` (R131-R136), and the events of runs (R14, R122, R125, R135).
-/

namespace Sys2Proof.Machine

/-! ### Rejoin points (R121) -/

/-- A split opens a rejoin point at `hdr` for the threads in `who`, unless it is already the innermost open point of each of them. A
fifth point discards the thread's outermost one. -/
def Group.openPoint (g : Group) (who : Mask) (hdr : W64) : Group :=
  let ls := g.lanes who
  let atH (l : Nat) : Bool := match (g.thr l).rej with
    | [] => false
    | id :: _ => g.points.any fun q => q.id == id && q.hdr == hdr
  if ls.all atH then g
  else
    let id := g.points.foldl (fun m q => Nat.max m (q.id + 1)) 0
    let drop (l : Nat) (q : Point) : Point :=
      if (g.thr l).rej.length ≥ 4 && (g.thr l).rej.getLast? == some q.id then { q with expect := Mask.put q.expect l false } else q
    let olds := ls.foldl (fun ps l => ps.map (drop l)) g.points
    Group.rejoinCheck { g.modLanes who fun t => { t with rej := id :: t.rej.take 3 } with
      points := { id := id, hdr := hdr, expect := who, arrived := 0#64, first := none } :: olds }

/-! ### Mask prediction (R123-R125) -/

/-- Mask prediction applies to a branch of a run; while a load of the group is outstanding a branch waits for its guard.
(DEDUCED, safe: log entry 22.) -/
def State.predicts (s : State) (p : Party) (l : Nat) (guard : BitVec 4) (b : Blk) : Bool :=
  match p with
  | .lc _ => false
  | .grp _ _ =>
    let g := s.grp p
    !g.predUni (guard.toNat % 8) && !b.mpx && !b.uni && !((s.famOf p l).any fun f => (f.dw 1).testBit 37) &&
    (g.gst == .opened || g.gst == .arriving) && g.loads.isEmpty

/-- The predictor entry of a branch block and a run mask, in the group's quarter of the core. -/
def SCore.entry (c : SCore) (quarter index : Nat) : PEntry :=
  (c.predictor.find? fun e => e.quarter == quarter && e.index == index).getD { quarter := quarter, index := index, mask := 0#64, conf := 0 }
/-- Trains an entry with the actual taken set (R125). -/
def SCore.train (c : SCore) (tid quarter index : Nat) (taken : Mask) : SCore :=
  let e := c.entry quarter index
  let e1 : PEntry := { e with tids := addSet tid e.tids }
  let e' : PEntry := if e.mask == taken then { e1 with conf := Nat.min 3 (e.conf + 1) } else { e1 with mask := taken, conf := e.conf - 1 }
  { c with predictor := e' :: c.predictor.filter fun x => !(x.quarter == quarter && x.index == index) }

/-! ### Transfers (R128) -/

/-- A transfer's registers: the link field, and the target of a lane or its trap. -/
structure Xfer where
  link : BitVec 10
  target : Group → Nat → Except Trap W64
  /-- `RET`, which may leave the family trap handler -/
  ret : Option (BitVec 10)

/-- The target of a J-form (R59). -/
def jTarget (off : BitVec 30) (g : Group) (l : Nat) : Except Trap W64 :=
  .ok ((g.thr l).pc + BitVec.ofInt 64 (8 * off.toInt))
/-- The target of a register pair. -/
def rTarget (a : BitVec 10) (g : Group) (l : Nat) : Except Trap W64 :=
  let v := g.rd64 l a.toNat
  if g.poi l a.toNat 2 then .error { cause := 0x18 }
  else if v.toNat % 8 != 0 then .error { cause := 0x05, va := v }
  else .ok v

/-- The lane returns from the family trap handler: its pair equals `s.ftret` (R283). -/
def returnsFrom (g : Group) (x : Xfer) (l : Nat) : Bool :=
  match x.ret with
  | none => false
  | some a => (g.thr l).handler.isSome && !g.poi l a.toNat 2 && g.rd64 l a.toNat == (g.thr l).ftret

/-- One lane's return from the handler: the block context of the trap when RPC is unchanged, else a block entry, which inside a region
leaves the thread apart. (DEDUCED, unsafe: log entry 58.) -/
def State.handlerReturn (s : State) (p : Party) (l : Nat) : State × LaneEnd :=
  let t := s.thr p l
  let rpc := t.ftret &&& 0xFFFFFFFFFFFFFFF8#64
  let old := t.handler.getD { ftret := 0#64, blk := none }
  let wins := stepWins t.wins []
  let s1 := s.modThr p l fun t => { t with handler := none }
  if old.ftret &&& 0xFFFFFFFFFFFFFFF8#64 == rpc then
    let inside := match old.blk with | some b => b.inside rpc | none => false
    let s2 := s1.modGrp p fun g =>
      let others := (g.lanes g.live).filter fun k => k != l && (g.thr k).handler.isNone
      -- only a wait that is executed again (kind 1) lies before the word at which the others wait (R171 rules 4 and 5)
      let late := g.gst == .suspended && t.ftret &&& 7#64 == 1#64 && others.any fun k => (g.thr k).st != .faulted && (g.thr k).pc != rpc
      (g.modThr l fun t => { t.clear with pc := rpc, blk := if inside then old.blk else none, wins := wins, behind := late, barTok := old.barTok })
    (s2, .placed)
  else (s1, .jump rpc)

/-- How a thread that a prediction sends to its target leaves the branch: it enters the block, or stands before one whose entry would trap or
would arrive at a rejoin point, until the window resolves (R124, R126); one whose transfer would itself trap stays at the branch. -/
def State.predicted (s : State) (p : Party) (x : Xfer) (l : Nat) : LaneEnd :=
  let g := s.grp p
  if returnsFrom g x l then .stay
  else match x.target g l with
    | .error _ => .stay
    | .ok t => match (s.header p l t).2 with
      | .block _ => if (g.arrives l t).isSome then .resume t none else .jump t
      | .trapped _ => .resume t none
      | _ => .stay

/-- The outcome of a transfer for the run: in a region the threads stay together (R171 rule 2); elsewhere a split opens a rejoin point;
mask prediction trains, and predicts while the guard is late. A run that holds replayed threads (R125) beside others trains, and predicts
no more. -/
def transfer (i : Instr) (s : State) (x : Xfer) : Host.Outcome State Fault Refusal :=
  issue i s fun st c =>
    let p := c.p
    let g := st.grp p
    let b := ((g.thr st.curLane).blk).getD { addr := 0#64, word := 0#64 }
    let guard := (sig i).g
    let ls := g.lanes c.ok
    let back := ls.filter fun l => Mask.has c.act l && returnsFrom g x l
    let dest (l : Nat) : Except Trap W64 := if Mask.has c.act l then x.target g l else .ok ((g.thr l).pc + 8#64)
    let good := ls.filterMap fun l => if back.contains l then none else match dest l with
      | .ok t => some (l, t)
      | .error _ => none
    let bad := ls.filterMap fun l => if back.contains l then none else match dest l with
      | .error t => some (l, LaneEnd.trap t)
      | .ok _ => none
    let split := good.any fun e => e.2 != (good.map (·.2)).headD 0#64
    let whole := g.gst == .region || g.gst == .suspended
    if whole && split && g.gst == .region then (st, ls.map fun l => (l, .trap { cause := 0x22 }))
    else if (good.any fun e => Mask.has c.act e.1 && st.entryWaits p e.1 e.2) ||
        (back.any fun l => st.entryWaits p l ((g.thr l).ftret &&& 0xFFFFFFFFFFFFFFF8#64)) then
      -- the fetch at a target waits: nothing is written yet
      (st, ls.map fun l => (l, .stay))
    else
      let next (e : Nat × W64) : LaneEnd :=
        let here := (g.thr e.1).pc + 8#64
        if !b.inside here && good.any (fun o => Mask.has c.act o.1 && o.2 == here) then .jump here else .next
      let link (s1 : State) (who : Mask) : State := s1.modGrp p fun g =>
        if who == 0#64 then g else g.wrD64 x.link who (fun _ => (g.thr st.curLane).pc + 8#64) .u 0#64
      let opens (s1 : State) (yes : Bool) : State :=
        if yes && b.rejoin != 0 && !whole && !p.isLc then s1.modGrp p fun g => g.openPoint (Mask.ofLanes (good.map (·.1))) b.point else s1
      let ends (taken : Mask) : List (Nat × LaneEnd) := good.map fun e => (e.1, if Mask.has taken e.1 then .jump e.2 else next e)
      let fresh := ls.any fun l => !(g.thr l).passed
      match p with
      | .grp tid j =>
        let applies := fresh && st.predicts p st.curLane guard b
        let core := (st.team tid).core
        let idx := (Config.predictorIndex b.addr c.ok).toNat
        let entry := (st.core core).entry (j % 4) idx
        let guess := entry.mask &&& c.ok
        let waits := (g.lanes guess).any fun l => match x.target g l with | .ok t => st.entryWaits p l t | .error _ => false
        if applies && st.guardLate && st.dev.caps.getLsbD 1 && entry.conf ≥ 2 && (st.specOf p).isNone && !waits &&
            !(ls.any fun l => (g.thr l).passed) then
          let outs := ls.map fun l => (l, if Mask.has guess l then st.predicted p x l else .next)
          let held := Mask.ofLanes ((outs.filter (·.2 == .stay)).map (·.1))
          let gone := guess &&& ~~~held
          let wrote := if inReg x.link && gone != 0#64 then [([x.link.toNat, x.link.toNat + 1], [], gone)] else []
          let s1 := opens (link st gone) (guess != 0#64 && guess != c.ok)
          let s2 := s1.modTeam tid fun t => { t with
            specs := (j, { before := g, pc := (g.thr st.curLane).pc, run := c.ok, predicted := guess, actual := c.act, index := idx,
                           issued := 0, wrote := wrote }) :: t.specs }
          (s2.modGrp p fun g => g.modLanes held fun t => { t with passed := true }, outs)
        else
          let s1 := if applies then st.modCore core fun k => k.train tid (j % 4) idx c.act else st
          let s2 := opens (link s1 (Mask.ofLanes ((good.map (·.1)).filter (Mask.has c.act)))) split
          let (s3, outs) := back.foldl (fun (acc : State × List (Nat × LaneEnd)) l =>
            let (s', e) := acc.1.handlerReturn p l
            (s', acc.2 ++ [(l, e)])) (s2, [])
          (s3.modGrp p Group.leaveHandler, ends c.act ++ bad ++ outs)
      | .lc _ => (link st (Mask.ofLanes ((good.map (·.1)).filter (Mask.has c.act))), ends c.act ++ bad)

def execBr (w : JumpW) (s : State) := transfer (.br w) s { link := w.link, target := jTarget w.off, ret := none }
def execCall (w : JumpW) (s : State) := transfer (.call w) s { link := w.link, target := jTarget w.off, ret := none }
def execBrx (w : CtlW) (s : State) := transfer (.brx w) s { link := w.d, target := rTarget w.a, ret := none }
def execCallx (w : CtlW) (s : State) := transfer (.callx w) s { link := w.d, target := rTarget w.a, ret := none }
def execRet (w : CtlW) (s : State) := transfer (.ret w) s { link := 1023#10, target := rTarget w.a, ret := some w.a }

/-! ### Resolution of a prediction (R125) -/

/-- A group in which the wrongly placed threads have their registers, predicates and flags of before the branch again, and have arrived
nowhere. What the others wrote in the window keeps the tag of a write by part of the group; every other tag is that of before (R22).
(DEDUCED, safe: log entry 22.) -/
def Group.restore (g old : Group) (wrong : Mask) (wrote : List (List Nat × List Nat × Mask)) : Group :=
  let keys := (g.regs.map (·.1) ++ old.regs.map (·.1)).foldl (fun l k => addSet k l) []
  let by_ (hit : List Nat × List Nat × Mask → Bool) : Bool := (wrote.filter hit).any fun e => e.2.2 &&& ~~~wrong != 0#64
  let mix (r : Nat) : Reg :=
    let a := g.reg r
    let b := old.reg r
    let v (l : Nat) : W32 := if Mask.has wrong l then b.sh.lane l else a.sh.lane l
    { sh := if by_ fun e => e.1.contains r then .g (allLanes.map v) else b.sh, poison := (a.poison &&& ~~~wrong) ||| (b.poison &&& wrong) }
  let mixP (k : Nat) (a b : PredV) : PredV :=
    { bits := (a.bits &&& ~~~wrong) ||| (b.bits &&& wrong), uni := b.uni && !by_ fun e => e.2.1.contains k, poison := (a.poison &&& ~~~wrong) ||| (b.poison &&& wrong) }
  { g with
    regs := keys.foldl (fun l k => putReg l k (mix k)) g.regs
    preds := g.preds.mapIdx fun k a => mixP k a (old.preds.getD k {})
    points := g.points.map fun (q : Point) =>
      let arr := q.arrived &&& ~~~wrong
      { q with arrived := arr, first := if arr == 0#64 then none else q.first }
    threads := g.threads.mapIdx fun l t =>
      if Mask.has wrong l then
        let o := old.thr l
        { t with pc := o.pc, blk := o.blk, fcsr := o.fcsr, wins := o.wins, st := .ready, passed := true }
      else t }

/-- A counter of `s.mpstat` saturates (R30). -/
def satInc (n : Nat) : Nat := Nat.min 0xFFFFFFFF (n + 1)
/-- MASK_PREDICTION_RESOLVE: the guard is known; wrongly placed threads go back to the branch, the entry is trained, `s.mpstat` counts.
A branch whose prediction did not split the run, and which splits it, opens its rejoin point here, for every thread of the run that has not
ended: none of them has arrived. (DEDUCED, safe: log entry 22.) (DESIGN CHOICE, unsafe: log entry 50.) -/
def execMaskPredictionResolve (tid j : Nat) (s : State) : Host.Outcome State Fault Refusal :=
  match s.specOf (.grp tid j) with
  | none => .next s
  | some sp =>
    let p : Party := .grp tid j
    let differ := (sp.predicted ^^^ sp.actual) &&& sp.run
    let splits (m : Mask) : Bool := m &&& sp.run != 0#64 && m &&& sp.run != sp.run
    -- a branch that does not split goes back whole, so that tags are those of a run without prediction (R22)
    let wrong := if differ == 0#64 then 0#64 else if splits sp.actual then differ else sp.run
    let blk := (sp.before.thr ((Mask.lanes sp.run).headD 0)).blk
    let s1 := s.modTeam tid fun t => { t with specs := t.specs.filter (·.1 != j) }
    let s2 := s1.modGrp p fun g =>
      let g1 : Group := { g with mpPred := satInc g.mpPred, mpMiss := if wrong == 0#64 then g.mpMiss else satInc g.mpMiss }
      if wrong == 0#64 then g1
      else
        let g2 := (g1.restore sp.before wrong sp.wrote).limitRuns (Mask.lanes wrong)
        match blk with
        | none => g2
        | some b =>
          if b.rejoin = 0 then g2
          else if splits sp.actual then g2.openPoint (g2.live &&& sp.run) b.point
          else if splits sp.predicted then
            ((g2.points.filter fun q => q.hdr == b.point && !(sp.before.points.any (·.id == q.id))).map (·.id)).foldl
              (fun g id => g.releasePoint id) g2
          else g2
    finish (s2.modCore (s.team tid).core fun k => k.train tid (j % 4) sp.index sp.actual)

/-! ### Waiting -/

/-- `YIELD` (R134): the run's turn ends; the next selection passes over the group once when no other run of it is ready. -/
def execYield (w : CtlW) (s : State) : Host.Outcome State Fault Refusal :=
  issue (.yield w) s fun st c =>
    let g := st.grp c.p
    let other := (g.lanes g.live).any fun l => (g.thr l).st == .ready && !Mask.has c.ok l
    (if c.p.isLc || other then st else st.modGrp c.p fun g => { g with passOver := true }, nexts c.act)

/-- `SLEEP` (R135): parks until PT ≥ target + 4. -/
def execSleep (w : CtlW) (s : State) : Host.Outcome State Fault Refusal :=
  issue (.sleep w) s fun st c =>
    let a := (st.grp c.p).src .int 2 w.a
    (st, (Mask.lanes c.act).map fun l =>
      (l, if Mask.has a.poi l then .trap { cause := 0x18 }
          else if st.pt ≥ (a.val l).toNat + 4 then .next
          else .hold (.sleep (a.val l))))

/-- SLEEP_WAKE (R135): the target has passed; the thread executes its `SLEEP` again. -/
def execSleepWake (p : Party) (lane : Nat) (s : State) : Host.Outcome State Fault Refusal :=
  match (s.thr p lane).st with
  | .sleep v => if s.running p && s.pt ≥ v.toNat + 4 then .next (s.wake p lane id) else .next s
  | _ => .next s

/-- `NOP` (R136). -/
def execNop (w : CtlW) (s : State) : Host.Outcome State Fault Refusal := issue (.nop w) s fun st c => (st, nexts c.act)

/-! ### Events of the run table and of rejoin points -/

/-- The group with a run of another PC parked, for a thread that has waited 2^16 cycles for an entry (R14).
(DEDUCED, unsafe in part: log entry 47.) -/
def Group.makeRoom (g : Group) (lane : Nat) : Group :=
  let pc := (g.thr lane).pc
  match (g.lanes g.live).find? fun l => (g.thr l).st == .ready && (g.thr l).pc != pc with
  | none => g
  | some v => g.modLanes (Mask.ofTest fun l => (g.thr l).st == .ready && (g.thr l).pc == (g.thr v).pc) fun t => { t with st := .parked }
/-- A parked thread is due: it enters a run within 2^16 cycles (R14). -/
def State.parkDue (s : State) (p : Party) (lane : Nat) : Bool :=
  (assoc lane (s.grp p).parkedAt).any fun c => s.cycOf p + 2 * s.cycPerStep ≥ c + 2 ^ 16
/-- RUN_TABLE_UNPARK (R14): a thread parked for want of a run entry enters a run. -/
def execRunTableUnpark (tid j lane : Nat) (s : State) : Host.Outcome State Fault Refusal :=
  let p : Party := .grp tid j
  if s.running p && (s.thr p lane).st == .parked then
    let s1 := s.wake p lane id
    .next (if (s1.thr p lane).st == .parked && s.parkDue p lane && (s.specOf p).isNone then (s.modGrp p fun g => g.makeRoom lane).wake p lane id
      else s1)
  else .next s

/-- REJOIN_TIMEOUT (R122): 2^16 cycles have passed since the first thread parked at the point. -/
def execRejoinTimeout (tid j id : Nat) (s : State) : Host.Outcome State Fault Refusal :=
  let p : Party := .grp tid j
  if s.running p && (s.grp p).points.any (fun q => q.id == id && q.first.any fun c => s.cycOf p ≥ c + 2 ^ 16) then
    .next (s.modGrp p fun g => g.releasePoint id)
  else .next s

end Sys2Proof.Machine
end

