-- ==== Sys2Proof/Machine/HashString.lean ====
section
/-!
DEFINITION. The hash and string instructions (R246-R248).
-/

namespace Sys2Proof.Machine

/-- `mix` (R246). -/
def mix64 (x seed : W64) : W64 :=
  let k := 0xD6E8FEB86659FD93#64
  let h0 := x ^^^ seed
  let h1 := (h0 ^^^ (h0 >>> (31 : Nat))) * k
  let h2 := (h1 ^^^ (h1 >>> (32 : Nat))) * k
  h2 ^^^ (h2 >>> (32 : Nat))
def rotl17 (h : W64) : W64 := h.rotateLeft 17

def execHash (comb : Bool) (w : BaseW) (s : State) : Host.Outcome State Fault Refusal :=
  issueG (.hash comb w) s fun c g =>
    let a := g.src .int 2 w.a
    let b := g.src .int 2 w.b
    let x := g.src .int 2 w.c
    if comb then g.wrD64 w.d c.act (fun l => mix64 (a.val l ^^^ rotl17 (b.val l)) (x.val l)) (tagOf [a, b, x]) (poiOf [a, b, x])
    else g.wrD64 w.d c.act (fun l => mix64 (a.val l) (b.val l)) (tagOf [a, b]) (poiOf [a, b])

/-- `n` bytes from an address, one access each in ascending order (R248), with whether one of them is poisoned. -/
def State.loadString (s : State) (p : Party) (l : Nat) (va : W64) : Nat → Eff (List Byte × Bool)
  | 0 => Eff.ok s ([], false)
  | n + 1 => (State.loadString s p l va n).bind fun s1 (bs, poi) =>
      (s1.access p l (va + BitVec.ofNat 64 n) 1 .load true true).bind fun s2 x =>
        (s2.settleOver p x.pa 1).bind fun s3 _ =>
          (s3.read p x 1 .data .dflt).bind fun s4 (b, q) =>
            let held := (s4.thr p l).held
            let a := va + BitVec.ofNat 64 n
            Eff.ok s4 (bs ++ forward held a b, poi || (q && !covered held a 1))

/-- `shash` on the bytes (R247). -/
def shash (bs : List Byte) (seed : W64) : W64 :=
  let n := BitVec.ofNat 64 bs.length
  let word (i : Nat) : W64 := BitVec.ofNat 64 (leNat ((bs.drop (8 * i)).take 8))
  let h := (List.range (bs.length / 8)).foldl (fun h i => mix64 (word i ^^^ rotl17 h) seed) (mix64 n seed)
  let t : W64 := BitVec.ofNat 64 (leNat (bs.drop (bs.length / 8 * 8)))
  mix64 (t ^^^ rotl17 h) (seed ^^^ n)

/-- `scmp` (R247): compares from byte `i` on, reading no byte after the first difference; `left` bytes are left in both. -/
def State.scmp (s : State) (p : Party) (l : Nat) (a b : W64) (la lb i : Nat) : Nat → Eff (W32 × Bool)
  | 0 => Eff.ok s (if la < lb then 0xFFFFFFFF#32 else if la > lb then 1#32 else 0#32, false)
  | left + 1 =>
    (s.loadString p l (a + BitVec.ofNat 64 i) 1).bind fun s1 (x, px) =>
    (s1.loadString p l (b + BitVec.ofNat 64 i) 1).bind fun s2 (y, py) =>
      if x == y then
        (State.scmp s2 p l a b la lb (i + 1) left).bind fun s3 r => Eff.ok s3 (r.1, r.2 || px || py)
      else Eff.ok s2 (if leNat x < leNat y then 0xFFFFFFFF#32 else 1#32, px || py)

/-- Strings' tags (R248). -/
def strHint (srcs : List Src) : Hint := tagOf srcs

/-- `SHASH` (R247, R248). A poisoned length traps. (DESIGN CHOICE, unsafe: log entry 55.) -/
def execShash (w : BaseW) (s : State) : Host.Outcome State Fault Refusal :=
  let srcs (g : Group) : List Src := [addr64 w.a g, addr32 w.b g, g.src .int 2 w.c]
  issueL (.shash w) s w.d 2 (fun _ g => strHint (srcs g)) fun c st l =>
    let g := s.grp c.p
    let n := g.src .int 1 w.b
    let seed := g.src .int 2 w.c
    if Mask.has n.poi l then Eff.trap st { cause := 0x18 }
    else (st.addrOf l (addr64 w.a g) 0#64).bind fun s1 va =>
      (s1.loadString c.p l va ((n.val l).toNat % 2 ^ 32)).bind fun s2 (bs, poi) =>
        Eff.ok s2 (wordsOf 2 (shash bs (seed.val l)).toNat, poi || Mask.has seed.poi l)

/-- `SCMP` (R247, R248). A poisoned length traps. (DESIGN CHOICE, unsafe: log entry 55.) -/
def execScmp (w : BaseW) (s : State) : Host.Outcome State Fault Refusal :=
  let spanC (g : Group) : Src := { val := fun l => g.rd64 l w.c.toNat, tag := g.hintOf w.c.toNat 2, poi := Mask.ofTest fun l => g.poi l w.c.toNat 2 }
  issueL (.scmp w) s w.d 1 (fun _ g => strHint [addr64 w.a g, addr64 w.b g, spanC g]) fun c st l =>
    let g := s.grp c.p
    let n := spanC g
    let la := (lo32 (n.val l)).toNat
    let lb := (hi32 (n.val l)).toNat
    if Mask.has n.poi l then Eff.trap st { cause := 0x18 }
    else (st.addrOf l (addr64 w.a g) 0#64).bind fun s1 a => (s1.addrOf l (addr64 w.b g) 0#64).bind fun s2 b =>
      (s2.scmp c.p l a b la lb 0 (Nat.min la lb)).bind fun s3 (v, poi) => Eff.ok s3 ([v], poi)

/-- `SPFX` (R247, R248). A poisoned length traps. (DESIGN CHOICE, unsafe: log entry 55.) -/
def execSpfx (w : BaseW) (s : State) : Host.Outcome State Fault Refusal :=
  issueL (.spfx w) s w.d 2 (fun _ g => strHint [addr64 w.a g, addr32 w.b g]) fun c st l =>
    let g := s.grp c.p
    let n := g.src .int 1 w.b
    if Mask.has n.poi l then Eff.trap st { cause := 0x18 }
    else (st.addrOf l (addr64 w.a g) 0#64).bind fun s1 va =>
      (s1.loadString c.p l va (Nat.min 8 ((n.val l).toNat % 2 ^ 32))).bind fun s2 (bs, poi) =>
        Eff.ok s2 (wordsOf 2 ((bs.mapIdx fun i b => b.toNat * 2 ^ (56 - 8 * i)).sum), poi)

end Sys2Proof.Machine
end

