-- ==== Sys2Proof/Machine/Spool.lean ====
section
/-!
DEFINITION. The spool engine (R236-R245, R387): issue checks and promises, queues and fences, the movement of data element by element,
faults and completion.
-/

namespace Sys2Proof.Machine

/-! ### Engine accesses (R239, R305; log entry 16) -/

/-- An engine reads `n` bytes at their home, for the requester die `req`: the bytes, their poison, and the write completion time that comes
with them (R296); a page of another package is read in its replica (R399). -/
def State.engRead (s : State) (pa0 n req : Nat) (fam : Option W32) : Eff (Loaded × Nat) :=
  let pa := s.redirect pa0
  let s0 := s.touch pa n
  if s0.remote pa then
    match s0.replicaFor pa with
    | none => Eff.stall (s0.askReplica pa)
    | some r =>
      if s0.windowedOver pa n then Eff.stall s0
      else Eff.ok (if r.expiry < s0.pt + 10000 then s0.askReplica pa else s0) ((s0.bytes pa n, s0.poisoned pa n), 0)
  else if s0.windowedOver pa n then Eff.stall s0
  else
    let s1 := ((s0.downgrade (lineOf pa) none).enterHome (lineOf pa) .dflt).sample pa req fam
    Eff.ok s1 ((s1.bytes pa n, s1.poisoned pa n), (s1.lineInfo (lineOf pa)).wct)
/-- Reads `n` bytes of global memory for the spool engine of a thread's team. (DEDUCED, unsafe: log entry 16.) -/
def State.engLoad (s : State) (p : Party) (l : Nat) (va : W64) (n : Nat) : Eff (Loaded × Nat) :=
  (s.access p l va n .load false true).bind fun s1 x => (s1.settleOver p x.pa n).bind fun s2 _ =>
    s2.engRead x.pa n (s2.dieOf p) (s2.samplesFor p)

/-- Stores to host memory of a party that the host has not completed (R303). -/
def State.owed (s : State) (w : Acker) : Nat := (s.host.acks.filter (·.who == w)).length
/-- The die of a network engine, as the requester of its accesses (R325). -/
def ackDie : Acker → Option Nat | .net e => some (24 + e) | _ => none
/-- An engine's store or update is performed at its home now: the write completion time and the end of the window that a later release
waits for. The store of a spool engine passes through the caches of its core (R239, R310); one to host memory is counted until the host has
completed it (R303); one to a page of another package, or with replicas there, is windowed (R302). -/
def State.engNow (s : State) (who : Option Party) (ack : Acker) (rmw : Bool) (pa : Nat) (data : List Byte) (poi : Bool) : State × Nat × Nat :=
  let (s1, w) := (s.countStore pa).homeStore pa data who .dflt (ackDie ack)
  let s2 := if poi then s1.poisonAt pa data.length else s1
  let s3 := if paDie pa = 31 then { s2 with host := { s2.host with acks := s2.host.acks ++ [{ who := ack, line := lineOf pa, rmw := rmw }] } } else s2
  if s.travels pa then (s3.openWindow who pa data true, w, s.windowEnd) else (s3, w, 0)
/-- Performs an engine's store at its home, which may hold it back; one to a page of another package is sent there. -/
def State.engPutPa (s : State) (who : Option Party) (ack : Acker) (pa0 : Nat) (data : List Byte) (poi : Bool) : Eff (Nat × Nat) :=
  let pa := s.redirect pa0
  if s.barred pa then Eff.stall s
  else if s.remote pa then Eff.ok (s.openWindow who pa data false) (0, s.windowEnd)
  else if s.mayStore pa data.length none then (let r := s.engNow who ack false pa data poi; Eff.ok r.1 r.2)
  else Eff.stall (s.press pa data.length none)
/-- A store of a spool engine, after the stores of the team that it finds over the same bytes (R242). -/
def State.engStore (s : State) (p : Party) (l q : Nat) (va : W64) (data : List Byte) (poi : Bool) : Eff (Nat × Nat) :=
  (s.access p l va data.length .store false true).bind fun s1 x => (s1.settleOver p x.pa data.length).bind fun s2 _ =>
    s2.engPutPa (some p) (.spool p.id q) x.pa data poi

/-! ### Parameter blocks (R237, R240) -/

def SpOp.w (o : SpOp) (k : Nat) : Nat := (o.par.getD k 0#32).toNat
def SpOp.len (o : SpOp) : Nat := o.w 0
/-- CNT, and 1 for the operations without rows. -/
def SpOp.cnt (o : SpOp) : Nat := match o.kind with | .cpy => 1 | .cfill => 1 | _ => o.w 2
/-- The number of elements: bytes of `CPY` and `CFILL`, else rows or records. -/
def SpOp.total (o : SpOp) : Nat :=
  match o.kind with
  | .cpy => o.len
  | .cfill => o.len
  | _ => if o.len = 0 then 0 else o.cnt
/-- The parameter registers that an operation reads (R237). -/
def spReads (k : SpKind) : List Nat :=
  match k with
  | .cpy => [0, 1] | .cfill => [0, 1] | .cpart => [0, 1, 2, 3, 4, 5, 6, 7] | _ => [0, 1, 2, 3, 4]
def SpOp.hw (o : SpOp) : Nat := o.w 3 / 2 ^ 26 % 16
def SpOp.hb (o : SpOp) : Nat := o.w 3 / 2 ^ 20 % 64
def SpOp.klen (o : SpOp) : Nat := o.w 3 / 2 ^ 16 % 8 + 1
def SpOp.koff (o : SpOp) : Nat := o.w 3 % 2 ^ 16
/-- Reserved bits and limits (R237, R240). -/
def SpOp.badField (o : SpOp) : Bool :=
  o.w 1 / 2 ^ 20 != 0 ||
  (o.kind == .cpart && (o.len = 0 || o.len > 4096 || o.w 3 / 2 ^ 30 != 0 || o.w 3 / 2 ^ 19 % 2 != 0 || o.hw > 12 || o.koff + o.klen > o.len))

/-- An address on one side: global addresses wrap at 2^64, forme offsets do not. -/
def sideAdd (glob : Bool) (base : W64) (k : Nat) : W64 := if glob then base + BitVec.ofNat 64 k else BitVec.ofNat 64 (base.toNat % 2 ^ 32 + k)

/-- The data ranges that are known at issue (R238): space, first byte, bytes. -/
def SpOp.ranges (o : SpOp) : List (Bool × W64 × Nat) :=
  match o.kind with
  | .cpy => [(o.srcG, o.a, o.len), (o.dstG, o.b, o.len)]
  | .cpyt => (List.range o.cnt).map (fun r => (o.srcG, sideAdd o.srcG o.a (r * o.w 3), o.len)) ++
      (List.range o.cnt).map fun r => (o.dstG, sideAdd o.dstG o.b (r * o.w 4), o.len)
  | .cgath => [(o.dstG, o.b, o.len * o.cnt)]
  | .cscat => [(o.srcG, o.a, o.len * o.cnt)]
  | .cpart => [(o.srcG, o.a, o.len * o.cnt)]
  | .cfill => [(o.dstG, o.b, o.len)]
/-- The forme ranges in the order of R238, with their alignments: data, BAR, IDX, CUR. -/
def SpOp.formeRanges (o : SpOp) : List (Nat × Nat × Nat) :=
  ((o.ranges.filter fun r => !r.1).map fun r => (r.2.1.toNat, r.2.2, 1)) ++
  (match o.bar with | some b => [(b, 8, 8)] | none => []) ++
  (match o.kind with
    | .cgath => [(o.w 3, 4 * o.cnt, 4)]
    | .cscat => [(o.w 3, 4 * o.cnt, 4)]
    | .cpart => [(o.w 4, 8 * 2 ^ o.hw, 8)]
    | _ => [])

/-- The checks of R238 but those of poison. A global range of no bytes has nothing to check; a forme range of none still lies in the forme.
(DESIGN CHOICE, unsafe: log entry 48.) -/
def State.spoolCheck (s : State) (p : Party) (l : Nat) (size : Nat) (o : SpOp) : Option Trap :=
  let lease := match s.famOf p l with | some f => if f.leased then some f.lease else none | none => none
  let forme := o.formeRanges.findSome? fun r =>
    if r.1 % r.2.2 != 0 then some { cause := 0x12, va := BitVec.ofNat 64 r.1 }
    else if r.1 + r.2.1 > size then some ({ cause := 0x14 } : Trap) else none
  let glob := (o.ranges.filter fun r => r.1 && r.2.2 != 0).findSome? fun r =>
    let last := r.2.1 + BitVec.ofNat 64 (r.2.2 - 1)
    if !canonical r.2.1 || !canonical last || upper r.2.1 || upper last || last.toNat < r.2.1.toNat then some { cause := 0x13, va := r.2.1 }
    else if lease.any (fun rs => !inLease rs r.2.1.toNat r.2.2) then some ({ cause := 0x11, va := r.2.1 } : Trap) else none
  if o.badField then some { cause := 0x03 }
  else match forme with
    | some t => some t
    | none => glob

/-! ### Promises (R243) -/

/-- Bytes per ns of a global side: by the home of its first byte when a translation is cached. -/
def State.rateOf (s : State) (p : Party) (l : Nat) (va : W64) : Nat :=
  match s.tlbFind (s.tlbPath p) (s.spaceOf p l) va with
  | none => 2
  | some t =>
    let b := pageBits t.level
    let pa := s.redirect (leafBase t.leaf / 2 ^ b * 2 ^ b + va.toNat % 2 ^ b)
    if paPkg pa != s.link.pkg || paDie pa = 31 then 2
    else if paDie pa ≥ 24 then 8
    else if paDie pa = s.dieOf p then 32 else 16
def State.spoolPromise (s : State) (p : Party) (l : Nat) (q : SpQueue) (o : SpOp) : Nat :=
  let side (g : Bool) (va : W64) : Nat := if g then s.rateOf p l va else 64
  let rate := Nat.min (if o.kind == .cfill then 64 else side o.srcG o.a) (side o.dstG o.b)
  let bytes := match o.kind with | .cpy => o.len | .cfill => o.len | _ => o.len * o.cnt
  let units := match o.kind with | .cpy => 0 | .cfill => 0 | _ => o.cnt
  Nat.max s.pt (Nat.max q.lastp q.floor) + 200 + (bytes + rate - 1) / rate + 4 * units

/-! ### Queues and fences (R236, R244) -/

def SpItem.isOp : SpItem → Bool | .op _ => true | .fence _ => false
/-- Operations entered and not completed. -/
def SpQueue.pending (q : SpQueue) : Nat := (q.items.filter (·.isOp)).length
def Team.queue (t : Team) (q : Nat) : SpQueue := t.spq.getD q {}
def Team.modQueue (t : Team) (q : Nat) (f : SpQueue → SpQueue) : Team := { t with spq := setAt t.spq q f }
/-- A fence that stands at the head of every queue that it joins is passed. -/
def Team.passFence (t : Team) : Team :=
  let heads := t.spq.filterMap fun q => match q.items.head? with | some (.fence k) => some k | _ => none
  let free (k : Nat) : Bool := t.spq.all fun q => match q.items.head? with
    | some (.fence j) => j == k || !(q.items.contains (.fence k))
    | _ => !(q.items.contains (.fence k))
  { t with spq := t.spq.map fun q => match q.items with
      | .fence k :: rest => if heads.contains k && free k then { q with items := rest } else q
      | _ => q }
/-- Every fence that can be passed is passed, one after another (R244). -/
def Team.passFences (t : Team) : Team := (t.spq.flatMap (·.items)).foldl (fun x _ => x.passFence) t
/-- The operation at the head of a queue. -/
def SpQueue.head (q : SpQueue) : Option SpOp := match q.items with | .op o :: _ => some o | _ => none
def SpQueue.setHead (q : SpQueue) (o : SpOp) : SpQueue := match q.items with | .op _ :: rest => { q with items := .op o :: rest } | _ => q

/-! ### Issue (R238) -/

/-- A spool instruction: each active thread that passes the checks enters its operation, in ascending lane order. -/
def spoolIssue (i : Instr) (s : State) (w : BaseW) (qn : Nat) (kind : SpKind) (srcG dstG : Bool) : Host.Outcome State Fault Refusal :=
  issue i s fun st c =>
    match c.p with
    | .lc _ => (st, nexts c.act)
    | .grp tid j =>
      let g := st.grp c.p
      let a : Src := if kind == .cfill || srcG then addr64 w.a g else addr32 w.a g
      let b : Src := if dstG then addr64 w.b g else addr32 w.b g
      let low (glob : Bool) (v : W64) : W64 := if glob then v else BitVec.ofNat 64 (fOff v)
      let opOfLane (l : Nat) : SpOp :=
        { kind := kind, srcG := srcG, dstG := dstG, grp := j, lane := l, pc := (g.thr l).pc, a := low (kind == .cfill || srcG) (a.val l),
          b := low dstG (b.val l), par := (List.range 8).map fun k => g.rd l (w.c.toNat + k), promise := 0 }
      let ls := Mask.lanes c.act
      let checked := ls.map fun l => (l, if Mask.has a.poi l || Mask.has b.poi l || (spReads kind).any (fun k => g.poi l (w.c.toNat + k) 1)
        then some ({ cause := 0x18 } : Trap) else st.spoolCheck c.p l (st.team tid).fsize (opOfLane l))
      let bad := checked.filterMap fun x => x.2.map fun t => (x.1, LaneEnd.trap t)
      let ok := (checked.filter fun x => x.2.isNone).map (·.1)
      let hold (s1 : State) : State × List (Nat × LaneEnd) := (s1, bad ++ ok.map fun l => (l, .stay))
      if ((st.team tid).queue qn).pending + ok.length > 64 then hold st
      else
        let (s1, rs) := eachLane st ok fun s0 l => (s0.proofPoint c.p l).bind fun s1 _ => s1.releaseFor c.p l 1
        let stuck := rs.any fun r => match r.2 with | .error _ => true | .ok _ => false
        -- in a proofed family the promise is replica 0's (R243, R384)
        let ops (l : Nat) : List Nat :=
          let o := opOfLane l
          onceKey i ++ [o.a.toNat, o.b.toNat] ++ (spReads kind).map o.w
        if stuck then hold s1
        else if !(ok.all fun l => s1.pinReady c.p l (ops l)) then
          hold ((ok.filter fun l => !s1.pinReady c.p l (ops l)).foldl (fun s0 l => (s0.pin c.p l (ops l) fun st => Eff.ok st 0).1) s1)
        else
          let (s2, ps) := eachLane s1 ok fun s0 l =>
            let q := (s0.team tid).queue qn
            let o := opOfLane l
            (s0.pin c.p l (ops l) fun st => Eff.ok st (st.spoolPromise c.p l q o)).bind fun s1' promise =>
              let o' := { o with promise := promise, num := q.done + q.pending }
              Eff.ok (s1'.modTeam tid fun t => t.modQueue qn fun x => { x with items := x.items ++ [.op o'], lastp := promise }) promise
          let vs := (okLanes ps).map fun r => (r.1, wordsOf 2 r.2, false)
          let h : Hint := if vs.all (fun v => v.2.1 == ((vs.headD (0, [], false)).2.1)) then tagOf [a, b] else .g
          (s2.modGrp c.p fun g => g.putLanes w.d 2 vs h, bad ++ ok.map fun l => (l, .next))

def execCpy (q : QueueNo) (sp : SpSpace) (w : BaseW) (s : State) := spoolIssue (.cpy q sp w) s w q.toNat .cpy sp.srcG sp.dstG
def execCpyt (q : QueueNo) (sp : SpSpace) (w : BaseW) (s : State) := spoolIssue (.cpyt q sp w) s w q.toNat .cpyt sp.srcG sp.dstG
def execCgath (q : QueueNo) (sp : SpSpace) (w : BaseW) (s : State) := spoolIssue (.cgath q sp w) s w q.toNat .cgath sp.srcG sp.dstG
def execCscat (q : QueueNo) (sp : SpSpace) (w : BaseW) (s : State) := spoolIssue (.cscat q sp w) s w q.toNat .cscat sp.srcG sp.dstG
def execCpart (q : QueueNo) (sp : SpSpace) (w : BaseW) (s : State) := spoolIssue (.cpart q sp w) s w q.toNat .cpart sp.srcG sp.dstG
def execCfill (q : QueueNo) (sp : FillSpace) (w : BaseW) (s : State) :=
  spoolIssue (.cfill q sp w) s w q.toNat .cfill false (sp == .gg)

/-- `CFENCE` (R244). -/
def execCfence (mask : BitVec 4) (w : BaseW) (s : State) : Host.Outcome State Fault Refusal :=
  issue (.cfence mask w) s fun st c =>
    (match c.p with
      | .lc _ => st
      | .grp tid _ => st.modTeam tid fun t =>
        let qs := (List.range 4).filter fun q => mask.getLsbD q
        let floor := qs.foldl (fun m q => Nat.max m (t.queue q).lastp) 0
        if qs.length ≤ 1 then t
        else Team.passFences { qs.foldl (fun t q => t.modQueue q fun x => { x with items := x.items ++ [.fence t.fenceId], floor := floor }) t with
          fenceId := t.fenceId + 1 }, nexts c.act)

/-- `CSTAT` (R245): DONE, FLT, PEND, LASTP. Its acquire at `.team` finds the writes of the operations counted in the core's own caches, through
which they passed (R310). -/
def SpQueue.stat (q : SpQueue) : Nat :=
  let flt := q.items.any fun x => match x with | .op o => o.parked.isSome | .fence _ => false
  q.done % 2 ^ 32 * 2 ^ 96 + (if flt then 2 ^ 80 else 0) + q.pending * 2 ^ 64 + q.lastp
def execCstat (q : QueueNo) (w : BaseW) (s : State) : Host.Outcome State Fault Refusal :=
  issue (.cstat q w) s fun st c =>
    let (s1, rs) := eachLane st (Mask.lanes c.act) fun s0 l =>
      (s0.pin c.p l (onceKey (.cstat q w)) fun s1 => Eff.ok s1 ((st.team c.p.id).queue q.toNat).stat).bind fun s2 r =>
        Eff.ok s2 (wordsOf 4 r, false)
    let vs := okLanes rs
    let same := vs.all fun v => v.2.1 == ((vs.headD (0, [], false)).2.1)
    let s2 := if vs.isEmpty then s1 else s1.acquire c.p 1
    (s2.modGrp c.p fun g => g.putLanes w.d 4 vs (if same then .u else .g), endsOf rs)

/-! ### Movement of data (R239, R240) -/

/-- What runs an operation: its party, its lane, team, queue. -/
structure SpRun where
  p : Party
  lane : Nat
  tid : Nat
  qn : Nat
  deriving DecidableEq, Repr

/-- Writes to global memory are staged in a proofed family (R387). -/
def State.staged (s : State) (r : SpRun) : Bool := s.proofed r.p r.lane
/-- The staged segment that an operation fills. (DEDUCED, unsafe: log entry 20.) -/
def State.openSeg (s : State) (r : SpRun) (o : SpOp) : Option Segment :=
  let t := s.team r.tid
  s.segs.find? fun g => g.fam == t.fam && g.num == t.num && g.queue == r.qn && g.op == o.num && g.rid == t.rid && !g.posted
def stagedBytes (g : Segment) : Nat := (g.writes.map fun w => w.2.1.length).sum
/-- Bytes of a segment (R387). -/
def segSize : Nat := 65536
/-- Bytes that the operation may still write before its segment is full. -/
def State.segRoom (s : State) (r : SpRun) (o : SpOp) : Nat := segSize - ((s.openSeg r o).map stagedBytes).getD 0
/-- The byte that an operation's own staged writes give. -/
def segByte (g : Option Segment) (va : W64) : Option (Byte × Bool) :=
  (g.bind fun x => x.writes.reverse.find? fun w => w.1.toNat ≤ va.toNat && va.toNat < w.1.toNat + w.2.1.length).map fun w =>
    (w.2.1.getD (va.toNat - w.1.toNat) 0#8, w.2.2)

/-- Reads one byte of a side: the byte, its poison, the write completion time that comes with it. -/
def State.sideByte (s : State) (r : SpRun) (o : SpOp) (glob : Bool) (a : W64) : Eff (Byte × Bool × Nat) :=
  if glob then
    (s.engLoad r.p r.lane a 1).bind fun s1 ((bs, poi), w) =>
      match segByte (s1.openSeg r o) a with
      | some (b, q) => Eff.ok s1 (b, q, 0)
      | none => Eff.ok s1 (bs.headD 0#8, poi, w)
  else
    let t := s.team r.tid
    if a.toNat ≥ t.fsize then Eff.trap s { cause := 0x14 } else Eff.ok s (t.fbyte a.toNat, t.fpoi a.toNat 1, 0)

/-- Bytes of a unit from an address on: up to the end of the poison granule, 32 bytes of global memory and 8 of forme (R411). -/
def unitRoom (glob : Bool) (a : W64) : Nat := if glob then 32 - a.toNat % 32 else 8 - a.toNat % 8
/-- Writes bytes of a side, all inside one poison granule. -/
def State.sidePut (s : State) (r : SpRun) (o : SpOp) (glob : Bool) (a : W64) (data : List Byte) (poi : Bool) : Eff SpOp :=
  if glob then
    if s.staged r then
      (s.access r.p r.lane a data.length .store false true).bind fun s1 _ =>
        let t := s1.team r.tid
        match s1.openSeg r o with
        | some g => Eff.ok { s1 with segs := s1.segs.map fun x => if x == g then { x with writes := x.writes ++ [(a, data, poi)] } else x } o
        | none => Eff.ok { s1 with segs := s1.segs ++ [{ fam := t.fam, num := t.num, queue := r.qn, op := o.num, seg := o.seg, rid := t.rid,
                                                         writes := [(a, data, poi)], posted := false }] } o
    else (s.engStore r.p r.lane r.qn a data poi).bind fun s1 (w, u) => Eff.ok s1 { o with rh := Nat.max o.rh w, wuntil := Nat.max o.wuntil u }
  else
    let t := s.team r.tid
    if a.toNat + data.length > t.fsize then Eff.trap s { cause := 0x14 }
    else
      let s1 := s.formeWrite r.tid a.toNat data
      Eff.ok (if poi then s1.modTeam r.tid fun x => { x with fpoison := (fgran a.toNat data.length).foldl (fun l g => addSet g l) x.fpoison } else s1) o

/-- Copies up to one aligned unit, byte by byte in ascending order: a source byte that this unit has already written is the new one. -/
def State.copyUnit (s : State) (r : SpRun) (o : SpOp) (sg : Bool) (src : W64) (dst : W64) (n : Nat) : Eff SpOp :=
  let step (acc : Eff (List Byte × Bool × Nat)) (k : Nat) : Eff (List Byte × Bool × Nat) := acc.bind fun s1 (bs, poi, w) =>
    let a := sideAdd sg src k
    let back := a.toNat - dst.toNat
    if sg == o.dstG && dst.toNat ≤ a.toNat && back < k then Eff.ok s1 (bs ++ [bs.getD back 0#8], poi, w)
    else (s1.sideByte r o sg a).bind fun s2 (b, q, v) => Eff.ok s2 (bs ++ [b], poi || q, Nat.max w v)
  ((List.range n).foldl step (Eff.ok s ([], false, o.rh))).bind fun s1 (bs, poi, w) => s1.sidePut r { o with rh := w } o.dstG dst bs poi

/-- Copies `n` bytes unit by unit, up to the end of the segment in a proofed family (R387), or to a unit that must wait: what is left is the
operation's `part`. -/
def State.copyRange (s : State) (r : SpRun) (o : SpOp) (sg : Bool) (src dst : W64) (n : Nat) : Nat → Eff SpOp
  | 0 => Eff.ok s o
  | fuel + 1 =>
    if n = 0 then Eff.ok s o
    else if s.segRoom r o = 0 then Eff.ok s { o with part := some (src, dst, n) }
    else
      let k := Nat.min (Nat.min n (unitRoom o.dstG dst)) (s.segRoom r o)
      match s.copyUnit r o sg src dst k with
      | (s1, .ok o1) => State.copyRange s1 r o1 sg (sideAdd sg src k) (sideAdd o.dstG dst k) (n - k) fuel
      | (s1, .error .stall) => Eff.ok s1 { o with part := some (src, dst, n) }
      | (s1, .error e) => (s1, .error e)

/-- A little-endian number in the team's forme: a poisoned index or cursor is cause 0x18 (R239). (DESIGN CHOICE, unsafe: log entry 49.) -/
def State.formeWord (s : State) (r : SpRun) (a n : Nat) : Eff Nat :=
  let t := s.team r.tid
  if a + n > t.fsize then Eff.trap s { cause := 0x14 }
  else if t.fpoi a n then Eff.trap s { cause := 0x18 } else Eff.ok s (leNat (t.fbytes a n))

/-- An offset that an index has produced must lie below the forme size before anything of its element moves. -/
def State.sideRoom (s : State) (r : SpRun) (glob : Bool) (a : W64) (n : Nat) : Eff Unit :=
  if !glob && a.toNat + n > (s.team r.tid).fsize then Eff.trap s { cause := 0x14 } else Eff.ok s ()

/-- `CPART` on one record (R240). -/
def State.partRecord (s : State) (r : SpRun) (o : SpOp) (k : Nat) : Eff SpOp :=
  let rec0 := sideAdd o.srcG o.a (k * o.len)
  let keyByte (acc : Eff Nat) (n : Nat) : Eff Nat := acc.bind fun s1 v =>
    (s1.sideByte r o o.srcG (sideAdd o.srcG rec0 (o.koff + n))).bind fun s2 (b, poi, _) =>
      if poi then Eff.trap s2 { cause := 0x18 } else Eff.ok s2 (v + b.toNat * 2 ^ (8 * n))
  ((List.range o.klen).foldl keyByte (Eff.ok s 0)).bind fun s1 key =>
    let h := mix64 (BitVec.ofNat 64 key) (pair64 (o.par.getD 7 0#32) (o.par.getD 6 0#32))
    let p := h.toNat / 2 ^ o.hb % 2 ^ o.hw
    (s1.formeWord r (o.w 4 + 8 * p) 8).bind fun s2 cur =>
      let fill := cur % 2 ^ 32
      let drop := cur / 2 ^ 32 % 2 ^ 31
      if fill + o.len ≤ o.w 5 then
        let dst := sideAdd o.dstG o.b (p * o.w 5 + fill)
        (s2.sideRoom r o.dstG dst o.len).bind fun s3 _ =>
        (s3.copyRange r o o.srcG rec0 dst o.len o.len).bind fun s4 o1 =>
          Eff.ok (s4.formeWrite r.tid (o.w 4 + 8 * p) (natLe 4 (fill + o.len))) o1
      else Eff.ok (s2.formeWrite r.tid (o.w 4 + 8 * p + 4) (natLe 4 (cur / 2 ^ 63 * 2 ^ 31 + Nat.min (drop + 1) (2 ^ 31 - 1)))) o

/-- One element, the rest of one that the end of a segment or a wait has cut, or one unit of a byte-wise operation: the operation with its progress. -/
def State.spElement (s : State) (r : SpRun) (o : SpOp) (wide : Bool) : Eff SpOp :=
  let done (n : Nat) (x : SpOp) : SpOp := if x.part.isSome then x else { x with next := x.next + n }
  let unit (dst : W64) : Nat := if wide then Nat.min (Nat.min (o.len - o.next) (unitRoom o.dstG dst)) (s.segRoom r o) else 1
  let row (st : State) (src dst : W64) (n : Nat) : Eff SpOp :=
    (st.copyRange r { o with part := none } o.srcG src dst n n).bind fun s1 x => Eff.ok s1 (done 1 x)
  match o.part with
  | some (src, dst, n) => row s src dst n
  | none => match o.kind with
    | .cpy =>
      let dst := sideAdd o.dstG o.b o.next
      (s.copyUnit r o o.srcG (sideAdd o.srcG o.a o.next) dst (unit dst)).bind fun s1 x => Eff.ok s1 (done (unit dst) x)
    | .cfill =>
      let dst := sideAdd o.dstG o.b o.next
      let bs := (List.range (unit dst)).map fun n => BitVec.ofNat 8 (o.a.toNat / 2 ^ (8 * ((o.next + n) % 8)))
      (s.sidePut r o o.dstG dst bs false).bind fun s1 x => Eff.ok s1 (done (unit dst) x)
    | .cpyt => row s (sideAdd o.srcG o.a (o.next * o.w 3)) (sideAdd o.dstG o.b (o.next * o.w 4)) o.len
    | .cgath => (s.formeWord r (o.w 3 + 4 * o.next) 4).bind fun s1 idx =>
        let src := sideAdd o.srcG o.a (idx * o.w 4)
        (s1.sideRoom r o.srcG src o.len).bind fun s2 _ => row s2 src (sideAdd o.dstG o.b (o.next * o.len)) o.len
    | .cscat => (s.formeWord r (o.w 3 + 4 * o.next) 4).bind fun s1 idx =>
        let dst := sideAdd o.dstG o.b (idx * o.w 4)
        (s1.sideRoom r o.dstG dst o.len).bind fun s2 _ => row s2 (sideAdd o.srcG o.a (o.next * o.len)) dst o.len
    | .cpart => (s.partRecord r o o.next).bind fun s1 x => Eff.ok s1 (done 1 x)

/-- An element that faults leaves nothing of itself; a byte-wise unit is then tried byte by byte. -/
def State.spTry (s : State) (r : SpRun) (o : SpOp) : Eff SpOp :=
  match s.spElement r o true with
  | (_, .error (.trap _)) => match s.spElement r o false with
    | (_, .error (.trap t)) => (s, .error (.trap t))
    | x => x
  | x => x

/-- Runs elements until the operation is done, faults, waits, or has filled a segment (R387). -/
def State.spRun (s : State) (r : SpRun) (o : SpOp) : Nat → State × SpOp
  | 0 => (s, o)
  | fuel + 1 =>
    if o.next ≥ o.total || s.segRoom r o = 0 then (s, o)
    else match s.spTry r o with
      | (s1, .ok x) => if x == o then (s1, o) else State.spRun s1 r x fuel
      | (s1, .error _) => (s1, o)

/-- The run of the operation at the head of a queue, when it may run: not parked, no segment of it at the proof unit, its team not under
repair (R383). -/
def State.spHead (s : State) (tid q : Nat) : Option (SpRun × SpOp) :=
  let t := s.team tid
  match (t.queue q).head with
  | none => none
  | some o =>
    let waits := s.segs.any fun g => g.fam == t.fam && g.num == t.num && g.queue == q && g.op == o.num && g.rid == t.rid && g.posted
    if t.st != .resident || o.parked.isSome || waits || s.repairs.any (fun x => x.src == tid || x.dst == tid) then none
    else some ({ p := .grp tid o.grp, lane := o.lane, tid := tid, qn := q }, o)

/-- The operation's staged segment goes to the proof unit, and the clock of its key starts with the first to arrive (R380, R387). -/
def State.postSeg (s : State) (r : SpRun) (o : SpOp) : State :=
  match s.openSeg r o with
  | none => s
  | some g => State.startClock { s with segs := s.segs.map fun x => if x == g then { x with posted := true } else x } g.fam
      (s.thr r.p r.lane).tix (.seg g.queue g.op g.seg)

/-- SPOOL_OP_START (R239, R242, R387): the operation runs on; a staged segment that is full, or the last, goes to the proof unit. -/
def execSpoolOpStart (tid q : Nat) (s : State) : Host.Outcome State Fault Refusal :=
  match s.spHead tid q with
  | none => .next s
  | some (r, o) =>
    let (s1, o1) := s.spRun r { o with started := true } (o.total - o.next + 1)
    let s2 := s1.modTeam tid fun t => t.modQueue q fun x => x.setHead o1
    finish (if o1.next ≥ o1.total || s2.segRoom r o1 = 0 then s2.postSeg r o1 else s2)

/-- Posts the record of a spool operation that stops (R241); what a proofed family has staged of the elements before it goes to the proof
unit. -/
def State.spPark (s : State) (r : SpRun) (o : SpOp) (t : Trap) : State :=
  let th := s.thr r.p r.lane
  let tm := s.team r.tid
  if t.cause = 0x11 then s.endFamilyBy th.fam 0x11
  else
    let detail := BitVec.ofNat 64 (r.qn * 2 ^ 32 + o.next % 2 ^ 32)
    ((s.modTeam r.tid fun x => x.modQueue r.qn fun y => y.setHead { o with parked := some t.cause }).postFault th.fam
      (faultRecord th.fam tm.rid t.cause th.tix tm.core r.lane o.pc t.recVa s.pt detail) none).postSeg r o

/-- SPOOL_OP_FAULT (R241): the next element faults; the operation parks, or the family ends. -/
def execSpoolOpFault (tid q : Nat) (s : State) : Host.Outcome State Fault Refusal :=
  match s.spHead tid q with
  | none => .next s
  | some (r, o) =>
    if o.next ≥ o.total || s.segRoom r o = 0 then .next s
    else match s.spTry r o with
      | (s1, .error (.trap t)) => finish (s1.spPark r o t)
      | _ => .next s

/-- What a completed operation leaves: the arrival, DONE, the fences behind it. -/
def State.spFinish (s : State) (tid q : Nat) (o : SpOp) : State :=
  let s1 := match o.bar with | some b => s.arriveForme tid b | none => s
  let s2 : State := { s1 with host := { s1.host with acks := s1.host.acks.filter (·.who != Acker.spool tid q) } }
  (s2.modTeam tid fun t => Team.passFences (t.modQueue q fun x => { x with items := x.items.drop 1, done := (x.done + 1) % 2 ^ 32 })).endCheck tid
/-- A skipped operation completes with the remaining elements unperformed (R241). -/
def SpOp.skip (o : SpOp) : SpOp := { o with next := o.total, part := none, parked := none }

/-- The release of completion (R305): what the operation wrote is performed at the object's SCOPE. -/
def State.spReleased (s : State) (tid q : Nat) (o : SpOp) : Bool :=
  match o.bar with
  | none => true
  | some b =>
    let scope := objScope (leNat ((s.team tid).fbytes b 8))
    (scope < 4 || s.pt ≥ o.rh + 4) && (scope < 5 || (s.owed (.spool tid q) == 0 && s.pt ≥ o.wuntil && s.link.state != .hold))

/-- A `.sys` completion waits on windows toward a removed package: a machine check (R401). -/
def State.spLost (s : State) (tid : Nat) (o : SpOp) : Bool :=
  s.pt < o.wuntil && s.pt < (s.grp (.grp tid o.grp)).wlost &&
    o.bar.any fun b => objScope (leNat ((s.team tid).fbytes b 8)) = 5
/-- SPOOL_OP_COMPLETE (R220, R242). -/
def execSpoolOpComplete (tid q : Nat) (s : State) : Host.Outcome State Fault Refusal :=
  match s.spHead tid q with
  | none => .next s
  | some (r, o) =>
    if o.next ≥ o.total && (s.openSeg r o).isNone && s.spLost tid o then .next (s.dueCheck tid (some (13, 24)))
    else if o.next ≥ o.total && (s.openSeg r o).isNone && s.spReleased tid q o then finish (s.spFinish tid q o) else .next s

end Sys2Proof.Machine
end

