-- ==== Sys2Proof/Machine/Network.lean ====
section
/-!
DEFINITION. The network engines (R249-R251, R403-R407): posting, control blocks, packets out and in, message matching, acknowledgement,
retransmission, refusal, and the counter additions that complete requests.
-/

namespace Sys2Proof.Machine

/-! ### Work requests (R249) -/

def NetReq.dw (r : NetReq) (k : Nat) : Nat := (r.wr.getD k 0#64).toNat
def NetReq.len (r : NetReq) : Nat := r.dw 0 / 2 ^ 32
def NetReq.opc (r : NetReq) : Nat := r.dw 0 % 16
def NetReq.rod (r : NetReq) : Bool := (r.dw 0).testBit 8
def NetReq.tc (r : NetReq) : Nat := r.dw 0 / 512 % 8
def NetReq.peer (r : NetReq) : Nat := r.dw 1 % 2 ^ 32
def NetReq.ri (r : NetReq) : Nat := r.dw 1 / 2 ^ 32
def NetReq.cinc (r : NetReq) : Nat := r.dw 7 / 2 ^ 32
def NetReq.op (r : NetReq) : NetOp := if r.opc = 1 then .send else if r.opc = 2 then .write else .read
/-- Packets of a message: ceil(LEN ÷ 2,048), at least one (R406). -/
def packetsOf (len : Nat) : Nat := Nat.max 1 ((len + 2047) / 2048)
/-- Packets that the request itself sends: a READ asks with one. -/
def NetReq.count (r : NetReq) : Nat := if r.op == .read && !r.answer then 1 else packetsOf r.len

/-- Reserved bits, OPC and PATHS (R249, R250). -/
def wrMalformed (wr : List W64) : Bool :=
  let dw (k : Nat) : Nat := (wr.getD k 0#64).toNat
  dw 0 / 2 ^ 12 % 2 ^ 20 != 0 || dw 0 / 16 % 16 != 0 || dw 0 % 16 = 0 || dw 0 % 16 > 3 || dw 4 / 2 ^ 32 != 0 ||
  dw 7 / 16 % 2 ^ 28 != 0 || dw 7 % 16 > 8

/-- The engine of a party (R249). -/
def State.engineOf (s : State) (p : Party) : Nat :=
  match p with
  | .lc n => n / 24
  | .grp _ _ =>
    let d := s.dieOf p
    let x := d % 6
    let y := d / 6
    if x ≤ 2 then y / 2 else 2 + y / 2

/-- Requests of a family that the engine has accepted and not completed (R251). -/
def NetEngine.outs (n : NetEngine) (fam : W32) : Nat := (n.reqs.filter fun r => r.fam == fam && !r.answer).length
/-- PEER names an entry of the peer table whose valid bit is set (R404). -/
def State.peerOk (s : State) (n : NetEngine) (peer : Nat) : Bool :=
  peer < n.npeer && (s.byte (n.peers + 64 * peer + 24)).getLsbD 0

/-! ### Accesses of the engine (R250; log entry 16) -/

/-- A translation for the engine through a process's space, with the checks of R183 that do not depend on a thread. -/
def State.netXl (s : State) (e : Nat) (sp : Space) (va : W64) (k : AccKind) : Eff Xl :=
  if !canonical va || (upper va && !sp.sup) then Eff.trap s { cause := 0x13 }
  else match s.translate [.hdie (24 + e)] sp va k with
    | (s1, .ok x) => Eff.ok s1 x
    | (s1, .error c) => if c = walkBusy then Eff.stall s1 else Eff.trap s1 { cause := c }
/-- Bytes from a process's memory, line by line: a trap when a page is not mapped for the access, or data is poisoned.
(DEDUCED, unsafe: log entry 16.) -/
def State.netLoad (s : State) (e : Nat) (sp : Space) (va : W64) (n : Nat) : Nat → Eff (List Byte)
  | 0 => Eff.ok s []
  | fuel + 1 =>
    if n = 0 then Eff.ok s []
    else
      let k := Nat.min n (128 - va.toNat % 128)
      (s.netXl e sp va .load).bind fun s1 x => (s1.engRead x.pa k (24 + e) none).bind fun s2 ((bs, poi), _) =>
        if poi then Eff.trap s2 { cause := 0x18 }
        else (s2.netLoad e sp (va + BitVec.ofNat 64 k) (n - k) fuel).bind fun s3 more => Eff.ok s3 (bs ++ more)
/-- What a write of the engine has come to: the write completion time and the window's end of the bytes placed, the bytes that are left, and
what has stopped it before them. -/
structure Put where
  rh : Nat := 0
  wuntil : Nat := 0
  left : Nat := 0
  stop : Option Stop := none
  deriving DecidableEq, Repr
/-- Bytes to a process's memory, granule by granule, up to one that must wait or whose page is not mapped for the access.
(DEDUCED, unsafe: log entry 16.) -/
def State.netStore (s : State) (e : Nat) (sp : Space) (va : W64) (data : List Byte) : Nat → State × Put
  | 0 => (s, {})
  | fuel + 1 =>
    if data.isEmpty then (s, {})
    else
      let k := Nat.min data.length (unitRoom true va)
      match (s.netXl e sp va .store).bind fun s1 x => s1.engPutPa none (.net e) x.pa (data.take k) false with
      | (s1, .error x) => (s1, { left := data.length, stop := some x })
      | (s1, .ok (rh, wu)) =>
        let r := s1.netStore e sp (va + BitVec.ofNat 64 k) (data.drop k) fuel
        (r.1, { r.2 with rh := Nat.max rh r.2.rh, wuntil := Nat.max wu r.2.wuntil })

def NetReq.space (r : NetReq) : Space := spaceOfPtbr r.ptbr r.sup

/-! ### Completion and failure (R250) -/

/-- Counts a failed request of a family in FAIL, saturating. -/
def NetEngine.fail (n : NetEngine) (fam : W32) : NetEngine :=
  { n with fails := setAssoc fam (Nat.min (2 ^ 32 - 1) ((assoc fam n.fails).getD 0 + 1)) n.fails }
/-- The request leaves the engine: its addition is queued, or its slot is free at once when CINC is 0. -/
def State.netEnd (s : State) (e : Nat) (r : NetReq) (failed : Bool) : State :=
  s.modNet e fun n =>
    let n1 := if failed && !r.answer then n.fail r.fam else n
    if r.answer || r.cinc = 0 then { n1 with reqs := n1.reqs.filter (·.id != r.id) }
    else
      let add : NetAdd := { ptbr := r.ptbr, sup := r.sup, caddr := r.wr.getD 6 0#64, inc := r.cinc + (if failed then 2 ^ 48 else 0),
                            rh := r.rh, wuntil := r.wuntil, req := some (r.id, r.fam, failed) }
      { n1 with reqs := n1.reqs.map fun x => if x.id == r.id then { x with done := true } else x, adds := n1.adds ++ [add] }

/-- The addition itself (R250): at the tether engine of the counter's line, its WRITER's for a page of another package (R399); poisoned data
is not updated. Nothing when the home must wait. -/
def State.netRmw (s : State) (e pa0 inc : Nat) : Eff Unit :=
  let pa := s.redirect pa0
  if !s.mayStore pa 8 none then Eff.stall (s.press pa 8 none)
  else
    let s1 := (((s.touch pa 8).enterHome (lineOf pa) .dflt).recall (lineOf pa) none).holdLine (lineOf pa)
    if s1.poisoned pa 8 then Eff.ok (s1.sample pa (24 + e) none) ()
    else Eff.ok (s1.engNow none (.net e) true pa (natLe 8 ((s1.rdN pa 8 + inc) % 2 ^ 64)) false).1 ()
/-- The engine's next addition, once everything it releases is performed at `.sys` (R295, R303, R307). (DEDUCED, unsafe: log entry 31.) -/
def State.netAdd (s : State) (e : Nat) : State :=
  match (s.net e).adds with
  | [] => s
  | a :: rest =>
    if s.pt < a.rh + 4 || s.pt < a.wuntil || s.link.state == .hold || s.owed (.net e) != 0 then s
    else
      let pop (st : State) (failed : Bool) : State := st.modNet e fun n =>
        let n1 := { n with adds := rest, reqs := n.reqs.filter fun r => !(a.req.any fun q => q.1 == r.id) }
        match a.req with
        | some (_, fam, already) => if failed && !already then n1.fail fam else n1
        | none => n1
      match s.netXl e (spaceOfPtbr a.ptbr a.sup) a.caddr .rmw with
      | (s1, .error e') => if e' = .stall then s1 else pop s1 true
      | (s1, .ok x) =>
        if x.mt = 1 || x.mt = 3 then pop s1 true
        else match s1.netRmw e x.pa a.inc with
          | (s2, .ok _) => pop s2 false
          | (s2, .error _) => s2
/-! ### NPOST and NSTAT -/

/-- The engine accepts a request: the status, and the request queued with its packets' sequence numbers. -/
def State.netAccept (s : State) (e : Nat) (p : Party) (fam : W32) (sp : W64 × Bool) (wr : List W64) : State × Nat :=
  let n := s.net e
  let r0 : NetReq := { id := n.nextId, fam := fam, ptbr := sp.1, sup := sp.2, wr := wr, base := 0, path := 0, who := some p }
  if wrMalformed wr then (s, 0xFFFFFFFE)
  else if !s.peerOk n r0.peer then (s, 0xFFFFFFFD)
  else if n.outs fam ≥ n.slots then (s, 0xFFFFFFFF)
  else
    let base := (assoc r0.peer n.seqs).getD 0
    let paths := if r0.rod then 1 else if r0.dw 7 % 16 = 0 then n.paths else r0.dw 7 % 16
    (s.modNet e fun n => { n with reqs := n.reqs ++ [{ r0 with base := base, path := paths }], nextId := n.nextId + 1,
                                  seqs := setAssoc r0.peer (base + r0.count) n.seqs }, 0)

/-- The checks of R250 on the buffer and the counter. (DEDUCED, unsafe: log entry 31.) -/
def State.npostCheck (s : State) (p : Party) (l : Nat) (wr : List W64) : Option Trap :=
  let sp := s.spaceOf p l
  let lease := match s.famOf p l with | some f => if f.leased then some f.lease else none | none => none
  let dw (k : Nat) : Nat := (wr.getD k 0#64).toNat
  let la := wr.getD 2 0#64
  let ca := wr.getD 6 0#64
  let len := dw 0 / 2 ^ 32
  let last := la + BitVec.ofNat 64 (len - 1)
  let bad (a : W64) : Bool := !canonical a || (upper a && !sp.sup)
  let buf : Trap := { cause := 0x13, va := la, detail := if dw 0 % 16 = 3 then 1#64 else 0#64 }
  if len != 0 && (bad la || bad last || upper la != upper last || last.toNat < la.toNat) then some buf
  else if bad ca then some { cause := 0x13, va := ca, detail := 2#64 }
  else if ca.toNat % 8 != 0 then some { cause := 0x12, va := ca }
  else if len != 0 && lease.any (fun r => !inLease r la.toNat len) then some { cause := 0x11, va := la }
  else if lease.any (fun r => !inLease r ca.toNat 8) then some { cause := 0x11, va := ca }
  else none

/-- `NPOST` (R249, R250): a release at `.sys` of the thread's earlier stores, and one request of all its replicas. (DEDUCED, unsafe: log entry 31.) -/
def execNpost (w : BaseW) (s : State) : Host.Outcome State Fault Refusal :=
  issueL (.npost w) s w.d 1 (fun _ _ => .g) fun c st l =>
    let g := s.grp c.p
    let a := w.a.toNat
    let wr := (List.range 8).map fun k => g.rd64 l (a + 2 * k)
    if g.poi l a 16 then Eff.trap st { cause := 0x18 }
    else match st.npostCheck c.p l wr with
      | some t => Eff.trap st t
      | none =>
        (st.proofPoint c.p l).bind fun s1 _ =>
        (s1.once c.p l (0xEC :: wr.map (·.toNat)) none fun s2 =>
          (s2.releaseFor c.p l 5).bind fun s3 _ =>
            let fam := match c.p with | .lc _ => 0#32 | .grp _ _ => (s3.thr c.p l).fam
            let root := match c.p with | .lc n => (s3.lc n).ptbr | .grp _ _ => ((s3.famOf c.p l).map (·.ptbr)).getD 0#64
            let (s4, v) := s3.netAccept (s3.engineOf c.p) c.p fam (root, s3.sup c.p) wr
            Eff.ok s4 (v, false)).bind fun s2 r => Eff.ok s2 (wordsOf 1 r.1, false)

/-- The value of `NSTAT` (R251). -/
def State.netStat (s : State) (e : Nat) (fam : W32) : Nat :=
  let n := s.net e
  let out := n.outs fam
  let link := (if n.ports.getD 0 false then 1 else 0) + (if n.ports.getD 1 false then 2 else 0)
  link * 2 ^ 104 + (24 + e) * 2 ^ 96 + (assoc fam n.fails).getD 0 * 2 ^ 64 + (n.slots - out) * 2 ^ 32 + out
/-- `NSTAT` (R251). (DEDUCED, unsafe: log entry 18.) -/
def execNstat (w : BaseW) (s : State) : Host.Outcome State Fault Refusal :=
  issue (.nstat w) s fun st c =>
    let (s1, rs) := eachLane st (Mask.lanes c.act) fun s0 l =>
      let fam := match c.p with | .lc _ => 0#32 | .grp _ _ => (s0.thr c.p l).fam
      (s0.pin c.p l (onceKey (.nstat w)) fun s1 => Eff.ok s1 (s1.netStat (s1.engineOf c.p) fam)).bind fun s2 r => Eff.ok s2 (wordsOf 4 r, false)
    let vs := okLanes rs
    let same := vs.all fun v => v.2.1 == ((vs.headD (0, [], false)).2.1)
    (s1.modGrp c.p fun g => g.putLanes w.d 4 vs (if same then .u else .g), endsOf rs)

/-! ### The control block (R404) -/

/-- NETWORK_CONTROL_WRITE: the block is read; PATHS and RETRY outside 1-8 and 1-15, NPEER and NRES above 65,536 keep their old
values. (DEDUCED, unsafe: log entry 31.) -/
def execNetworkControlWrite (e : Nat) (s : State) : Host.Outcome State Fault Refusal :=
  let b := s.own (Config.netctl e)
  let w (k n : Nat) : Nat := s.rdN (b + k) n
  let c := w 0 4
  if w 40 24 != 0 then .next s
  else .next (s.modNet e fun n => { n with
    retry := if c % 16 = 0 then n.retry else c % 16
    paths := if 1 ≤ c / 256 % 16 && c / 256 % 16 ≤ 8 then c / 256 % 16 else n.paths
    slots := w 8 4, rto := w 12 4
    nres := if w 16 4 ≤ 65536 then w 16 4 else n.nres, res := w 20 8 / 64 * 64
    npeer := if w 28 4 ≤ 65536 then w 28 4 else n.npeer, peers := w 32 8 / 64 * 64 })

/-- The request has completed (R250): every packet of a SEND or WRITE is acknowledged; every byte of a READ is placed. -/
def NetReq.complete (r : NetReq) : Bool :=
  if r.op == .read && !r.answer then r.placed.length ≥ packetsOf r.len
  else r.sent.length ≥ r.count && r.sent.all (·.2.2.2)
/-- An earlier request of the same peer and traffic class with in-order delivery has not ended: messages complete in posting order (R406). -/
def NetEngine.heldBack (n : NetEngine) (r : NetReq) : Bool :=
  r.rod && !r.answer && n.reqs.any fun x => x.id < r.id && x.peer == r.peer && x.tc == r.tc && x.rod && !x.answer && !x.done
/-- Completed requests leave the engine. (DEDUCED, unsafe: log entry 31.) -/
def State.netSettle (s : State) (e : Nat) : State :=
  (s.net e).reqs.foldl (fun st r => if !r.done && r.complete && !(st.net e).heldBack r then st.netEnd e r false else st) s

/-! ### Packets out (R406) -/

/-- The bytes of packet `k` of a message that starts at a buffer. -/
def pieceLen (len k : Nat) : Nat := Nat.min 2048 (len - 2048 * k)

/-- The packet of in-order delivery of the same peer and traffic class that comes before packet `k` (R406); that of a request that has failed
is not waited for. (DEDUCED, unsafe: log entry 31.) -/
def NetEngine.before (n : NetEngine) (r : NetReq) (k : Nat) : Option Nat :=
  if !r.rod then none
  else if 0 < k then some (r.base + k - 1)
  else (n.reqs.filter fun x => x.peer == r.peer && x.tc == r.tc && x.rod && !x.done && x.base < r.base).foldl
    (fun m x => some (Nat.max (m.getD 0) (x.base + x.count - 1))) none
/-- Transmits packet `k`: a READ asks without bytes; the local buffer is read for the others. A page that is not mapped, or poison,
fails the request. (DEDUCED, unsafe: log entry 31.) -/
def State.netSend (s : State) (e : Nat) (r : NetReq) (k : Nat) : State :=
  let asks := r.op == .read && !r.answer
  let n := if asks then 0 else pieceLen r.len k
  match s.netLoad e r.space (r.wr.getD 2 0#64 + BitVec.ofNat 64 (2048 * k)) n (n + 1) with
  | (s1, .error .stall) => s1
  | (s1, .error _) =>
    let s2 := (s1.netEnd e r true).netSettle e
    if r.answer then { s2 with outbox := s2.outbox ++ [.refusal e r.peer (r.dw 5) true] } else s2
  | (s1, .ok bs) =>
    let pk : Packet := { peer := r.peer, msg := if r.answer then r.dw 5 else r.id, seq := r.base + k, op := r.op, tag := r.wr.getD 5 0#64,
                         ri := r.ri, key := BitVec.ofNat 32 (r.dw 4), raddr := r.dw 3, len := r.len, idx := k, data := bs,
                         reply := r.answer, mode := if r.rod then .rod else .rud, tc := r.tc, prev := (s1.net e).before r k }
    let old := (r.sent.find? (·.1 == k)).map (·.2.1) |>.getD 0
    let s2 := s1.modNet e fun n => { n with reqs := n.reqs.map fun x => if x.id == r.id then
      { x with sent := x.sent.filter (·.1 != k) ++ [(k, old + 1, s1.pt, false)] } else x }
    { s2 with outbox := s2.outbox ++ [.packet e ((r.base + k) % Nat.max 1 r.path) pk] }

/-- PACKET_TRANSMIT (R406): the next packet of a request that has one to send. -/
def execPacketTransmit (e r : Nat) (s : State) : Host.Outcome State Fault Refusal :=
  match (s.net e).reqs[r]? with
  | none => .next s
  | some x =>
    if x.done || x.sent.length ≥ x.count || s.pt < x.retryAt then .next s
    else match (List.range x.count).find? fun k => !(x.sent.any (·.1 == k)) with
      | none => .next s
      | some k => finish (s.netSend e x k)

/-! ### Acknowledgement and retransmission (R407) -/

/-- The three packets later in the peer's sequence are acknowledged. In the run of R441 packet 1 is not sent again when packets 2, 6 and 3 are
acknowledged, and packet 4 is when 5, 6 and 7 are. (DEDUCED, unsafe: log entry 31.) -/
def NetEngine.later (n : NetEngine) (peer seq : Nat) : Bool := (List.range 3).all fun k => n.ackd.contains (peer, seq + 1 + k)

/-- ACK_RECEIVE (R407): packets are marked, requests complete, and a packet that the bitmap shows missing is sent again once three later
ones are acknowledged, within its transmissions. (DEDUCED, unsafe: log entry 31.) -/
def execAckReceive (e peer : Nat) (seqs : AckMap) (s : State) : Host.Outcome State Fault Refusal :=
  let old := s.net e
  let new : NetEngine := { old with
    ackd := (((List.range 64).map (seqs.base + ·)).filter seqs.has).foldl (fun l q => addSet (peer, q) l) old.ackd
    reqs := old.reqs.map fun r => if r.peer != peer then r else
      { r with sent := r.sent.map fun p => if seqs.has (r.base + p.1) then (p.1, p.2.1, p.2.2.1, true) else p } }
  let s1 := (s.modNet e fun _ => new).netSettle e
  let missing := new.reqs.flatMap fun r => if r.peer != peer then [] else
    (r.sent.filter fun p => !p.2.2.2 && p.2.1 ≤ new.retry && !old.later peer (r.base + p.1) && new.later peer (r.base + p.1)).map
      fun p => (r.id, p.1)
  finish (missing.foldl (fun st (id, k) => match (st.net e).reqs.find? fun r => r.id == id && !r.done with
    | some r => st.netSend e r k
    | none => st) s1)

/-- RETRANSMIT_TIMEOUT (R407): a packet whose RTO has passed is sent again, or its request fails. -/
def execRetransmitTimeout (e r k : Nat) (s : State) : Host.Outcome State Fault Refusal :=
  let n := s.net e
  match n.reqs[r]? with
  | none => .next s
  | some x => match x.sent.find? (·.1 == k) with
    | none => .next s
    | some p =>
      if x.done || p.2.2.2 || s.pt < p.2.2.1 + n.rto then .next s
      else if p.2.1 > n.retry then finish ((s.netEnd e x true).netSettle e)
      else finish (s.netSend e x k)

/-- REFUSAL_RECEIVE (R405): a final refusal fails the request; another one has it sent again after RTO, unless RETRY + 1 were refused.
(DEDUCED, unsafe: log entry 31.) -/
def execRefusalReceive (e r : Nat) (final : Bool) (s : State) : Host.Outcome State Fault Refusal :=
  let n := s.net e
  match n.reqs[r]? with
  | none => .next s
  | some x =>
    if x.done || x.answer || (!final && x.sent.isEmpty) then .next s
    else if final || x.refusals ≥ n.retry then finish ((s.netEnd e x true).netSettle e)
    else .next (s.modNet e fun n => { n with reqs := n.reqs.map fun y => if y.id == x.id then
      { y with refusals := y.refusals + 1, sent := [], retryAt := s.pt + n.rto } else y })

/-! ### Packets in (R405, R406) -/

/-- A resource entry (R404). -/
structure Resource where
  kind : Nat
  key : W32
  space : W64
  base : Nat
  lim : Nat
  caddr : W64
  cinc : Nat
  deriving DecidableEq, Repr
def State.resource (s : State) (n : NetEngine) (ri : Nat) : Resource :=
  let a := n.res + 64 * ri
  { kind := s.rdN a 1, key := BitVec.ofNat 32 (s.rdN (a + 4) 4), space := BitVec.ofNat 64 (s.rdN (a + 8) 8), base := s.rdN (a + 16) 8,
    lim := s.rdN (a + 24) 8, caddr := BitVec.ofNat 64 (s.rdN (a + 32) 8), cinc := s.rdN (a + 40) 4 }
def Resource.sp (r : Resource) : Space := spaceOfPtbr r.space false

/-- How a message begins at the receiver; `wait` when a home holds the engine's reads back. -/
inductive Matched where
  | msg (m : NetMsg)
  | refuse (final : Bool)
  | wait
  deriving DecidableEq, Repr
/-- A page that is not mapped refuses a message. -/
def Stop.matched : Stop → Matched
  | .stall => .wait
  | .trap _ => .refuse true

/-- A number of the program's memory. -/
def State.netNum (s : State) (e : Nat) (sp : Space) (a n : Nat) : Eff Nat :=
  (s.netLoad e sp (BitVec.ofNat 64 a) n 2).bind fun s1 bs => Eff.ok s1 (leNat bs)
/-- The address of a descriptor (R404). -/
def descAt (base lim i : Nat) : Nat := base + 64 + 32 * (i % Nat.max 1 lim)

/-- The first posted descriptor that a SEND matches (R405), scanning `fuel` of them from index `i`; a descriptor that another message is
filling is consumed. -/
def State.netScan (s : State) (e : Nat) (r : Resource) (pk : Packet) (tail i : Nat) : Nat → State × Matched
  | 0 => (s, .refuse false)
  | fuel + 1 =>
    if i ≥ tail then (s, .refuse false)
    else
      match s.netLoad e r.sp (BitVec.ofNat 64 (descAt r.base r.lim i)) 32 3 with
      | (s1, .error x) => (s1, x.matched)
      | (s1, .ok d) =>
        let f (k n : Nat) : Nat := leNat ((d.drop k).take n)
        let busy := (s1.net e).rx.any fun m => m.ring == some (r.base, r.lim, i) && !m.refused
        if f 28 4 = 0 && !busy && (pk.tag ^^^ BitVec.ofNat 64 (f 0 8)) &&& ~~~(BitVec.ofNat 64 (f 8 8)) == 0#64 then
          (if f 24 4 < pk.len then (s1, .refuse true)
           else (s1, .msg { peer := pk.peer, msg := pk.msg, space := r.space, buf := f 16 8, len := pk.len, caddr := r.caddr, cinc := r.cinc,
                            ring := some (r.base, r.lim, i) }))
        else s1.netScan e r pk tail (i + 1) fuel

/-- The checks of R405 at a message's first packet. -/
def State.netMatch (s : State) (e : Nat) (pk : Packet) : State × Matched :=
  let n := s.net e
  let r := s.resource n pk.ri
  if pk.ri ≥ n.nres || (r.kind != 1 && r.kind != 2) then (s, .refuse true)
  else if (pk.op == .send) != (r.kind == 2) then (s, .refuse true)
  else if pk.op == .send then
    match (s.netNum e r.sp r.base 8).bind fun s1 head => (s1.netNum e r.sp (r.base + 8) 8).bind fun s2 tail => Eff.ok s2 (head, tail) with
    | (s1, .error x) => (s1, x.matched)
    | (s1, .ok (head, tail)) => s1.netScan e r pk tail head r.lim
  else if r.key != pk.key || pk.raddr + pk.len > r.lim then (s, .refuse true)
  else (s, .msg { peer := pk.peer, msg := pk.msg, space := r.space, buf := r.base + pk.raddr, len := pk.len })

/-- HEAD moves past every consumed descriptor (R404). -/
def State.netHead (s : State) (e : Nat) (sp : Space) (base lim tail h : Nat) : Nat → Nat
  | 0 => h
  | fuel + 1 =>
    if h ≥ tail then h
    else match (s.netNum e sp (descAt base lim h + 28) 4).2 with
      | .ok 1 => s.netHead e sp base lim tail (h + 1) fuel
      | _ => h

/-- A message of which every packet is placed completes (R404-R406): BLEN, STATE and HEAD of a SEND, and the counter addition. A page that
is not mapped for the ring refuses the message; one whose ring's home holds the engine back is completed later. -/
def State.netDeliver (s : State) (e : Nat) (m : NetMsg) : State :=
  let sp := spaceOfPtbr m.space false
  let s0 := s.modNet e fun n => { n with rx := n.rx.filter fun x => !(x.peer == m.peer && x.msg == m.msg) }
  match m.ring with
  | none => s0
  | some (base, lim, i) =>
    let after (x : NetMsg) (p : Put) : NetMsg := { x with rh := Nat.max x.rh p.rh, wuntil := Nat.max x.wuntil p.wuntil }
    let stopped (st : State) (x : NetMsg) (y : Stop) : State :=
      if y = .stall then st.modNet e fun n => { n with rx := n.rx ++ [x] } else { st with outbox := st.outbox ++ [.refusal e x.peer x.msg true] }
    let (s1, w1) := s0.netStore e sp (BitVec.ofNat 64 (descAt base lim i + 24)) (natLe 4 m.len ++ natLe 4 1) 9
    let m1 := after m w1
    match w1.stop with
    | some y => stopped s1 m1 y
    | none => match (s1.netNum e sp base 8).bind fun s2 head => (s2.netNum e sp (base + 8) 8).bind fun s3 tail => Eff.ok s3 (head, tail) with
      | (s2, .error y) => stopped s2 m1 y
      | (s2, .ok (head, tail)) =>
        let (s3, w2) := s2.netStore e sp (BitVec.ofNat 64 base) (natLe 8 (s2.netHead e sp base lim tail head lim)) 9
        let m2 := after m1 w2
        match w2.stop with
        | some y => stopped s3 m2 y
        | none =>
          let add : NetAdd := { ptbr := m.space, sup := false, caddr := m.caddr, inc := m.cinc, rh := m2.rh, wuntil := m2.wuntil, req := none }
          s3.modNet e fun n => { n with adds := n.adds ++ [add] }

/-- Every packet of the message is placed. -/
def NetMsg.whole (m : NetMsg) : Bool := !m.refused && m.placed.length ≥ packetsOf m.len

/-- Places the bytes of a packet of a message; a fault refuses the message, and placed bytes stay (R405). The second part is false when a
home holds the engine back: the packet is then still to be taken. -/
def State.netPlace (s : State) (e : Nat) (m : NetMsg) (pk : Packet) : State × Bool :=
  let upd (st : State) (x : NetMsg) : State := st.modNet e fun n =>
    { n with rx := x :: n.rx.filter fun y => !(y.peer == m.peer && y.msg == m.msg) }
  let n := pieceLen m.len pk.idx
  let data := pk.data.take n ++ List.replicate (n - pk.data.length) 0#8
  if m.refused || m.placed.contains pk.idx then (s, true)
  else
    let k := (assoc pk.idx m.parts).getD 0
    let (s1, w) := s.netStore e (spaceOfPtbr m.space false) (BitVec.ofNat 64 (m.buf + 2048 * pk.idx + k)) (data.drop k) (n + 1)
    let m1 := { m with rh := Nat.max m.rh w.rh, wuntil := Nat.max m.wuntil w.wuntil, parts := setAssoc pk.idx (n - w.left) m.parts }
    match w.stop with
    | some .stall => (upd s1 m1, false)
    | some _ => let s2 := upd s1 { m1 with refused := true }
                ({ s2 with outbox := s2.outbox ++ [.refusal e m.peer m.msg true] }, true)
    | none =>
      let m2 := { m1 with placed := pk.idx :: m.placed, parts := m1.parts.filter (·.1 != pk.idx) }
      (if m2.whole then s1.netDeliver e m2 else upd s1 m2, true)

/-- The answer to a READ: a request of the engine's own, that sends the region's bytes. -/
def State.netAnswer (s : State) (e : Nat) (m : NetMsg) (pk : Packet) : State :=
  let n := s.net e
  let base := (assoc pk.peer n.seqs).getD 0
  let rod := pk.mode == .rod
  let wr := [BitVec.ofNat 64 (pk.len * 2 ^ 32 + pk.tc % 8 * 512 + (if rod then 256 else 0) + 3), BitVec.ofNat 64 pk.peer, BitVec.ofNat 64 m.buf, 0#64, 0#64,
             BitVec.ofNat 64 pk.msg, 0#64, 0#64]
  let r : NetReq := { id := n.nextId, fam := 0#32, ptbr := m.space, sup := false, wr := wr, base := base, path := if rod then 1 else n.paths,
                      answer := true }
  s.modNet e fun n => { n with reqs := n.reqs ++ [r], nextId := n.nextId + 1, seqs := setAssoc pk.peer (base + packetsOf pk.len) n.seqs }

/-- A packet of a READ's answer: its bytes are placed in the local buffer once; a fault fails the request. -/
def State.netReply (s : State) (e : Nat) (pk : Packet) : State × Bool :=
  match (s.net e).reqs.find? fun r => r.id == pk.msg && r.peer == pk.peer && r.op == .read && !r.answer && !r.done with
  | none => (s, true)
  | some r =>
    let n := pieceLen r.len pk.idx
    let data := pk.data.take n ++ List.replicate (n - pk.data.length) 0#8
    if r.placed.contains pk.idx || pk.idx ≥ packetsOf r.len then (s, true)
    else
      let k := (assoc pk.idx r.parts).getD 0
      let (s1, w) := s.netStore e r.space (r.wr.getD 2 0#64 + BitVec.ofNat 64 (2048 * pk.idx + k)) (data.drop k) (n + 1)
      let r1 := { r with rh := Nat.max r.rh w.rh, wuntil := Nat.max r.wuntil w.wuntil, parts := setAssoc pk.idx (n - w.left) r.parts }
      let upd (x : NetReq) : State := s1.modNet e fun y => { y with reqs := y.reqs.map fun z => if z.id == r.id then x else z }
      match w.stop with
      | some .stall => (upd r1, false)
      | some _ => (((upd r1).netEnd e r1 true).netSettle e, true)
      | none => ((upd { r1 with placed := pk.idx :: r.placed, parts := r1.parts.filter (·.1 != pk.idx) }).netSettle e, true)

/-- One packet in its turn: placed, matched or refused. A message that is refused for good takes no further packet; a refusal for now
leaves the packet unseen, and so does a home that holds the engine back (the second part is then false). -/
def State.netTake (s : State) (e : Nat) (pk : Packet) : State × Bool :=
  let see (r : State × Bool) : State × Bool :=
    if r.2 then (r.1.modNet e fun n => { n with seen := addSet (pk.peer, pk.seq) n.seen }, true) else r
  if pk.reply then see (s.netReply e pk)
  else match (s.net e).rx.find? fun m => m.peer == pk.peer && m.msg == pk.msg with
    | some m => see (s.netPlace e m pk)
    | none => match s.netMatch e pk with
      | (s1, .wait) => (s1, false)
      | (s1, .refuse final) =>
        let gone : NetMsg := { peer := pk.peer, msg := pk.msg, space := 0#64, buf := 0, len := pk.len, refused := true }
        let s2 := if final then (see (s1.modNet e fun n => { n with rx := gone :: n.rx }, true)).1 else s1
        ({ s2 with outbox := s2.outbox ++ [.refusal e pk.peer pk.msg final] }, true)
      | (s1, .msg m) => if pk.op == .read then see (s1.netAnswer e m pk, true) else see (s1.netPlace e m pk)

/-- The packet of in-order delivery before it, of the same peer and traffic class, has been taken: a packet of that mode may be placed
(R406). -/
def NetEngine.inTurn (n : NetEngine) (pk : Packet) : Bool := pk.mode != .rod || pk.prev.all fun q => n.seen.contains (pk.peer, q)
/-- The bitmap that acknowledges a packet (R403, R407): the 64 packets of the peer's sequence among which it lies.
(DEDUCED, unsafe: log entry 31.) -/
def NetEngine.ackMap (n : NetEngine) (peer seq : Nat) : AckMap :=
  let base := seq / 64 * 64
  { base := base, bits := BitVec.ofNat 64 (bitsOf ((List.range 64).filter fun k => n.seen.contains (peer, base + k))) }
/-- The acknowledgement of a packet that has been taken. -/
def State.sendAck (s : State) (e : Nat) (p : Packet) : State :=
  { s with outbox := s.outbox ++ [.ack e p.peer ((s.net e).ackMap p.peer p.seq)] }
/-- A packet is taken, and acknowledged unless it is refused for now. One that a home holds back is kept. -/
def State.netTakeAck (s : State) (e : Nat) (p : Packet) : State × Bool :=
  match s.netTake e p with
  | (s1, false) => (s1.modNet e fun n => { n with early := addSet p n.early }, false)
  | (s1, true) =>
    if (s1.net e).seen.contains (p.peer, p.seq) then
      ((s1.modNet e fun n => { n with early := n.early.filter fun q => !(q.peer == p.peer && q.seq == p.seq) }).sendAck e p, true)
    else (s1, true)
/-- Packets that waited are taken. -/
def State.netEarly (s : State) (e : Nat) : Nat → State
  | 0 => s
  | k + 1 => match (s.net e).early.find? fun p => (s.net e).inTurn p with
    | none => s
    | some p => match (s.modNet e fun n => { n with early := n.early.erase p }).netTakeAck e p with
      | (s1, true) => State.netEarly s1 e k
      | (s1, false) => s1

/-- PACKET_RECEIVE (R403, R405-R407): a packet of a mode that the engine does not know is refused; a duplicate is discarded and acknowledged; a
packet of in-order delivery that comes before its turn waits, and is acknowledged in its turn; another one is placed, matched or refused.
(DEDUCED, unsafe: log entry 31.) -/
def execPacketReceive (e : Nat) (p : Packet) (s : State) : Host.Outcome State Fault Refusal :=
  let n := s.net e
  if e ≥ s.nets.length then .next s
  else if p.mode == .rudi || p.mode == .uud then .next { s with outbox := s.outbox ++ [.refusal e p.peer p.msg true] }
  else if n.seen.contains (p.peer, p.seq) then .next (s.sendAck e p)
  else if !n.inTurn p then .next (s.modNet e fun n => { n with early := addSet p n.early })
  else finish ((s.netTakeAck e p).1.netEarly e (n.early.length + 1))

/-! ### What engines do by themselves -/

/-- Every engine makes its next addition, and goes on with what homes have held back. -/
def State.netTick (s : State) : State := (List.range s.nets.length).foldl (fun st e =>
  let n := st.net e
  if n.adds.isEmpty && n.early.isEmpty && !(n.rx.any (·.whole)) then st
  else
    let s1 := (n.rx.filter (·.whole)).foldl (fun s m => s.netDeliver e m) (st.netAdd e)
    s1.netEarly e n.early.length) s

end Sys2Proof.Machine
end

