-- ==== Sys2Proof/Machine/GroupOps.lean ====
section
/-!
DEFINITION. The group-wide instructions (R169-R180): regions, votes, shuffles and matches, reductions and scans over the fixed network
of R178, and quads.
-/

namespace Sys2Proof.Machine

/-! ### Regions (R170, R172) -/

def execGrpon (w : CtlW) (s : State) : Host.Outcome State Fault Refusal :=
  issue (.grpon w) s fun st c =>
    match c.p with
    | .lc _ => (st, nexts c.act)
    | .grp tid j =>
      let g := st.grp c.p
      if g.gst == .region || g.gst == .suspended then (st, nexts c.act)
      else
        let s1 := st.modGrp c.p fun g =>
          { g.modLanes c.act fun t => { t with st := .arrived, wins := stepWins t.wins [] } with gst := .arriving }
        (s1.regionSettle tid j, (Mask.lanes c.act).map fun l => (l, .placed))

def execGrpoff (w : CtlW) (s : State) : Host.Outcome State Fault Refusal :=
  issue (.grpoff w) s fun st c =>
    (st.modGrp c.p fun g => { g.modLanes g.live fun t => { t with rej := t.savedRej, savedRej := [] } with gst := .opened }, nexts c.act)

/-! ### Votes, shuffles and matches (R174-R176) -/

/-- A result that every active thread takes from all of them is poisoned when one contribution is. (DEDUCED, unsafe: log entry 18.) -/
def allPoi (act poi : Mask) : Mask := if act &&& poi == 0#64 then 0#64 else act

def execVote (k : VoteKind) (w : BaseW) (s : State) : Host.Outcome State Fault Refusal :=
  issueG (.vote k w) s fun c g =>
    let n := w.a.toNat
    let yes := Mask.ofLanes ((Mask.lanes c.act).filter (g.pred n))
    let poi := allPoi c.act (Mask.ofTest (g.predPoi n))
    let h : Hint := if g.predUni n then .u else .g
    match k with
    | .all => g.putP w.d c.act (fun _ => yes == c.act) h poi
    | .any => g.putP w.d c.act (fun _ => yes != 0#64) h poi
    | .uni => g.putP w.d c.act (fun _ => yes == c.act || yes == 0#64) h poi
    | .ballot => g.wrD64 w.d c.act (fun _ => yes) h poi

/-- The source lane of a shuffle; none out of range (R175). -/
def shflLane (m : ShflMode) (l b : Nat) : Option Nat :=
  match m with
  | .idx => some (b % 64)
  | .up => if b > l then none else some (l - b)
  | .down => if l + b ≥ 64 then none else some (l + b)
  | .xor => some (l ^^^ (b % 64))

def execShfl (sz : DSize) (m : ShflMode) (w : BaseW) (s : State) : Host.Outcome State Fault Refusal :=
  issueG (.shfl sz m w) s fun c g =>
    let a := g.src .int sz.n w.a
    let b := g.srcB .int 1 w c.k
    let from' (l : Nat) : Nat :=
      match shflLane m l ((b.val l).toNat % 2 ^ 32) with
      | some k => if Mask.has c.act k then k else l
      | none => l
    g.put sz.n w.d c.act (fun l => a.val (from' l)) (tagOf [a, b]) (b.poi ||| Mask.ofTest fun l => Mask.has a.poi (from' l))

def execGmatch (sz : DSize) (w : BaseW) (s : State) : Host.Outcome State Fault Refusal :=
  issueG (.gmatch sz w) s fun c g =>
    let a := g.src .int sz.n w.a
    let v (l : Nat) : Nat := (a.val l).toNat % 2 ^ sz.width
    g.wrD64 w.d c.act (fun l => Mask.ofLanes ((Mask.lanes c.act).filter fun k => v k == v l)) (tagOf [a]) (allPoi c.act a.poi)

def execGelect (k : ElectKind) (w : BaseW) (s : State) : Host.Outcome State Fault Refusal :=
  issueG (.gelect k w) s fun c g =>
    let ls := Mask.lanes c.act
    let win := match k with | .lo => ls.head? | .hi => ls.getLast?
    g.putP w.d c.act (fun l => some l == win) .g 0#64

def execGmask (k : GMaskKind) (w : BaseW) (s : State) : Host.Outcome State Fault Refusal :=
  issueG (.gmask k w) s fun c g =>
    g.wrD64 w.d c.act (fun _ => match k with | .act => c.act | .live => g.live) .u 0#64

/-! ### Reductions and scans (R177, R178) -/

/-- A node of the network: a value with its poison mark, or EMPTY. -/
abbrev Node := Option (Nat × Bool)

/-- The network's combine, with the flags of the step; a step on a poisoned node raises none, as an element from a poisoned
source does in R156. (DEDUCED, unsafe: log entry 51.) -/
def combineN (op : Nat → Nat → Nat × Flags) (u v : Node) : Node × Flags :=
  match u, v with
  | none, y => (y, 0#32)
  | x, none => (x, 0#32)
  | some (a, pa), some (b, pb) =>
    let (r, fl) := op a b
    (some (r, pa || pb), if pa || pb then 0#32 else fl)

/-- One level of the reduction tree. -/
def redLevel (op : Nat → Nat → Nat × Flags) : List Node → List Node × Flags
  | a :: b :: rest =>
    let (x, f) := combineN op a b
    let (xs, fs) := redLevel op rest
    (x :: xs, f ||| fs)
  | l => (l, 0#32)
def redTree (op : Nat → Nat → Nat × Flags) : Nat → List Node × Flags → List Node × Flags
  | 0, x => x
  | k + 1, (l, f) =>
    let (l', f') := redLevel op l
    redTree op k (l', f ||| f')
/-- Step `k` of the scan. -/
def scanLevel (op : Nat → Nat → Nat × Flags) (k : Nat) (t : List Node) : List Node × Flags :=
  let rs := (List.range t.length).map fun l => if l ≥ 2 ^ k then combineN op (t.getD (l - 2 ^ k) none) (t.getD l none) else (t.getD l none, 0#32)
  (rs.map (·.1), rs.foldl (fun f r => f ||| r.2) 0#32)
def scanAll (op : Nat → Nat → Nat × Flags) (t : List Node) : List Node × Flags :=
  (List.range 6).foldl (fun (acc : List Node × Flags) k =>
    let (t', f) := scanLevel op k acc.1
    (t', acc.2 ||| f)) (t, 0#32)

def GType.isFloat : GType → Bool | .f32 => true | .f64 => true | _ => false
def GType.bits (t : GType) : Nat := if t.n = 2 then 64 else 32
def GType.fmt : GType → Fmt | .f64 => F64 | _ => F32

/-- The operation of OP (R177). -/
def gOp (t : GType) (op rm : Nat) (fz : Bool) (a b : Nat) : Nat × Flags :=
  let w := GType.bits t
  if GType.isFloat t then
    match op with
    | 0 => (GType.fmt t).add rm fz a b
    | 1 => (GType.fmt t).minmax false fz a b
    | _ => (GType.fmt t).minmax true fz a b
  else
    (match op with
      | 0 => (a + b) % 2 ^ w
      | 1 => if sgn w a ≤ sgn w b then a else b
      | 2 => Nat.min a b
      | 3 => if sgn w a ≥ sgn w b then a else b
      | 4 => Nat.max a b
      | 5 => a &&& b
      | 6 => a ||| b
      | _ => a ^^^ b, 0#32)
/-- The identities (R178). -/
def gIdentity (t : GType) (op : Nat) : Nat :=
  let w := GType.bits t
  if GType.isFloat t then
    match op with
    | 0 => (GType.fmt t).signBit true
    | 1 => (GType.fmt t).inf false
    | _ => (GType.fmt t).inf true
  else match op with
    | 1 => 2 ^ (w - 1) - 1
    | 2 => 2 ^ w - 1
    | 3 => 2 ^ (w - 1)
    | 5 => 2 ^ w - 1
    | _ => 0

/-- `GRED` and `GSCAN`: `net` runs the network on the lanes' nodes and gives every lane's result. A result that differs between lanes has
tag G. (DEDUCED, unsafe: log entry 18.) -/
def gNet (i : Instr) (t : GType) (w : BaseW) (s : State) (net : (Nat → Nat → Nat × Flags) → (Nat → Node) → (Nat → Node) × Flags) :
    Host.Outcome State Fault Refusal :=
  let op := w.c.toNat % 8
  issue i s fun st c =>
    let g := st.grp c.p
    let a := g.src (if GType.isFloat t then .flt (GType.fmt t) else .int) t.n w.a
    let fc := (g.thr ((Mask.lanes c.act).headD 0)).fcsr
    let x (l : Nat) : Node := if Mask.has c.act l then some ((a.val l).toNat % 2 ^ GType.bits t, Mask.has a.poi l) else none
    let (res, fl) := net (gOp t op (rmIn fc w.rm) (fzIn fc)) x
    let val (l : Nat) : Nat × Bool := (res l).getD (gIdentity t op, false)
    let ls := Mask.lanes c.act
    let vals := ls.map fun l => (l, val l)
    let traps := ls.filter fun l => enabledIn (g.thr l).fcsr fl
    let done := vals.filter fun e => !traps.contains e.1
    let same := vals.all fun e => e.2.1 == (val (ls.headD 0)).1
    let s1 := st.modGrp c.p fun g =>
      (g.modLanes c.act fun th => { th with fcsr := orFlags th.fcsr fl }).putLanes w.d t.n
        (done.map fun e => (e.1, wordsOf t.n e.2.1, e.2.2)) (if same then tagOf [a] else .g)
    (s1, ls.map fun l => (l, if traps.contains l then .trap { cause := 0x38 } else .next))

def execGred (t : GType) (w : BaseW) (s : State) : Host.Outcome State Fault Refusal :=
  gNet (.gred t w) t w s fun op x =>
    let (l, f) := redTree op 6 (allLanes.map x, 0#32)
    (fun _ => l.headD none, f)
def execGscan (t : GType) (w : BaseW) (s : State) : Host.Outcome State Fault Refusal :=
  gNet (.gscan t w) t w s fun op x =>
    let exc := w.c.getLsbD 3
    let (l, f) := scanAll op (allLanes.map fun k => if exc then (if k = 0 then none else x (k - 1)) else x k)
    (fun k => l.getD k none, f)

/-! ### Quads (R179, R180) -/

/-- `QBIND`: the group registers as its quarter's member, and waits until the quad has formed. -/
def execQbind (w : CtlW) (s : State) : Host.Outcome State Fault Refusal :=
  issue (.qbind w) s fun st c =>
    match c.p with
    | .lc _ => (st, nexts c.act)
    | .grp tid j =>
      let t := st.team tid
      if t.groups.length < 4 then (st, (Mask.lanes c.act).map fun l => (l, .trap { cause := 0x0B }))
      else if t.quad && t.member j then (st, nexts c.act)
      else
        let s1 := st.modTeam tid fun t =>
          if (t.qmem.getD (j % 4) none).isNone then { t with qmem := t.qmem.set (j % 4) (some (j, st.pt)) } else t
        (s1, (Mask.lanes c.act).map fun l => (l, .hold .binding))

/-- Threads that wait in `QBIND` execute it again. (DESIGN CHOICE, safe: log entry 8.) -/
def Team.rebind (t : Team) : Team :=
  { t with groups := t.groups.map fun g => g.map fun (g : Group) =>
      { g with threads := g.threads.map fun th => if th.st == .binding then { th with st := .ready } else th } }

/-- QUAD_FORM (R179): the tiles of a core are free; among the complete teams the one whose earliest member came first is granted;
of two that came at the same PT, the one that stands first. (DESIGN CHOICE, safe: log entry 8.) (DESIGN CHOICE, unsafe: log entry 54.) -/
def execQuadForm (core : Nat) (s : State) : Host.Outcome State Fault Refusal :=
  let here := s.teams.filter fun t => t.core == core && (t.st == .resident || t.st == .saving)
  let full := here.filter fun t => t.st == .resident && !t.quad && t.qmem.all (·.isSome)
  let first (t : Team) : Nat := t.qmem.foldl (fun m q => match q with | some (_, pt) => Nat.min m pt | none => m) (s.pt + 1)
  if here.any (·.quad) then .next s
  else match full.foldl (fun (best : Option Team) t => match best with
      | none => some t
      | some b => if first t < first b then some t else some b) none with
    | none => .next s
    | some t =>
      let tiles := (List.range 4).map fun k => ({ seed := s.fresh + k, status := Config.tileStatus (s.fresh + k) } : Tile)
      .next { s.modTeam t.tid fun x => Team.rebind { x with quad := true, tiles := tiles, plPromise := 0 } with fresh := s.fresh + 4 }

/-- `QFREE`: waits for the quad's platen operations, then dissolves the quad. -/
def execQfree (w : CtlW) (s : State) : Host.Outcome State Fault Refusal :=
  issue (.qfree w) s fun st c =>
    match c.p with
    | .lc _ => (st, nexts c.act)
    | .grp tid j =>
      let t := st.team tid
      if !(t.quad && t.member j) then (st, nexts c.act)
      else if !t.plq.isEmpty then (st, (Mask.lanes c.act).map fun l => (l, .stay))
      else (st.modTeam tid fun t => Team.rebind (State.dissolveQuad t), nexts c.act)

end Sys2Proof.Machine
end

