-- ==== Sys2Proof/Machine/Place.lean ====
section
/-!
DEFINITION. Where cluster instances fit: the mesh and its hops (R2, R3, R318), what teams hold of a core (R23, R319, R350), rectangles,
the order of dies, and the dies of replicas (R350, R369).
-/

namespace Sys2Proof

/-! ### Descriptor fields (R89) -/

namespace Machine
def Family.cw (f : Family) : Nat := f.dw 0 / 2 ^ 16 % 256
def Family.chh (f : Family) : Nat := f.dw 0 / 2 ^ 24 % 256
def Family.gbudget (f : Family) : Nat := f.dw 0 / 2 ^ 42 % 1024
def Family.formeSize (f : Family) : Nat := f.dw 1 % 2 ^ 32
def Family.cohort (f : Family) : Bool := (f.dw 1).testBit 35
def Family.prio (f : Family) : Nat := if f.solo then 0 else f.dw 1 / 2 ^ 38 % 8
def Family.slice (f : Family) : Nat := f.dw 2
/-- Teams of a cluster instance, and the number of instances of a replica (R10). -/
def Family.area (f : Family) : Nat := Nat.max 1 (f.cw * f.chh)
def Family.insts (f : Family) : Nat := (f.teams + f.area - 1) / f.area
/-- The teams of an instance (R12). -/
def Family.instTeams (f : Family) (c : Nat) : List Nat :=
  (List.range f.area).filterMap fun k => if c * f.area + k < f.teams then some (c * f.area + k) else none
/-- The groups that a team has (R11). -/
def Family.teamGroups (f : Family) (num : Nat) : Nat := Nat.min f.groups ((f.n + 63) / 64 - num * f.groups)
/-- The register space of a group (R23). -/
def Family.regSpace (f : Family) : Nat := 4 * f.nregs + 252 * f.gbudget
end Machine

end Sys2Proof

namespace Sys2Proof.Machine

/-! ### Mesh (R2, R318) -/

def absDiff (a b : Nat) : Nat := (a - b) + (b - a)
/-- Hops between two C-dies. -/
def hops (a b : Nat) : Nat := absDiff (a % 6) (b % 6) + absDiff (a / 6) (b / 6)
/-- Hops from a C-die to an H-die: the column distance and the rows to the H-die's rows. -/
def hopsHub (c h : Nat) : Nat :=
  let rows := if h % 2 = 0 then c / 6 - 1 else 2 - c / 6
  (if h < 26 then c % 6 + 1 else 6 - c % 6) + rows
/-- The H-die nearest to a C-die, the lowest number on a tie. -/
def nearestHub (c : Nat) : Nat :=
  [25, 26, 27].foldl (fun best h => if hopsHub c h < hopsHub c best then h else best) 24

/-! ### What a team holds of a core (R350) -/

/-- The descriptor of a solo family (R260). -/
def soloDesc : List W64 :=
  [BitVec.ofNat 64 (1 + 2 ^ 16 + 2 ^ 24 + 768 * 2 ^ 32 + 768 * 2 ^ 42), BitVec.ofNat 64 (4096 + 2 ^ 32), 1000000#64, 0#64, 0#64, 0#64, 0#64, 0#64]
/-- The family that stands for a packed group: the solo defaults, with the number of its record in the solo pool. -/
def soloFam (k : Nat) : Family :=
  { famid := BitVec.ofNat 32 (k * 2 ^ 20), n := 64, solo := true, desc := soloDesc, ptbr := 0#64, cws := [], parent := {}, d := 0, origin := 0,
    outPc := 0#64, teams := 1, ballast := 0, rate := 0, cap := 0 }
/-- The family whose descriptor lays out a team and its record. -/
def State.recFam (s : State) (t : Team) : Family := if t.packed then soloFam t.slot else (s.fam? t.fam).getD (soloFam 0)

/-- Slots of each quarter, register bytes, forme range, whether its family is replicated, whether it holds the tiles. -/
structure Hold where
  core : Nat
  groups : Nat
  regs : Nat
  fbase : Nat
  fsize : Nat
  proofed : Bool
  quad : Bool
  deriving DecidableEq, Repr

/-- Group slots that `n` groups take in quarter `q`. -/
def slotsOf (n q : Nat) : Nat := (n - q + 3) / 4

/-- The holds of the teams that occupy cores. -/
def State.holds (s : State) : List Hold :=
  (s.teams.filter fun t => t.st == .resident || t.st == .saving).map fun t =>
    let f := s.recFam t
    let gs := (t.groups.filter (·.isSome)).length
    { core := t.core, groups := gs, regs := gs * f.regSpace, fbase := t.fbase, fsize := t.fsize, proofed := f.repl > 1, quad := t.quad }

/-- What an instance's team needs; a restored quad needs the core's tiles. -/
structure Need where
  groups : Nat
  regs : Nat
  fsize : Nat
  proofed : Bool
  quad : Bool := false
  deriving DecidableEq, Repr
def Family.need (f : Family) (num : Nat) : Need :=
  let gs := f.teamGroups num
  { groups := gs, regs := gs * f.regSpace, fsize := f.formeSize, proofed := f.repl > 1 }

/-- The lowest free forme base, a multiple of 4 KiB (R319). -/
def freeForme (hs : List Hold) (size : Nat) : Option Nat :=
  (List.range 257).findSome? fun k =>
    let b := 4096 * k
    if b + size ≤ 2 ^ 20 && hs.all (fun h => b + size ≤ h.fbase || h.fbase + h.fsize ≤ b) then some b else none

/-- The test half of a core (R367). -/
def testUnit (core : Nat) : Nat := 2 * (core / 24) + (if core % 6 ≤ 2 then 0 else 1)
/-- The core may take teams: not harvested, not removed, not under test (R350, R367). -/
def State.coreUsable (s : State) (core : Nat) : Bool :=
  !s.dev.harvest.contains core && !(s.core core).removed && !(s.die (core / 24)).isolated && !(s.drain.busy && testUnit core == s.drain.unit)
/-- Fit on one core (R350, R369): the forme base. (DEDUCED, unsafe: log entry 28.) -/
def fitCore (hs : List Hold) (core : Nat) (n : Need) : Option Nat :=
  let mine := hs.filter (·.core == core)
  if (List.range 4).all (fun q => (mine.map fun h => slotsOf h.groups q).sum + slotsOf n.groups q ≤ 32) &&
      (mine.map (·.regs)).sum + n.regs ≤ 1536 * 1024 && !(n.proofed && mine.any (·.proofed)) &&
      !(n.quad && mine.any (·.quad)) then freeForme mine n.fsize
  else none

/-- The core of position `p` in the rectangle whose top-left core is `(x, y)` of die `d` (R3, R350). -/
def rectCore (d x y w p : Nat) : Nat := 24 * d + (y + p / w) * 6 + x + p % w

/-- The first rectangle of a die that takes the occupied positions: each one's core and forme base. A position without a need (an ended
team) takes nothing. -/
def fitRect (usable : Nat → Bool) (hs : List Hold) (d w h : Nat) (ns : List (Option Need)) : Option (List (Nat × Nat)) :=
  ((List.range 24).filter fun k => k % 6 + w ≤ 6 && k / 6 + h ≤ 4).findSome? fun k =>
    ns.zipIdx.mapM fun (n, p) =>
      let c := rectCore d (k % 6) (k / 6) w p
      match n with
      | none => some (c, 0)
      | some x => if usable c then (fitCore hs c x).map fun b => (c, b) else none

/-- What a placement adds to the holds. -/
def holdsOf (ns : List (Option Need)) (at_ : List (Nat × Nat)) : List Hold :=
  (ns.zip at_).filterMap fun (x, (c, b)) => x.map fun n => { core := c, groups := n.groups, regs := n.regs, fbase := b, fsize := n.fsize, proofed := n.proofed, quad := n.quad }

/-! ### Dies (R350, R369) -/

/-- Resident groups of a die. -/
def groupsOn (hs : List Hold) (d : Nat) : Nat := ((hs.filter fun h => h.core / 24 == d).map (·.groups)).sum
/-- Inserts into a list that a test keeps in order. -/
def insertBy (lt : Nat → Nat → Bool) (x : Nat) : List Nat → List Nat
  | [] => [x]
  | y :: ys => if lt x y then x :: y :: ys else y :: insertBy lt x ys
def sortBy (lt : Nat → Nat → Bool) (l : List Nat) : List Nat := l.foldr (insertBy lt) []
/-- The C-dies in the order in which they are tried for a family (R350). -/
def Family.dieOrder (f : Family) (hs : List Hold) (byGroups : Bool) : List Nat :=
  let aff (d : Nat) : Nat := (assoc d f.affinity).getD 0
  sortBy (fun a b => aff a > aff b || (aff a == aff b && byGroups && groupsOn hs a < groupsOn hs b) ||
    (aff a == aff b && (!byGroups || groupsOn hs a == groupsOn hs b) && a < b)) (List.range 24)

/-- The dies of the placed replicas of an instance meet the conditions of R369: in dual mode 3 hops, in triple mode 2 hops between every two,
and not all three in one row. -/
def diesApart (repl : Nat) (ds : List Nat) : Bool :=
  ((List.range ds.length).all fun i => (List.range i).all fun j =>
    let a := ds.getD i 0
    let b := ds.getD j 0
    a != b && hops a b ≥ (if repl = 2 then 3 else 2)) &&
  !(ds.length = 3 && ds.all fun d => d / 6 == ds.headD 0 / 6)

/-- A placement of one instance of each listed replica: its cores and forme bases. Replica 0 is tried on the dies in R350's order, and a partner
takes the first die by affinity that meets the conditions against `ds`, the dies placed before it (R369, R370). -/
def placeReplicas (usable : Nat → Bool) (f : Family) (allow : Nat → Bool) :
    List (Nat × List (Option Need)) → List Hold → List Nat → Option (List (List (Nat × Nat)))
  | [], _, _ => some []
  | (rid, ns) :: rest, hs, ds =>
    let on (d : Nat) : Option (List (Nat × Nat)) :=
      if allow d && diesApart f.repl (ds ++ [d]) then fitRect usable hs d f.cw f.chh ns else none
    let then_ (d : Nat) (at_ : List (Nat × Nat)) : Option (List (List (Nat × Nat))) :=
      (placeReplicas usable f allow rest (hs ++ holdsOf ns at_) (ds ++ [d])).map (at_ :: ·)
    if rid = 0 then (f.dieOrder hs true).findSome? fun d => (on d).bind (then_ d)
    else match (f.dieOrder hs false).findSome? fun d => (on d).map fun at_ => (d, at_) with
      | some (d, at_) => then_ d at_
      | none => none

/-- The dies meet the conditions of R369 in some way for `k` replicas that each need room for one instance (R255). -/
def rowChoice (usable : Nat → Bool) (f : Family) (ns : List (Option Need)) : Bool :=
  let room := (List.range 24).filter fun d => (fitRect usable [] d f.cw f.chh ns).isSome
  room.any fun a => room.any fun b => diesApart f.repl [a, b] && (f.repl = 2 || room.any fun c => diesApart f.repl [a, b, c])

/-- Places a list of instances one after another, `k` replicas of each. -/
def placeAll (usable : Nat → Bool) (f : Family) (k : Nat) : List Nat → List Hold → Option (List (Nat × List (List (Nat × Nat))))
  | [], _ => some []
  | c :: rest, hs =>
    let ns := (f.instTeams c).map fun k => some (f.need k)
    match placeReplicas usable f (fun _ => true) ((List.range k).map fun r => (r, ns)) hs [] with
    | none => none
    | some ps => (placeAll usable f k rest (ps.foldl (fun h at_ => h ++ holdsOf ns at_) hs)).map ((c, ps) :: ·)

end Sys2Proof.Machine
end

