-- ==== Sys2Proof/Machine/Platen.lean ====
section
/-!
DEFINITION. The platen (R223-R235): the queue of a quad, control blocks, promises, the matrix operations over R111-R113, draining and
status.
-/

namespace Sys2Proof

/-! ### Types (R75, R230) -/

def PType.fmt : PType → Machine.Fmt
  | .bf16 => Machine.BF16 | .f16 => Machine.F16 | .e4m3 => Machine.E4M3 | .e5m2 => Machine.E5M2
  | .mx8e4 => Machine.E4M3 | .mx8e5 => Machine.E5M2 | .mx4 => Machine.E2M1 | .int8 => Machine.E4M3
/-- K, and bits of an element. -/
def PType.k : PType → Nat | .bf16 => 32 | .f16 => 32 | .mx4 => 128 | _ => 64
def PType.bits : PType → Nat | .bf16 => 16 | .f16 => 16 | .mx4 => 4 | _ => 8
/-- MX blocks per instruction. -/
def PType.nb : PType → Nat | .mx8e4 => 2 | .mx8e5 => 2 | .mx4 => 4 | _ => 0
/-- Bytes of one output row of `MDRAIN` with N columns (R233). -/
def PType.outRow (t : PType) (n : Nat) : Nat :=
  match t with
  | .bf16 => 2 * n | .f16 => 2 * n | .mx4 => n / 2 | .int8 => 4 * n | _ => n

end Sys2Proof

namespace Sys2Proof.Machine

/-! ### Control blocks (R226) -/

/-- N = 64 × (NC + 1), and SAT. -/
def nOf (c : BitVec 10) : Nat := 64 * (c.toNat / 256 + 1)
def satOf (c : BitVec 10) : Bool := c.getLsbD 0

structure Ctl where
  data : Nat
  pitch : Nat
  bar : Nat
  soff : Nat
  spitch : Nat
  zero : Bool
  deriving DecidableEq, Repr

def ctlOf (ws : List W32) : Ctl :=
  let w (k : Nat) : Nat := (ws.getD k 0#32).toNat
  { data := w 0 % 2 ^ 20, pitch := w 0 / 2 ^ 20, bar := w 1 % 2 ^ 20, soff := w 2 % 2 ^ 20, spitch := w 2 / 2 ^ 20,
    zero := w 3 == 0 && w 1 / 2 ^ 20 == 0 }

/-- An area: first byte and end. -/
def rowArea (base step rows bytes : Nat) : Nat := base + step * (rows - 1) + bytes

/-- The checks of R226: `ends` are the ends of the areas that the instruction touches, `short` a PITCH below one output row. -/
def ctlCheck (c : Ctl) (size : Nat) (useData useBar short : Bool) (ends : List Nat) : Option Nat :=
  if !c.zero || short then some 0x03
  else if (useData && c.data % 16 != 0) || (useBar && c.bar != 0xFFFFF && c.bar % 8 != 0) then some 0x12
  else if ends.any (· > size) || (useBar && c.bar != 0xFFFFF && c.bar + 8 > size) then some 0x14
  else none

/-! ### Tiles (R39) -/

/-- The word of a tile at row `r`, column `c`. (DESIGN CHOICE, safe: log entry 8.) -/
def Tile.get (t : Tile) (r c : Nat) : Nat := ((assoc (256 * r + c) t.cells).getD (Config.tileWord t.seed (256 * r + c))).toNat
/-- The tile with its first `n` columns set. -/
def Tile.fill (t : Tile) (n : Nat) (f : Nat → Nat → Nat) : Tile :=
  { t with cells := ((List.range 32).flatMap fun r => (List.range n).map fun c => (256 * r + c, BitVec.ofNat 32 (f r c))) ++
      t.cells.filter fun e => e.1 % 256 ≥ n }
/-- The team's tile `q` changed. -/
def Team.modTile (t : Team) (q : Nat) (f : Tile → Tile) : Team := { t with tiles := setAt t.tiles q f }
def Team.tile (t : Team) (q : Nat) : Tile := t.tiles.getD q {}

/-! ### Issue (R224-R227) -/

/-- The parameters of a queued instruction. -/
structure PlIssue where
  kind : PlKind
  w : BaseW
  cycles : Nat
  /-- ends of the areas of the control block -/
  ends : Ctl → List Nat
  useData : Bool
  /-- `MMAC` -/
  column : Bool

/-- Rows of the cluster column of a team (R231): the teams at rows 0 to 3, when the cluster has height 4 and every position is alive. -/
def State.columnOf (s : State) (t : Team) : Option (List Team) :=
  match s.fam? t.fam with
  | none => none
  | some f =>
    let w := Nat.max 1 (f.dw 0 / 2 ^ 16 % 256)
    if f.dw 0 / 2 ^ 24 % 256 != 4 then none
    else (List.range 4).mapM fun r => s.teamAt t (t.cip % w + w * r)

/-- The promise of the operation before the one that a member's issue joins. -/
def Team.promiseBefore (t : Team) (k : Nat) : Nat := if k = 0 then t.plPromise else ((t.plq.getD (k - 1) {}).promise)
/-- The queue after a member's issue: it joins the first operation without its quarter, or opens the next (R224). -/
def Team.enqueue (t : Team) (m : PlMember) (k : Nat) : Team :=
  { t with plq := if k < t.plq.length then setAt t.plq k fun o => { o with members := o.members ++ [m] } else t.plq ++ [{ members := [m] }] }

/-- A queued platen instruction. -/
def platenIssue (i : Instr) (s : State) (x : PlIssue) : Host.Outcome State Fault Refusal :=
  issue i s fun st c =>
    let all (t : Trap) : List (Nat × LaneEnd) := (Mask.lanes c.act).map fun l => (l, .trap t)
    match c.p with
    | .lc _ => (st, nexts c.act)
    | .grp tid j =>
      let g := st.grp c.p
      let t := st.team tid
      let l0 := (Mask.lanes c.act).headD 0
      let a := x.w.a.toNat
      let ctl := (List.range 4).map fun k => g.rd l0 (a + k)
      let cb := ctlOf ctl
      let q := j % 4
      let k := (t.plq.findIdx? fun o => !(o.members.any (·.quarter == q))).getD t.plq.length
      if !(t.quad && t.member j) then (st, all { cause := 0x22 })
      else if x.column && (st.columnOf t).isNone then (st, all { cause := 0x0B })
      else if g.poi l0 a 4 then (st, all { cause := 0x18 })
      else match ctlCheck cb t.fsize x.useData true false (x.ends cb) with
        | some cause => (st, all { cause := cause })
        | none =>
          if k ≥ 8 then (st, (Mask.lanes c.act).map fun l => (l, .stay))
          else
            let promise := Nat.max st.pt (t.promiseBefore k) + 100 + (10 * x.cycles + 13) / 14 + (if x.column then 200 else 0)
            let m : PlMember := { quarter := q, kind := x.kind, ctl := ctl, breg := x.w.b.toNat, c := x.w.c, act := c.act, promise := promise }
            ((st.modTeam tid fun t => t.enqueue m k).modGrp c.p fun g =>
              g.wrD64 x.w.d c.act (fun _ => BitVec.ofNat 64 promise) .u 0#64, nexts c.act)

/-- The areas of a matrix operation: 128 rows of 64 bytes, and the scales of MX types. -/
def mmaEnds (t : PType) (c : Ctl) : List Nat :=
  rowArea c.data (16 * c.pitch) 128 64 :: (if t.mx then [rowArea c.soff c.spitch 128 t.nb] else [])

def execMma (t : PType) (w : BaseW) (s : State) : Host.Outcome State Fault Refusal :=
  platenIssue (.mma t w) s { kind := .mma t, w := w, cycles := nOf w.c / 2, ends := mmaEnds t, useData := true, column := false }
def execMmac (t : PType) (w : BaseW) (s : State) : Host.Outcome State Fault Refusal :=
  platenIssue (.mmac t w) s { kind := .mmac t, w := w, cycles := nOf w.c / 2, ends := mmaEnds t, useData := true, column := true }
def execMzero (w : BaseW) (s : State) : Host.Outcome State Fault Refusal :=
  platenIssue (.mzero w) s { kind := .mzero, w := w, cycles := 32, ends := fun _ => [], useData := false, column := false }
def execMload (w : BaseW) (s : State) : Host.Outcome State Fault Refusal :=
  let ends (c : Ctl) : List Nat := [rowArea c.data (16 * c.pitch) 128 (4 * nOf w.c)]
  platenIssue (.mload w) s { kind := .mload, w := w, cycles := 2 * nOf w.c, ends := ends, useData := true, column := false }

/-! ### Operations (R111-R114, R228-R232) -/

/-- Element `k` of row `i` of A in forme (R230). -/
def Team.elemA (t : Team) (ty : PType) (c : Ctl) (i k : Nat) : Nat :=
  let base := c.data + 16 * c.pitch * i
  if ty.bits = 4 then (t.fbyte (base + k / 2)).toNat / (if k % 2 = 0 then 1 else 16) % 16
  else leNat (t.fbytes (base + k * (ty.bits / 8)) (ty.bits / 8))
def Team.scaleA (t : Team) (c : Ctl) (i b : Nat) : Nat := (t.fbyte (c.soff + c.spitch * i + b)).toNat

/-- The member of a quarter, and its group. -/
def PlOp.at (o : PlOp) (q : Nat) : Option PlMember := o.members.find? (·.quarter == q)
def Team.quarterGroup (t : Team) (q : Nat) : Group := match t.qmem.getD q none with | some (j, _) => t.grp j | none => {}

/-- The members' B spans, with the scale register of MX types, as a start reads them (R228, R230). -/
def Team.spans (t : Team) (o : PlOp) : List (List (Option (List W32))) :=
  (List.range 4).map fun q => match o.at q with
    | none => []
    | some m => allLanes.map fun l =>
        if Mask.has m.act l then some ((List.range 17).map fun r => (t.quarterGroup q).rd l (m.breg + r)) else none
/-- The words of a lane of a quarter's span. -/
def PlOp.span (o : PlOp) (q l : Nat) : Option (List W32) := (o.bspan.getD q []).getD l none
/-- Element (k, j) of B in the members' spans (R230): zero outside an active set. -/
def PlOp.elemB (o : PlOp) (ty : PType) (k j : Nat) : Nat :=
  let per := ty.k / 4
  match o.span (k / per) (j / 4) with
  | none => 0
  | some ws =>
    let bit := (4 * (k % per) + j % 4) * ty.bits
    ((ws.getD (bit / 32) 0#32).toNat / 2 ^ (bit % 32)) % 2 ^ ty.bits
/-- The scale of column `j` of B in block `b` (R230): code 127 outside an active set. -/
def PlOp.scaleB (o : PlOp) (ty : PType) (b j : Nat) : Nat :=
  match o.span (32 * b / (ty.k / 4)) (j / 4) with
  | none => 127
  | some ws => ((ws.getD 16 0#32).toNat / 2 ^ (8 * (j % 4))) % 256

/-- One block of 32 products for an element (R111, R112): `a` and `b` give elements, `sa` and `sb` scale codes. -/
def blockSum (f : Fmt) (a b : Nat → Nat) (sa sb : Nat) : PSum :=
  let start : PSum := if sa = 0xFF || sb = 0xFF then { nanIn := true } else {}
  (List.range 32).foldl (fun s k => s.addProd (f.dec (a k)) (f.dec (b k)) ((sa : Int) - 127 + ((sb : Int) - 127))) start

/-- An element after block `blk` of 32 products, with the status bits of the block (R111-R113). -/
def mmaBlock (ty : PType) (sat : Bool) (a b : Nat → Nat) (sa sb : Nat → Nat) (blk acc : Nat) : Nat × Nat :=
  if ty = .int8 then
    let sum : Int := ((List.range 32).map fun k => sgn 8 (a (32 * blk + k)) * sgn 8 (b (32 * blk + k))).foldl (· + ·) 0
    (wrap 32 (sgn 32 acc + sum), 0)
  else
    accumulate acc (blockSum ty.fmt (fun k => a (32 * blk + k)) (fun k => b (32 * blk + k))
      (if ty.mx then sa blk else 127) (if ty.mx then sb blk else 127)) sat
/-- An element of `acc + A · B` with its status bits, over the blocks of 32 in ascending k (R111-R113). -/
def mmaElem (ty : PType) (sat : Bool) (a b : Nat → Nat) (sa sb : Nat → Nat) (acc : Nat) : Nat × Nat :=
  (List.range (ty.k / 32)).foldl (fun (x : Nat × Nat) blk =>
    let (v, st) := mmaBlock ty sat a b sa sb blk x.1
    (v, x.2 ||| st)) (acc, 0)

/-- A tile after a K block of a matrix operation, and the status bits that the block sets. -/
def mmaTile (ty : PType) (n : Nat) (sat : Bool) (t : Team) (o : PlOp) (c : Ctl) (blk q : Nat) : Tile × BitVec 4 :=
  let tile := t.tile q
  let out (r j : Nat) : Nat × Nat :=
    mmaBlock ty sat (t.elemA ty c (32 * q + r)) (fun k => o.elemB ty k j) (t.scaleA c (32 * q + r)) (fun b => o.scaleB ty b j) blk
      (tile.get r j)
  let marks := (List.range 32).foldl (fun m r => (List.range n).foldl (fun m j => m ||| (out r j).2) m) 0
  (tile.fill n fun r j => (out r j).1, BitVec.ofNat 4 marks)

/-- The four members agree in opcode, FN, C and the control block (R225). -/
def PlOp.agrees (o : PlOp) : Bool :=
  match o.members with
  | [] => true
  | m :: rest => rest.all fun x => x.kind == m.kind && x.c == m.c && x.ctl == m.ctl
/-- Agreement across the column, BAR apart (R231). -/
def Ctl.noBar (c : Ctl) : Ctl := { c with bar := 0 }
def sameColumn (a b : PlMember) : Bool := a.kind == b.kind && a.c == b.c && (ctlOf a.ctl).noBar == (ctlOf b.ctl).noBar
def PlOp.formed (o : PlOp) : Bool := o.members.length == 4
def PlOp.isMmac (o : PlOp) : Bool := o.members.any fun m => match m.kind with | .mmac _ => true | _ => false

/-- A malformed operation (R225): every word is the canonical NaN and NV is set. -/
def Team.malform (t : Team) : Team × List (BitVec 4) :=
  ({ t with tiles := t.tiles.map fun x => x.fill 256 fun _ _ => 0x7FC00000 }, List.replicate 4 1#4)

/-- What the forme areas and B spans of an operation hold poisoned ends in a machine check (R412; log entry 15). -/
def PlOp.poisoned (o osrc : PlOp) (t src : Team) : Bool :=
  let span (n : Nat) : Bool := osrc.members.any fun m => (Mask.lanes m.act).any fun l => (src.quarterGroup m.quarter).poi l m.breg n
  o.members.any fun m =>
    let c := ctlOf m.ctl
    let rows (n : Nat) : Bool := (List.range 128).any fun r => t.fpoi (c.data + 16 * c.pitch * r) n
    let mul (ty : PType) : Bool :=
      rows 64 || span (if ty.mx then 17 else 16) || (ty.mx && (List.range 128).any fun r => t.fpoi (c.soff + c.spitch * r) ty.nb)
    match m.kind with
    | .mma ty => mul ty
    | .mmac ty => mul ty
    | .mload => rows (4 * nOf m.c)
    | .mzero => false

/-- The K blocks of an operation: one for an operation without products, and for a malformed one. -/
def PlOp.blocks (o : PlOp) (ok : Bool) : Nat :=
  match o.members with
  | [] => 1
  | m :: _ => match m.kind with
    | .mma ty => if ok then ty.k / 32 else 1
    | .mmac ty => if ok then ty.k / 32 else 1
    | _ => 1
/-- The tiles after the next K block of an operation, and the status bits that it sets, which become visible when the operation completes
(R111-R114, R232). -/
def Team.operate (t : Team) (o : PlOp) (ok : Bool) : Team × List (BitVec 4) :=
  match o.members with
  | [] => (t, [])
  | m :: _ =>
    let c := ctlOf m.ctl
    let n := nOf m.c
    let mul (ty : PType) : Team × List (BitVec 4) :=
      let rs := (List.range 4).map fun q => mmaTile ty n (satOf m.c) t o c o.next q
      ({ t with tiles := rs.map (·.1) }, rs.map (·.2))
    if !ok then t.malform
    else match m.kind with
      | .mma ty => mul ty
      | .mmac ty => mul ty
      | .mzero => ({ t with tiles := t.tiles.map fun x => x.fill 256 fun _ _ => 0 }, List.replicate 4 0#4)
      | .mload =>
        let word (r j : Nat) : Nat := leNat (t.fbytes (c.data + 16 * c.pitch * r + 4 * j) 4)
        ({ t with tiles := t.tiles.mapIdx fun q x => x.fill n fun r j => word (32 * q + r) j }, List.replicate 4 0#4)

/-- The head operation performs its next K block; a malformed one is over with its first (R114, R225). -/
def State.runBlockOf (s : State) (t : Team) (o : PlOp) (ok : Bool) : State :=
  let (t', marks) := t.operate o ok
  let all := if o.marks.isEmpty then marks else List.zipWith (· ||| ·) o.marks marks
  s.modTeam t.tid fun x => { x with
    tiles := t'.tiles, plq := setAt x.plq 0 fun _ => { o with next := if ok then o.next + 1 else 4, marks := all } }
/-- The head operation of a team's queue starts: the spans of B are read, from the team `src`, and its first K block is performed.
(DEDUCED, unsafe: log entry 15.) -/
def State.startHead (s : State) (t src : Team) (o osrc : PlOp) (ok : Bool) : State :=
  let s1 := s.runBlockOf t { o with started := true, bspan := src.spans osrc } ok
  if o.poisoned osrc t src then s1.dueCheck t.tid (some (1, t.core)) else s1

/-- The team's engines go on: it is resident and not under repair (R383). -/
def State.enginesRun (s : State) (t : Team) : Bool := t.st == .resident && !(s.repairs.any fun r => r.src == t.tid || r.dst == t.tid)

/-- PLATEN_OP_START (R224, R228, R231): the head of the queue has formed; an `MMAC` starts with those of its column.
(DEDUCED, unsafe: log entry 15.) -/
def execPlatenOpStart (tid : Nat) (s : State) : Host.Outcome State Fault Refusal :=
  let t := s.team tid
  match t.plq.head? with
  | none => .next s
  | some o =>
    if !s.enginesRun t || o.started || !o.formed then .next s
    else if !o.isMmac then .next (s.startHead t t o o o.agrees)
    else match s.columnOf t with
      | none => .next s
      | some col =>
        let heads := col.map fun x => (x, x.plq.head?)
        if heads.all fun x => s.enginesRun x.1 && x.2.any fun y => y.formed && y.isMmac && !y.started then
          let ops := heads.filterMap fun x => x.2.map fun y => (x.1, y)
          let first := (ops.headD (t, o))
          let lead := (first.2.members.headD { quarter := 0, kind := .mzero, ctl := [], breg := 0, c := 0#10, act := 0#64, promise := 0 })
          let ok := ops.all fun x => x.2.members.all (sameColumn lead)
          .next (ops.foldl (fun st x => st.startHead x.1 first.1 x.2 first.2 ok) s)
        else .next s

/-- PLATEN_OP_COMPLETE (R114, R224, R227): the next K block is performed, while one remains; then status becomes visible, the arrival is
made, the queue goes on. -/
def execPlatenOpComplete (tid : Nat) (s : State) : Host.Outcome State Fault Refusal :=
  let t := s.team tid
  match t.plq with
  | [] => .next s
  | o :: rest =>
    if !s.enginesRun t || !o.started then .next s
    else if o.next < o.blocks true then .next (s.runBlockOf t o true)
    else
      let s1 := s.modTeam tid fun x => { x with
        tiles := List.zipWith (fun (tl : Tile) (m : BitVec 4) => { tl with status := tl.status ||| m }) x.tiles o.marks
        plq := rest, plPromise := o.promise }
      let s2 := match o.bar with | some b => s1.arriveForme tid b | none => s1
      finish (s2.endCheck tid)

/-! ### Draining and status (R115, R116, R233-R235) -/

/-- An instruction that acts on the group's own tile after every operation that the group has issued (R224). -/
def tileOp (i : Instr) (s : State) (f : State → Ctx → Team → Nat → Nat → State × List (Nat × LaneEnd)) : Host.Outcome State Fault Refusal :=
  issue i s fun st c =>
    match c.p with
    | .lc _ => (st, nexts c.act)
    | .grp tid j =>
      let t := st.team tid
      if !(t.quad && t.member j) then (st, (Mask.lanes c.act).map fun l => (l, .trap { cause := 0x22 }))
      else if t.plq.any fun o => o.members.any (·.quarter == j % 4) then (st, (Mask.lanes c.act).map fun l => (l, .stay))
      else f st c t (j % 4) ((Mask.lanes c.act).headD 0)

/-- Tile status bits at their places in `s.fcsr` (R115). -/
def statusFlags (b : BitVec 4) : Flags :=
  (if b.getLsbD 0 then fNV else 0#32) ||| (if b.getLsbD 1 then fOF else 0#32) ||| (if b.getLsbD 2 then fSAT else 0#32) |||
  (if b.getLsbD 3 then fNANIN else 0#32)
/-- A drain's status: into the tile, and the tile's into the threads. -/
def State.drainStatus (s : State) (c : Ctx) (tid q : Nat) (marks : Nat) : State :=
  let s1 := s.modTeam tid fun t => t.modTile q fun x => { x with status := x.status ||| BitVec.ofNat 4 marks }
  s1.modGrp c.p fun g => g.modLanes c.act fun th => { th with fcsr := orFlags th.fcsr (statusFlags ((s1.team tid).tile q).status) }

/-- The bytes and scale bytes of one output row (R233), and the status bits. -/
def drainRow (ty : PType) (n : Nat) (sat : Bool) (row : Nat → Nat) : List Byte × List Byte × Nat :=
  let vals := (List.range n).map row
  if ty = .int8 then (vals.flatMap (natLe 4), [], 0)
  else if ty.mx then
    let blocks := (List.range (n / 32)).map fun b => mxQuantise ty.fmt false ((List.range 32).map fun k => row (32 * b + k))
    let els := blocks.flatMap fun b => b.2.1
    let bytes := if ty.bits = 4 then (List.range (n / 2)).map fun k => BitVec.ofNat 8 (els.getD (2 * k) 0 + 16 * els.getD (2 * k + 1) 0)
      else els.map (BitVec.ofNat 8)
    (bytes, blocks.map fun b => BitVec.ofNat 8 b.1,
      blocks.foldl (fun m b => m ||| (if b.2.2 &&& fNV != 0#32 then 1 else 0) ||| (if b.2.2 &&& fSAT != 0#32 then 4 else 0)) 0)
  else
    let es := vals.map (drainConv ty.fmt sat)
    (es.flatMap fun e => natLe (ty.bits / 8) e.1, [], es.foldl (fun m e => m ||| e.2) 0)

def execMdrain (t : PType) (w : BaseW) (s : State) : Host.Outcome State Fault Refusal :=
  tileOp (.mdrain t w) s fun st c tm q l0 =>
    let g := st.grp c.p
    let a := w.a.toNat
    let cb := ctlOf ((List.range 4).map fun k => g.rd l0 (a + k))
    let n := nOf w.c
    let rowB := t.outRow n
    let ends := rowArea cb.data (16 * cb.pitch) (32 * q + 32) rowB :: (if t.mx then [rowArea cb.soff cb.spitch (32 * q + 32) (n / 32)] else [])
    let all (x : Trap) : List (Nat × LaneEnd) := (Mask.lanes c.act).map fun l => (l, .trap x)
    if g.poi l0 a 4 then (st, all { cause := 0x18 })
    else match ctlCheck cb tm.fsize true false (16 * cb.pitch < rowB) ends with
      | some cause => (st, all { cause := cause })
      | none =>
        let rows := (List.range 32).map fun r => (32 * q + r, drainRow t n (satOf w.c) ((tm.tile q).get r))
        let s1 := rows.foldl (fun s0 x =>
          let s' := s0.formeWrite tm.tid (cb.data + 16 * cb.pitch * x.1) x.2.1
          if t.mx then s'.formeWrite tm.tid (cb.soff + cb.spitch * x.1) x.2.2.1 else s') st
        (s1.drainStatus c tm.tid q (rows.foldl (fun m x => m ||| x.2.2.2) 0), nexts c.act)

/-- The output format of `MDRAINV`; none leaves the word unchanged. -/
def drainvFmt : DrainV → Option Fmt | .bf16 => some BF16 | .f16 => some F16 | .e4m3 => some E4M3 | .e5m2 => some E5M2 | .i32 => none

def execMdrainv (t : DrainV) (w : BaseW) (s : State) : Host.Outcome State Fault Refusal :=
  tileOp (.mdrainv t w) s fun st c tm q l0 =>
    let g := st.grp c.p
    let a := g.src .int 1 w.a
    let j0 := 8 * ((a.val l0).toNat % 32)
    let tile := tm.tile q
    let lane (l : Nat) : List (Nat × Nat) := (List.range 4).map fun k =>
      let x := tile.get (l % 32) (j0 + 4 * (l / 32) + k)
      match drainvFmt t with | some f => drainConv f (satOf w.c) x | none => (x, 0)
    let bits := 32 * t.n / 4
    let vals := (Mask.lanes c.act).map fun l => (l, wordsOf t.n (unElN bits ((lane l).map (·.1))), Mask.has a.poi l0)
    let marks := (Mask.lanes c.act).foldl (fun m l => (lane l).foldl (fun m e => m ||| e.2) m) 0
    ((st.modGrp c.p fun g => g.putLanes w.d t.n vals .g).drainStatus c tm.tid q marks, nexts c.act)
where
  /-- Elements of a width side by side, the first lowest. -/
  unElN (bits : Nat) (l : List Nat) : Nat := l.foldr (fun x acc => x % 2 ^ bits + 2 ^ bits * acc) 0

def execMstat (w : BaseW) (s : State) : Host.Outcome State Fault Refusal :=
  tileOp (.mstat w) s fun st c tm q _ =>
    let v := ((tm.tile q).status).setWidth 32
    let s1 := st.modGrp c.p fun g => g.wrD w.d c.act (fun _ => v) .u 0#64
    (if w.c.getLsbD 1 then s1.modTeam tm.tid fun t => t.modTile q fun x => { x with status := 0#4 } else s1, nexts c.act)

end Sys2Proof.Machine
end

