-- ==== Sys2Proof/Machine/Teams.lean ====
section
/-!
DEFINITION. Teams in their initial state (R10, R11, R258), the save area (R359-R362), the save of a team (R356) and its restore
(R357, R358).
-/

namespace Sys2Proof.Machine

/-! ### Initial state (R258) -/

/-- Lane mask of `k` lanes from lane 0. -/
def firstLanes (k : Nat) : Mask := Mask.ofTest fun l => l < k

/-- Group `gi` of a fan-out family: the parent's registers below n with tag U, the index in vD, 0 in vD+1 (R42, R258).
(DESIGN CHOICE, safe: log entry 9.) (DEDUCED, unsafe: log entry 25.) -/
def Family.initGroup (f : Family) (gi seed : Nat) : Group :=
  let live := firstLanes (f.n - 64 * gi)
  let par := f.parent
  let spread (m : Mask) : Mask := if Mask.has m 0 then live else 0#64
  let regs := (par.regs.filter fun e => e.1 < f.nregs).map fun e => (e.1, ({ sh := .u (e.2.sh.lane 0), poison := spread e.2.poison } : Reg))
  let t0 := par.thr 0
  { live := live
    regs := putReg (putReg regs f.d { sh := .a (BitVec.ofNat 32 (64 * gi)) 1#32 }) (f.d + 1) {}
    preds := par.preds.map fun q => { bits := if Mask.has q.bits 0 then Mask.ofTest fun _ => true else 0#64, uni := true, poison := spread q.poison }
    threads := (List.range 64).map fun l =>
      { fam := f.famid, tix := 64 * gi + l, pc := f.outPc + 8#64, fcsr := t0.fcsr, lastPt := t0.lastPt,
        ftret := Config.ftret (seed * 2048 + 64 * (gi % 32) + l) } }

/-- Team `num` of replica `rid` before its first dispatch. -/
def Family.newTeam (f : Family) (tid num rid : Nat) : Team :=
  { tid := tid, fam := f.famid, rid := rid, num := num, cip := num % f.area, fsize := f.formeSize }

/-- The team in its initial state, on a core (R258, R352, R363), which acquires what its parent released (R287): forme and tiles hold free
values. -/
def State.launch (s : State) (t : Team) (core fbase : Nat) : State :=
  match s.fam? t.fam with
  | none => s
  | some f =>
    let first := !t.relaunch
    let t1 : Team := { Family.newTeam f t.tid t.num t.rid with
      st := .resident, restarts := t.restarts, core := core, fbase := fbase, since := s.pt, dispatched := s.pt, relaunch := t.relaunch
      firstCore := if first then core else t.firstCore, firstDie := if first then core / 24 else t.firstDie
      fseed := s.fresh, tiles := List.replicate 4 { seed := s.fresh }
      groups := (List.range (f.teamGroups t.num)).map fun j => 
        some { f.initGroup (t.num * f.groups + j) s.fresh with lastIssue := s.cycles + (s.core core).cyc } }
    ((s.modTeam t.tid fun _ => t1).acquire (.grp t.tid 0) 5).tick

/-! ### The save area (R359-R361) -/

/-- team_bytes (R256). -/
def Family.teamBytes (f : Family) : Nat :=
  4096 + f.formeSize + 131072 + (if f.repl > 1 then 262144 else 0) + f.groups * (2048 + 256 * f.nregs)
/-- save_bytes (R256). -/
def Family.saveBytes (f : Family) : Nat := 4096 + f.repl * f.teams * f.teamBytes
/-- The offset of a team's record (R359). -/
def Family.recordAt (f : Family) (rid num : Nat) : Nat := 4096 + (rid * f.teams + num) * f.teamBytes

/-- The physical address of an offset of the save area: pinned pages (R256), or the solo pool (R366). A page whose leaf software has unmapped
all the same lies at its virtual address. (DESIGN CHOICE, unsafe: log entry 53.) -/
def State.savePa (s : State) (f : Family) (off : Nat) : Nat :=
  if f.solo then s.own <| Config.soloRecord (f.famid.toNat / 2 ^ 20) + off
  else
    let va := BitVec.ofNat 64 (f.dw 5 + off)
    match s.walkQuiet (spaceOfPtbr f.ptbr false).root va with
    | .ok (leaf, _, level) => s.redirect (leafBase leaf / 2 ^ pageBits level * 2 ^ pageBits level + va.toNat % 2 ^ pageBits level)
    | .error _ => va.toNat
/-- A piece of the save area is stored line by line. -/
def State.saveStore (s : State) (f : Family) (off : Nat) (bs : List Byte) : State :=
  (List.range ((bs.length + 127) / 128)).foldl (fun st k =>
    st.storeHw (st.savePa f (off + 128 * k)) ((bs.drop (128 * k)).take 128)) s
/-- The bytes of a piece. -/
def State.saveRead (s : State) (f : Family) (off n : Nat) : List Byte :=
  (List.range n).map fun k => s.byte (s.savePa f (off + k))
def State.saveWord (s : State) (f : Family) (off n : Nat) : Nat := leNat (s.saveRead f off n)
/-- A byte of the piece is poisoned. -/
def State.savePoisoned (s : State) (f : Family) (off n : Nat) : Bool := (List.range n).any fun k => s.poisoned (s.savePa f (off + k)) 1

/-- State codes of R345, R344 and R346. -/
def TeamState.code : TeamState → Nat | .pending => 0 | .resident => 1 | .saving => 2 | .saved => 3 | .restart => 4 | .ended => 5
def FState.code : FState → Nat | .walking => 0 | .ready => 1 | .running => 2 | .stopped => 3 | .ended => 4
def GState.code : GState → Nat | .opened => 0 | .arriving => 1 | .region => 2 | .suspended => 3 | .ended => 4

/-- The bytes of a part whose format is the hardware level's. (DESIGN CHOICE, safe in part: log entry 14.) -/
def formatPart (part n seed : Nat) : List Byte := (List.range n).map fun k => Config.formatByte part k seed

/-- The family header (R359) but FCHK. -/
def State.familyHeader (s : State) (f : Family) : List Byte :=
  natLe 8 0x000100014153564B ++ natLe 8 (f.famid.toNat + f.state.code * 2 ^ 32) ++ (f.desc.flatMap fun d => natLe 8 d.toNat) ++
  natLe 8 f.n ++ natLe 8 f.teams ++ natLe 8 (s.simtTime f) ++
  natLe 8 (match f.closed with | some (fn, _) => 1 + 16 * fn | none => 0) ++
  natLe 8 (match f.closed with | some (_, h) => h.toNat | none => 0) ++
  natLe 8 (if f.redAny then f.redval.toNat else (match f.closed with | some (fn, _) => (redIdentity fn).toNat | none => 0)) ++
  natLe 8 f.flags.toNat ++ natLe 8 f.ended ++ natLe 8 f.repairs.toNat ++ formatPart 1 3936 s.fresh
/-- Writes the family header with its check word. -/
def State.writeHeader (s : State) (famid : W32) : State :=
  match s.fam? famid with
  | none => s
  | some f => if f.solo then s else
    let h := s.familyHeader f
    (s.saveStore f 0 (h ++ natLe 8 (Config.checkWord h).toNat)).tick

/-- The header's fields are current while the family is STOPPED (R359). -/
def State.headerNow (s : State) (famid : W32) : State :=
  if (s.fam? famid).any (·.state == .stopped) then s.writeHeader famid else s

/-- The team block (R360) up to the engine part, but TCHK. -/
def Team.block (t : Team) : List Byte :=
  let tiles := ((List.range 4).map fun q => (t.tile q).status.toNat * 16 ^ q).sum + (if t.quad then 2 ^ 16 else 0)
  natLe 8 (t.st.code + t.restarts * 2 ^ 8) ++ natLe 8 (t.num + t.cip * 2 ^ 32) ++ natLe 8 (t.firstCore + t.firstDie * 2 ^ 16) ++
  let plprog := match t.plq with | o :: _ => (if o.started then o.next else 0) | [] => 0
  natLe 8 tiles ++ (t.spq.flatMap fun q => natLe 8 (q.done % 2 ^ 32) ++ natLe 8 q.lastp) ++ natLe 8 plprog ++ natLe 144 0
/-- What TCHK covers: the block without bits 15:0 of TILES, which software may write (R360, R362). (DEDUCED, safe in part: log entry 14.) -/
def blockCovered (blk : List Byte) : List Byte := blk.take 0x18 ++ natLe 2 0 ++ blk.drop 0x1A

/-- A register's tag as saved (R358, R361): 0b11 with a poison mark in any lane. -/
def Reg.saveTag (r : Reg) : Nat := if r.poison != 0#64 then 3 else r.sh.code
def Reg.saveBytes (r : Reg) : List Byte :=
  if r.poison != 0#64 then allLanes.flatMap fun l => natLe 4 (r.sh.lane l).toNat
  else match r.sh with
    | .u v => natLe 4 v.toNat
    | .a b k => natLe 4 b.toNat ++ natLe 4 k.toNat
    | .g vs => allLanes.flatMap fun l => natLe 4 (vs.getD l 0#32).toNat
/-- Four tags in a byte. -/
def tagBytes (tags : List Nat) (n : Nat) : List Byte :=
  (List.range n).map fun k => BitVec.ofNat 8 (((List.range 4).map fun i => tags.getD (4 * k + i) 0 * 4 ^ i).sum)

/-- The bytes that GCHK covers: GHDR, LIVE, the PC values and TCTL. -/
def groupCovered (hdr live pcs tctl : List Byte) : List Byte := hdr ++ live ++ pcs ++ tctl
def Group.ghdr (g : Group) (j : Nat) (quad : Bool) : List Byte := natLe 8 (j + g.gst.code * 2 ^ 8 + (if quad then 2 ^ 16 else 0))
def Group.pcBytes (g : Group) : List Byte := allLanes.flatMap fun l => natLe 8 (g.thr l).pc.toNat

/-- The pieces of a group record (R361): offset and bytes. -/
def Group.pieces (g : Group) (j nregs seed : Nat) (quad : Bool) : List (Nat × List Byte) :=
  let tctl := formatPart 2 384 (64 * seed + j)
  let hdr := g.ghdr j quad
  let live := natLe 8 g.live.toNat
  let chk := Config.checkWord (groupCovered hdr live g.pcBytes tctl)
  let ptag (i : Nat) : Nat := let q := g.preds.getD i {}; if q.poison != 0#64 then 3 else if q.uni then 0 else 2
  [(0, hdr ++ natLe 8 g.rh ++ natLe 8 (g.mpMiss * 2 ^ 32 + g.mpPred) ++ natLe 8 g.shapeix.toNat ++ natLe 24 0 ++ natLe 8 chk.toNat),
   (0x40, tagBytes ((List.range nregs).map fun r => (g.reg r).saveTag) 192),
   (0x100, (List.range 7).flatMap fun i => natLe 8 ((g.preds.getD i {}).bits).toNat),
   (0x138, live ++ natLe 8 (((List.range 7).map fun i => ptag i * 4 ^ i).sum) ++ natLe 56 0),
   (0x180, g.pcBytes), (0x380, allLanes.flatMap fun l => natLe 4 (g.thr l).fcsr.toNat),
   (0x480, allLanes.flatMap fun l => natLe 8 (g.thr l).ftret.toNat), (0x680, tctl)] ++
  (List.range nregs).map fun r => (0x800 + 256 * r, (g.reg r).saveBytes)

/-- The offset of the group records in a team record. -/
def Family.groupsAt (f : Family) : Nat := 4096 + f.formeSize + 131072 + (if f.repl > 1 then 262144 else 0)

/-- The proof-buffer part (R375): the pieces of the entries that threads hold. -/
def Team.proofPieces (t : Team) (f : Family) : List (Nat × List Byte) :=
  let base := 4096 + f.formeSize + 131072
  (List.range t.groups.length).flatMap fun j => allLanes.flatMap fun l =>
    let held := ((t.grp j).thr l).held
    (List.range f.quota).map fun k =>
      let off := base + ((64 * j + l) * f.quota + k) * 32
      match held[k]? with
      | some e => (off, natLe 8 e.va.toNat ++ e.data ++ formatPart 3 (16 - e.data.length) k ++ natLe 4 (Nat.log2 e.data.length + 8) ++ natLe 4 0)
      | none => (off + 24, natLe 8 0)

/-- The proof-buffer part as the save area holds it. -/
def State.proofPart (s : State) (f : Family) (base : Nat) : List Byte := s.saveRead f (base + 4096 + f.formeSize + 131072) 262144
/-- The held stores of a thread as the record gives them (R375). -/
def State.readHeld (s : State) (f : Family) (base j l : Nat) (held : List Entry) : List Entry :=
  held.mapIdx fun k e =>
    let off := base + 4096 + f.formeSize + 131072 + ((64 * j + l) * f.quota + k) * 32
    { e with va := BitVec.ofNat 64 (s.saveWord f off 8), data := s.saveRead f (off + 8) (2 ^ (s.saveWord f (off + 24) 4 % 8)) }

/-- Writes a team record (R356 step 6). -/
def State.writeTeam (s : State) (f : Family) (t : Team) : State :=
  let base := f.recordAt t.rid t.num
  let blk := t.block
  let forme := (List.range f.formeSize).map fun x => t.fbyte x
  let tiles := (List.range 4).flatMap fun q => (List.range 32).flatMap fun i => (List.range 256).flatMap fun j => natLe 4 ((t.tile q).get i j)
  let groups := (List.range t.groups.length).flatMap fun j =>
    ((t.grp j).pieces j f.nregs s.fresh (t.quad && t.qmem.any fun m => m.any fun x => x.1 == j)).map fun (o, bs) =>
      (f.groupsAt + j * (2048 + 256 * f.nregs) + o, bs)
  let pieces := [(0, blk ++ natLe 8 (Config.checkWord (blockCovered blk)).toNat), (4096, forme), (4096 + f.formeSize, tiles)] ++
    (if f.repl > 1 then t.proofPieces f else []) ++ groups
  let s1 := pieces.foldl (fun st (o, bs) => st.saveStore f (base + o) bs) s
  -- the engine part opens with the check word of the proof buffer (R375)
  let engine := natLe 8 (if f.repl > 1 then (Config.checkWord (s1.proofPart f base)).toNat else 0) ++ formatPart 4 3832 s.fresh
  (s1.saveStore f (base + 0x100) engine).tick

/-! ### What software may have written (R362) -/

/-- A register from its tag and slot. -/
def regOf (tag : Nat) (slot : List Byte) (live : Mask) : Reg :=
  let w (k : Nat) : W32 := BitVec.ofNat 32 (leNat ((slot.drop (4 * k)).take 4))
  match tag with
  | 0 => { sh := .u (w 0) }
  | 1 => { sh := .a (w 0) (w 1) }
  | 2 => { sh := .g (allLanes.map w) }
  | _ => { sh := .g (allLanes.map w), poison := live }

/-- The group as the save area holds it: registers, predicates, `s.fcsr`, `s.ftret`. -/
def State.readGroup (s : State) (f : Family) (base : Nat) (g : Group) : Group :=
  let w (off n : Nat) : Nat := s.saveWord f (base + off) n
  let tag (r : Nat) : Nat := w (0x40 + r / 4) 1 / 4 ^ (r % 4) % 4
  let regs := (List.range f.nregs).foldl (fun l r => putReg l r (regOf (tag r) (s.saveRead f (base + 0x800 + 256 * r) 256) g.live)) []
  let preds := (List.range 7).map fun i =>
    let pt := w 0x140 8 / 4 ^ i % 4
    { bits := BitVec.ofNat 64 (w (0x100 + 8 * i) 8), uni := pt = 0, poison := if pt = 3 then g.live else 0#64 : PredV }
  { g with
    regs := regs.filter fun e => e.2 != {}
    preds := preds
    threads := g.threads.mapIdx fun l t =>
      { t with fcsr := BitVec.ofNat 32 (w (0x380 + 4 * l) 4) &&& 0x001F17DF#32, ftret := BitVec.ofNat 64 (w (0x480 + 8 * l) 8) } }

/-- The lanes whose PC the save area holds changed, and the new PC (R362). -/
def State.movedPcs (s : State) (f : Family) (base : Nat) (g : Group) : List (Nat × W64) :=
  (g.lanes g.live).filterMap fun l =>
    let pc : W64 := BitVec.ofNat 64 (s.saveWord f (base + 0x180 + 8 * l) 8)
    if pc == (g.thr l).pc then none else some (l, pc)

/-- The team as the save area holds it: forme, tiles, groups and held stores. -/
def State.readTeam (s : State) (f : Family) (t : Team) : Team :=
  let base := f.recordAt t.rid t.num
  let st := s.saveWord f (base + 0x18) 8
  let tile (q : Nat) : Tile :=
    { seed := (t.tile q).seed, status := BitVec.ofNat 4 (st / 16 ^ q)
      cells := (List.range 32).flatMap fun i => (List.range 256).map fun j =>
        (256 * i + j, BitVec.ofNat 32 (s.saveWord f (base + 4096 + f.formeSize + 32768 * q + 1024 * i + 4 * j) 4)) }
  { t with
    forme := (List.range f.formeSize).map fun x => (x, BitVec.ofNat 8 (s.saveWord f (base + 4096 + x) 1))
    tiles := (List.range 4).map tile
    groups := t.groups.mapIdx fun j g => g.map fun x =>
      let y := s.readGroup f (base + f.groupsAt + j * (2048 + 256 * f.nregs)) x
      if f.repl ≤ 1 then y else { y with threads := y.threads.mapIdx fun l th => { th with held := s.readHeld f base j l th.held } } }

/-- The check words of a record and of the family header hold, and no byte of the record is poisoned (R358). (DESIGN CHOICE, safe in part: log entry 14.) -/
def State.recordGood (s : State) (f : Family) (t : Team) : Bool :=
  let base := f.recordAt t.rid t.num
  let chk (bs : List Byte) (at_ : Nat) : Bool := (Config.checkWord bs).toNat == s.saveWord f at_ 8
  !s.savePoisoned f base f.teamBytes && (f.solo || chk (s.saveRead f 0 0xFF8) 0xFF8) &&
  chk (blockCovered (s.saveRead f base 0xF8)) (base + 0xF8) && (f.repl ≤ 1 || chk (s.proofPart f base) (base + 0x100)) &&
  (List.range t.groups.length).all fun j =>
    let gb := base + f.groupsAt + j * (2048 + 256 * f.nregs)
    chk (groupCovered (s.saveRead f gb 8) (s.saveRead f (gb + 0x138) 8) ((t.grp j).pcBytes) (s.saveRead f (gb + 0x680) 384)) (gb + 0x38)

/-! ### Save and restore of threads (R347, R356, R357) -/

/-- What a save leaves of a thread: waits that are executed again are ready at the restore (R347); the wait of a `BARX` resumes there and stays
parked whatever promise has passed (R221). (DEDUCED, unsafe: log entry 52.) -/
def Thread.atSave (t : Thread) : Thread :=
  { t with
    st := match t.st with
      | .sleep _ => .ready
      | .formeWait => .ready
      | .binding => .ready
      | .parked => .ready
      | x => x
    stood := t.stood || (t.st == .formeWait && t.barTok.isSome), rel := none, since := none }
/-- The rejoin timeouts and the bound of parked threads count afresh, and runs are formed anew (R14, R122, R347). -/
def Group.atRestore (g : Group) (cyc : Nat) : Group :=
  Group.limitRuns { g with points := g.points.map (fun q => { q with first := q.first.map fun _ => cyc }), parkedAt := [], lastIssue := cyc }
    (g.lanes g.live)

/-- A run of a group with an open speculative window has not been saved: the window resolves first (R126, R356 step 1). -/
def Team.settled (t : Team) : Bool := t.specs.isEmpty
/-- The team's stores have been performed, and no acknowledgement is outstanding (R356 steps 2 and 3). -/
def State.teamQuiet (s : State) (t : Team) : Bool :=
  t.settled && (t.groups.all fun g => g.all fun x => x.ackout == 0) &&
  !(s.pend.any fun x => match x.party with | .grp tid _ => tid == t.tid | .lc _ => false) &&
  s.wstores.all fun w => w.applied || !(w.party.any fun (p : Party) => match p with | .grp tid _ => tid == t.tid | .lc _ => false)

/-- A pre-emption request (R356): the team stops issuing; its save completes in TEAM_SAVE_COMPLETE. -/
def State.requestSave (s : State) (tid : Nat) : State :=
  (s.modTeam tid fun t => if t.st == .resident then { t with st := .saving } else t)

/-- The state of the core that a saved team leaves behind (R356 step 7). -/
def Team.saved (t : Team) : Team :=
  { t with
    st := .saved
    groups := t.groups.map fun g => g.map fun x => { x with threads := x.threads.map Thread.atSave } }

/-- The waiters of forme objects of the team are forgotten: their waits are executed again. -/
def State.dropForme (s : State) (tid : Nat) : State :=
  { s with waiters := s.waiters.filter fun w => w.forme != some tid }

/-- Waiters that were selected while the team was saved return with the current value (R211, R357). -/
def State.wakeSelected (s : State) (tid : Nat) : State :=
  (s.waiters.filter fun w => w.selected && (match w.party with | .grp t _ => t == tid | .lc _ => false)).foldl (fun st w => st.release1 w) s

end Sys2Proof.Machine
end

