-- ==== Sys2Proof/Machine/System.lean ====
section
/-!
DEFINITION. System instructions: system registers (R26-R31, R272, R273), `TIME`, the user traps, `EXIT` on each core kind, `PROOF`, trap
returns, `WFI`, `TLBSYNC`, `TLBKILL`, `HARVEST`, and the entry of interrupts (R131-R136, R262-R277, R284, R285, R339, R342).
-/

namespace Sys2Proof.Machine

/-! ### Values -/

/-- The tags of 32 registers of the selected block (R29). -/
def Group.shape (g : Group) (nregs : Nat) : Nat :=
  let b := g.shapeix.toNat / 32
  ((List.range 32).map fun i => if 32 * b + i < nregs then (g.reg (32 * b + i)).sh.code * 4 ^ i else 0).sum

/-- The family that a per-family register names: the thread's on a SIMT core, `s.famsel`'s on a latency core. -/
def State.sysFam (s : State) (p : Party) (l : Nat) : Option Family :=
  match p with
  | .lc n => s.fam? (s.lc n).famsel
  | .grp _ _ => s.famOf p l
/-- `s.ballast` in whole units; an ended family keeps its final value (R26, R252). -/
def Family.units (f : Family) (pt : Nat) : Nat := if f.state == .ended then f.ballast else f.balance pt / 1000

/-- The value of a system register that a thread reads (R16, R26). -/
def State.sysRead (s : State) (p : Party) (l num : Nat) : Nat :=
  let g := s.grp p
  let t := g.thr l
  let f := s.sysFam p l
  let c : LCore := match p with | .lc n => s.lc n | .grp _ _ => {}
  let tm : Option Team := match p with | .lc _ => none | .grp tid _ => s.team? tid
  match num with
  | 0x000 => s.pt
  | 0x001 => s.cycOf p % 2 ^ 64
  | 0x002 => t.fcsr.toNat
  | 0x003 => t.ftret.toNat
  | 0x004 => g.rh
  | 0x005 => g.ackout
  | 0x006 => g.shapeix.toNat
  | 0x007 => if p.isLc then 0 else g.shape (s.nregs p l)
  | 0x008 => g.mpMiss * 2 ^ 32 + g.mpPred
  | 0x009 => (s.core (match p with | .lc n => 576 + n | .grp tid _ => (s.team tid).core)).tdrepl % 2 ^ 64
  | 0x010 => if p.isLc then 0 else t.tix
  | 0x011 => if p.isLc then 0 else l
  | 0x012 => match p with | .lc _ => 0 | .grp _ j => j
  | 0x013 => (tm.map (·.num)).getD 0
  | 0x014 => if p.isLc then 0 else (f.map (·.n)).getD 0
  | 0x015 => match p with | .lc n => n | .grp _ _ => (tm.map (·.firstCore)).getD 0
  | 0x016 => match p with | .lc n => 24 + n / 24 | .grp _ _ => (tm.map (·.firstDie)).getD 0
  | 0x017 => if p.isLc then 0 else t.fam.toNat
  | 0x018 => s.ridOf p
  | 0x030 => (f.map fun x => x.units s.pt).getD 0
  | 0x031 => (f.map (·.rate)).getD 0
  | 0x032 => (f.map (·.cap)).getD 0
  | 0x033 => (f.map (·.repairs.toNat)).getD 0
  | 0x034 => s.packint.toNat
  | 0x040 => s.capbase.toNat
  | 0x041 => s.admode.toNat
  | 0x042 => s.finj.toNat
  | 0x043 => c.famsel.toNat
  | 0x050 => c.status.toNat
  | 0x051 => c.tvec.toNat
  | 0x052 => c.epc.toNat
  | 0x053 => c.cause.toNat
  | 0x054 => c.tval.toNat
  | 0x055 => c.scratch.toNat
  | 0x056 => c.ptbr.toNat
  | 0x057 => s.tdlim.toNat
  | 0x058 => s.drainint.toNat
  | _ => if 0x020 ≤ num && num ≤ 0x027 then (s.window p l (num - 0x020)).toNat else 0

/-- Only the bits of `m` take the value (R27). (DEDUCED, unsafe: log entry 23.) -/
def masked64 (old v m : W64) : W64 := (old &&& ~~~m) ||| (v &&& m)
def masked32 (old v m : W32) : W32 := (old &&& ~~~m) ||| (v &&& m)

/-- A write of a per-family register reaches a family that has not ended (R26). -/
def State.sysFamWrite (s : State) (p : Party) (l : Nat) (f : Family → Family) : State :=
  match s.sysFam p l with
  | none => s
  | some x => if x.state == .ended then s else s.modFam x.famid f

/-- `s.finj` as written (R389): ARM is cleared when FAMID names no living replicated family, or RID is not below its replication. -/
def State.armFinj (s : State) (v : W64) : State :=
  let w := v &&& 0x8FFFFFFFFFFFFFFF#64
  let live := s.fams.any fun f => f.famid == (BitVec.truncate 32 w : W32) && f.state != .ended && f.repl > 1 && w.toNat / 2 ^ 58 % 4 < f.repl
  { s with finj := if live then w else w &&& 0x7FFFFFFFFFFFFFFF#64, finjSeen := 0 }

/-- A write of a system register by a thread (R26-R31, R252, R266, R267, R332, R415). -/
def State.sysWrite (s : State) (p : Party) (l num : Nat) (v : W64) : Eff Unit :=
  let v32 : W32 := v.setWidth 32
  let lc (f : LCore → LCore) : Eff Unit := match p with | .lc n => Eff.ok (s.modLc n f) () | .grp _ _ => Eff.ok s ()
  match num with
  | 0x002 => Eff.ok (s.modThr p l fun t => { t with fcsr := fcsrWrite t.fcsr v32 }) ()
  | 0x003 => Eff.ok (s.modThr p l fun t => { t with ftret := v }) ()
  | 0x006 => if v.toNat ≥ 768 then Eff.trap s { cause := 0x03 } else Eff.ok (s.modGrp p fun g => { g with shapeix := v32 }) ()
  | 0x031 => Eff.ok (s.sysFamWrite p l fun f => { f.accrue s.pt with rate := v32.toNat }) ()
  | 0x032 => Eff.ok (s.sysFamWrite p l fun f => ({ f.accrue s.pt with cap := v.toNat } : Family).accrue s.pt) ()
  | 0x033 =>
    let s1 := s.sysFamWrite p l fun f => { f with repairs := v32 }
    Eff.ok ((s.sysFam p l).elim s1 fun f => s1.headerNow f.famid) ()
  | 0x034 => Eff.ok { s with packint := v32 } ()
  | 0x041 => Eff.ok (if v.getLsbD 0 && !s.dev.caps.getLsbD 8 then s else { s with admode := v.getLsbD 0 }) ()
  | 0x042 => Eff.ok (s.armFinj v) ()
  | 0x043 => lc fun c => { c with famsel := v32 }
  | 0x050 => lc fun c => { c with status := masked32 c.status v32 0x800FFC0E#32 }
  | 0x051 => lc fun c => { c with tvec := v }
  | 0x052 => lc fun c => { c with epc := v }
  | 0x053 => lc fun c => { c with cause := masked32 c.cause v32 0x800000FF#32 }
  | 0x054 => lc fun c => { c with tval := v }
  | 0x055 => lc fun c => { c with scratch := v }
  | 0x056 => lc fun c => { c with ptbr := masked64 c.ptbr v 0xFFFFFFFFFFFF0001#64 &&& 0xFFFFFFFFFFFF0001#64 }
  | 0x057 => Eff.ok { s with tdlim := masked32 s.tdlim v32 0x00FFFFFF#32 } ()
  | 0x058 => Eff.ok { s with drainint := v32 } ()
  | _ =>
    if 0x020 ≤ num && num ≤ 0x027 then
      lc fun c => { c with cws := setAt c.cws (num - 0x020) fun o => masked64 o v 0x00FFFFFFFFFFFF81#64 }
    else Eff.ok s ()

/-! ### SRR, SRW, SRSET, SRCLR (R272, R273) -/

/-- The registers whose read is executed once in a proofed family (R275). -/
def pinnedReg (num : Nat) : Bool := [0x000, 0x001, 0x004, 0x005, 0x008, 0x009, 0x015, 0x016, 0x030].contains num
/-- The transfer is 64 bits wide (R272). -/
def sysN (w : CtlW) : Nat := if sysWide w.num || w.p64 then 2 else 1

/-- A thread's read: PT never falls behind the last value it read (R33); pinned registers are read once (R275). -/
def State.sysGet (s : State) (p : Party) (l num : Nat) (key : List Nat) : Eff Nat :=
  let get (st : State) : Eff Nat :=
    if num = 0 && st.pt < (st.thr p l).lastPt then Eff.stall st else Eff.ok st (st.sysRead p l num)
  (if pinnedReg num then s.pin p l key get else get s).bind fun s1 v =>
    Eff.ok (if num = 0 then s1.modThr p l fun t => { t with lastPt := Nat.max t.lastPt v } else s1) v

/-- The tag of a read (R273): A for the lane and, in a fan-out family, the thread index; U when every thread reads one value. -/
def sysHint (g : Group) (fan : Bool) (num : Nat) (vs : List (Nat × Nat)) : Hint :=
  if g.single then .u
  else match vs with
    | [] => .u
    | (l, v) :: _ =>
      if num = 0x011 || (num = 0x010 && fan) then .a (BitVec.ofNat 32 (v - l)) 1#32
      else if vs.all (·.2 == v) then .u else .g

/-- Writes what a read gives: the odd register of a pair has tag U when its value is 0 for a 32-bit register (R27, R273). -/
def Group.putSys (g : Group) (d : BitVec 10) (n : Nat) (wide : Bool) (vs : List (Nat × Nat)) (h : Hint) : Group :=
  if !inReg d || vs.isEmpty then g
  else
    let who := Mask.ofLanes (vs.map (·.1))
    let val (l : Nat) : Nat := (assoc l vs).getD 0
    let g1 := g.wr d.toNat who (fun l => BitVec.ofNat 32 (val l)) h 0#64
    if n = 1 then g1 else g1.wr (d.toNat + 1) who (fun l => if wide then BitVec.ofNat 32 (val l / 2 ^ 32) else 0#32) (if wide then h else .u) 0#64

/-- The group's family is a fan-out family. (DEDUCED, unsafe: log entry 23.) -/
def State.fanOut (s : State) (p : Party) (l : Nat) : Bool := (s.famOf p l).any fun f => !f.solo

/-- `SRR` (R272). -/
def execSrr (w : CtlW) (s : State) : Host.Outcome State Fault Refusal :=
  issue (.srr w) s fun st c =>
    let (s1, rs) := eachLane st (Mask.lanes c.act) fun s l =>
      match sysCause w.num c.p.isLc (s.sup c.p) true false with
      | some k => Eff.trap s { cause := k }
      | none => s.sysGet c.p l w.num (onceKey (.srr w))
    let vs := okLanes rs
    (s1.modGrp c.p fun g => g.putSys w.d (sysN w) (sysWide w.num) vs (sysHint g (s1.fanOut c.p s1.curLane) w.num vs), endsOf rs)

/-- A write, in each active lane in ascending order: what is written comes from the operand and the old value, which is returned. A
poisoned operand raises cause 0x18. (DEDUCED, unsafe: log entry 23.) -/
def sysModify (i : Instr) (w : CtlW) (s : State) (rd : Bool) (f : W64 → W64 → W64) : Host.Outcome State Fault Refusal :=
  issue i s fun st c =>
    let a := (st.grp c.p).src .int (sysN w) w.a
    let (s1, rs) := eachLane st (Mask.lanes c.act) fun s l =>
      match sysCause w.num c.p.isLc (s.sup c.p) rd true with
      | some k => Eff.trap s { cause := k }
      | none =>
        if Mask.has a.poi l then Eff.trap s { cause := 0x18 }
        else
          let old := s.sysRead c.p l w.num
          let v := f (BitVec.ofNat 64 old) (a.val l)
          let v' : W64 := if sysWide w.num then v else (v.setWidth 32).setWidth 64
          (s.sysWrite c.p l w.num v').bind fun s2 _ => Eff.ok s2 old
    let vs := okLanes rs
    (if rd then s1.modGrp c.p fun g => g.putSys w.d (sysN w) (sysWide w.num) vs (sysHint g (s1.fanOut c.p s1.curLane) w.num vs) else s1,
      endsOf rs)

def execSrw (w : CtlW) (s : State) : Host.Outcome State Fault Refusal := sysModify (.srw w) w s false fun _ a => a
/-- SHAPEIX_WRITE (R29). -/
def execShapeixWrite (w : CtlW) (s : State) : Host.Outcome State Fault Refusal := sysModify (.shapeixWrite w) w s false fun _ a => a
/-- FCSR_WRITE (R28, R273). -/
def execFcsrWrite (w : CtlW) (s : State) : Host.Outcome State Fault Refusal := sysModify (.fcsrWrite w) w s false fun _ a => a
/-- BALLAST_CAP_WRITE (R252). -/
def execBallastCapWrite (w : CtlW) (s : State) : Host.Outcome State Fault Refusal :=
  sysModify (.ballastCapWrite w) w s false fun _ a => a
/-- FINJ_WRITE (R389). -/
def execFinjWrite (w : CtlW) (s : State) : Host.Outcome State Fault Refusal := sysModify (.finjWrite w) w s false fun _ a => a
/-- ADMODE_WRITE (R340, R422). -/
def execAdmodeWrite (w : CtlW) (s : State) : Host.Outcome State Fault Refusal := sysModify (.admodeWrite w) w s false fun _ a => a
/-- PTBR_WRITE (R332). -/
def execPtbrWrite (w : CtlW) (s : State) : Host.Outcome State Fault Refusal := sysModify (.ptbrWrite w) w s false fun _ a => a
/-- DRAININT_WRITE (R367). -/
def execDrainintWrite (w : CtlW) (s : State) : Host.Outcome State Fault Refusal := sysModify (.drainintWrite w) w s false fun _ a => a
def execSrset (w : CtlW) (s : State) : Host.Outcome State Fault Refusal := sysModify (.srset w) w s true fun o a => o ||| a
def execSrclr (w : CtlW) (s : State) : Host.Outcome State Fault Refusal := sysModify (.srclr w) w s true fun o a => o &&& ~~~a

/-! ### TIME (R274) -/

/-- The party's windowed stores have been performed at their homes (R302). -/
def State.homesDone (s : State) (p : Party) : Bool := s.wstores.all fun w => w.party != some p || w.applied
/-- Every earlier store of the party has been performed at its home, but for those that a proofed thread holds until its next proof point (R372).
(DEDUCED, unsafe: log entry 24.) -/
def State.storesDone (s : State) (p : Party) : Eff Unit :=
  (s.flush fun x => x.party == p).bind fun s1 _ =>
    if s1.homesDone p then Eff.ok s1 () else Eff.stall s1

/-- `TIME` (R274, R275). (DEDUCED, unsafe: log entry 24.) -/
def execTime (w : CtlW) (s : State) : Host.Outcome State Fault Refusal :=
  issue (.time w) s fun st c =>
    let (s1, rs) := eachLane st (Mask.lanes c.act) fun s l => (s.storesDone c.p).bind fun s1 _ => s1.sysGet c.p l 0 (onceKey (.time w))
    let vs := okLanes rs
    (s1.modGrp c.p fun g => g.putSys w.d 2 true vs (sysHint g false 0 vs), endsOf rs)

/-! ### User traps (R276), EXIT (R132, R133), PROOF (R277) -/

/-- Every active lane traps with a code from A. -/
def userTrap (i : Instr) (s : State) (cause : Nat) (a : Option (BitVec 10)) : Host.Outcome State Fault Refusal :=
  issue i s fun st c =>
    let x := match a with | some k => (st.grp c.p).src .int 1 k | none => Src.none
    (st, (Mask.lanes c.act).map fun l =>
      (l, .trap (if Mask.has x.poi l then { cause := 0x18 }
                 else { cause := cause, detail := BitVec.ofNat 64 ((x.val l).toNat % 2 ^ 32) })))

def execTrap (w : CtlW) (s : State) : Host.Outcome State Fault Refusal := userTrap (.trap w) s 0x32 (some w.a)
def execSys (w : CtlW) (s : State) : Host.Outcome State Fault Refusal := userTrap (.sys w) s 0x33 (some w.a)
def execBrk (w : CtlW) (s : State) : Host.Outcome State Fault Refusal := userTrap (.brk w) s 0x31 none

/-- A lane of a group as the single thread of a latency core (R24, R264). -/
def Group.laneGroup (g : Group) (l : Nat) (pc : W64) (blk : Option Blk) : Group :=
  let bit (m : Mask) : Mask := if Mask.has m l then 1#64 else 0#64
  let t := g.thr l
  { live := 1#64
    regs := g.regs.map fun e => (e.1, { sh := .u (e.2.sh.lane l), poison := bit e.2.poison })
    preds := g.preds.map fun q => { bits := bit q.bits, uni := true, poison := bit q.poison }
    threads := [{ pc := pc, blk := blk, fcsr := t.fcsr, lastPt := t.lastPt, pendPoison := t.pendPoison }] }

/-- The flags of a thread that ends join the family's (R28). -/
def State.mergeFlags (s : State) (p : Party) (l : Nat) : State :=
  let t := s.thr p l
  s.modFam t.fam fun f => { f with flags := f.flags ||| (t.fcsr &&& flagMask) }

/-- A solo thread's record is completed with its own state (R264): it resumes at `pc`, or in the trap of `EXIT`. -/
def State.soloReturn (s : State) (p : Party) (l : Nat) (pc : W64) (exit : Bool) : State :=
  let g := s.grp p
  let t := g.thr l
  s.modFam t.fam fun f => { f with
    parent := g.laneGroup l pc (if exit then t.blk else none)
    completed := some { pc := pc, result := none, flags := 0#32, exitMark := exit } }

/-- `EXIT` (R132, R133): a trap to system software on a latency core; on a SIMT core a proof point, a release at `.sys`, and the
thread's end. -/
def execExit (w : CtlW) (s : State) : Host.Outcome State Fault Refusal :=
  issue (.exit w) s fun st c =>
    match c.p with
    | .lc _ => (st, (Mask.lanes c.act).map fun l => (l, .trap { cause := 0x33, detail := 0xFFFFFFFFFFFFFFFF#64 }))
    | .grp tid j =>
      let (s1, rs) := eachLane st (Mask.lanes c.act) fun s l =>
        (s.proofPoint c.p l).bind fun s1 _ => s1.releaseFor c.p l 5
      let s2 := (okLanes rs).foldl (fun s (l, _) =>
        if s.gone c.p then s
        else
          let s' := if s.fanOut c.p l then s.mergeFlags c.p l else s.soloReturn c.p l (s.thr c.p l).pc true
          s'.endThread tid j l) s1
      (s2, rs.map fun r => (r.1, match r.2 with | .ok _ => .placed | .error e => e.done))

/-- `PROOF` (R277): a proof point in a proofed family, nothing elsewhere. -/
def execProof (w : CtlW) (s : State) : Host.Outcome State Fault Refusal :=
  issueL (.proof w) s 1023#10 0 (fun _ _ => .u) fun c st l => (st.proofPoint c.p l).bind fun s1 _ => Eff.ok s1 ([], false)

/-! ### Interrupts and returns of a latency core (R268-R271) -/

/-- MODE and IE of a status word. -/
def setModeIe (st : W32) (mode ie : Bool) : W32 :=
  masked32 st (BitVec.ofNat 32 ((if mode then 1 else 0) + (if ie then 4 else 0))) 0x5#32

/-- `ERET` with RES = 0 (R270): MODE and IE return, and the block context is the header HOFF words before `s.epc`. (DEDUCED, unsafe: log entry 23.) -/
def execEret (w : CtlW) (s : State) : Host.Outcome State Fault Refusal :=
  issue (.eret w) s fun st c =>
    match c.p with
    | .grp _ _ => (st, nexts c.act)
    | .lc n =>
      let lc := st.lc n
      let s1 := st.modLc n fun x => { x with
        status := setModeIe x.status (x.status.getLsbD 1) (x.status.getLsbD 3), resv := none, wait := .none }
      let hoff := lc.status.toNat / 2 ^ 10 % 1024
      if s1.returnWaits n lc.epc hoff then (st, (Mask.lanes c.act).map fun l => (l, .stay))
      else (s1.returnTo n lc.epc hoff, (Mask.lanes c.act).map fun l => (l, .placed))

/-- The parent's group at its resumption: the result pair and the merged flags over the record (R264). -/
def Family.resumeGroup (f : Family) (x : Completed) : Group :=
  let g := f.parent
  let g1 := match x.result with | some v => g.wrD64 (BitVec.ofNat 10 f.d) 1#64 (fun _ => v) .u 0#64 | none => g
  g1.modThr 0 fun t => { t with pc := x.pc, fcsr := t.fcsr ||| (x.flags &&& flagMask) }

/-- The family's slot is free again, and its generation count rises (R16, R270). -/
def State.freeSlot (s : State) (fam : W32) : State :=
  let slot := fam.toNat / 2 ^ 20
  { s with fams := s.fams.filter (·.famid != fam), gens := setAssoc slot ((fam.toNat + 1) % 2 ^ 20) s.gens,
           nets := s.nets.map fun e => { e with fails := e.fails.filter (·.1 != fam) } }

/-- `ERET` with RES = 1 (R270): the completed record of `s.famsel` is loaded, with MODE 0 and IE 1. -/
def execEretResumeFamily (w : CtlW) (s : State) : Host.Outcome State Fault Refusal :=
  issue (.eretResumeFamily w) s fun st c =>
    match c.p with
    | .grp _ _ => (st, nexts c.act)
    | .lc n =>
      let lc := st.lc n
      match (st.fam? lc.famsel).bind fun f => if f.state == .ended then f.completed.map fun x => (f, x) else none with
      | none => (st, (Mask.lanes c.act).map fun l => (l, .trap { cause := 0x03 }))
      | some (f, x) =>
        let s1 := (st.freeSlot lc.famsel).modLc n fun y => { y with
          grp := f.resumeGroup x, cws := f.cws, resv := none, wait := .none
          status := setModeIe (y.status &&& 0x7FFFFFFF#32) false true }
        let s2 := s1.acquire c.p 5
        (if x.exitMark then s2.trapLc n { cause := 0x33, detail := 0xFFFFFFFFFFFFFFFF#64 } else s2,
          (Mask.lanes c.act).map fun l => (l, .placed))

/-- `WFI` (R271): waits until an interrupt is pending. -/
def execWfi (w : CtlW) (s : State) : Host.Outcome State Fault Refusal :=
  issue (.wfi w) s fun st c =>
    match c.p with
    | .grp _ _ => (st, nexts c.act)
    | .lc n =>
      let go := !(st.lc n).pend.isEmpty
      (st.modLc n fun x => { x with wait := if go then .none else .wfi },
        (Mask.lanes c.act).map fun l => (l, if go then .next else .stay))

/-- The pending interrupt that is taken first: the lowest number, in the order in which they arose. -/
def firstIrq : List Irq → Option Irq
  | [] => none
  | i :: rest => match firstIrq rest with
    | none => some i
    | some j => if j.num < i.num then some j else some i

/-- INTERRUPT_ENTRY (R268, R269): a core with IE = 1 takes its first pending interrupt between instructions. A thread that waits in
`SLEEP`, `WAITV`, `BARW` or `BARX` gives up its wait, and its registration is withdrawn (R135, R213). -/
def execInterruptEntry (n : Nat) (s : State) : Host.Outcome State Fault Refusal :=
  let c := s.lc n
  if !s.running (.lc n) || !c.status.getLsbD 2 || c.inside then .next s
  else match firstIrq c.pend with
    | none => .next s
    | some i =>
      let t := s.thr (.lc n) 0
      let s1 := s.modLc n fun x => { x with pend := x.pend.erase i }
      let s2 := { s1 with waiters := s1.waiters.filter fun w => w.party != Party.lc n }
      finish (s2.takeTrap n true i.num i.tval t.pc t.hoff)

/-! ### Translations and store records (R285, R339, R341, R342) -/

/-- `TLBSYNC` (R339): a release at `.pkg`, then the wait until PT reaches its issue + 16,004. -/
def execTlbsync (w : CtlW) (s : State) : Host.Outcome State Fault Refusal :=
  issue (.tlbsync w) s fun st c =>
    match c.p with
    | .grp _ _ => (st, nexts c.act)
    | .lc n =>
      let t := st.thr c.p 0
      let from_ := t.since.getD st.pt
      let set (s : State) (x : LWait) : State := s.modLc n fun y => { y with wait := x }
      match (st.lc n).wait with
      | .tlbsync k =>
        let due := t.passed || st.pt ≥ k + 16004
        (if due then set st .none else st, (Mask.lanes c.act).map fun l => (l, if due then .next else .stay))
      | _ => match st.release c.p 4 with
        | (s1, .ok _) => (set s1 (.tlbsync from_), (Mask.lanes c.act).map fun l => (l, .stay))
        | (s1, .error e) => (s1, (Mask.lanes c.act).map fun l => (l, e.done))

/-- TLBSYNC_WAIT_END (R339): the cores whose wait has ended go on. -/
def execTlbsyncWaitEnd (s : State) : Host.Outcome State Fault Refusal :=
  .next { s with lcs := s.lcs.map fun c => match c.wait with
    | .tlbsync k => if s.pt ≥ k + 16004 then { c with grp := c.grp.modThr 0 fun t => { t with passed := true } } else c
    | _ => c }

/-- The translations that a `TLBKILL` names (R285, R339). (DEDUCED, unsafe: log entry 24.) -/
def killed (mode : Nat) (asid : Nat) (va : W64) (t : Tlb) : Bool :=
  match mode with
  | 0 => (t.asid == asid || leafBit t.leaf 5) && va.toNat / 2 ^ pageBits t.level == t.vpage
  | 1 => t.asid == asid && !leafBit t.leaf 5
  | _ => true

/-- `TLBKILL` (R339): every TLB drops the translations, and every issued access that used one has been performed. (DEDUCED, unsafe: log entry 24.) -/
def execTlbkill (w : CtlW) (s : State) : Host.Outcome State Fault Refusal :=
  issueL (.tlbkill w) s 1023#10 0 (fun _ _ => .u) fun c st l =>
    let g := st.grp c.p
    let a := g.src .int 2 w.a
    let b := g.src .int 1 w.b
    let mode := (b.val l).toNat % 2 ^ 32
    let va := a.val l
    if Mask.has b.poi l || (mode = 0 && Mask.has a.poi l) then Eff.trap st { cause := 0x18 }
    else if mode > 2 then Eff.trap st { cause := 0x03 }
    else if mode = 0 && !canonical va then Eff.trap st { cause := 0x13, va := va }
    else (st.storesDone c.p).bind fun s1 _ =>
      let asid := (s1.spaceOf c.p l).asid
      let s2 := { s1 with tlbs := s1.tlbs.filter fun t => !(killed mode asid va t), nleaf := [] }
      let used := s2.wstores.any (!·.applied) || s2.pend.any fun x => mode != 0 || x.va.toNat / 2 ^ 30 == va.toNat / 2 ^ 30
      if used then Eff.stall s2 else Eff.ok s2 ([], false)

/-- A page of `HARVEST`: the leaf's entry, and the page whose store record it consults (R342). -/
def State.harvestLeaf (s : State) (root : Nat) (a : W64) : Option (Nat × Nat) :=
  match s.walkQuiet root a with
  | .error _ => none
  | .ok (leaf, ea, level) =>
    some (ea, pageOf (s.redirect (leafBase leaf / 2 ^ pageBits level * 2 ^ pageBits level + a.toNat % 2 ^ pageBits level)))
/-- One page of `HARVEST` (R342): its store record is cleared, and D set in its leaf, by an update of the issuer's die. -/
def State.harvestPage (s : State) (root die : Nat) (a : W64) : State × Nat :=
  match s.harvestLeaf root a with
  | none => (s, 0)
  | some (ea, pg) => if s.recorded pg then ((s.record pg false).orEntry ea 0x80 (some die), 1) else (s, 0)
def State.harvestPages (s : State) (root die : Nat) (va : W64) : Nat → State × Nat
  | 0 => (s, 0)
  | k + 1 =>
    let (s1, n) := State.harvestPages s root die va k
    let (s2, m) := s1.harvestPage root die (va + BitVec.ofNat 64 (k * 2 ^ 17))
    (s2, n + m)
/-- The entries of the range that a home would hold back from their updates (R204, R392). -/
def State.harvestHeld (s : State) (root : Nat) (va : W64) (n : Nat) : List Nat :=
  (List.range n).filterMap fun k => match s.harvestLeaf root (va + BitVec.ofNat 64 (k * 2 ^ 17)) with
    | none => none
    | some (ea, pg) => if s.recorded pg && !s.mayStore (s.redirect ea) 8 none then some (s.redirect ea) else none

/-- `HARVEST` (R342). It begins when every update that it may have to make can be performed, so that the count is given after them.
(DEDUCED, unsafe: log entry 24.) -/
def execHarvest (w : CtlW) (s : State) : Host.Outcome State Fault Refusal :=
  issueL (.harvest w) s w.d 1 (fun _ _ => .u) fun c st l =>
    let g := st.grp c.p
    let a := g.src .int 2 w.a
    let b := g.src .int 1 w.b
    let n := (b.val l).toNat % 2 ^ 32
    let va := a.val l
    let stop := if upper va then 2 ^ 64 else 2 ^ 55
    if Mask.has a.poi l || Mask.has b.poi l then Eff.trap st { cause := 0x18 }
    else if n > 65536 then Eff.trap st { cause := 0x03 }
    else if !canonical va || va.toNat % 2 ^ 17 != 0 then Eff.trap st { cause := 0x13, va := va }
    else if va.toNat + n * 2 ^ 17 > stop then Eff.trap st { cause := 0x03 }
    else (st.storesDone c.p).bind fun s1 _ =>
      let root := (s1.spaceOf c.p l).root
      let held := s1.harvestHeld root va n
      if !s1.hwq.isEmpty || !held.isEmpty then Eff.stall (held.foldl (fun st a => st.press a 8 none) s1)
      else
        let (s2, k) := s1.harvestPages root (s1.dieOf c.p) va n
        Eff.ok s2 (wordsOf 1 k, false)

end Sys2Proof.Machine
end

