-- ==== Sys2Proof/Machine/Sched.lean ====
section
/-!
DEFINITION. The family scheduler and the team dispatcher (R344-R367, R369, R370): dispatch and restore, pre-emption, time slices, the
watchdog, `FSTOP` and `FRESUME` (R286), machine checks and restarts (R363, R388), self-test drains (R367, R417).
-/

namespace Sys2Proof.Machine

/-! ### Families between their teams (R344) -/

/-- STOPPED is entered: the header and the state codes of the records become current (R344, R359). -/
def State.enterStopped (s : State) (fam : W32) : State :=
  match s.fam? fam with
  | none => s
  | some f =>
    let s1 := s.modFam fam fun x => { x with state := .stopped, stopping := false }
    if f.solo then s1
    else
      let code (rid num : Nat) : Nat := match (s1.teamsOf fam).find? fun t => t.rid == rid && t.num == num with
        | some t => t.st.code + t.restarts * 2 ^ 8
        | none => 0
      let s2 := (List.range f.repl).foldl (fun st rid => (List.range f.teams).foldl (fun st' num =>
        st'.saveStore f (f.recordAt rid num) (natLe 8 (code rid num))) st) s1
      s2.writeHeader fam

/-- A running family without a team on a core is READY, or STOPPED when that was asked (R344, R356). -/
def State.familySettle (s : State) (fam : W32) : State :=
  match s.fam? fam with
  | none => s
  | some f =>
    if f.solo || f.state != .running || !(s.active fam).isEmpty then s
    else if f.stopping then s.enterStopped fam
    else s.modFam fam fun x => { x with state := .ready }

/-- The lanes' families of a packed group. -/
def State.packedFams (_s : State) (t : Team) : List W32 :=
  ((t.grp 0).lanes (t.grp 0).live).foldl (fun l k => addSet ((t.grp 0).thr k).fam l) []

/-! ### Saves (R356) -/

/-- Every team of an instance, and of a cohort family every team, is asked to save (R349, R352, R356). -/
def State.saveInstance (s : State) (fam : W32) (c : Nat) (rid : Option Nat) : State :=
  match s.fam? fam with
  | none => s
  | some f => (s.teamsOf fam).foldl (fun st t =>
      if (f.cohort || t.num / f.area == c) && (f.cohort || rid.all (· == t.rid)) then st.requestSave t.tid else st) s
def State.saveFamily (s : State) (fam : W32) : State := (s.teamsOf fam).foldl (fun st t => st.requestSave t.tid) s

/-- A team is saved: its record is written, and its core is free (R356 steps 6 and 7). -/
def State.saveTeam (s : State) (t : Team) : State :=
  let s1 := (s.dropForme t.tid).modTeam t.tid fun x => x.saved
  let s2 := s1.writeTeam (s1.recFam t) (s1.team t.tid)
  if t.packed then (s.packedFams t).foldl (fun st id => st.modFam id fun f =>
      if f.stopping then { f with state := .stopped, stopping := false } else if f.state == .running then { f with state := .ready } else f) s2
  else s2

/-- TEAM_SAVE_COMPLETE (R356): the saving teams of an instance, in every replica, are saved in one step once all are quiet. -/
def execTeamSaveComplete (tid : Nat) (s : State) : Host.Outcome State Fault Refusal :=
  match s.team? tid with
  | none => .next s
  | some t =>
    let f := s.recFam t
    let mine := if t.packed then [t] else (s.teamsOf t.fam).filter fun x => x.st == .saving && (f.cohort || x.num / f.area == t.num / f.area)
    if t.st != .saving || !(mine.all fun x => s.teamQuiet x) then .next s
    else
      let s1 := mine.foldl (fun st x => st.saveTeam x) s
      finish (if t.packed then s1 else ((s1.writeHeader t.fam).simtUpdate t.fam).familySettle t.fam)

/-! ### Restore (R357, R358, R362) -/

/-- What an `FRESUME` action does to a faulted thread of a resident team (R286): 1 resumes it, 2 skips its word, which for `MIGR.IN`
ends the thread, 3 ends it. -/
def State.answer (s : State) (tid j l action : Nat) : State :=
  let p : Party := .grp tid j
  let t := s.thr p l
  let isIn := match s.fetch p l t.pc with
    | (_, .ok w) => w.toNat / 2 ^ 56 == 0x08
    | _ => false
  if t.st != .faulted then s
  else if action = 1 then s.wake p l fun x => { x with ordered := 0 }
  else if action = 2 && !isIn then s.wake p l fun x => { x.advance with ordered := 0 }
  else (s.modThr p l fun x => { x with ordered := 0 }).endThread tid j l

/-- The threads with an action that waits for the dispatch. (DEDUCED, unsafe: log entry 26.) -/
def Team.orders (t : Team) : List (Nat × Nat × Nat) :=
  (List.range t.groups.length).flatMap fun j => ((t.grp j).lanes (t.grp j).live).filterMap fun l =>
    let x := ((t.grp j).thr l).ordered
    if x = 0 then none else some (j, l, x)

/-- A PC that software has changed: the thread enters it as a block entry, without rejoin points and windows (R362). -/
def State.enterMoved (s : State) (tid j l : Nat) (pc : W64) : State :=
  let p : Party := .grp tid j
  let s1 := s.modGrp p fun g => (g.modThr l fun t =>
    { t.clear with pc := pc, blk := none, rej := [], savedRej := [], wins := [], st := if t.st == .faulted then .faulted else .ready }).leavePoints l
  let s2 := s1.modTeam tid fun t => if t.quad then t else { t with qmem := t.qmem.map fun q => q.filter fun m => m.1 != j }
  (State.enter { s2 with waiters := s2.waiters.filter fun w => !(w.party == p && w.lane == l) } p l pc).modGrp p (·.limitRuns [l])

/-- The restore of a saved team on a core; a bad record is a machine check on it (R357, R358). (DEDUCED, unsafe: log entry 28.) -/
def State.restore (s : State) (t : Team) (core fbase : Nat) : State :=
  let f := s.recFam t
  let place (x : Team) : Team := { x with
    st := .resident, core := core, fbase := fbase, since := s.pt, dispatched := s.pt
    -- teams that wait in `QBIND` are granted in the order of their restore (R347)
    qmem := if x.quad then x.qmem else x.qmem.map fun q => q.map fun m => (m.1, s.pt)
    groups := x.groups.map fun g => g.map fun y => y.atRestore (s.cycles + (s.core core).cyc) }
  if !s.recordGood f t then
    State.modTeam { s with agenda := s.agenda ++ [Instr.machineCheck t.tid] } t.tid place
  else
    let base := f.recordAt t.rid t.num
    let moved := (List.range t.groups.length).flatMap fun j =>
      (s.movedPcs f (base + f.groupsAt + j * (2048 + 256 * f.nregs)) (t.grp j)).map fun (l, pc) => (j, l, pc)
    let s0 := (s.dropCore core).modCore core fun k => { k with predictor := k.predictor.filter fun e => !e.tids.contains t.tid }
    let s1 := s0.modTeam t.tid fun _ => place (s.readTeam f t)
    let s2 := moved.foldl (fun st (j, l, pc) => st.enterMoved t.tid j l pc) s1
    let s3 := t.orders.foldl (fun st (j, l, a) => st.answer t.tid j l a) (s2.wakeSelected t.tid)
    s3.endCheck t.tid

/-! ### What waits for cores (R348) -/

/-- A waiting instance: of a family, or one packed group; and the replicas of it that wait. -/
structure Cand where
  fam : W32
  inst : Nat
  rids : List Nat
  packed : Option Nat
  /-- a replica that waits alone while partners stand (R370) -/
  alone : Bool := false
  deriving DecidableEq, Repr
/-- The number under which an instance, or a replica of it that waits alone, is listed as passed over and reserving (R348). -/
def Cand.key (c : Cand) : Nat := 4 * c.inst + (if c.alone then c.rids.headD 0 + 1 else 0)

/-- The state of an instance of one replica: its teams that have been created. -/
def State.instOf (s : State) (f : Family) (c rid : Nat) : List Team := (s.teamsOf f.famid).filter fun t => t.rid == rid && t.num / f.area == c
/-- The replicas of an instance that wait: every team of it is pending, saved or ended, and not all have ended. -/
def State.waitingRids (s : State) (f : Family) (c : Nat) : List Nat :=
  (List.range f.repl).filter fun rid =>
    let ts := s.instOf f c rid
    (ts.isEmpty && c ≥ f.nextInst) || (ts.any (·.st != .ended) && ts.all fun t => t.st == .pending || t.st == .saved || t.st == .ended)
/-- A replica of the instance has been saved. -/
def State.instSaved (s : State) (f : Family) (c : Cand) : Bool := c.rids.any fun rid => (s.instOf f c.inst rid).any (·.st == .saved)
/-- The dies of the replicas of an instance that stand (R370). -/
def State.partnerDies (s : State) (f : Family) (c : Nat) : List Nat :=
  (List.range f.repl).filterMap fun rid => ((s.instOf f c rid).find? fun t => t.st == .resident || t.st == .saving).map fun t => t.core / 24
/-- What waits of an instance: all its replicas together, or each alone while a partner stands (R369, R370). -/
def State.instCands (s : State) (f : Family) (c : Nat) : List Cand :=
  let w := s.waitingRids f c
  if w.isEmpty then []
  else if (s.partnerDies f c).isEmpty then [{ fam := f.famid, inst := c, rids := w, packed := none }]
  else w.map fun rid => { fam := f.famid, inst := c, rids := [rid], packed := none, alone := true }

/-- The instances of a family that wait, in the dispatcher's order: saved ones first, then by number. Of those that have never been
created, the first and the last stand for all: they alone differ in shape. -/
def State.famCands (s : State) (f : Family) : List Cand :=
  if f.solo || f.stopping || !(f.state == .ready || f.state == .running) then []
  -- every instance of a cohort family is dispatched in one step (R349)
  else if f.cohort && !(s.active f.famid).isEmpty then []
  else
    let nums := ((List.range f.nextInst).filter fun c => s.teams.any fun t => t.fam == f.famid && t.num / f.area == c && !t.packed) ++
      (if f.cohort then (List.range f.insts).filter (f.nextInst ≤ ·)
       else [f.nextInst, f.insts - 1].filter fun c => f.nextInst ≤ c && c < f.insts).eraseDups
    let cs := nums.flatMap fun c => s.instCands f c
    (cs.filter fun c => s.instSaved f c) ++ cs.filter fun c => !s.instSaved f c

/-- The rank of a family: higher priority, earlier entry, lower slot (R348). -/
def Family.before (a b : Family) : Bool :=
  a.prio > b.prio || (a.prio == b.prio && (a.rank < b.rank || (a.rank == b.rank && a.famid.toNat / 2 ^ 20 < b.famid.toNat / 2 ^ 20)))
def insertFam (x : Family × List Cand) : List (Family × List Cand) → List (Family × List Cand)
  | [] => [x]
  | y :: ys => if x.1.before y.1 then x :: y :: ys else y :: insertFam x ys
/-- What is placed as one: an instance, and of a cohort family all its instances (R349); by rank. A packed group stands under the family of its
first lane. -/
def State.ranked (s : State) : List (Family × List Cand) :=
  let packs := s.teams.filterMap fun t => if t.packed && (t.st == .pending || t.st == .saved) then
    (s.packedFams t).head?.bind fun id => (s.fam? id).map fun f => (f, [({ fam := id, inst := 0, rids := [0], packed := some t.tid } : Cand)]) else none
  (((s.fams.map fun f => (f, s.famCands f)).filter (fun x => !x.2.isEmpty) ++ packs).foldr insertFam []).flatMap fun x =>
    if x.1.cohort then [x] else x.2.map fun c => (x.1, [c])

/-! ### Fitting a candidate (R350, R369) -/

/-- The needs of an instance of one replica: what its teams need where they have not ended. -/
def State.candNeeds (s : State) (f : Family) (c : Cand) (rid : Nat) : List (Option Need) :=
  match c.packed with
  | some tid => [some { Family.need (soloFam 0) 0 with quad := (s.team tid).quad }]
  | none => (f.instTeams c.inst).map fun num =>
      match (s.instOf f c.inst rid).find? (·.num == num) with
      | some t => if t.st == .ended then none else some { f.need num with quad := t.st == .saved && t.quad }
      | none => some (f.need num)
/-- The family whose shape and dies rule a candidate's placement. -/
def Cand.shape (c : Cand) (f : Family) : Family := if c.packed.isSome then { soloFam 0 with affinity := f.affinity } else f
/-- The partners that a candidate stands against. -/
def State.fixedDies (s : State) (f : Family) (c : Cand) : List Nat := if c.alone then s.partnerDies f c.inst else []
/-- The placement of a candidate over given holds: cores and bases for each waiting replica. -/
def State.fit (s : State) (hs : List Hold) (allow : Nat → Bool) (f : Family) (c : Cand) : Option (List (List (Nat × Nat))) :=
  placeReplicas s.coreUsable (c.shape f) allow (c.rids.map fun rid => (rid, s.candNeeds f c rid)) hs (s.fixedDies f c)

/-- The placement of what is placed as one: each instance after the holds of those before it (R349). -/
def State.fitUnit (s : State) (f : Family) (cs : List Cand) (allow : Nat → Bool) : List Hold → Option (List (Cand × List (List (Nat × Nat)))) :=
  cs.foldr (fun c k => fun hs => match s.fit hs allow f c with
    | none => none
    | some ps => (k ((c.rids.zip ps).foldl (fun h (rid, at_) => h ++ holdsOf (s.candNeeds f c rid) at_) hs)).map ((c, ps) :: ·)) fun _ => some []

/-- A reserving instance could fit on a die once the teams resident there end (R348). -/
def State.couldFit (s : State) (f : Family) (c : Cand) (d : Nat) : Bool :=
  c.rids.any fun rid => diesApart f.repl (s.fixedDies f c ++ [d]) &&
    (fitRect s.coreUsable [] d (c.shape f).cw (c.shape f).chh (s.candNeeds f c rid)).isSome

/-! ### Dispatch (R345, R348, R350) -/

/-- One team of a placed instance is launched, restored, or created and launched. (DEDUCED, unsafe: log entry 26.) -/
def State.placeTeam (s : State) (f : Family) (rid num core fbase : Nat) : State :=
  match (s.teamsOf f.famid).find? fun t => t.rid == rid && t.num == num with
  | some t => match t.st with
    | .pending => s.launch t core fbase
    | .saved => s.restore t core fbase
    | _ => s
  | none =>
    let t := f.newTeam s.nextTid num rid
    State.launch { s with teams := s.teams ++ [t], nextTid := s.nextTid + 1 } t core fbase

/-- The groups of a team that has been placed take the lowest free group slots of their quarters (R350). (DESIGN CHOICE, safe in part: log entry 47.) -/
def State.giveSlots (s : State) (mine : Team → Bool) : State :=
  (s.teams.filter fun t => mine t && t.st == .resident).foldl (fun st t =>
    let used (q : Nat) : List Nat := (st.teams.filter fun u => u.tid != t.tid && u.core == t.core && (u.st == .resident || u.st == .saving)).flatMap fun u =>
      ((List.range u.groups.length).filter (· % 4 == q)).filterMap fun j => (u.groups.getD j none).map (·.gslot)
    st.modTeam t.tid fun x => { x with groups := x.groups.mapIdx fun j g => g.map fun y =>
      { y with gslot := ((List.range 32).filter fun k => !(used (j % 4)).contains k).getD (j / 4) 0 } }) s

/-- The instances below a number that is placed out of order become explicit pending teams. Those that have never been created share what the
first of them has waited: it stands for all that have its shape (R348). -/
def State.makePending (s : State) (f : Family) (upTo : Nat) : State :=
  let new := (List.range upTo).filter (f.nextInst ≤ ·)
  let s1 := new.foldl (fun st c => (List.range f.repl).foldl (fun st rid => (f.instTeams c).foldl (fun (st : State) num =>
    { st with teams := st.teams ++ [f.newTeam st.nextTid num rid], nextTid := st.nextTid + 1 }) st) st) s
  let next := Nat.max f.nextInst (upTo + 1)
  let heirs := ((List.range (next + 1)).filter fun c => f.nextInst < c && c + 1 < f.insts).map (4 * ·)
  s1.modFam f.famid fun x => { x with
    nextInst := next
    passed := match assoc (4 * f.nextInst) x.passed with
      | some t => heirs.foldl (fun l k => if (assoc k l).isSome then l else l ++ [(k, t)]) x.passed
      | none => x.passed
    reserving := if x.reserving.contains (4 * f.nextInst) then heirs.foldl (fun l k => if l.contains k then l else l ++ [k]) x.reserving else x.reserving }

/-- An instance that is placed is no longer passed over (R348). -/
def Family.placed (x : Family) (k : Nat) : Family :=
  { x with state := .running, passed := x.passed.filter (·.1 != k), reserving := x.reserving.filter (· != k) }
/-- A candidate takes its placement: the family is RUNNING. -/
def State.place (s : State) (f : Family) (c : Cand) (ps : List (List (Nat × Nat))) : State :=
  match c.packed with
  | some tid =>
    let t := s.team tid
    let (core, fbase) := ((ps.headD []).headD (0, 0))
    let s1 := (s.packedFams t).foldl (fun st id => st.modFam id fun x => { x.placed c.key with state := if x.state == .ready then .running else x.state }) s
    State.giveSlots (mine := (·.tid == tid)) <| match t.st with
    | .saved => s1.restore t core fbase
    | _ => ((s1.modTeam tid fun x => { x with
        st := .resident, core := core, fbase := fbase, firstCore := core, firstDie := core / 24, since := s.pt, dispatched := s.pt, fseed := s.fresh
        groups := x.groups.map fun g => g.map fun y => { y with lastIssue := s.cycles + (s.core core).cyc } }).acquire (.grp tid 0) 5).tick
  | none =>
    let s0 := (if c.inst ≥ f.nextInst then s.makePending f c.inst else s).modFam f.famid fun x => x.placed c.key
    let s1 := (c.rids.zip ps).foldl (fun st (rid, at_) => ((f.instTeams c.inst).zip at_).foldl (fun st (num, (core, b)) =>
      st.placeTeam f rid num core b) st) s0
    let here := !(s1.active f.famid).isEmpty
    ((s1.giveSlots fun t => t.fam == f.famid && !t.packed && t.num / f.area == c.inst && c.rids.contains t.rid).modFam f.famid fun x => { x with
      -- a team may have ended in its restore, and the family with it (R344)
      state := if here && x.state == .ready then .running else x.state
      homeDie := match x.homeDie with
        | some d => some d
        | none => if c.inst = 0 then some (((ps.headD []).headD (0, 0)).1 / 24) else none }).simtUpdate f.famid

/-- Candidates that fitted nowhere while a lower one was placed are passed over (R348). -/
def State.passOver (s : State) (cs : List (W32 × Nat)) : State :=
  cs.foldl (fun st (id, c) => st.modFam id fun f =>
    if f.passed.any (·.1 == c) then f else { f with passed := f.passed ++ [(c, s.pt)] }) s

/-! ### Priority pre-emption (R353) -/

/-- What may be pre-empted on a die for priority `p`: each resident instance once, lowest priority first, latest dispatched first. -/
structure Victim where
  fam : W32
  inst : Nat
  rid : Nat
  packed : Option Nat
  prio : Nat
  since : Nat
  die : Nat
  deriving DecidableEq, Repr
def insertVictim (x : Victim) : List Victim → List Victim
  | [] => [x]
  | y :: ys => if x.prio < y.prio || (x.prio == y.prio && x.since ≥ y.since) then x :: y :: ys else y :: insertVictim x ys
def State.victims (s : State) (p : Nat) (die : Nat → Bool) : List Victim :=
  ((s.teams.filterMap fun t =>
    let f := s.recFam t
    if t.st == .resident && f.prio < p && die (t.core / 24) then
      some ({ fam := t.fam, inst := t.num / f.area, rid := t.rid, packed := if t.packed then some t.tid else none, prio := f.prio,
              since := t.dispatched, die := t.core / 24 } : Victim) else none).eraseDups).foldr insertVictim []
/-- The team belongs to a victim. (DEDUCED, unsafe: log entry 28.) -/
def State.inVictim (s : State) (v : Victim) (t : Team) : Bool :=
  match v.packed with
  | some tid => t.tid == tid
  | none => t.fam == v.fam && !t.packed && ((s.recFam t).cohort || (t.rid == v.rid && t.num / (s.recFam t).area == v.inst))
/-- The holds without saving teams and the first `k` victims. -/
def State.holdsWithout (s : State) (vs : List Victim) : List Hold :=
  State.holds { s with teams := s.teams.filter fun t => t.st == .resident && !(vs.any fun v => s.inVictim v t) }
/-- The least number of victims that makes a candidate fit. -/
def leastPrefix (fits : List Victim → Bool) (vs : List Victim) : Option (List Victim) :=
  (List.range (vs.length + 1)).findSome? fun k => if fits (vs.take k) then some (vs.take k) else none

/-- The pre-emptions that make an instance fit which fits on no die: on one die, the die with fewest; for a cohort family on any dies. None are
needed while what is being saved makes room. (DEDUCED, unsafe: log entry 28.) -/
def State.preempted (s : State) (f : Family) (cs : List Cand) (allow : Nat → Bool) : Option (List Victim) :=
  let fits (v : List Victim) : Bool := (s.fitUnit f cs allow (s.holdsWithout v)).isSome
  if f.cohort then leastPrefix fits (s.victims f.prio fun _ => true)
  else (List.range 24).foldl (fun (acc : Option (List Victim)) d =>
    match leastPrefix fits (s.victims f.prio (· == d)), acc with
    | some v, some w => if v.length < w.length then some v else some w
    | some v, none => some v
    | none, x => x) none

/-! ### The dispatcher's choice (R348, R353) -/

/-- What the dispatcher does next: a placement, with the instances that it passes over, or pre-emptions. -/
inductive Move1 where
  | place (f : Family) (at_ : List (Cand × List (List (Nat × Nat)))) (missed : List (W32 × Nat))
  | preempt (vs : List Victim)
  deriving DecidableEq, Repr

/-- The first instance in rank order that fits where none that is reserving before it could fit, or for which lower priorities are to be
pre-empted. Those before it that fit on no die are passed over. -/
def State.pick (s : State) : List (Family × List Cand) → (Nat → Bool) → List (W32 × Nat) → Option Move1
  | [], _, _ => none
  | (f, cs) :: rest, allow, missed =>
    match s.fitUnit f cs allow s.holds with
    | some x => some (.place f x missed)
    | none =>
      let nowhere := (s.fitUnit f cs (fun _ => true) s.holds).isNone
      let held := cs.filter fun c => f.cohort || f.reserving.contains c.key
      let allow' (d : Nat) : Bool := allow d && !(held.any fun c => s.couldFit f c d)
      let go := State.pick s rest allow' (missed ++ if nowhere && !f.cohort then cs.map fun c => (f.famid, c.key) else [])
      match (if nowhere then s.preempted f cs allow else none) with
      | some (v :: vs) => some (.preempt (v :: vs))
      | _ => go
/-- Teams may be dispatched: the link is not DOWN (R429), and a package of a domain has aligned its PT (R408). -/
def Link.aligned (l : Link) : Bool := l.state != .down && (l.ptSet || l.domain == 1#64 <<< l.pkg)
/-- The dispatcher's next move (R408, R429). -/
def State.dispatchMove (s : State) : Option Move1 := if !s.link.aligned then none else s.pick s.ranked (fun _ => true) []

/-- TEAM_DISPATCH (R348, R350, R353): one move of the dispatcher. -/
def execTeamDispatch (s : State) : Host.Outcome State Fault Refusal :=
  match s.dispatchMove with
  | none => .next s
  | some (.place f places missed) =>
    finish ((places.foldl (fun st (c, ps) => st.place ((st.fam? f.famid).getD f) c ps) s).passOver missed)
  | some (.preempt vs) =>
    finish (vs.foldl (fun st v => (st.teams.filter fun t => s.inVictim v t).foldl (fun st' t => st'.requestSave t.tid) st) s)

/-- DISPATCH_RESERVING (R348): an instance (`Cand.key`) that was passed over 1 ms ago is reserving. -/
def execDispatchReserving (fam : W32) (inst : Nat) (s : State) : Host.Outcome State Fault Refusal :=
  .next (s.modFam fam fun f =>
    if f.passed.any (fun x => x.1 == inst && s.pt ≥ x.2 + 1000000) && !f.reserving.contains inst then
      { f with reserving := f.reserving ++ [inst] } else f)

/-! ### Slices and the watchdog (R352, R354) -/

/-- The teams whose slice is one: an instance in every replica, a cohort family, a packed group. -/
def State.sliceTeams (s : State) (f : Family) (inst : Nat) : List Team :=
  if f.solo then s.teams.filter fun t => t.packed && t.st == .resident && (s.packedFams t).contains f.famid
  else (s.teamsOf f.famid).filter fun t => t.st == .resident && (f.cohort || t.num / f.area == inst)

/-- Cores of a test half. -/
def unitCores (u : Nat) : List Nat := (List.range 24).filterMap fun k => if testUnit (24 * (u / 2) + k) == u then some (24 * (u / 2) + k) else none
/-- The next unit with a core in service. -/
def State.nextUnit (s : State) : Option Nat :=
  let start := if s.drain.last = 0 then 0 else s.drain.unit + 1
  ((List.range 48).map fun k => (start + k) % 48).find? fun u => (unitCores u).any fun c => !s.dev.harvest.contains c && !(s.core c).removed
/-- A drain is due (R367). -/
def State.drainDue (s : State) : Bool := s.drainint != 0#32 && !s.drain.busy && s.pt ≥ s.drain.last + s.drainint.toNat * 1000000000

/-- An instance of another family of equal or higher priority waits for cores of a die of the expired teams: it fits on no die, and would fit there
once the instance `mine`, in every replica, is saved (R352, R370). -/
def State.someoneWaits (s : State) (f : Family) (mine expired : List Team) : Bool :=
  let without := State.holds { s with teams := s.teams.filter fun t => !(mine.any (·.tid == t.tid)) }
  s.ranked.any fun (g, cs) =>
    -- of a replicated instance, and of a cohort family, the other parts may take other dies
    let here (d : Nat) : Bool := g.cohort || cs.any (·.rids.length > 1) || expired.any fun t => t.core / 24 == d
    g.famid != f.famid && g.prio ≥ f.prio && (s.fitUnit g cs (fun _ => true) s.holds).isNone && (s.fitUnit g cs here without).isSome

/-- A drain or a priority pre-emption that is due now takes a team: its request discards an expiry (R355). -/
def State.requestDue (s : State) (mine : List Team) : Bool :=
  (s.drainDue && s.nextUnit.any fun u => mine.any fun t => testUnit t.core == u) ||
  match s.dispatchMove with
  | some (.preempt vs) => vs.any fun v => mine.any fun t => s.inVictim v t
  | _ => false

/-- TIME_SLICE_EXPIRY (R352, R355). -/
def execTimeSliceExpiry (fam : W32) (inst : Nat) (s : State) : Host.Outcome State Fault Refusal :=
  match s.fam? fam with
  | none => .next s
  | some f =>
    let mine := s.sliceTeams f inst
    let expired := mine.filter fun t => s.pt ≥ t.since + f.slice
    if expired.isEmpty || s.requestDue mine then .next s
    else if s.someoneWaits f mine expired then
      let ids := if f.solo then mine.flatMap fun t => s.packedFams t else [fam]
      let s1 := mine.foldl (fun st t => st.requestSave t.tid) s
      .next (ids.foldl (fun st id => st.modFam id fun x => { x with rank := s.pt }) s1)
    else .next (expired.foldl (fun st t => st.modTeam t.tid fun x => { x with since := s.pt }) s)

/-- The watchdog of a family is due: its SIMT time has reached dw3 (R354). -/
def State.watchDue (s : State) (f : Family) : Bool :=
  f.state == .running && f.dw 3 != 0 && !f.watchFired && s.simtTime f ≥ f.dw 3
/-- WATCHDOG_EXPIRY (R354): the family is stopped, and one record names the time it has consumed. -/
def execWatchdogExpiry (s : State) : Host.Outcome State Fault Refusal :=
  finish ((s.fams.filter fun f => s.watchDue f).foldl (fun st f =>
    let s1 := (st.saveFamily f.famid).modFam f.famid fun x => { x with stopping := true, watchFired := true }
    s1.postFault f.famid (faultRecord f.famid 0 0x30 0xFFFFFFFF 0 0 0#64 0#64 s.pt (BitVec.ofNat 64 (f.dw 3))) none) s)

/-- BALLAST_ACCRUAL (R252): the balance is brought up to PT. -/
def execBallastAccrual (fam : W32) (s : State) : Host.Outcome State Fault Refusal :=
  .next (s.modFam fam fun f => if f.state == .ended then f else f.accrue s.pt)

/-! ### FSTOP and FRESUME (R286, R344, R366) -/

/-- A status of R286 in vD. -/
def status32 (i : Int) : List W32 := [BitVec.ofInt 32 i]

/-- `FSTOP` and `FRESUME` on a latency core: A names the family, and a body gives the new state and the status, or waits.
(DEDUCED, unsafe: log entry 26.) -/
def famOp (i : Instr) (w : CtlW) (s : State) (useC : Bool) (f : State → W32 → Nat → Nat → Bool → Eff Int) : Host.Outcome State Fault Refusal :=
  issueL i s w.d 1 (fun _ _ => .u) fun c st l =>
    let g := st.grp c.p
    let a := g.src .int 1 w.a
    let b := g.src .int 1 w.b
    let x := if useC then g.src .int 1 w.c else Src.none
    let n32 (v : W64) : Nat := v.toNat % 2 ^ 32
    if Mask.has (a.poi ||| b.poi ||| x.poi) l then Eff.trap st { cause := 0x18 }
    else (f st (BitVec.ofNat 32 (n32 (a.val l))) (n32 (b.val l)) (n32 (x.val l)) ((g.thr l).since.isSome)).bind fun s1 v => Eff.ok s1 (status32 v, false)

/-- `FSTOP` with disposition 0, or one out of range. (DEDUCED, unsafe: log entry 26.) -/
def execFstopStop (w : CtlW) (s : State) : Host.Outcome State Fault Refusal :=
  famOp (.fstopStop w) w s false fun st id disp _ again =>
    match st.fam? id with
    | none => Eff.ok st (-1)
    | some f =>
      if f.state == .ended then Eff.ok st (-1)
      else if disp != 0 then Eff.ok st (-3)
      else match f.state with
        | .stopped => Eff.ok st (if again then 0 else -2)
        | .running =>
          let s1 := st.modFam id fun x => { x with stopping := true }
          Eff.stall (if f.solo then (s1.sliceTeams f 0).foldl (fun st' t => st'.requestSave t.tid) s1 else (s1.saveFamily id).familySettle id)
        | x => Eff.ok ((st.modFam id fun y => { y with fromWalking := x == .walking }).enterStopped id) 0

/-- `FSTOP` with disposition 1: the family ends with c = 0xFF. -/
def execFstopEnd (w : CtlW) (s : State) : Host.Outcome State Fault Refusal :=
  famOp (.fstopEnd w) w s false fun st id _ _ _ =>
    match st.fam? id with
    | none => Eff.ok st (-1)
    | some f => if f.state == .ended then Eff.ok st (-1) else Eff.ok (st.endFamilyBy id 0xFF) 0

/-- `FRESUME` with action 0, or one out of range. (DEDUCED, unsafe: log entry 26.) -/
def execFresumeRestart (w : CtlW) (s : State) : Host.Outcome State Fault Refusal :=
  famOp (.fresumeRestart w) w s true fun st id act _ _ =>
    match st.fam? id with
    | none => Eff.ok st (-1)
    | some f =>
      if f.state == .ended then Eff.ok st (-1)
      else if act != 0 then Eff.ok st (-3)
      else if f.state != .stopped then Eff.ok st (-2)
      else if f.solo then
        let on := st.teams.any fun t => t.packed && t.st == .resident && (st.packedFams t).contains id
        Eff.ok (st.modFam id fun x => { x with state := if on then .running else .ready, rank := st.pt }) 0
      else Eff.ok (st.modFam id fun x => { x with state := if f.fromWalking then .walking else .ready, fromWalking := false, rank := st.pt }) 0

/-- The faulted copies of a thread, in every replica: team, group, lane. -/
def State.faultedAt (s : State) (fam : W32) (tix : Nat) : List (Nat × Nat × Nat) :=
  s.teams.flatMap fun t => if t.fam != fam && !t.packed then [] else
    (List.range t.groups.length).flatMap fun j => ((t.grp j).lanes (t.grp j).live).filterMap fun l =>
      let x := (t.grp j).thr l
      if x.fam == fam && x.tix == tix && x.st == .faulted && x.ordered = 0 then some (t.tid, j, l) else none
/-- The parked spool operations of a thread: team, queue, operation. -/
def State.parkedOps (s : State) (fam : W32) (tix : Nat) : List (Nat × Nat × SpOp) :=
  s.teams.flatMap fun t => if t.fam != fam && !t.packed then [] else
    (List.range 4).filterMap fun q => match (t.queue q).head with
      | some o => if o.parked.isSome && ((t.grp o.grp).thr o.lane).fam == fam && ((t.grp o.grp).thr o.lane).tix == tix then some (t.tid, q, o) else none
      | none => none

/-- Actions 1 to 3 on a thread that is parked, or whose spool operation is (R241, R286). A saved team's thread is answered at its next
dispatch. (DEDUCED, unsafe: log entry 26.) -/
def State.fresume (s : State) (fam : W32) (tix action : Nat) : State × Int :=
  match s.fam? fam with
  | none => (s, -1)
  | some f =>
    if f.state == .ended then (s, -1)
    else
      let ths := s.faultedAt fam tix
      let ops := s.parkedOps fam tix
      if ths.isEmpty && ops.isEmpty then (s, -4)
      else
        let s1 := if ths.isEmpty || action = 3 then ops.foldl (fun st (tid, q, o) =>
            st.modTeam tid fun t => t.modQueue q fun x => x.setHead (if action = 1 then { o with parked := none } else o.skip)) s else s
        let live := if action = 3 && ths.isEmpty then s.teams.flatMap fun t => if t.fam != fam && !t.packed then [] else
            (List.range t.groups.length).flatMap fun j => ((t.grp j).lanes (t.grp j).live).filterMap fun l =>
              if ((t.grp j).thr l).fam == fam && ((t.grp j).thr l).tix == tix then some (t.tid, j, l) else none
          else []
        let s2 := live.foldl (fun st (tid, j, l) => st.endThread tid j l) s1
        (ths.foldl (fun st (tid, j, l) =>
          if (st.team tid).st == .resident then st.answer tid j l action else st.modThr (.grp tid j) l fun x => { x with ordered := action }) s2
          |>.headerNow fam, 0)

def execFresumeResume (w : CtlW) (s : State) : Host.Outcome State Fault Refusal :=
  famOp (.fresumeResume w) w s true fun st id _ tix _ => let (s1, v) := st.fresume id tix 1; Eff.ok s1 v
def execFresumeSkip (w : CtlW) (s : State) : Host.Outcome State Fault Refusal :=
  famOp (.fresumeSkip w) w s true fun st id _ tix _ => let (s1, v) := st.fresume id tix 2; Eff.ok s1 v
def execFresumeKill (w : CtlW) (s : State) : Host.Outcome State Fault Refusal :=
  famOp (.fresumeKill w) w s true fun st id _ tix _ => let (s1, v) := st.fresume id tix 3; Eff.ok s1 v

/-! ### Machine checks and restarts (R363, R388) -/

/-- Threads of a team that have ended. -/
def Family.endedIn (f : Family) (t : Team) : Nat :=
  ((List.range t.groups.length).map fun j => ((List.range 64).filter fun l =>
    64 * (t.num * f.groups + j) + l < f.n && !Mask.has (t.grp j).live l).length).sum

/-- TEAM_RESTART (R363): what the team has not performed at its homes is dropped, windowed stores among it, and it is pending again; the other teams of its instance are
saved. -/
def State.teamRestart (s : State) (t : Team) : State :=
  match s.fam? t.fam with
  | none => s
  | some f =>
    let s1 := s.dropParty t.tid
    let keyOf (tix : Nat) : Bool := tix / 64 / f.groups == t.num
    let s2 := { s1 with
      proofs := s1.proofs.filter fun e => !(e.fam == t.fam && keyOf e.tix && e.rid == t.rid)
      onces := s1.onces.filter fun e => !(e.fam == t.fam && keyOf e.tix && e.rid == t.rid)
      clocks := s1.clocks.filter fun e => !(e.fam == t.fam && keyOf e.tix)
      segs := s1.segs.filter fun g => !(g.fam == t.fam && g.num == t.num && g.rid == t.rid)
      wstores := s1.wstores.filter fun w => w.applied || !(w.party.any fun (p : Party) => match p with | .grp tid _ => tid == t.tid | .lc _ => false) }
    let s2 := s2.modFam t.fam fun x => { x with pinned := x.pinned.filter fun y => !keyOf y.tix }
    let s3 := s2.modTeam t.tid fun _ => { f.newTeam t.tid t.num t.rid with
      restarts := t.restarts + 1, relaunch := true, firstCore := t.firstCore, firstDie := t.firstDie }
    let s4 := if t.rid = 0 then s3.modFam t.fam fun x => { x with ended := x.ended - f.endedIn t } else s3
    ((s4.saveInstance t.fam (t.num / f.area) (some t.rid)).simtUpdate t.fam).familySettle t.fam

/-- Teams restart together, or the family ends with `cause` when one has restarted three times (R363, R381). -/
def State.restartAll (s : State) (fam : W32) (ts : List Team) (cause : Nat) : State :=
  if ts.any (·.restarts ≥ 3) then s.endFamilyBy fam cause else ts.foldl (fun st t => st.teamRestart t) s

/-- The team's copies in every replica. -/
def State.copies_ (s : State) (t : Team) : List Team := (s.teamsOf t.fam).filter (·.num == t.num)

/-- A thread of the source takes over what the dissenter's copy holds for all replicas: the one registration of a wait, or the right to
perform an operation that has compared equal (R384). -/
def Thread.takeOver (t old : Thread) : Thread :=
  if t.st != .onceWait || t.e != old.e then t
  else if old.st == .engineWait then { t with st := .engineWait, onceGo := true, barTok := old.barTok, passed := old.passed }
  else if old.onceGo then { t with st := .ready, onceGo := true, got := old.got, barTok := old.barTok, passed := old.passed }
  else t
/-- The registrations and rights of a dissenter's team go to the source's. (DEDUCED, unsafe: log entry 29.) -/
def State.takeOver (s : State) (src dst : Team) : State :=
  let s1 := s.modTeam src.tid fun t => { t with groups := t.groups.mapIdx fun j g => g.map fun x =>
    { x with threads := x.threads.mapIdx fun l th => th.takeOver ((dst.grp j).thr l) } }
  { s1 with waiters := s1.waiters.map fun w => match w.party with
      | .grp tid j => if tid == dst.tid && w.forme.isNone && ((s1.thr (.grp src.tid j) w.lane).st == .engineWait) then { w with party := .grp src.tid j } else w
      | .lc _ => w }

/-- REPAIR (R383): the source and the dissenter stop issuing; the dissenter's requests at engines are withdrawn, but for what the dissenter
held for all replicas. -/
def State.startRepair (s0 : State) (src dst : Team) : State :=
  if s0.repairs.any fun r => r.src == src.tid && r.dst == dst.tid then s0
  else
    let s := s0.takeOver src dst
    let f := (s.fam? dst.fam).getD (soloFam 0)
    let keyOf (tix : Nat) : Bool := tix / 64 / Nat.max 1 f.groups == dst.num
    let s1 : State := { s.dropParty dst.tid with
      repairs := s.repairs ++ [{ fam := dst.fam, src := src.tid, dst := dst.tid }]
      proofs := s.proofs.filter fun e => !(e.fam == dst.fam && keyOf e.tix && e.rid == dst.rid)
      onces := s.onces.filter fun e => !(e.fam == dst.fam && keyOf e.tix && e.rid == dst.rid)
      segs := s.segs.filter fun g => !(g.fam == dst.fam && g.num == dst.num && g.rid == dst.rid) }
    -- a key that nothing is pending for has no clock (R380)
    let pending (c : Clock) : Bool := match c.key with
      | .interval q => s1.proofs.any fun e => e.fam == c.fam && e.tix == c.tix && e.q == q
      | .once e => s1.onces.any fun o => o.fam == c.fam && o.tix == c.tix && o.e == e
      | .seg queue op seg => s1.segs.any fun g => g.fam == c.fam && g.num == dst.num && g.queue == queue && g.op == op && g.seg == seg && g.posted
    { s1 with clocks := s1.clocks.filter fun c => !(c.fam == dst.fam && keyOf c.tix) || pending c }

/-- MACHINE_CHECK (R363, R388): a team in triple mode is repaired; a restartable family's team restarts, in dual mode in both
replicas; any other family ends with c = 0x19. (DEDUCED, safe in part: log entry 27.) -/
def execMachineCheck (tid : Nat) (s : State) : Host.Outcome State Fault Refusal :=
  match s.team? tid with
  | none => .next s
  | some t =>
    if t.st == .ended || t.st == .pending then .next s
    -- open speculative windows resolve first (R126)
    else if !t.specs.isEmpty then .next { s with agenda := t.specs.map (fun x => Instr.maskPredictionResolve tid x.1) ++ .machineCheck tid :: s.agenda }
    else if t.packed then
      let ids := s.packedFams t
      finish (ids.foldl (fun st id => st.endFamilyBy id 0x19) (s.checkRecord t (ids.headD 0#32)))
    else match s.fam? t.fam with
      | none => .next s
      | some f =>
        if f.repl = 3 then
          match (s.copies_ t).find? fun x => x.rid != t.rid && (x.st == .resident || x.st == .saving || x.st == .saved) with
          | some src => .next (s.startRepair src t)
          | none => .next s
        else
          let s1 := s.checkRecord t t.fam
          finish (if f.restartable then s1.restartAll t.fam (if f.repl = 2 then s1.copies_ t else [t]) 0x19 else s1.endFamilyBy t.fam 0x19)

/-! ### Self-test drains (R367, R417) -/

/-- SELF_TEST_DRAIN (R367): the next unit is drained. (DEDUCED, unsafe: log entry 28.) -/
def execSelfTestDrain (s : State) : Host.Outcome State Fault Refusal :=
  if !s.drainDue then .next s
  else match s.nextUnit with
    | none => .next s
    | some u =>
      let here := s.teams.filter fun t => t.st == .resident && testUnit t.core == u
      let s1 := { s with drain := { unit := u, last := s.pt, busy := true } }
      .next (here.foldl (fun st t => if t.packed then st.requestSave t.tid else
        st.saveInstance t.fam (t.num / (s.recFam t).area) (some t.rid)) s1)

/-- A core is removed from service (R417). -/
def State.removeCore (s : State) (c : Nat) : State :=
  let a := s.own Config.errlog + 64 + 8 * (c / 64)
  ((s.modCore c fun x => { x with removed := true }).storeHw a (natLe 8 (s.rdHw a 8 ||| 2 ^ (c % 64)))).logError 3 16 c 0#32 0 0

/-- SCAN_SELF_TEST_DONE (R367, R417): the unit returns to service but for the cores that failed. -/
def execScanSelfTestDone (failed : List Nat) (s : State) : Host.Outcome State Fault Refusal :=
  if !s.drain.busy || s.holds.any (fun h => testUnit h.core == s.drain.unit) then .next s
  else
    let bad := (unitCores s.drain.unit).filter fun c => failed.contains c && !s.dev.harvest.contains c && !(s.core c).removed
    finish { bad.foldl (fun st c => st.removeCore c) s with drain := { s.drain with busy := false } }

/-- FAULT_QUEUE_RETRY (R281): HEAD is read again while records of the family wait, which its end does not take away. -/
def execFaultQueueRetry (fam : W32) (s : State) : Host.Outcome State Fault Refusal :=
  if s.frecs.any (·.fam == fam) then finish s.faultDrain else .next s

end Sys2Proof.Machine
end

