-- ==== Sys2Proof/Machine/Placement.lean ====
section
/-!
DEFINITION. The imposition controllers (R325-R329): epochs, the placement control blocks, page moves, their switch and their abort.
-/

namespace Sys2Proof.Machine

/-! ### The control block (R326) -/

/-- The fields of a die's placement control block take effect, unless its reserved bits are not zero. An EPOCH beyond the range of R326 is taken as
it is. (DESIGN CHOICE, unsafe: log entry 30.) -/
def State.readPlacement (s : State) (d : Nat) : State :=
  let a := s.own (Config.placement d)
  let w (k n : Nat) : Nat := s.rdN (a + k) n
  let x := w 0 4
  if w 16 48 != 0 then s
  else s.modDie d fun y => { y with
    mode := x % 8, tcold := x / 2 ^ 8 % 256, tmargin := x / 2 ^ 16 % 256, tmove := x / 2 ^ 24, epochUs := w 4 4, hbmLow := w 8 4, maxMoves := w 12 4 }

/-! ### Pages that stay (R327, R392) -/

/-- The virtual ranges whose pages a living family pins (R256, R327). -/
def State.pinnedRanges (s : State) : List (W64 × Nat × Nat) :=
  s.fams.flatMap fun f => if f.state == .ended || f.solo then [] else
    [(f.ptbr, f.dw 5, f.saveBytes), (f.ptbr, f.dw 7, 64 + 64 * faultQueueSize s f.queue)] ++ f.lease.map fun r => (f.ptbr, r.1, r.2)
/-- The page is pinned by a range, or lies in a range of the host's decoders. -/
def State.pagePinned (s : State) (page : Nat) : Bool :=
  (s.pinnedRanges.any fun (root, a, n) =>
    (List.range ((a % 2 ^ 17 + n + 2 ^ 17 - 1) / 2 ^ 17)).any fun k =>
      let va := BitVec.ofNat 64 (a / 2 ^ 17 * 2 ^ 17 + k * 2 ^ 17)
      match s.walkQuiet (spaceOfPtbr root false).root va with
      | .ok (leaf, _, level) => pageOf (leafBase leaf / 2 ^ pageBits level * 2 ^ pageBits level + va.toNat % 2 ^ pageBits level) == page
      | .error _ => false)
def State.hdmHeld (s : State) (page : Nat) : Bool := s.host.hdm.any fun r => page * 2 ^ 17 < r.2.1 + r.2.2 && r.2.1 < page * 2 ^ 17 + 2 ^ 17

/-! ### The leaf of a page (R327, R328) -/

/-- The leaves below a table: address, entry, level. An entry counts when its V bit is set, so its lowest byte is listed. -/
def State.leavesOf (s : State) (base : Nat) : List Nat → List (Nat × W64 × Nat)
  | [] => []
  | level :: rest =>
    (s.mem.filter fun c => base ≤ c.1 && c.1 < base + 65536 && c.1 % 8 == 0 && c.2.getLsbD 0).flatMap fun c =>
      let pte := BitVec.ofNat 64 (s.rdN c.1 8)
      if leafBit pte 1 || leafBit pte 2 || leafBit pte 3 then [(c.1, pte, level)]
      else State.leavesOf s (s.redirect (pte.toNat % 2 ^ 52 / 2 ^ 16 * 2 ^ 16)) rest
/-- The roots of the page tables of the families and latency cores. -/
def State.roots (s : State) : List Nat :=
  (s.fams.map (·.ptbr) ++ s.lcs.map (·.ptbr)).foldl (fun l r => if r.getLsbD 0 then addSet (spaceOfPtbr r false).root l else l) []
/-- The level-3 leaf that names a page, in the page tables of the families and latency cores. (DEDUCED, unsafe: log entry 30.) -/
def State.pageLeaf (s : State) (page : Nat) : Option (Nat × W64) :=
  s.roots.findSome? fun r => ((s.leavesOf (s.redirect r) [1, 2, 3]).find? fun e => e.2.2 == 3 && pageOf (leafBase e.2.1) == page).map fun e => (e.1, e.2.1)
/-- A 1 GiB leaf names the pages (R334). -/
def State.bigLeaf (s : State) (k : Nat) : Bool :=
  s.roots.any fun r => (s.leavesOf (s.redirect r) [1, 2, 3]).any fun e => e.2.2 == 2 && leafBase e.2.1 / 2 ^ 30 == k

/-! ### Selection (R327) -/

def Track.count (t : Track) (d : Nat) : Nat := (assoc d t.cnt).getD 0
def Track.total (t : Track) : Nat := (t.cnt.map (·.2)).sum
def Track.top (t : Track) : Nat := t.cnt.foldl (fun m e => Nat.max m e.2) 0
/-- The requester with the largest counter, the lowest on a tie. -/
def Track.leader (t : Track) : Nat := ((List.range 28).find? fun d => t.count d == t.top).getD 0

/-- The page lies in the region that bring-up reserves on H-die 24 (log entry 3); it is never moved. -/
def reservedPage (k0 : Nat) : Bool := let k := k0 % 2 ^ 29; k ≥ Config.soloPool / 2 ^ 17 && k < (Config.soloPool + 2 ^ 32) / 2 ^ 17

/-- Where a tracked page of die `h` is to move, with the address and the contents of its leaf: pin-die and type are the entry's. -/
def State.moveTarget (s : State) (h : Nat) (t : Track) : Option (Nat × Nat × W64) :=
  let x := s.die h
  let d := t.leader
  match s.pageLeaf t.page with
  | none => none
  | some (ea, leaf) =>
    if leafPin leaf != 0 || leafMt leaf = 1 || leafMt leaf = 3 || s.hdmHeld t.page || paDie (t.page * 2 ^ 17) = 31 || reservedPage t.page then none
    else if x.mode.testBit 1 && d != h && d < 24 && t.count d ≥ x.tmove && t.count d ≥ t.count h + x.tmargin then some (d, ea, leaf)
    else if x.mode.testBit 2 && h < 24 && Config.freeHbm h s.fresh < x.hbmLow && t.total < x.tcold && !s.pagePinned t.page then
      some (nearestHub h, ea, leaf)
    else none

/-- A page of a die that nothing uses: the device's choice, unless it is in use (R328 step 1). -/
def State.freePage (s : State) (die : Nat) : Option Nat :=
  let k := (s.link.pkg * 2 ^ 46 + die * 2 ^ 41) / 2 ^ 17 + Config.pageChoice s.fresh % (Config.dieBytes die / 2 ^ 17)
  if reservedPage k || (s.pageLeaf k).isSome || s.bigLeaf (k / 8192) || (s.pages.any fun r => r.alloc == some k) || (s.mem.any fun c => pageOf c.1 == k) || (s.moves.any fun m => m.page == k || m.dest == k) || (s.moved.any fun m => m.1 == k || m.2 == k) ||
      (s.replicas.any fun r => r.page == k) || (s.tlbs.any fun t => pageOf (leafBase t.leaf) == k) then none else some k

/-- A move starts (R328): the new home forwards to the old one until the switch, and the entry names the new page. A second move of a page
does not start before the first has switched (R329). (DEDUCED, unsafe: log entry 30.) -/
def State.startMove (s : State) (page die ea : Nat) (old : W64) : State :=
  if (s.moves.any fun m => m.page == page || m.dest == page) || (s.moved.any fun m => m.1 == page) then s
  else match s.freePage die with
    | none => s.tick
    | some k =>
      let leaf := old.toNat - leafBase old + k * 2 ^ 17
      let m : Move := { page := page, dest := k, copied := false, ea := ea, switchAt := s.pt, owed := 1 }
      let s1 : State := { s with moves := s.moves ++ [m], moved := (k, page) :: s.moved }
      (s1.storeHw ea (natLe 8 leaf)).tick

/-- Tracked pages of a die by their largest counter, the larger first. -/
def insertTrack (x : Track) : List Track → List Track
  | [] => [x]
  | y :: ys => if x.top ≥ y.top then x :: y :: ys else y :: insertTrack x ys

/-- One die's epoch end (R325-R327): moves are selected (EN stops the sampling alone), counters are halved, and the block is read. (DEDUCED, unsafe: log entry 30.) -/
def State.epochEnd (s : State) (h : Nat) : State :=
  let d := s.die h
  let mine := (s.track.filter fun t => homeDie (t.page * 2 ^ 17) == h).foldr insertTrack []
  let picks := ((mine.filterMap fun t => (s.moveTarget h t).map fun x => (t, x))).take d.maxMoves
  let s1 := if d.epochUs != 0 then picks.foldl (fun st (t, x) => st.startMove t.page x.1 x.2.1 x.2.2) s else s
  let half (l : List (Nat × Nat)) : List (Nat × Nat) := l.map fun e => (e.1, if d.epochUs = 0 then e.2 else e.2 / 2)
  let track := s1.track.map fun (t : Track) => if homeDie (t.page * 2 ^ 17) == h then { t with cnt := half t.cnt } else t
  let fams := s1.fams.map fun (f : Family) => { f with affinity := f.affinity.map fun e => if e.1 == h && d.epochUs != 0 then (e.1, e.2 / 2) else e }
  let s2 : State := { s1 with track := track, fams := fams }
  (s2.readPlacement h).modDie h fun x => { x with epochStart := s.pt }

/-- The epoch of a die has ended; with EPOCH 0 the block is still read every 1,000 µs. -/
def State.epochDue (s : State) (h : Nat) : Bool :=
  let d := s.die h
  s.pt ≥ d.epochStart + (if d.epochUs = 0 then 1000 else d.epochUs) * 1000
/-- PLACEMENT_EPOCH_END (R326, R327). (DEDUCED, unsafe: log entry 30.) -/
def execPlacementEpochEnd (s : State) : Host.Outcome State Fault Refusal :=
  finish (((List.range 28).filter fun h => s.epochDue h).foldl (fun st h => st.epochEnd h) s)

/-! ### Copy, switch, abort (R328, R329) -/

/-- PAGE_MOVE_COPY_DONE: the switch is at the later of now and the translation horizon. -/
def execPageMoveCopyDone (k : Nat) (s : State) : Host.Outcome State Fault Refusal :=
  match s.moves[k]? with
  | none => .next s
  | some m => .next { s with moves := s.moves.set k (if m.copied || m.aborted then m else { m with copied := true, switchAt := Nat.max m.switchAt s.pt }) }

/-- The number of a line or byte address after a page's lines have moved. -/
def rePage (old new a : Nat) : Nat := if pageOf a = old then a - old * 2 ^ 17 + new * 2 ^ 17 else a
/-- The 1,024 lines of a page. -/
def pageLines (page : Nat) : List Nat := (List.range 1024).map (page * 1024 + ·)
/-- The latest lease that the home has granted on a page's lines (R328 step 5). -/
def State.pageLx (s : State) (page : Nat) : Nat := (pageLines page).foldl (fun m l => Nat.max m (s.lineInfo l).lx) 0
/-- The latest LX and EVH that the home holds for a page's lines (R400 step 4). -/
def State.pageHorizon (s : State) (page : Nat) : Nat := (pageLines page).foldl (fun m l => Nat.max m (s.evhOf l)) (s.pageLx page)
/-- Lines leave the home level with their LX folded into their sets (R315). -/
def State.foldLines (s : State) (out : LineInfo → Bool) : State :=
  (s.lines.filter fun i => i.home && out i).foldl (fun st i => st.raiseEvh i.line i.lx) s
/-- The lines enter the new home (R313, R315, R328, R400): each set there takes the horizon of the leases of the old one, and of a line only the
write completion time of its value stays. -/
def State.linesTo (s : State) (old new : Nat) : State :=
  let e := s.pageLx old
  let leaves (i : LineInfo) : Bool := pageOf (128 * i.line) == old || pageOf (128 * i.line) == new
  let keep := s.lines.filter fun i => pageOf (128 * i.line) != old && pageOf (128 * i.line) != new
  let gone := (s.lines.filter fun i => pageOf (128 * i.line) == old).map fun i =>
    ({ line := rePage old new (128 * i.line) / 128, wct := i.wct } : LineInfo)
  let s1 : State := { s.foldLines leaves with lines := keep ++ gone }
  if e ≤ s.pt then s1 else (pageLines new).foldl (fun st l => st.raiseEvh l e) s1

/-- An issued access to a page that has switched is bounced and sent again (R328 step 6): a store, and a load whose thread has gone on, through its entry, which names the
new home; the thread of a load or an RMW performs its instruction again. -/
def State.bounce (s : State) (old new : Nat) : State :=
  let mine (x : Pend) : Bool := pageOf x.pa == old
  let again := s.pend.filter fun x => mine x && x.out.isNone && !(match x.kind with | .store _ _ => true | _ => false)
  again.foldl (fun st x => st.modThr x.party x.lane fun t => { t with st := if t.st == .engineWait then .ready else t.st })
    { s with pend := (s.pend.filter fun x => !again.contains x).map fun x => { x with pa := rePage old new x.pa } }

/-- The page's bytes, poison, waiters and accesses in flight go to the new home (R328 steps 5 and 6, R341). (DEDUCED, unsafe: log entry 30.) -/
def State.switchPage (s0 : State) (old new : Nat) : State :=
  let s := (pageLines old).foldl (fun st l => if st.dir.any (·.line == l) || st.lcs.any (fun c => c.resv.any (·.line == l)) then st.recall l none else st)
    (s0.bounce old new)
  let re := rePage old new
  let bytes := s.mem.filter fun c => pageOf c.1 == old
  let s1 : State := { s with
    mem := bytes.foldl (fun m c => putCell m (re c.1) c.2) s.mem
    mpoison := (s.mpoison.filter fun g => pageOf (32 * g) != new) ++ ((s.mpoison.filter fun g => pageOf (32 * g) == old).map fun g => re (32 * g) / 32)
    copies := s.copies.map fun c => if pageOf (128 * c.line) == old then
      { c with line := re (128 * c.line) / 128, stale := c.stale.map fun x => (re x.1, x.2) } else c
    waiters := s.waiters.map fun w => if w.forme.isNone then { w with pa := re w.pa } else w
    hwq := s.hwq.map fun x => { x with pa := re x.pa }
    moves := s.moves.map fun m => { m with ea := re m.ea }
    wstores := s.wstores.map fun x => { x with pa := re x.pa }
    srec := if s.srec.contains old then addSet new s.srec else s.srec
    track := s.track.filter (·.page != old)
    moved := s.moved.filter fun m => m.1 != new
    tether := s.tether.filter fun e => pageOf (128 * e.1) != old }
  s1.linesTo old new

/-- PAGE_MOVE_SWITCH (R328): the new home becomes authoritative; that of an aborted move frees its page, once no translation names it (R329). -/
def execPageMoveSwitch (k : Nat) (s : State) : Host.Outcome State Fault Refusal :=
  match s.moves[k]? with
  | none => .next s
  | some m =>
    if 0 < m.owed || s.pt < m.switchAt then .next s
    else if m.aborted then .next { s with moves := s.moves.eraseIdx k, moved := s.moved.filter fun x => x.1 != m.dest }
    else if !m.copied then .next s
    else
      let s1 := s.switchPage m.page m.dest
      .next { s1 with moves := s1.moves.eraseIdx k }

/-- The move that is copying a page (R329: one at a time). -/
def State.copying (s : State) (page : Nat) : Option Nat := s.moves.findIdx? fun m => m.page == page && !m.copied && !m.aborted
/-- PAGE_MOVE_ABORT (R329, R411): an uncorrectable error at address `pa`, met while its page is copied. The old home stays authoritative, the entry names it again,
and the new home forwards to it until no translation names the new page; the granule is poisoned there, with a record of kind POISON (R414). -/
def execPageMoveAbort (pa : Nat) (s : State) : Host.Outcome State Fault Refusal :=
  match (s.copying (pageOf pa)).bind fun k => (s.moves[k]?).map fun m => (k, m) with
  | none => .next s
  | some (k, m) =>
    let leaf := BitVec.ofNat 64 (s.rdHw (s.redirect m.ea) 8)
    let back := pageOf (leafBase leaf) == m.dest
    let line := pa / 32 * 32
    let die := paDie line
    let s1 := (({ s with moves := s.moves.set k { m with aborted := true, switchAt := s.pt + 16004, owed := m.owed + (if back then 1 else 0) } } : State).poisonAt line 32).logError 1
      (if die < 24 then 9 else 10) die 0#32 line 0
    finish (if back then s1.storeHw m.ea (natLe 8 (leaf.toNat - leafBase leaf + m.page * 2 ^ 17)) else s1)

end Sys2Proof.Machine
end

