-- ==== Sys2Proof/Machine/Links.lean ====
section
/-!
DEFINITION. The links between packages and dies: windowed stores, page records, replicas and hand-over (R302, R397-R401), the link
control block, time and hold (R398, R408, R409, R429), Ethernet ports, sub-links and UCIe (R393, R395).
-/

namespace Sys2Proof.Machine

/-! ### Windowed stores (R302, R401) -/

/-- A store of this package is applied at the page's WRITER and at every holder of a replica. -/
def State.applyWindowed (s : State) (w : WStore) : State :=
  let s1 := (s.homeStore (s.redirect w.pa) w.data w.party).1
  { s1 with wstores := s1.wstores.map fun x => if x == w then { x with applied := true } else x }
/-- An older store over the same bytes is still to be applied: it comes first (R292, R293, R298). (DEDUCED, safe: log entry 6.) -/
def State.olderWindowed (s : State) (k : Nat) (w : WStore) : Bool :=
  (s.wstores.take k).any fun x => !x.applied && x.pa < w.pa + w.data.length && w.pa < x.pa + x.data.length
/-- The k-th windowed store is applied, unless its home holds it back (R204, R392) or an older one comes first. -/
def State.tryWindowed (s : State) (k : Nat) : State :=
  match s.wstores[k]? with
  | none => s
  | some w =>
    let pa := s.redirect w.pa
    if w.applied || s.olderWindowed k w then s
    else if s.homeBusy pa w.data.length w.party then s.press pa w.data.length w.party
    else s.applyWindowed w
/-- The PT before which a store of a window is applied, with every lease on the old value expired (R302). -/
def State.windowBound (s : State) (w : WStore) : Nat := (w.window + 2) * s.link.w - 100 - s.link.w / 4
def State.windowClosed (s : State) (w : WStore) : Bool := (w.window + 2) * s.link.w ≤ s.pt
/-- Stores that have reached their bound are applied, and closed windows are forgotten. -/
def State.windowTick (s : State) : State :=
  if s.wstores.isEmpty then s
  else
    let s1 := (List.range s.wstores.length).foldl (fun st k =>
      if (s.wstores[k]?).any fun w => !w.applied && s.windowBound w ≤ s.pt then st.tryWindowed k else st) s
    { s1 with wstores := s1.wstores.filter fun w => !(w.applied && s.windowClosed w) }

/-- The record of a page (R397). -/
def State.pageRec (s : State) (k : Nat) : PageRec := (s.pages.find? (·.isFor k)).getD { page := k, writer := paPkg (k * 2 ^ 17) }
def State.modPage (s : State) (k : Nat) (f : PageRec → PageRec) : State :=
  { s with pages := f (s.pageRec k) :: s.pages.filter fun r => !r.isFor k }
def State.inDomain (s : State) (p : Nat) : Bool := s.link.domain.getLsbD p

/-- Counts a windowed store of another package to a page that this package writes (R400). (DEDUCED, unsafe: log entry 32.) -/
def State.countRemote (s : State) (pkg pa : Nat) : State :=
  s.modPage (pageOf pa) fun r => { r with wper := s.pt / 100000, wcount := bump (s.pt / 100000) pkg r.wcount }

/-- Bytes that a request of another package accesses. -/
def opBytes : RemoteOp → Nat
  | .store data => data.length
  | .amo _ n _ => n
  | .acas n _ _ => n
  | .aaddt n _ _ => n
  | .afadd f _ => if f == .f64 then 8 else 4
  | .waitv _ n _ => n
  | .wake _ => 4
  | .arrive _ => 8
  | .await _ => 8
/-- The atomic instruction of a request, and its operands: SZ by the width. -/
def opAtomic (o : RemoteOp) : Option (Instr × Nat × Nat) :=
  let w : BaseW := { g := 0#4, d := 0#10, a := 0#10, b := 0#10, c := if opBytes o = 8 then 1#10 else 0#10, tail := 0#8 }
  match o with
  | .amo op _ b => some (.amo op w, b.toNat, 0)
  | .acas _ a b => some (.acas w, a.toNat, b.toNat)
  | .aaddt _ a b => some (.aaddt w, a.toNat, b.toNat)
  | .afadd f b => some (.afadd f w, b.toNat, 0)
  | _ => none
/-- A read at the tether engine for another package, whose wait is registered when its condition does not hold (R210, R219, R399). -/
def State.remoteWait (s : State) (r : RemoteReq) (pa n : Nat) (cond : WCond) : Eff (Option (Nat × Bool)) :=
  (s.rmw (pkgParty r.pkg) pa n fun _ => none).bind fun s1 (m, poi) =>
    if poi || cond.holds n m then Eff.ok s1 (some (m, poi))
    else Eff.ok (s1.addWaiter { party := pkgParty r.pkg, lane := r.tag, fam := 0#32, va := 0#64, pa := pa, n := n, cond := cond, registered := true,
                                forme := none }) none
/-- A request of another package is performed at this package's homes, whose answer goes back (R399). (DEDUCED, unsafe: log entry 32.) -/
def State.remoteOp (s : State) (r : RemoteReq) (pa : Nat) : Eff (Option (Nat × Bool)) :=
  let p := pkgParty r.pkg
  let n := opBytes r.op
  match r.op with
  | .store data =>
    if s.homeBusy pa n none then Eff.stall (s.press pa n none) else Eff.ok (s.homeStore pa data none).1 none
  | .waitv c _ b => s.remoteWait r pa n (.cond c b)
  | .await tok => s.remoteWait r pa n (.phase tok)
  | .wake count =>
    let ws := (s.waitersAt pa).take count
    Eff.ok (ws.foldl (fun st w => st.release1 w) s) (some (ws.length, false))
  | .arrive count => (s.rmw p pa 8 fun o => some (arrive o count)).bind fun s1 v => Eff.ok s1 (some v)
  | .amo _ _ _ | .acas _ _ _ | .aaddt _ _ _ | .afadd _ _ => match opAtomic r.op with
    | some (i, b1, b2) => (s.atomic p pa i b1 b2).bind fun s1 v => Eff.ok s1 (some v)
    | none => Eff.ok s none
/-- The WRITER performs what has reached it, in time for every lease on the old value to have expired before PT reaches (N + 2) × W − 100
(R302); a package that is the page's home or was its WRITER sends what is not its own on (R397, R400 step 5); to any other, a store from the
WRITER updates the replica. -/
def State.remoteReq (s : State) (r : RemoteReq) : State :=
  let pa := s.redirect r.pa
  let writer := s.writerOf pa
  let update := match r.op with | .store _ => true | _ => false
  if s.remote pa && r.pkg != writer then
    if paPkg r.pa = s.link.pkg || (s.pageRec (pageOf pa)).lastHo.isSome then { s with outbox := s.outbox ++ [.forward writer r] } else s
  else if s.remote pa && !update then s
  else match (if s.remote pa then s else s.countRemote r.pkg pa).remoteOp r pa with
    | (s1, .ok (some v)) => { s1 with outbox := s1.outbox ++ [.reply r.pkg r.tag v.1 v.2] }
    | (s1, .ok none) => s1
    | (_, .error _) => s.press pa (opBytes r.op) none

/-- WINDOWED_STORE_APPLY (R302, R399): the k-th open store of this package, or a request that reaches this package from another one. -/
def execWindowedStoreApply (k : Nat) (remote : Option RemoteReq) (s : State) : Host.Outcome State Fault Refusal :=
  match remote with
  | none => finish (s.tryWindowed k)
  | some r =>
    let pa := s.redirect r.pa
    if r.pkg = s.link.pkg || r.pkg ≥ 64 || !s.inDomain r.pkg || !s.inDomain (paPkg pa) || paOff pa + opBytes r.op > Config.dieBytes (paDie pa) ||
        (28 ≤ paDie pa && paDie pa ≤ 30) || s.wctOf (lineOf pa) ≥ (r.window + 2) * s.link.w - 100 then .next s
    else finish (s.remoteReq r)

/-! ### Replicas (R399) -/

/-- A lease on a replica of 100,000 ns (R397, R399). -/
def State.grantReplica (s : State) (page pkg : Nat) : State :=
  let e := s.pt + 100000
  let s1 := s.modPage page fun r => { r with repl := r.repl ||| (1#64 <<< pkg), lexp := Nat.max r.lexp ((e + 65535) / 65536) }
  if pkg != s.link.pkg then s1
  else if s1.replicas.any (fun x => x.page == page && s.pt < x.expiry) then
    { s1 with replicas := s1.replicas.map fun x => if x.page == page then { x with expiry := e } else x }
  else { s1 with replicas := { page := page, expiry := e, filled := false } :: s1.replicas.filter (·.page != page) }

/-- REPLICA_REQUEST (R397-R400): by this package of another WRITER, or by another package of this one. A home that is not WRITER sends it on; a
request during a hand-over waits for the switch; a package that is QUIET, quiescing or in HOLD grants none. -/
def execReplicaRequest (page pkg : Nat) (s : State) : Host.Outcome State Fault Refusal :=
  let r := s.pageRec page
  let own := s.link.pkg
  if !s.inDomain pkg || !s.inDomain r.writer then .next s
  else if pkg = own then
    (if r.ho.isSome || r.writer = own || s.link.state == .down then .next s else .next (s.grantReplica page pkg))
  else if r.writer != own then
    (if paPkg (page * 2 ^ 17) = own then .next { s with outbox := s.outbox ++ [.ask r.writer page pkg] } else .next s)
  else if r.ho.isSome then .next (s.modPage page fun x => { x with asks := addSet pkg x.asks })
  else if !s.link.admits then .next s
  else .next (s.grantReplica page pkg)
/-- REPLICA_FILL (R399). -/
def execReplicaFill (page : Nat) (s : State) : Host.Outcome State Fault Refusal :=
  .next { s with replicas := s.replicas.map fun x => if x.page == page && s.pt < x.expiry then { x with filled := true } else x }
/-- REPLICA_EXPIRY (R399). (DEDUCED, unsafe: log entry 32.) -/
def execReplicaExpiry (s : State) : Host.Outcome State Fault Refusal :=
  let dead := (s.replicas.filter fun x => x.expiry ≤ s.pt).map (·.page)
  .next { s with
    replicas := s.replicas.filter fun x => s.pt < x.expiry
    pages := s.pages.map fun r =>
      if r.lexp * 65536 ≤ s.pt then { r with repl := 0#64 }
      else if dead.contains r.page then { r with repl := r.repl &&& ~~~(1#64 <<< s.link.pkg) } else r }

/-! ### Hand-over (R400) -/

/-- The pages that a hand-over names: a page of 128 KiB by its number, one of 1 GiB by 2^35 and its number. (DEDUCED, safe: log entry 32.) -/
def pageSpan (k : Nat) : List Nat := if k < 2 ^ 35 then [k] else (List.range 8192).map (8192 * (k - 2 ^ 35) + ·)
/-- The new WRITER allocates pages of its own memory for those that it takes, in the H-dies where their replicas lie (R399, R400 step 2). A page
for which it finds none is not taken. (DEDUCED, unsafe: log entry 32.) -/
def State.takeOffer (s : State) : List Nat → Option State
  | [] => some s
  | k :: rest => match s.freePage (24 + k % 4) with
    | none => none
    | some a => State.takeOffer ((s.modPage k fun r => { r with ho := some s.link.pkg, alloc := some a }).tick) rest

/-- HANDOVER_OFFER (R400): this package offers a page to the one whose windowed stores of the ended 100 µs reached HOTHRESH and exceeded its
own; or another WRITER offers it to this package. -/
def execHandoverOffer (page dest : Nat) (s : State) : Host.Outcome State Fault Refusal :=
  let ks := pageSpan page
  let r := s.pageRec (ks.headD 0)
  let own := s.link.pkg
  if ks.any (fun k => (s.pageRec k).ho.isSome || (s.pageRec k).writer != r.writer) || r.writer = dest || !s.inDomain dest || !s.link.admits then .next s
  else if r.writer != own then (if dest = own then .next ((s.takeOffer ks).getD s.tick) else .next s)
  else
    let per := s.pt / 100000 - 1
    let n := (ks.map fun k => (assoc (per, dest) (s.pageRec k).wcount).getD 0).sum
    let mine := (ks.map fun k => (assoc (per, (s.pageRec k).alloc.getD k) s.ownStores).getD 0).sum
    if s.link.hothresh = 0 || s.bigLeaf (ks.headD 0 / 8192) != (2 ^ 35 ≤ page) || s.pt < 100000 || n < s.link.hothresh || n ≤ mine ||
        !(ks.all fun k => (s.pageRec k).lastHo.all fun t => t + s.link.w / 4 ≤ s.pt) then .next s
    else .next (ks.foldl (fun st k => st.modPage k fun r => { r with ho := some dest }) s)

/-- What remains of a request of another package that waits here, for the package that takes the page. -/
def Waiter.request (w : Waiter) (window name : Nat) : Option RemoteReq :=
  match pkgOf? w.party with
  | none => none
  | some k => some { pkg := k, window := window, pa := name + w.pa % 2 ^ 17, tag := w.lane, op := match w.cond with
      | .cond c b => .waitv c w.n b
      | .phase tok => .await tok }
/-- This package ceases to be WRITER of a page (R400 steps 4 and 5): its bytes lie under the page's own name again, the waits and replica
requests of other packages go to the new WRITER. -/
def State.givePage (s : State) (k q : Nat) : State :=
  let r := s.pageRec k
  let here := r.alloc.getD k
  let s1 := if here = k then s.linesTo k k else { s.switchPage here k with moved := s.moved.filter fun m => m.2 != here }
  let there := s1.waiters.filterMap fun w => if pageOf w.pa = k && w.forme.isNone then w.request (s.pt / s.link.w) (k * 2 ^ 17) else none
  State.modPage { s1 with
      waiters := s1.waiters.filter fun w => !(pageOf w.pa = k && w.forme.isNone && (pkgOf? w.party).isSome)
      outbox := s1.outbox ++ there.map (fun x => OutMsg.forward q x) ++ r.asks.map fun p => .ask q k p } k
    fun x => { x with writer := q, ho := none, alloc := none, asks := [], lastHo := some s.pt, wcount := [], repl := x.repl &&& ~~~(1#64 <<< q) }
/-- This package becomes WRITER of a page: the page of its own memory holds it, whose sets take the old WRITER's leases, and the waits that
were registered there are its own. -/
def State.takePage (s : State) (k : Nat) (h : HandOver) : State :=
  let a := (s.pageRec k).alloc.getD k
  let s1 := s.switchPage k a
  let s2 : State := (pageLines a).foldl (fun st l => st.raiseEvh l h.lx) { s1 with
    moved := if a = k then s1.moved else (k, a) :: s1.moved, replicas := s1.replicas.filter (·.page != k) }
  (h.waits.filter fun r => pageOf r.pa = k).foldl (fun st r => match r.op with
    | .waitv c n b => (st.remoteWait r (st.redirect r.pa) n (.cond c b)).1
    | .await tok => (st.remoteWait r (st.redirect r.pa) 8 (.phase tok)).1
    | _ => st)
    (s2.modPage k fun x => { x with writer := s.link.pkg, ho := none, lastHo := some s.pt, wcount := [], repl := x.repl &&& ~~~(1#64 <<< s.link.pkg) })

/-- HANDOVER_SWITCH (R400 steps 3 to 5): latency-core copies are recalled, once no recall is deferred (R204); WRITER changes; the new home's EVH
covers the leases, and what waits goes to it. (DEDUCED, unsafe: log entry 32.) -/
def execHandoverSwitch (h : HandOver) (s : State) : Host.Outcome State Fault Refusal :=
  let ks := pageSpan h.page
  let rs := ks.map s.pageRec
  match (rs.headD { page := 0, writer := 0 }).ho with
  | none => .next s
  | some q =>
    let mine (line : Nat) : Bool := rs.any fun r => r.isFor (pageOf (128 * line))
    let ls := (((s.dir.map (·.line)) ++ s.lcs.filterMap fun c => c.resv.map (·.line)).filter mine).eraseDups
    if rs.any fun r => r.ho != some q then .next s
    else if ls.any s.deferred then .next (ls.foldl (fun st l => st.markRecall l) s)
    else
      let s1 := ls.foldl (fun st l => st.recall l none) s
      if q = s.link.pkg then .next (ks.foldl (fun st k => st.takePage k h) s1)
      else
        let lx := (rs.map fun r => s1.pageHorizon (r.alloc.getD r.page)).foldl Nat.max 0
        let s2 := ks.foldl (fun st k => st.givePage k q) s1
        .next { s2 with outbox := s2.outbox ++ [.handover q { h with lx := lx }] }

/-! ### Removal of a package (R401) -/

/-- Counter additions that wait for windows toward a removed package are not made: a release at `.sys` that waits on one takes a machine
check, which is the poster's (R307, R401). (DEDUCED, unsafe: log entry 32.) -/
def State.dropAdds (s : State) (hit : WStore → Bool) : State :=
  let lost (a : NetAdd) : Bool := s.pt < a.wuntil && s.wstores.any fun w => hit w && w.party.isNone && (w.window + 2) * s.link.w ≤ a.wuntil
  (List.range s.nets.length).foldl (fun st e => ((st.net e).adds.filter lost).foldl (fun st a =>
    let r := a.req.bind fun q => (st.net e).reqs.find? (·.id == q.1)
    let st1 := st.modNet e fun n => { n with adds := n.adds.erase a, reqs := n.reqs.filter fun x => !(a.req.any fun q => q.1 == x.id) }
    match r.bind (·.who) with
    | some (.grp tid _) => if (st1.team? tid).isSome then st1.dueCheck tid (some (13, 24)) else st1
    | some (.lc k) => if st1.running (.lc k) then st1.trapLc k { cause := 0x19 } else st1
    | none => st1) st) s
/-- Nothing of the removed package is left: its replicas, its windows, its waits, its bits in page records. (DEDUCED, unsafe: log entry 32.) -/
def State.dropPeer (s0 : State) (p : Nat) : State :=
  let hit (w : WStore) : Bool := w.peers.getLsbD p
  let s := s0.dropAdds hit
  let s1 := (s.wstores.filter hit).foldl (fun st w => match w.party with
    | some q => st.modGrp q fun g => { g with wlost := Nat.max g.wlost ((w.window + 2) * s.link.w) }
    | none => st) s
  { s1 with
    wstores := s1.wstores.filter fun w => !(hit w && !w.applied)
    waiters := s1.waiters.filter fun w => w.party != pkgParty p
    replicas := s1.replicas.filter fun x => paPkg (x.page * 2 ^ 17) != p && (s.pageRec x.page).writer != p
    pages := s1.pages.map fun r =>
      { r with repl := r.repl &&& ~~~(1#64 <<< p), ho := if r.ho = some p then none else r.ho, asks := r.asks.filter (· != p),
               writer := if r.writer = p then paPkg (r.page * 2 ^ 17) else r.writer } }

/-! ### The link control block (R398) -/

def LinkState.code : LinkState → Nat | .down => 0 | .quiet => 1 | .active => 2 | .hold => 3
/-- The block as programs read it. -/
def Link.block (l : Link) : List Byte :=
  natLe 8 (l.req * 256 + l.state.code * 64 + l.pkg) ++ natLe 8 l.route ++ natLe 4 l.ptpdom ++ natLe 4 l.w ++ natLe 4 l.thold ++
  natLe 4 l.hothresh ++ natLe 8 0 ++ natLe 8 (l.epochReq.getD l.epoch) ++ natLe 8 0 ++ natLe 8 l.domain.toNat
/-- The hardware's copy of the block follows the values in force. -/
def State.linkSync (s : State) : State := s.setBytes (s.own Config.linkctl) s.link.block
def State.modLink (s : State) (f : Link → Link) : State := State.linkSync { s with link := f s.link }

/-- PEER_REMOVAL (R401). (DEDUCED, unsafe: log entry 32.) -/
def execPeerRemoval (p : Nat) (s : State) : Host.Outcome State Fault Refusal :=
  if p = s.link.pkg || !s.inDomain p then .next s
  else .next (((s.dropPeer p).modLink fun l => { l with domain := l.domain &&& ~~~(1#64 <<< p) }).external 0x09 p)

/-- The package takes another number (R398): its memory answers under it, and nothing cached stays (log entry 3). -/
def State.renumber (s : State) (k : Nat) : State :=
  let re (a : Nat) : Nat := if paPkg a = s.link.pkg then a % 2 ^ 46 + k * 2 ^ 46 else a
  let mem := (s.mem.filter fun c => paPkg c.1 != k).foldl (fun m c => putCell m (re c.1) c.2) []
  { s.foldLines fun _ => true with
    link := { s.link with pkg := k }, capbase := BitVec.ofNat 64 (re s.capbase.toNat), mem := mem
    mpoison := (s.mpoison.filter fun g => paPkg (32 * g) != k).map fun g => re (32 * g) / 32
    srec := s.srec.map fun p => pageOf (re (p * 2 ^ 17)), lines := [], copies := [], dir := [], tether := [], tlbs := [], nleaf := [], track := []
    ovf := s.ovf.map fun e => (e.1, re e.2) }

/-- LINK_CONTROL_WRITE (R398): the fields take effect under their conditions; a block with must-be-zero bits set, and values out of range,
change nothing. REQ and EPOCH go on to the steps that carry them out. (DEDUCED, unsafe: log entry 32.) -/
def execLinkControlWrite (s : State) : Host.Outcome State Fault Refusal :=
  let b := s.own Config.linkctl
  let w (k n : Nat) : Nat := s.rdN (b + k) n
  let old := s.link
  if w 32 8 != 0 || w 48 8 != 0 then finish s.linkSync
  else
    let req := w 0 8 / 256 % 4
    let k := w 0 8 % 64
    let dom := BitVec.ofNat 64 (w 56 8)
    let new : Link := { old with
      route := if w 8 1 < 96 then w 8 1 else old.route, ptpdom := w 16 1
      w := if old.state == .quiet && 1000 ≤ w 20 4 && w 20 4 ≤ 64000 then w 20 4 else old.w
      thold := if 1 ≤ w 24 4 && w 24 4 ≤ 45 then w 24 4 else old.thold, hothresh := w 28 4, domain := dom
      epochReq := if w 40 8 = old.epoch then none else some (w 40 8), req := if req = 3 then 0 else req }
    let s1 : State := { s with link := new }
    let s2 := if old.state == .down && k != old.pkg then s1.renumber k else s1
    let alone := dom == 1#64 <<< s2.link.pkg
    let more := (if new.epochReq.isSome && alone then [Instr.epochWrite (s.pt + old.epoch)] else []) ++
      (if req = 1 then [Instr.linkQuiesceRequest] else if req = 2 && alone then [Instr.linkActivateRequest 0 []] else [])
    finish (State.linkSync { s2 with agenda := s2.agenda ++ more })

/-- LINK_QUIESCE_REQUEST (R398). -/
def execLinkQuiesceRequest (s : State) : Host.Outcome State Fault Refusal :=
  if s.link.req != 1 then .next s else .next (s.modLink fun l => { l with quiescing := true })
/-- QUIESCE_COMPLETE (R398): every window that the package opened is closed. -/
def execQuiesceComplete (s : State) : Host.Outcome State Fault Refusal :=
  if !s.link.quiescing || !(s.wstores.all fun w => s.windowClosed w) then .next s
  else .next (s.modLink fun l => { l with state := .quiet, quiescing := false, req := 0, within := none })
/-- LINK_ACTIVATE_REQUEST (R398, R409, R429): refused when a W differs; PT is set once, forward, by a package that joins a domain. It waits
for the judgement of a written EPOCH, and in HOLD for the end of the hold.
(DEDUCED, unsafe: log entry 32.) -/
def execLinkActivateRequest (ptp : Nat) (peersW : List Nat) (s : State) : Host.Outcome State Fault Refusal :=
  if s.link.req != 2 || s.link.epochReq.isSome || s.link.state == .hold then .next s
  else if peersW.any (· != s.link.w) then .next (s.modLink fun l => { l with req := 0 })
  else
    let alone := s.link.domain == 1#64 <<< s.link.pkg
    let pt := if alone || s.link.ptSet then s.pt else Nat.max s.pt (ptp - s.link.epoch)
    .next (State.modLink { s with pt := pt } fun l => { l with state := .active, req := 0, quiescing := false, ptSet := true, within := none })
/-- EPOCH_WRITE (R429): ignored when PT would move backward; a package that is DOWN then stays so, whatever REQ asks. -/
def execEpochWrite (ptp : Nat) (s : State) : Host.Outcome State Fault Refusal :=
  match s.link.epochReq with
  | none => .next s
  | some e => .next (s.modLink fun l =>
      { l with epoch := if e + s.pt ≤ ptp then e else l.epoch, epochReq := none, req := if e + s.pt > ptp && l.state == .down then 0 else l.req })

/-! ### Time (R408, R409) -/

/-- PTP_MESSAGE (R393, R408): the grandmaster and the role of the port, whose changes are external events; the servo's offset; above THOLD a package of a domain enters HOLD. Slewing moves PT within its rate (log entry 7). -/
def execPtpMessage (port : Nat) (offset : Int) (gm : PtpView) (s : State) : Host.Outcome State Fault Refusal :=
  let l := { s.link with roles := s.link.roles.set port gm.role }
  let s1 := if gm.gm = l.gm && l.roles == s.link.roles then s else s.external 0x0B port
  let small := offset.natAbs ≤ l.thold / 2
  let s2 : State := { s1 with link := { l with offset := offset, gm := gm.gm, within := if small then some (l.within.getD s.pt) else none } }
  if offset.natAbs > l.thold && l.state == .active && l.domain != 1#64 <<< l.pkg then
    .next ((s2.modLink fun x => { x with state := .hold }).external 0x0A 1)
  else .next s2
/-- TIME_HOLD_EXIT (R409). -/
def execTimeHoldExit (s : State) : Host.Outcome State Fault Refusal :=
  if s.link.state == .hold && s.link.within.any (fun t => t + 1000000 ≤ s.pt) then
    .next ((s.modLink fun l => { l with state := .active, req := if l.req = 2 then 0 else l.req }).external 0x0A 0)
  else .next s

/-! ### Ports, sub-links, UCIe (R393, R395) -/

/-- MOHOSA_SUBLINK_STATE_CHANGE (R393). -/
def execMohosaSublinkStateChange (k : Nat) (up : Bool) (s : State) : Host.Outcome State Fault Refusal :=
  if k ≥ 8 || s.link.sublinks.getD k up == up then .next s
  else .next (State.external { s with link := { s.link with sublinks := s.link.sublinks.set k up } } 0x08 k)
/-- ETHERNET_PORT_STATE_CHANGE (R251, R393). -/
def execEthernetPortStateChange (port : Nat) (up : Bool) (s : State) : Host.Outcome State Fault Refusal :=
  if port ≥ 8 || (s.net (port / 2)).ports.getD (port % 2) up == up then .next s
  else .next ((s.modNet (port / 2) fun n => { n with ports := n.ports.set (port % 2) up }).external 0x10 port)

/-- UCIE_LANE_REPAIR (R395): no value changes. (DEDUCED, unsafe: log entry 34.) -/
def execUcieLaneRepair (_die _edge : Nat) (s : State) : Host.Outcome State Fault Refusal := .next s
/-- UCIE_MODULE_SPARE (R395): the edge's spare takes over, or bandwidth is lost; source 0x02, and a record of kind SPARE.
(DEDUCED, unsafe: log entry 34.) -/
def execUcieModuleSpare (die edge : Nat) (s : State) : Host.Outcome State Fault Refusal :=
  if die ≥ 28 then .next s
  else
    let s1 := s.modDie die fun d =>
      if d.spared.contains edge then { d with failed := d.failed ++ [edge] } else { d with spared := d.spared ++ [edge] }
    finish ((s1.logError 7 12 die 0#32 0 0).external 0x02 die)
/-- FLIT_UNDELIVERABLE (R395): the die is isolated, and every team on it takes a machine check. (DEDUCED, safe in part: log entry 27.) -/
def execFlitUndeliverable (die : Nat) (s : State) : Host.Outcome State Fault Refusal :=
  let hit := s.teams.filter fun t => t.core / 24 == die && (t.st == .resident || t.st == .saving)
  if die ≥ 28 || (s.die die).isolated then .next s
  else .next (hit.foldl (fun st t => st.dueCheck t.tid (some (12, die))) (s.modDie die fun d => { d with isolated := true }))

end Sys2Proof.Machine
end

