-- ==== Sys2Proof/Machine/HostIf.lean ====
section
/-!
DEFINITION. The host on CXL (R189, R303, R304, R390-R393): acknowledgements, host accesses to device memory, snoops of host lines,
back-invalidate responses, decoders and link events.
-/

namespace Sys2Proof.Machine

/-- The device gives an answer. -/
def State.answerHost (s : State) (a : HostAnswer) : State := { s with host := { s.host with answers := a :: s.host.answers } }

/-- The port through which a host line is reached (R390). -/
def hostPort (pa : Nat) : Nat := pa / 2 ^ 8 % 2

/-- HOST_STORE_ACK (R189, R303, R391): the host has completed the oldest store of a party or an engine; `s.ackout` of a thread's group
falls. -/
def execHostStoreAck (w : Acker) (s : State) : Host.Outcome State Fault Refusal :=
  if s.owed w = 0 then .next s
  else
    let s1 : State := { s with host := { s.host with acks := s.host.acks.eraseP (·.who == w) } }
    match w with
    | .party p => .next (s1.modGrp p fun g => { g with ackout := g.ackout - 1 })
    | .spool _ _ => .next s1
    | .net _ => .next s1

/-- The address lies in a committed decoder of the host, in memory of this package (R390, R427 step 8). -/
def State.hostReach (s : State) (pa n : Nat) : Bool :=
  paPkg pa == s.link.pkg && paDie pa ≤ 27 && n != 0 && s.host.hdm.any fun r => r.2.1 ≤ pa && pa + n ≤ r.2.1 + r.2.2

/-- HOST_MEM_WRITE (R302, R304, R392): performed at the home, acknowledged from its write completion time on. -/
def execHostMemWrite (pa0 : Nat) (data : List Byte) (s : State) : Host.Outcome State Fault Refusal :=
  let pa := s.redirect pa0
  let n := data.length
  if !s.hostReach pa0 n then .next s
  else if s.deferred (lineOf pa) then .next (s.press pa n none)
  else if s.barred pa || s.windowedOver pa n then .next s
  else
    let (s1, w) := s.homeStore pa data none
    finish ((s1.openFor pa data).answerHost { pa := pa0, data := [], poison := false, pt := Nat.max s.pt w })

/-- HOST_MEM_READ (R304, R411): the home's current value; the directory records the host for the halves that it reads (R392); the requester is
H-die 24 + line mod 4 (R325). (DEDUCED, unsafe: log entry 33.) -/
def execHostMemRead (pa0 n : Nat) (own : Bool) (s : State) : Host.Outcome State Fault Refusal :=
  let pa := s.redirect pa0
  let halves := (List.range (pa % 64 + n)).map fun k => pa / 64 + k / 64
  if !s.hostReach pa0 n then .next s
  else
    let s1 := (((s.touch pa n).downgrade (lineOf pa) none).enterHome (lineOf pa) .dflt).sample pa (24 + pa / 128 % 4) none
    let held := halves.eraseDups.foldl (fun l h => (h, own || (assoc h l).getD false) :: l.filter (·.1 != h)) s1.host.halves
    finish (State.answerHost { s1 with host := { s1.host with halves := held } }
      { pa := pa0, data := s1.bytes pa n, poison := s1.poisoned pa n, pt := s.pt })

/-- HOST_SNOOP (R303, R391): a snoop of either half of a host line acts on both. (DEDUCED, unsafe: log entry 33.) -/
def execHostSnoop (line : Nat) (own : Bool) (data : List (Nat × Byte)) (s : State) : Host.Outcome State Fault Refusal :=
  if paDie (128 * line) != 31 then .next s
  else
    let s1 := if own then s.markRecall line else s
    .next { s1 with host := { s1.host with snoops := s1.host.snoops ++ [(line, own, data.filter fun x => lineOf x.1 == line)] } }
/-- The latest lease on a line, on its current value or an older one (R303, R313, R314). -/
def LineInfo.lease (i : LineInfo) : Nat := Nat.max i.lx i.wct
/-- The proxy may answer a snoop: no RMW on the line is still being written through (R391), and for ownership PT has passed the latest lease
on the line (R303) and no recall of it is deferred (R204). -/
def State.snoopDue (s : State) (x : Nat × Bool × List (Nat × Byte)) : Bool :=
  !(s.host.acks.any fun a => a.rmw && a.line == x.1) && (!x.2.1 || (s.pt > (s.lineInfo x.1).lease && !s.deferred x.1))
/-- Bytes of a line at ascending addresses, in runs without a gap. -/
def byteRuns : List (Nat × Byte) → List (Nat × List Byte)
  | [] => []
  | x :: rest => match byteRuns rest with
    | (a, bs) :: more => if a = x.1 + 1 then (x.1, x.2 :: bs) :: more else (x.1, [x.2]) :: (a, bs) :: more
    | [] => [(x.1, [x.2])]
/-- The host's bytes of a line reach the device: granules that they cover whole are good again (R411), and replicas follow (R302). -/
def State.hostBytes (s : State) (line : Nat) (data : List (Nat × Byte)) : State :=
  let cells := (List.range 128).filterMap fun k => (assoc (128 * line + k) data).map fun b => (128 * line + k, b)
  (byteRuns cells).foldl (fun st c => State.openFor (st.homeStore c.1 c.2 none).1 (st.redirect c.1) c.2) s
/-- HOST_SNOOP_ANSWER (R303): the snoops that may be answered; a line that the host takes leaves the device, and its new bytes follow.
(DEDUCED, unsafe: log entry 33.) -/
def execHostSnoopAnswer (s : State) : Host.Outcome State Fault Refusal :=
  let due := s.host.snoops.filter s.snoopDue
  let s1 : State := { s with host := { s.host with snoops := s.host.snoops.filter fun x => !s.snoopDue x } }
  finish (due.foldl (fun st x =>
    let line := x.1
    let a : HostAnswer := { pa := 128 * line, data := st.bytes (128 * line) 128, poison := st.poisoned (128 * line) 128, pt := st.pt }
    let st1 := if x.2.1 then { st.recall line none with copies := st.copies.filter (·.line != line) } else st
    (st1.hostBytes line x.2.2).answerHost a) s1)

/-- BACK_INVALIDATE_RESPONSE (R392): the host gives up the halves of a line; bytes of a half that it owned are merged before the store
that waits. (DEDUCED, unsafe: log entry 33.) -/
def execBackInvalidateResponse (line : Nat) (dirty : List (Nat × Byte)) (s : State) : Host.Outcome State Fault Refusal :=
  if !s.host.binv.contains line then .next s
  else
    let owned := dirty.filter fun c => lineOf c.1 == line && (assoc (c.1 / 64) s.host.halves).getD false
    let s1 : State := { s with host := { s.host with binv := s.host.binv.filter (· != line), halves := s.host.halves.filter fun h => h.1 / 2 != line } }
    finish (s1.hostBytes line owned)

/-- CXL_LINK_EVENT (R393). -/
def execCxlLinkEvent (port : Nat) (s : State) : Host.Outcome State Fault Refusal :=
  if port > 1 then .next s else .next (s.external port 0)
/-- HDM_DECODER_COMMIT (R390, R392): at most two decoders on each port, which the lowest bit of `lo` names. (DEDUCED, unsafe: log entry 33.) -/
def execHdmDecoderCommit (lo len : Nat) (s : State) : Host.Outcome State Fault Refusal :=
  if s.stopped || (s.host.hdm.filter (·.1 == lo % 2)).length ≥ 2 || len = 0 then .next s
  else .next { s with host := { s.host with hdm := s.host.hdm ++ [(lo % 2, lo / 2 * 2, len)] } }

end Sys2Proof.Machine
end

