-- ==== Sys2Proof/Machine/Proofed.lean ====
section
/-!
DEFINITION. Proof units (R371-R388): comparison of intervals, of operations performed once and of spool segments, their commit, mismatch
and timeout, and the repair of a team.
-/

namespace Sys2Proof.Machine

/-! ### Verdicts (R378) -/

/-- What a comparison comes to: the replica whose entries are performed and those that agree with it; a replica to repair. -/
inductive Verdict where
  | wait
  | commit (src : Nat) (agree : List Nat)
  | repair (src : Nat) (agree : List Nat) (bad : Nat)
  | fail
  deriving DecidableEq, Repr

/-- The verdict on the entries of one key, by replica; `late`: the timeout has run out (R378, R380). -/
def judge {α : Type} [BEq α] (repl : Nat) (es : List (Nat × α)) (late : Bool) : Verdict :=
  let same (a b : Nat) : Bool := match assoc a es, assoc b es with | some x, some y => x == y | _, _ => false
  if (List.range repl).any (fun r => (assoc r es).isNone) && !late then .wait
  else if repl = 2 then (if same 0 1 then .commit 0 [0, 1] else .fail)
  else if same 0 1 && same 0 2 then .commit 0 [0, 1, 2]
  else if same 0 1 then .repair 0 [0, 1] 2
  else if same 0 2 then .repair 0 [0, 2] 1
  else if same 1 2 then .repair 1 [1, 2] 0
  else .fail

/-- Bits of the replicas whose entries had arrived (R382). -/
def arrived (rids : List Nat) : Nat := (rids.map fun r => 2 ^ r).sum
/-- DETAIL of a record of cause 0x28 or 0x29 (R382). -/
def proofDetail (kind : Nat) (rids : List Nat) (seq : Nat) : W64 := BitVec.ofNat 64 (kind * 2 ^ 40 + arrived rids * 2 ^ 32 + seq % 2 ^ 32)
/-- KIND of unequal interval entries: PC, count, signature, in this order; 5 when one is missing (R382). -/
def entryKind (repl : Nat) (es : List ProofEntry) : Nat :=
  let differ (f : ProofEntry → Nat) : Bool := es.any fun x => es.any fun y => f x != f y
  if es.length < repl then 5 else if differ (·.pc.toNat) then 2 else if differ (·.count) then 1 else 0

/-! ### Threads by index -/

/-- The copy of a thread in a replica: its team, group and lane. -/
def State.copyOf (s : State) (f : Family) (rid tix : Nat) : Option (Team × Nat × Nat) :=
  let gi := tix / 64
  ((s.teamsOf f.famid).find? fun t => t.rid == rid && t.num == gi / Nat.max 1 f.groups).map fun t => (t, gi % Nat.max 1 f.groups, tix % 64)
def State.copyTeam (s : State) (f : Family) (rid tix : Nat) : Option Team := (s.copyOf f rid tix).map (·.1)

/-- The clock of a key ends with its comparison (R380). -/
def State.stopClock (s : State) (fam : W32) (tix : Nat) (key : ClockKey) : State :=
  { s with clocks := s.clocks.filter fun c => !(c.fam == fam && c.tix == tix && c.key == key) }

/-! ### Mismatch (R381) -/

/-- The records, the traps and what follows: restart of the team in every replica, or the end of the family. -/
def State.mismatch (s : State) (f : Family) (tix cause : Nat) (detail : W64) (pcs : Nat → Option W64) : State :=
  let copies := (List.range f.repl).filterMap fun rid => (s.copyOf f rid tix).map fun c => (rid, c)
  let s1 := copies.foldl (fun st (rid, (t, j, l)) =>
    let pc := (pcs rid).getD (st.thr (.grp t.tid j) l).pc
    (st.modThr (.grp t.tid j) l fun x => { x with st := .faulted }).postFault f.famid
      (faultRecord f.famid rid cause tix t.core l pc 0#64 st.pt detail) none) s
  if f.restartable then s1.restartAll f.famid (copies.map (·.2.1)) cause else s1.endFamilyBy f.famid cause

/-! ### Commit (R379) -/

/-- One held store is performed at its home, but for the bytes over which a higher lane's store of the same instruction has been performed:
in lane order its own lay before that one (R192). -/
def State.commitOne (s : State) (p : Party) (l : Nat) (e : Entry) : Eff Unit :=
  match s.access p l e.va e.data.length .store false true with
  | (s1, .ok x) =>
    if e.newer.isEmpty then s1.putNow p x.pa e.data e.rh
    else ((List.range e.data.length).filter fun k => !e.newer.contains k).foldl (fun acc k =>
      acc.bind fun st _ => st.putNow p (x.pa + k) [e.data.getD k 0#8] e.rh) (Eff.ok s1 ())
  | (s1, .error .stall) => (s1, .error .stall)
  | (s1, .error (.trap _)) => Eff.ok s1 ()
/-- The held stores of a thread are performed in its program order, as far as the homes take them. (DEDUCED, unsafe: log entry 29.) -/
def State.commitHeld (s : State) (p : Party) (l : Nat) : List Entry → State × List Entry
  | [] => (s, [])
  | e :: es => match s.commitOne p l e with
    | (s1, .ok _) => State.commitHeld s1 p l es
    | (s1, .error _) => (s1, e :: es)

/-- An address that a performed store covers. -/
def Entry.covers (e : Entry) (a : Nat) : Bool := e.va.toNat ≤ a && a < e.va.toNat + e.data.length
/-- A lower lane's held stores, once stores of a higher lane have been performed: its store of the same instruction, and what it held before,
lie before them on the bytes they share (R192, R379). -/
def overtaken (es : List Entry) (held : List Entry) : List Entry :=
  (held.foldr (fun f (acc : List Entry × List Nat) =>
    let hit := (List.range f.data.length).filter fun k =>
      acc.2.contains (f.va.toNat + k) || es.any fun e => e.pc == f.pc && e.at_ == f.at_ && e.covers (f.va.toNat + k)
    ({ f with newer := hit.foldl (fun o k => addSet k o) f.newer } :: acc.1, hit.foldl (fun o k => addSet (f.va.toNat + k) o) acc.2)) ([], [])).1
/-- The first `n` stores that a lane holds have been performed: they overtake those of lower lanes. -/
def Group.overtake (g : Group) (l n : Nat) : Group :=
  let es := (g.thr l).held.take n
  { g with threads := g.threads.mapIdx fun k t => if k < l && !es.isEmpty then { t with held := overtaken es t.held } else t }

/-- The groups of the other replicas see the write completion times and acknowledgements of the committed stores too.
(DEDUCED, unsafe: log entry 29.) -/
def State.shareAcks (s : State) (before after : Group) (lines : List Nat) (q : Party) : State :=
  State.modGrp { s with host := { s.host with acks := s.host.acks ++ lines.map fun k => { who := .party q, line := k, rmw := false } } } q fun g =>
    { g with rh := Nat.max g.rh after.rh, wuntil := Nat.max g.wuntil after.wuntil, ackout := g.ackout + (after.ackout - before.ackout) }

/-- What a commit leaves of a replica's copy of the thread: `left` of its stores are still to be performed; none, and the thread passes its
proof point. -/
def State.passProof (s : State) (q : Party) (l left : Nat) : State :=
  let s1 := s.modGrp q fun g => g.overtake l ((g.thr l).held.length - left)
  if left = 0 then s1.modThr q l fun x => { x with held := [], q := x.q + 1, passed := true, st := if x.st == .proofWait then .ready else x.st }
  else s1

/-- PROOF_COMMIT (R379): the chosen replica's entries are performed, the others discarded, and the threads that agree pass the proof
point. -/
def State.proofCommit (s : State) (f : Family) (tix q src : Nat) (agree : List Nat) : State :=
  match s.copyOf f src tix with
  | none => s
  | some (t, j, l) =>
    let p : Party := .grp t.tid j
    let (s1, left) := s.commitHeld p l (s.thr p l).held
    let lines := (s1.host.acks.drop s.host.acks.length).map (·.line)
    let others := (agree.filter (· != src)).filterMap fun r => s.copyOf f r tix
    let s2 := others.foldl (fun st (u, j', _) => st.shareAcks (s.grp p) (s1.grp p) lines (.grp u.tid j')) s1
    let s3 := others.foldl (fun st (u, j', _) => st.passProof (.grp u.tid j') l left.length) (s2.passProof p l left.length)
    if !left.isEmpty then s3.modThr p l fun x => { x with held := x.held.drop (x.held.length - left.length) }
    else { s3 with proofs := s3.proofs.filter fun e => !(e.fam == f.famid && e.tix == tix && e.q == q) }.stopClock f.famid tix (.interval q)

/-! ### Keys (R377, R385, R387) -/

def State.entriesOf (s : State) (fam : W32) (tix : Nat) : List ProofEntry := s.proofs.filter fun e => e.fam == fam && e.tix == tix
def State.oncesOf (s : State) (fam : W32) (tix : Nat) : List OnceReq := s.onces.filter fun e => e.fam == fam && e.tix == tix
/-- The thread whose operation a segment at the proof unit belongs to (R387). -/
def State.segTix (s : State) (f : Family) (g : Segment) : Option Nat :=
  if g.fam != f.famid || !g.posted then none
  else ((s.teamsOf f.famid).find? fun t => t.rid == g.rid && t.num == g.num).bind fun t =>
    ((t.queue g.queue).head.filter (·.num == g.op)).map fun o => (t.num * f.groups + o.grp) * 64 + o.lane
/-- The staged segments at the proof unit of the operations that a thread has issued. -/
def State.segsOf (s : State) (f : Family) (tix : Nat) : List Segment := s.segs.filter fun g => s.segTix f g == some tix
def segEntries (g : Segment) : List Entry := g.writes.map fun w => { va := w.1, data := w.2.1 }

def State.entriesAt (s : State) (fam : W32) (tix q : Nat) : List ProofEntry := (s.entriesOf fam tix).filter (·.q == q)
def State.oncesAt (s : State) (fam : W32) (tix e : Nat) : List OnceReq := (s.oncesOf fam tix).filter (·.e == e)
def State.segsAt (s : State) (f : Family) (tix queue op seg : Nat) : List Segment :=
  (s.segsOf f tix).filter fun g => g.queue == queue && g.op == op && g.seg == seg
/-- What a thread has pending at the proof unit. -/
def State.keysOf (s : State) (f : Family) (tix : Nat) : List ClockKey :=
  ((s.entriesOf f.famid tix).map (fun (e : ProofEntry) => ClockKey.interval e.q) ++ (s.oncesOf f.famid tix).map (fun (e : OnceReq) => ClockKey.once e.e) ++
    (s.segsOf f tix).map fun (g : Segment) => ClockKey.seg g.queue g.op g.seg).foldl (fun l k => if l.contains k then l else l ++ [k]) []
/-- The replicas whose part of a key has arrived. -/
def State.came (s : State) (f : Family) (tix : Nat) : ClockKey → List Nat
  | .interval q => (s.entriesAt f.famid tix q).map (·.rid)
  | .once e => (s.oncesAt f.famid tix e).map (·.rid)
  | .seg queue op seg => (s.segsAt f tix queue op seg).map (·.rid)

/-- The operands of an operation whose lanes act in ascending order: an atomic (R205), `WAKE` (R212), `BARI` (R217). -/
def atomicOnce (r : OnceReq) : Bool := r.operands.head?.any fun op => (0xC0 ≤ op && op ≤ 0xC3) || op == 0xC5 || op == 0xC6
/-- A lower lane of the same issue of such an operation has still to perform it (R385). (DEDUCED, unsafe: log entry 29.) -/
def State.lowerWaits (s : State) (f : Family) (tix : Nat) (r : OnceReq) : Bool :=
  atomicOnce r && (match s.copyOf f r.rid tix with
    | none => false
    | some (t, j, l) =>
      let g := t.grp j
      let me := g.thr l
      (g.lanes g.live).any fun k => k < l && (g.thr k).pc == me.pc && (g.thr k).since.isSome && (g.thr k).since == me.since &&
        ((g.thr k).st == .ready || (g.thr k).st == .proofWait || (g.thr k).st == .onceWait))

/-- The verdict on a key (R378). -/
def State.verdict (s : State) (f : Family) (tix : Nat) (key : ClockKey) (late : Bool) : Verdict :=
  match key with
  | .interval q => judge f.repl ((s.entriesAt f.famid tix q).map fun e => (e.rid, (e.pc, e.count, e.sig))) late
  | .once e =>
    let es := s.oncesAt f.famid tix e
    if es.any fun r => s.lowerWaits f tix r then .wait else judge f.repl (es.map fun x => (x.rid, x.operands)) late
  | .seg queue op seg =>
    judge f.repl ((s.segsAt f tix queue op seg).map fun x => (x.rid, (x.writes.length, signature (segEntries x)))) late

/-! ### What follows a comparison (R378, R381, R384, R385, R387) -/

/-- The requests of an operation performed once have compared equal: the source's thread performs it, if it has not gone on with a pinned
value (R384, R385). -/
def State.grantOnce (s : State) (f : Family) (tix e src : Nat) : State :=
  let s1 := { s with onces := s.onces.filter fun x => !(x.fam == f.famid && x.tix == tix && x.e == e) }.stopClock f.famid tix (.once e)
  match s1.copyOf f src tix with
  | none => s1
  | some (t, j, l) =>
    let x := s1.thr (.grp t.tid j) l
    if x.st == .onceWait && x.e == e then s1.wake (.grp t.tid j) l fun x => { x with onceGo := true } else s1

/-- SPOOL_SEGMENT_COMMIT (R387): the chosen replica's writes are performed, and the operation goes on in every replica. A home that must wait
holds the whole segment back. -/
def State.segCommit (s : State) (f : Family) (tix queue op seg src : Nat) : State :=
  match (s.segsAt f tix queue op seg).find? (·.rid == src) with
  | none => s
  | some x => match (s.teamsOf f.famid).find? fun t => t.rid == src && t.num == x.num with
    | none => s
    | some t => match (t.queue queue).head with
      | none => s
      | some o =>
        let p : Party := .grp t.tid o.grp
        match x.writes.foldl (fun (acc : Eff (Nat × Nat)) y => acc.bind fun st (w, u) =>
            match st.engStore p o.lane queue y.1 y.2.1 y.2.2 with
            | (st', .ok (w', u')) => Eff.ok st' (Nat.max w w', Nat.max u u')
            | (st', .error .stall) => Eff.stall st'
            | (st', .error (.trap _)) => Eff.ok st' (w, u)) (Eff.ok s (0, 0)) with
        | (s1, .error _) => s1
        | (s1, .ok (w, u)) =>
          let acks := (s1.host.acks.drop s.host.acks.length).map (·.line)
          let mine := (s1.teamsOf f.famid).filter (·.num == x.num)
          let more := (mine.filter (·.tid != t.tid)).flatMap fun (y : Team) => acks.map fun k => ({ who := .spool y.tid queue, line := k, rmw := false } : Ack)
          let s2 : State := { s1 with host := { s1.host with acks := s1.host.acks ++ more } }
          let s3 := mine.foldl (fun st y => st.modTeam y.tid fun z => z.modQueue queue fun q => match q.head with
              | some h => if h.num == op then q.setHead { h with seg := h.seg + 1, rh := Nat.max h.rh w, wuntil := Nat.max h.wuntil u } else q
              | none => q) s2
          let left := s3.segs.filter fun y => !(y.fam == f.famid && y.num == x.num && y.queue == queue && y.op == op && y.seg == seg)
          State.stopClock { s3 with segs := left } f.famid tix (.seg queue op seg)

/-- A key is decided for a source and the replicas that agree with it. (DEDUCED, unsafe: log entry 29.) -/
def State.performKey (s : State) (f : Family) (tix : Nat) (key : ClockKey) (src : Nat) (agree : List Nat) : State :=
  match key with
  | .interval q => s.proofCommit f tix q src agree
  | .once e => s.grantOnce f tix e src
  | .seg queue op seg => s.segCommit f tix queue op seg src
/-- A key that no majority decides: mismatch or timeout (R381, R382). -/
def State.failKey (s : State) (f : Family) (tix : Nat) (key : ClockKey) : State :=
  let rids := s.came f tix key
  let missing := rids.length < f.repl
  let cause := if missing then 0x29 else 0x28
  match key with
  | .interval q =>
    let es := s.entriesAt f.famid tix q
    s.mismatch f tix cause (proofDetail (entryKind f.repl es) rids q) fun rid => ((es.find? (·.rid == rid)).or es.head?).map (·.pc)
  | .once e =>
    let es := s.oncesAt f.famid tix e
    s.mismatch f tix cause (proofDetail (if missing then 5 else 3) rids e) fun rid => ((es.find? (·.rid == rid)).or es.head?).map (·.pc)
  | .seg queue op seg =>
    let pc := (s.segsAt f tix queue op seg).findSome? fun g => ((s.teamsOf f.famid).find? fun t => t.rid == g.rid && t.num == g.num).bind fun t =>
      ((t.queue queue).head).map (·.pc)
    s.mismatch f tix cause (proofDetail (if missing then 5 else 4) rids seg) fun _ => pc

/-- The keys of a thread's team that the same comparison decides by majority or match, with their verdicts (R383). -/
def State.decided (s : State) (f : Family) (num : Nat) : List (Nat × ClockKey × Nat × List Nat × Option Nat) :=
  let per := Nat.max 1 f.groups * 64
  let tixs := ((s.proofs.filter (·.fam == f.famid)).map (·.tix) ++ (s.onces.filter (·.fam == f.famid)).map (·.tix) ++ s.segs.filterMap (s.segTix f)).foldl
    (fun l k => if k / per == num then addSet k l else l) []
  tixs.flatMap fun tix => (s.keysOf f tix).filterMap fun key => match s.verdict f tix key false with
    | .commit src agree => some (tix, key, src, agree, none)
    | .repair src agree bad => some (tix, key, src, agree, some bad)
    | _ => none

/-- The repairs of a family begin whose comparisons have been committed: a commit that a home holds back is finished first. -/
def State.beginRepairs (s : State) (f : Family) : State :=
  let ready (r : RepairP × List (Nat × ClockKey)) : Bool := r.1.fam == f.famid && r.2.all fun k => (s.came f k.1 k.2).isEmpty
  (s.dueRepairs.filter ready).foldl (fun st r => match st.team? r.1.src, st.team? r.1.dst with
    | some x, some y => st.startRepair x y
    | _, _ => st) { s with dueRepairs := s.dueRepairs.filter fun r => !ready r }

/-- The comparison of one key. A majority decides every key of the team that this comparison decides, and has the dissenters repaired by
the lowest replica that agreed in all of them; without one, the key is a mismatch (R378, R383). (DEDUCED, unsafe: log entry 29.) -/
def State.compareKey (s : State) (f : Family) (tix : Nat) (key : ClockKey) (late : Bool) : State :=
  match s.verdict f tix key late with
  | .wait => s
  | .fail => s.failKey f tix key
  | .commit src agree => s.performKey f tix key src agree
  | .repair src agree bad =>
    let ks := (tix, key, src, agree, some bad) ::
      (s.decided f (tix / (Nat.max 1 f.groups * 64))).filter fun k => !(k.1 == tix && k.2.1 == key)
    match (List.range f.repl).find? fun r => ks.all fun k => k.2.2.2.1.contains r with
    | none => s.failKey f tix key
    | some good =>
      let s1 := ks.foldl (fun st k => st.performKey f k.1 k.2.1 k.2.2.1 k.2.2.2.1) s
      let due := (ks.filterMap fun k => k.2.2.2.2).filterMap fun b =>
        match s1.copyTeam f good tix, s1.copyTeam f b tix with
        | some x, some y => if x.tid == y.tid then none else some ({ fam := f.famid, src := x.tid, dst := y.tid } : RepairP)
        | _, _ => none
      State.beginRepairs { s1 with dueRepairs := s1.dueRepairs ++ due.map fun r => (r, ks.map fun k => (k.1, k.2.1)) } f

/-- PROOF_COMPARISON (R378, R384, R387): what a thread has pending at the proof unit, key by key, once every replica's part has arrived. -/
def execProofComparison (fam : W32) (tix : Nat) (s : State) : Host.Outcome State Fault Refusal :=
  match s.fam? fam with
  | none => .next s
  | some f => finish (State.beginRepairs ((s.keysOf f tix).foldl (fun st k => st.compareKey f tix k false) s) f)

/-- The clock of a key runs (R380): each replica that owes its entry has the team resident and the thread not faulted, and the family
runs. -/
def State.clockRuns (s : State) (c : Clock) : Bool :=
  match s.fam? c.fam with
  | none => false
  | some f =>
    let came := s.came f c.tix c.key
    f.state == .running && (List.range f.repl).all fun rid => came.contains rid || (match s.copyOf f rid c.tix with
      | some (t, j, l) => t.st == .resident && ((t.grp j).thr l).st != .faulted
      | none => false)
/-- Clocks advance with PT. -/
def State.runClocks (s : State) (ns : Nat) : State :=
  { s with clocks := s.clocks.map fun c => if s.clockRuns c then { c with count := c.count + ns } else c }

/-- PROOF_TIMEOUT (R380, R381): the clock of a key of the thread has reached 1,000,000 ns. -/
def execProofTimeout (fam : W32) (tix : Nat) (s : State) : Host.Outcome State Fault Refusal :=
  match s.fam? fam with
  | none => .next s
  | some f => finish ((s.clocks.filter fun c => c.fam == fam && c.tix == tix && c.count ≥ 1000000).foldl
      (fun st c => if st.clocks.any (fun x => x.fam == fam && x.tix == tix && x.key == c.key) then st.compareKey f tix c.key true else st) s)

/-! ### Repair (R383) -/

/-- A thread of the dissenter as copied: it waits with the source on what is performed once for all replicas and no longer asked for; what
it had asked of engines by itself is asked again. -/
def Thread.asCopied (t : Thread) (asked : Bool) : Thread :=
  let st : TState := match t.st with
    | .proofWait => .ready
    | .onceWait => if asked then .ready else .onceWait
    | .engineWait => .onceWait
    | x => x
  if t.onceGo then { t with onceGo := false, got := none, barTok := none, st := .onceWait } else { t with st := st }

/-- REPAIR_COMPLETE (R383): the source's state stands in the dissenter's place, and both go on. A pinned value waits for the dissenter again
when its thread has still to read it. -/
def execRepairComplete (k : Nat) (s : State) : Host.Outcome State Fault Refusal :=
  match s.repairs[k]? with
  | none => .next s
  | some r =>
    match s.team? r.src, s.team? r.dst with
    | some a, some b =>
      -- the quad binding is copied once the tiles of the dissenter's core are free (R179)
      if a.quad && !b.quad && s.teams.any (fun t => t.tid != b.tid && t.quad && t.core == b.core && (t.st == .resident || t.st == .saving)) then .next s
      else
      let asked (t : Thread) : Bool := s.onces.any fun o => o.fam == t.fam && o.tix == t.tix && o.rid == a.rid && o.e == t.e
      let b' : Team := { a with
        tid := b.tid, rid := b.rid, core := b.core, firstCore := b.firstCore, firstDie := b.firstDie, fbase := b.fbase, since := b.since, dispatched := b.dispatched
        st := b.st, restarts := b.restarts, relaunch := b.relaunch
        groups := a.groups.map fun g => g.map fun x => { x with threads := x.threads.map fun t => t.asCopied (asked t) } }
      let others := s.segs.filter fun (g : Segment) => !(g.fam == b.fam && g.num == b.num && g.rid == b.rid)
      let copied := (s.segs.filter fun (g : Segment) => g.fam == a.fam && g.num == a.num && g.rid == a.rid).map fun (g : Segment) => { g with rid := b.rid }
      -- a thread that waits on its team's forme waits on the copy's
      let waits := s.waiters.filterMap fun (w : Waiter) => match w.party with
        | .grp tid j => if tid == a.tid && w.forme == some a.tid then some { w with party := .grp b.tid j, forme := some b.tid } else none
        | .lc _ => none
      let s1 := { (s.dropCore b.core).modTeam b.tid fun _ => b' with
        repairs := s.repairs.eraseIdx k, segs := others ++ copied, waiters := s.waiters ++ waits }
      let count (tix : Nat) : Option Nat := a.groups.findSome? fun g => (g.bind fun x => x.threads.find? fun t => t.fam == a.fam && t.tix == tix).map (·.e)
      let s2 := s1.modFam b.fam fun f => { f with
        repairs := f.repairs + 1#32
        pinned := (f.pinned.map fun (x : Pinned) => match count x.tix with
          | some e => { x with left := if e ≤ x.e then addSet b.rid x.left else x.left.filter (· != b.rid) }
          | none => x).filter fun (x : Pinned) => !x.left.isEmpty }
      let s3 := if b.st == .saved then s2.writeTeam (s2.recFam b') b' else s2
      finish (s3.headerNow b.fam)
    | _, _ => .next { s with repairs := s.repairs.eraseIdx k }

end Sys2Proof.Machine
end

