-- ==== Sys2Proof/Machine/Ras.lean ====
section
/-!
DEFINITION. Reliability, power and reset (R411, R413-R419, R427, R428): scrubbing, corrected errors, timing detectors, supply steps, the
governor, overcurrent and heat, resets and the start of latency cores.
-/

namespace Sys2Proof.Machine

/-! ### Errors (R411, R413, R414) -/

/-- One CORR record for the corrected errors of a structure and die in a second (R414). -/
def State.foldOut (s : State) (x : Fold) : State := State.logError { s with folds := s.folds.erase x } 0 x.struct x.die 0#32 0 x.n
/-- Counts a corrected error: CORR of the error log's header, and the fold of its structure and die (R413, R414). -/
def State.corrected (s : State) (struct die : Nat) : State :=
  let a := s.own Config.errlog + 32
  let s1 := s.storeHw a (natLe 8 (Nat.min (2 ^ 64 - 1) (s.rdHw a 8 + 1)))
  let now := s.pt / 10 ^ 9
  match s1.folds.find? fun x => x.struct == struct && x.die == die with
  | some x => if x.sec = now then { s1 with folds := { x with n := x.n + 1 } :: s1.folds.erase x }
    else let y : Fold := { struct := struct, die := die, n := 1, sec := now }
         let s2 := s1.foldOut x
         { s2 with folds := y :: s2.folds }
  | none => { s1 with folds := { struct := struct, die := die, n := 1, sec := now } :: s1.folds }

/-- PATROL_SCRUB (R411): a corrected codeword is counted, an uncorrectable one poisons its granule and makes a record of kind POISON. -/
def execPatrolScrub (pa0 : Nat) (r : ScrubResult) (s : State) : Host.Outcome State Fault Refusal :=
  let pa := s.redirect pa0 / 32 * 32
  let die := paDie pa
  let struct := if die < 24 then 9 else 10
  if paPkg pa != s.link.pkg || die > 27 || paOff pa + 32 > Config.dieBytes die then .next s
  else match r with
    | .clean => .next s
    | .corrected => finish (s.corrected struct die)
    | .uncorrectable => finish ((s.poisonAt pa 32).logError 1 struct die 0#32 pa 0)

/-- CORR_RECORD_FOLD (R414): the corrected errors of one structure and die in a second that has ended make one record. -/
def execCorrRecordFold (struct die : Nat) (s : State) : Host.Outcome State Fault Refusal :=
  match s.folds.find? fun x => x.struct == struct && x.die == die with
  | none => .next s
  | some x => if x.sec < s.pt / 10 ^ 9 then finish (s.foldOut x) else .next s

/-- ERROR_LOG_RETRY (R413): HEAD is read again while records wait. -/
def execErrorLogRetry (s : State) : Host.Outcome State Fault Refusal := finish (s.logDrain s.errq.length)

/-! ### Timing detectors and supply (R415, R416, R418) -/

/-- TIMING_DETECTOR_REPLAY (R415): one cycle is replayed, counted in `s.cyc`, in `s.tdrepl` and in the die's window. -/
def execTimingDetectorReplay (core : Nat) (s : State) : Host.Outcome State Fault Refusal :=
  if core ≥ 576 then .next s
  else .next ((s.modCore core fun c => { c with cyc := c.cyc + 1, tdrepl := (c.tdrepl + 1) % 2 ^ 64 }).modDie (core / 24) fun d =>
    { d with replays := d.replays + 1 })

/-- LIMIT and QUIET of `s.tdlim` (R415). -/
def tdLimit (x : W32) : Nat := x.toNat % 2 ^ 16
def tdQuiet (x : W32) : Nat := x.toNat / 2 ^ 16 % 256
/-- The step up of R416, with its record (R414): DETAIL is the new value. (DEDUCED, unsafe: log entry 34.) -/
def State.stepUp (s : State) (d : Nat) : State :=
  let x := s.die d
  if x.v < 450 then (s.modDie d fun y => { y with v := x.v + 10 }).logError 4 15 d 0#32 0 (x.v + 10)
  else if x.f > 1400 then (s.modDie d fun y => { y with f := x.f - 100 }).logError 5 15 d 0#32 0 (x.f - 100) else s
/-- The step down of R416. (DEDUCED, unsafe: log entry 34.) -/
def State.stepDown (s : State) (d : Nat) : State :=
  let x := s.die d
  if x.f < 1800 then s.modDie d fun y => { y with f := x.f + 100 }
  else if x.v > Nat.max (s.dev.top d).vfloor (s.dev.top d).vnom then s.modDie d fun y => { y with v := x.v - 10 } else s
/-- One die at the end of its window (R416); a die above its limit temperature takes the step down, whatever it replayed (R418).
(DEDUCED, unsafe: log entry 34.) -/
def State.supplyDie (s : State) (d : Nat) : State :=
  let x := s.die d
  let limit := tdLimit s.tdlim
  let quiet := tdQuiet s.tdlim
  let s1 := if x.hot then s.stepDown d
    else if limit != 0 && x.replays > limit then (s.stepUp d).modDie d fun y => { y with quiet := 0 }
    else if 4 * x.replays < limit then
      (if quiet != 0 && x.quiet + 1 ≥ quiet then (s.stepDown d).modDie d fun y => { y with quiet := 0 }
       else s.modDie d fun y => { y with quiet := y.quiet + 1 })
    else s.modDie d fun y => { y with quiet := 0 }
  s1.modDie d fun y => { y with replays := 0, winEnd := (s.pt / 1000000 + 1) * 1000000 }
/-- SUPPLY_STEP (R416): every C-die whose 1 ms window has ended. -/
def execSupplyStep (s : State) : Host.Outcome State Fault Refusal :=
  finish (((List.range 24).filter fun d => (s.die d).winEnd ≤ s.pt).foldl (fun st d => st.supplyDie d) s)

/-- OVERCURRENT (R418): the die's SIMT clock is halved for 10 µs, with a record. -/
def execOvercurrent (die : Nat) (s : State) : Host.Outcome State Fault Refusal :=
  if die ≥ 24 then .next s
  else finish ((s.modDie die fun d => { d with overcur := some (s.pt + 10000) }).logError 9 15 die 0#32 0 0)
/-- OVERCURRENT_END (R418). -/
def execOvercurrentEnd (s : State) : Host.Outcome State Fault Refusal :=
  .next { s with dies := s.dies.map fun d => if d.overcur.any (· ≤ s.pt) then { d with overcur := none } else d }
/-- THERMAL_LIMIT (R418): a die passes 105 °C, or falls below 95 °C. -/
def execThermalLimit (die : Nat) (hot : Bool) (s : State) : Host.Outcome State Fault Refusal :=
  .next (s.modDie die fun d => { d with hot := hot })
/-- GOVERNOR_WINDOW (R419): the sums of the microseconds that have ended restart. -/
def execGovernorWindow (s : State) : Host.Outcome State Fault Refusal :=
  .next { s with dies := s.dies.map fun d => if d.govEnd ≤ s.pt then { d with govSum := 0 } else d }

/-! ### Resets and bring-up (R427, R428) -/

/-- The machine as bring-up leaves its memory and cores (R427 steps 4 to 7): the supply of each die, the cores whose self-test failed, the
copy of the table, and the own package number. -/
def State.setUp (s : State) (d : Dev) : State :=
  let s1 : State := { s with
    tdlim := BitVec.ofNat 32 d.tdlim, dies := s.dies.mapIdx fun k x => if k < 24 then { x with v := (d.top k).vnom } else x
    cores := d.scanFails.map fun c => { num := c, removed := true } }
  let s2 := s1.setBytes Config.capbase (capTable d)
  let s3 := s2.setBytes (Config.errlog + 64) (natLe 72 (bitsOf d.scanFails) ++ natLe 16 (bitsOf d.lcFails))
  if d.site = 0 then s3
  else
    let s4 := (s3.renumber d.site).modLink fun l => { l with domain := 1#64 <<< d.site }
    s4.modLc 0 fun _ => LCore.boot s4.capbase (BitVec.ofNat 64 (s4.own Config.loaderEntry))

/-- Both resets (R427): families end, caches, TLBs, predictors and queues are cleared, memory is undefined, and bring-up runs up to the
entry of the loader. A ROM section or boot firmware that does not verify stops it with every core held (R423). The device keeps its facts;
memory reads as memory that nothing has written (log entry 1). -/
def State.bringUp (s : State) : State :=
  let d := s.dev.load
  let s1 : State := { State.reset with
    dev := d, schedule := s.schedule, nsPerStep := s.nsPerStep, cycPerStep := s.cycPerStep
    deferLoads := s.deferLoads, deferStores := s.deferStores, deferAtomics := s.deferAtomics, deferReleases := s.deferReleases
    guardLate := s.guardLate, tlbOlder := s.tlbOlder, evict := s.evict, fresh := s.fresh + 1 }
  if d.rom.good && d.flash then s1.setUp d else { s1 with stopped := true, lcs := List.replicate 96 {} }
/-- POWER_ON_RESET (R427). -/
def execPowerOnReset (s : State) : Host.Outcome State Fault Refusal := .next s.bringUp
/-- PACKAGE_RESET (R427). -/
def execPackageReset (s : State) : Host.Outcome State Fault Refusal := .next s.bringUp

/-- LATENCY_CORE_START (R428): a held core that is neither harvested nor removed enters at the header that the table names, and clears its
entry. -/
def execLatencyCoreStart (n : Nat) (s : State) : Host.Outcome State Fault Refusal :=
  let a := s.own Config.startTable + 8 * n
  let pc := BitVec.ofNat 64 (s.rdN a 8)
  if s.stopped || n ≥ s.lcs.length || pc == 0#64 || !(s.lc n).held || s.dev.lcHarvest.contains n || s.dev.lcFails.contains n then .next s
  else
    finish ((s.modLc n fun c => { LCore.boot s.capbase pc with cyc := c.cyc, pend := c.pend }).storeHw a (natLe 8 0))

end Sys2Proof.Machine
end

