-- ==== Sys2Proof/Machine/Due.lean ====
section
/-!
DEFINITION. Steps by which the memory system forgets what has run out (R204, R312, R323, R338), walks (R335), the passing of time, and the
list of the device's own steps that may come next (log entry 6).
-/

namespace Sys2Proof.Machine

/-! ### What runs out -/

/-- LEASE_EXPIRY (R312). -/
def execLeaseExpiry (s : State) : Host.Outcome State Fault Refusal :=
  .next { s with copies := s.copies.filter fun c => c.usable s.pt }
/-- TRANSLATION_EXPIRY (R338). -/
def execTranslationExpiry (s : State) : Host.Outcome State Fault Refusal :=
  .next { s with tlbs := s.tlbs.filter fun t => s.pt + 4 < t.expiry, nleaf := s.nleaf.filter fun x => s.pt + 4 < x.expiry }
/-- DEFERRED_RECALL_EXPIRY (R204): the recall proceeds, and the reservation is gone. -/
def execDeferredRecallExpiry (s : State) : Host.Outcome State Fault Refusal :=
  .next { s with lcs := s.lcs.map fun c => if c.resv.any fun r => r.recalled && r.deferEnd ≤ s.pt then { c with resv := none } else c }
/-- TETHER_LINE_RETURN (R323): 4 µs without an operation. (A line whose slot is needed returns when its slot is taken: `State.holdLine`.) -/
def execTetherLineReturn (s : State) : Host.Outcome State Fault Refusal :=
  .next { s with tether := s.tether.filter fun e => s.pt < e.2 + 4000 }
/-- TRANSLATION_WALK (R335): a miss of a party's TLBs is filled; a walk that fails installs nothing, and the access faults when it is made. -/
def execTranslationWalk (p : Party) (va : W64) (kind : AccKind) (s : State) : Host.Outcome State Fault Refusal :=
  let sp := s.spaceOf p 0
  if !sp.en || !canonical va || (upper va && !sp.sup) || (s.tlbFind (s.tlbPath p) sp va).isSome then .next s
  else finish (s.fill (s.tlbPath p) sp va kind).1

/-! ### Time (log entry 7) -/

/-- The group's parked threads, each with the cycle at which it was first seen parked (R14). -/
def Group.parkSync (g : Group) (cyc : Nat) : Group :=
  let ls := (g.lanes g.live).filter fun l => (g.thr l).st == .parked
  if ls.isEmpty && g.parkedAt.isEmpty then g else { g with parkedAt := ls.map fun l => (l, (assoc l g.parkedAt).getD cyc) }
/-- Threads that wait for a run entry are noted, and those that have waited 2^16 cycles enter next (R14). -/
def State.parkTick (s : State) : State :=
  if !(s.teams.any fun t => t.groups.any fun g => g.any fun x => !x.parkedAt.isEmpty || x.threads.any fun t => t.st == .parked) then s
  else
    let sync (t : Team) : Team := { t with groups := t.groups.map fun g => g.map fun x => x.parkSync (s.cycOf (.grp t.tid 0)) }
    let s1 : State := { s with teams := s.teams.map sync }
    let owed := s1.teams.flatMap fun (t : Team) => if t.st != .resident then [] else
      (List.range t.groups.length).flatMap fun j => ((t.grp j).parkedAt.filter fun e => s1.parkDue (.grp t.tid j) e.1).map fun e =>
        Instr.runTableUnpark t.tid j e.1
    { s1 with agenda := owed.foldl (fun l i => addSet i l) s1.agenda }

/-- A watchdog that is due is taken at once, before the family may leave RUNNING (R354, R355). -/
def State.watchTick (s : State) : State := if s.fams.any s.watchDue then { s with agenda := addSet .watchdogExpiry s.agenda } else s

/-- Time passes: clocks of proof units run (R380), windows close (R302), engines make their counter additions (R307), parked threads (R14) and watchdogs (R354) come due, and the
hardware's own stores that a home has held back go on (log entry 42). -/
def State.pass (s : State) (ns cyc : Nat) : State :=
  let s1 := State.chunkTick <| State.watchTick <| State.parkTick <| State.netTick (State.windowTick { s.runClocks ns with pt := s.pt + ns, cycles := s.cycles + cyc })
  if s1.hwq.isEmpty then s1 else s1.hwDrain s1.hwq
/-- What passes in every step. (DESIGN CHOICE, unsafe in part: log entry 7.) -/
def State.elapse (s : State) : State := s.pass s.nsPerStep s.cycPerStep

/-! ### The device's own steps -/

/-- Every party that runs: latency cores, and the groups of resident teams. -/
def State.parties (s : State) : List Party :=
  ((List.range s.lcs.length).filterMap fun n => if s.running (.lc n) then some (.lc n) else none) ++
  s.teams.flatMap fun t => (List.range t.groups.length).filterMap fun j => if s.running (.grp t.tid j) then some (.grp t.tid j) else none

/-- A latency core takes an interrupt before its next instruction (R268). -/
def State.irqDue (s : State) (n : Nat) : Bool :=
  let c := s.lc n
  s.running (.lc n) && c.status.getLsbD 2 && !c.inside && !c.pend.isEmpty
/-- Steps for the threads of a party: a sleep that has ended, a run entry, a deferred release. -/
def State.threadSteps (s : State) (p : Party) : List Instr :=
  let g := s.grp p
  (g.lanes g.live).flatMap fun l =>
    let t := g.thr l
    (match t.st with
      | .sleep v => if s.pt ≥ v.toNat + 4 then [Instr.sleepWake p l] else []
      | .parked => match p with | .grp tid j => [Instr.runTableUnpark tid j l] | .lc _ => []
      | _ => []) ++ (if t.rel.isSome then [Instr.releasePerform p l] else [])
/-- Steps for a team: its quad, queues, rejoin points, predictions, its save. -/
def Team.steps (t : Team) : List Instr :=
  (if t.st == .saving then Instr.teamSaveComplete t.tid :: t.specs.map fun x => Instr.maskPredictionResolve t.tid x.1 else []) ++
  (if t.st != .resident then [] else
    (if !t.quad && t.qmem.all (·.isSome) then [Instr.quadForm t.core] else []) ++
    (if t.plq.isEmpty then [] else [Instr.platenOpStart t.tid, Instr.platenOpComplete t.tid]) ++
    ((List.range t.spq.length).flatMap fun q => if (t.queue q).items.isEmpty then [] else
      [Instr.spoolOpStart t.tid q, Instr.spoolOpFault t.tid q, Instr.spoolOpComplete t.tid q]) ++
    ((List.range t.groups.length).flatMap fun j => (t.grp j).points.map fun x => Instr.rejoinTimeout t.tid j x.id) ++
    t.specs.map fun x => Instr.maskPredictionResolve t.tid x.1)
/-- Steps for a family: admission, its watchdog, time slices, instances passed over. -/
def State.famSteps (s : State) (f : Family) : List Instr :=
  (if f.state == .walking then [Instr.admissionRetry f.famid] else []) ++
  (if s.watchDue f then [Instr.watchdogExpiry] else []) ++
  (if f.solo && !(s.sliceTeams f 0).isEmpty then [Instr.timeSliceExpiry f.famid 0] else []) ++
  ((s.teamsOf f.famid).filter fun t => t.st == .resident && s.pt ≥ t.since + f.slice).map (fun t => .timeSliceExpiry f.famid (t.num / f.area)) ++
  (f.passed.filter fun x => s.pt ≥ x.2 + 1000000 && !f.reserving.contains x.1).map fun x => .dispatchReserving f.famid x.1
/-- Steps for the network engines. -/
def State.netSteps (s : State) (e : Nat) : List Instr :=
  let n := s.net e
  (List.range n.reqs.length).flatMap fun k =>
    match n.reqs[k]? with
    | none => []
    | some r => if r.done then [] else
      (if r.sent.length < r.count && r.retryAt ≤ s.pt then [Instr.packetTransmit e k] else []) ++
      (r.sent.filter fun p => !p.2.2.2 && p.2.2.1 + n.rto ≤ s.pt).map fun p => .retransmitTimeout e k p.1

/-- The keys that have something at the proof unit. -/
def State.proofKeys (s : State) : List (W32 × Nat) :=
  (s.proofs.map (fun e => (e.fam, e.tix)) ++ s.onces.map (fun e => (e.fam, e.tix)) ++
    s.segs.filterMap fun g => (s.teams.find? fun t => t.fam == g.fam && t.rid == g.rid && t.num == g.num && !t.packed).bind fun t =>
      ((t.queue g.queue).head).map fun o =>
        (g.fam, (t.num * ((s.fam? g.fam).map Family.groups).getD 1 + o.grp) * 64 + o.lane)).eraseDups

/-- The device's own steps that may come next. (DESIGN CHOICE, safe in part: log entry 6.) (DESIGN CHOICE, safe: log entry 38.) -/
def State.due (s : State) : List Instr :=
  let on (b : Bool) (i : Instr) : List Instr := if b then [i] else []
  (List.range s.pend.length).flatMap (fun k => match s.pend[k]? with
    | some x => (match x.kind with
      | .store _ _ => [Instr.homeStorePerform k]
      | .load _ _ _ => [.loadPerform k]
      | .rmw _ _ _ => [.tetherAtomicPerform k])
    | none => []) ++
  s.parties.flatMap s.threadSteps ++ s.teams.flatMap Team.steps ++ s.fams.flatMap s.famSteps ++
  (List.range s.nets.length).flatMap s.netSteps ++
  s.proofKeys.map (fun k => Instr.proofComparison k.1 k.2) ++
  (s.clocks.filter (·.count ≥ 1000000)).map (fun c => Instr.proofTimeout c.fam c.tix) ++
  (List.range s.repairs.length).map Instr.repairComplete ++
  (List.range s.waiters.length).flatMap (fun k => on ((s.waiters[k]?).any fun w => !w.registered) (.overflowRegistration k)) ++
  (List.range s.moves.length).map (fun k => if (s.moves[k]?).any (fun m => m.copied || m.aborted) then Instr.pageMoveSwitch k else .pageMoveCopyDone k) ++
  (s.replicas.filter fun r => !r.filled).map (fun r => Instr.replicaFill r.page) ++
  (s.pages.filter fun r => r.writer == s.link.pkg && r.ho.isSome).flatMap (fun r => [Instr.handoverSwitch (.mk r.page 0 []), .handoverSwitch (.mk (2 ^ 35 + r.page / 8192) 0 [])]) ++
  s.pages.flatMap (fun r => r.wcount.flatMap fun c => [Instr.handoverOffer r.page c.1.2, .handoverOffer (2 ^ 35 + r.page / 8192) c.1.2]) ++
  (s.folds.filter fun x => x.sec < s.pt / 10 ^ 9).map (fun x => Instr.corrRecordFold x.struct x.die) ++
  ((List.range s.lcs.length).filter fun n => (match (s.thr (.lc n) 0).st with | .sleep _ => true | _ => false) && s.irqDue n).map Instr.interruptEntry ++
  on (!s.fams.isEmpty && s.link.aligned) .teamDispatch ++
  on (s.packs.any fun k => s.pt ≥ k.opened + s.packint.toNat) .packingIntervalExpiry ++
  on (s.lcs.any fun c => match c.wait with | .tlbsync k => s.pt ≥ k + 16004 && !(c.grp.thr 0).passed | _ => false) .tlbsyncWaitEnd ++
  on (s.copies.any fun c => !c.usable s.pt) .leaseExpiry ++
  on (s.tlbs.any (fun t => t.expiry ≤ s.pt + 4) || s.nleaf.any (fun t => t.expiry ≤ s.pt + 4)) .translationExpiry ++
  on (s.replicas.any (fun r => r.expiry ≤ s.pt) || s.pages.any (fun r => r.repl != 0#64 && r.lexp * 65536 ≤ s.pt)) .replicaExpiry ++
  on (s.lcs.any fun c => c.resv.any fun r => r.recalled && r.deferEnd ≤ s.pt) .deferredRecallExpiry ++
  on (s.tether.any fun e => e.2 + 4000 ≤ s.pt) .tetherLineReturn ++
  on (s.host.snoops.any s.snoopDue) .hostSnoopAnswer ++
  on (s.link.quiescing && s.wstores.all s.windowClosed) .quiesceComplete ++
  on (s.link.state == .hold) .timeHoldExit ++
  on (!s.errq.isEmpty) .errorLogRetry ++ (s.frecs.map (·.fam)).eraseDups.map Instr.faultQueueRetry ++
  on (s.dies.any fun d => d.govSum != 0 && d.govEnd ≤ s.pt) .governorWindow ++
  on (s.dies.any fun d => d.overcur.any (· ≤ s.pt)) .overcurrentEnd ++
  on ((s.dies.take 24).any fun d => d.winEnd ≤ s.pt) .supplyStep ++
  on ((List.range 28).any s.epochDue) .placementEpochEnd ++
  on (s.drainint != 0#32 && !s.drain.busy && s.drain.last + s.drainint.toNat * 1000000000 ≤ s.pt) .selfTestDrain ++
  on s.drain.busy (.scanSelfTestDone [])

end Sys2Proof.Machine
end

