-- ==== Sys2Proof/Machine/Migration.lean ====
section
/-!
DEFINITION. Migration (R253-R265): the checks and effect of a fan-out `MIGR.OUT`, admission of leased families (R257, R343), solo
migration and packing (R260, R261), and `MIGR.IN`.
-/

namespace Sys2Proof.Machine

/-! ### Checks of MIGR.OUT (R254-R257) -/

/-- Cores that count for admission: neither harvested nor removed (R254, R417). -/
def State.inService (s : State) (c : Nat) : Bool := !s.dev.harvest.contains c && !(s.core c).removed

/-- A load of a `MIGR.OUT` (R254): the check's reads are loads by R183; poisoned data is consumed. (DEDUCED, unsafe: log entry 25.) -/
def State.outLoad (s : State) (p : Party) (va : W64) (n : Nat) : Eff (List Byte) :=
  (s.access p 0 va n .load true true).bind fun s1 x => (s1.settleOver p x.pa n).bind fun s2 _ => (s2.read p x n .data .dflt).bind fun s3 (bs, poi) =>
    if poi then Eff.trap s3 { cause := 0x18 } else Eff.ok s3 bs
def State.outWord (s : State) (p : Party) (va : W64) : Eff Nat := (s.outLoad p va 8).bind fun s1 bs => Eff.ok s1 (leNat bs)

/-- The limits of R255 on a descriptor, but for the SIZE word of the fault queue. -/
def Family.fieldsOk (s : State) (f : Family) : Bool :=
  let g := f.groups
  let n := f.nregs
  let b := f.gbudget
  1 ≤ g && g ≤ 32 && 1 ≤ f.cw && f.cw ≤ 6 && 1 ≤ f.chh && f.chh ≤ 4 && f.cw * f.chh ≤ 12 &&
  1 ≤ n && n ≤ 768 && f.d + 1 < n && 1 ≤ b && b ≤ n &&
  f.formeSize % 4096 = 0 && 4096 ≤ f.formeSize && f.formeSize ≤ 2 ^ 20 &&
  1 ≤ f.repl && (f.repl = 1 || (f.leased && s.dev.caps.getLsbD 0)) &&
  f.dw 0 / 2 ^ 52 = 0 && f.dw 1 / 2 ^ 41 = 0 && f.slice > 0 && f.dw 6 % 8 = 0 && f.dw 7 != 0 && f.dw 7 % 64 = 0 &&
  (f.repl != 3 || rowChoice s.inService f ((f.instTeams 0).map fun k => some (f.need k)))
/-- SIZE is a power of two from 1 to 2^20 (R255, R281). -/
def sizeOk (n : Nat) : Bool := 1 ≤ n && n ≤ 2 ^ 20 && 2 ^ Nat.log2 n == n

/-- A team of all the groups per team, which step 8 of R254 fits on an empty core. (DEDUCED, unsafe: log entry 25.) -/
def Family.whole (f : Family) : Need :=
  { groups := f.groups, regs := f.groups * f.regSpace, fsize := f.formeSize, proofed := f.repl > 1 }

/-- Every page of the save area is mapped, writable by user software and normal (R256). (DESIGN CHOICE, unsafe: log entry 53.) -/
def State.saveOk (s : State) (f : Family) : Bool :=
  let a := f.dw 5
  let n := f.saveBytes
  let page (k : Nat) : Bool :=
    let va := BitVec.ofNat 64 (a / 2 ^ 17 * 2 ^ 17 + k * 2 ^ 17)
    match s.walkQuiet (spaceOfPtbr f.ptbr false).root va with
    | .ok (leaf, _, level) =>
      let pa := leafBase leaf / 2 ^ pageBits level * 2 ^ pageBits level + va.toNat % 2 ^ pageBits level
      permits leaf false .store && s.paOk pa && mtOf pa (leafMt leaf) == 0
    | .error _ => false
  a % 4096 = 0 && a + n ≤ 2 ^ 55 && (List.range ((a % 2 ^ 17 + n + 2 ^ 17 - 1) / 2 ^ 17)).all page

/-- The pairs of the lease list in order, up to the terminator or the 257th pair; whether a pair that is no terminator stands there
(R254, R257). -/
def State.readPairs (s : State) (p : Party) (va : W64) : Nat → List (Nat × Nat) → Eff (List (Nat × Nat) × Bool)
  | 0, acc => Eff.ok s (acc, true)
  | k + 1, acc => (s.outWord p va).bind fun s1 a => (s1.outWord p (va + 8#64)).bind fun s2 n =>
      if n = 0 then Eff.ok s2 (acc, false) else State.readPairs s2 p (va + 16#64) k (acc ++ [(a, n)])
/-- The lease list (R257): `none` when it is too long or a range leaves user space, which is known once every pair has been read. -/
def State.readLease (s : State) (p : Party) (va : W64) : Eff (Option (List (Nat × Nat))) :=
  (s.readPairs p va 257 []).bind fun s1 (l, more) => Eff.ok s1 (if more || l.any (fun r => r.1 + r.2 > 2 ^ 55) then none else some l)

/-- The 128 KiB pages of lease ranges. -/
def leasePages (lease : List (Nat × Nat)) : List W64 :=
  lease.flatMap fun (a, n) => (List.range ((a % 2 ^ 17 + n + 2 ^ 17 - 1) / 2 ^ 17)).map fun k => BitVec.ofNat 64 (a / 2 ^ 17 * 2 ^ 17 + k * 2 ^ 17)

/-! ### Admission (R257, R343) -/

/-- The walk of one page: nothing when it succeeds, or its cause. -/
def State.admitWalk (s : State) (f : Family) (va : W64) : State × Option Nat :=
  match s.fill [] (spaceOfPtbr f.ptbr false) va .load with
  | (s1, .error c) => (s1, some c)
  | (s1, .ok t) => if leafBit t.leaf 4 then (s1, none) else (s1, some 0x13)

/-- ADMISSION_WALK (R343): every page that still waits is walked; a failing page whose previous record HEAD has passed posts a record;
the family is READY when none waits. -/
def State.admitWalks (s : State) (famid : W32) : State :=
  match s.fam? famid with
  | none => s
  | some f =>
    if f.state != .walking then s
    else
      let s1 := f.admitPages.foldl (fun st va =>
        match st.admitWalk f va with
        | (st1, none) => st1.modFam famid fun x => { x with admitPages := x.admitPages.filter (· != va) }
        | (st1, some c) =>
          if c = walkBusy then st1
          else
          let head := st1.rdN (st1.faultQueue f.queue 0) 8
          let unread := (st1.frecs.any fun r => r.fam == famid && r.page == some va) ||
            (match assoc va ((st1.fam? famid).getD f).admitRecs with | some k => head ≤ k | none => false)
          if unread then st1
          else st1.postFault famid (faultRecord famid 0 c 0xFFFFFFFF 0 0 0#64 va st1.pt 0#64) (some va)) s
      s1.modFam famid fun x => if x.admitPages.isEmpty then { x with state := .ready, rank := s.pt } else x

/-- ADMISSION_RETRY (R343). -/
def execAdmissionRetry (fam : W32) (s : State) : Host.Outcome State Fault Refusal := finish (s.admitWalks fam)

/-! ### MIGR.OUT (R253, R254, R258) -/

/-- The free family slots (R16). -/
def State.freeSlots (s : State) : List Nat := (List.range 4096).filter fun k => !(s.fams.any fun f => f.famid.toNat / 2 ^ 20 == k)
/-- The slot that the scheduler chooses, with its generation. (DESIGN CHOICE, safe: log entry 11.) -/
def State.newFamid (s : State) : W32 :=
  let free := s.freeSlots
  let slot := free.getD (Config.slotChoice s.fresh % Nat.max 1 free.length) 0
  BitVec.ofNat 32 (slot * 2 ^ 20 + (assoc slot s.gens).getD 0)

/-- The parent record (R258): the thread as it stands. -/
def parentRecord (g : Group) : Group := g.modThr 0 fun t => { t.clear with blk := none, wins := [] }

/-- What a `MIGR.OUT` comes to: a status, or a family. -/
inductive OutEnd where
  | status (k : Int)
  | family (f : Family)
  deriving DecidableEq, Repr

/-- Steps 1 and 2 of R254: the header at PC + 8, and no poison. -/
def State.outStart (s : State) (p : Party) (poi : Bool) : Eff Unit :=
  let pc := (s.thr p 0).pc + 8#64
  (s.fetch p 0 pc).bind fun s1 w =>
    if !isHeader w then Eff.trap s1 { cause := 0x05, va := pc }
    else if poi then Eff.trap s1 { cause := 0x18 } else Eff.ok s1 ()

/-- Steps 3 to 10 of R254. (DEDUCED, unsafe: log entry 25.) -/
def State.outChecks (s : State) (n d N : Nat) (da : W64) : Eff OutEnd :=
  let p : Party := .lc n
  if da.toNat % 64 != 0 then Eff.trap s { cause := 0x12, va := da }
  else (s.outLoad p da 64).bind fun s1 bs =>
    let desc := (List.range 8).map fun k => (BitVec.ofNat 64 (leNat ((bs.drop (8 * k)).take 8)) : W64)
    let c := s1.lc n
    let dw0 := (desc.getD 0 0#64).toNat
    let g := Nat.max 1 (dw0 % 2 ^ 16)
    let f : Family :=
      { famid := s1.newFamid, n := N, desc := desc, ptbr := c.ptbr, cws := c.cws, parent := parentRecord c.grp, d := d, origin := n,
        outPc := (s1.thr p 0).pc, teams := ((N + 63) / 64 + g - 1) / g, ballast := s1.dev.cap, accAt := s1.pt, rate := s1.dev.rate,
        cap := s1.dev.cap, rank := s1.pt }
    if N = 0 then Eff.ok s1 (.status (-7))
    else if f.dw 7 = 0 || f.dw 7 % 64 != 0 then Eff.ok s1 (.status (-2))
    else (s1.outWord p (BitVec.ofNat 64 (f.dw 7) + 16#64)).bind fun s2 size =>
      if !(sizeOk size && f.fieldsOk s2) then Eff.ok s2 (.status (-2))
      else if s2.freeSlots.isEmpty then Eff.ok s2 (.status (-1))
      else if !s2.saveOk f then Eff.ok s2 (.status (-3))
      else if (fitCore [] 0 f.whole).isNone ||
          !((List.range 24).any fun d => (fitRect s2.inService [] d f.cw f.chh ((f.instTeams 0).map fun k => some (f.need k))).isSome) then
        Eff.ok s2 (.status (-6))
      else if f.cohort && (placeAll s2.inService f f.repl (List.range f.insts) []).isNone then Eff.ok s2 (.status (-5))
      else if !f.leased then Eff.ok s2 (.family f)
      else (s2.readLease p (BitVec.ofNat 64 (f.dw 4))).bind fun s3 ls => match ls with
        | none => Eff.ok s3 (.status (-4))
        | some l => Eff.ok s3 (.family { f with lease := l, admitPages := leasePages l, state := .walking })

/-- The departure (R258, R268): a release at `.sys`, the reservation cancelled, and interrupt 0x01 on the core. (DEDUCED, unsafe: log entry 25.) -/
def State.depart (s : State) (n : Nat) (f : Family) (next : State → State) : State × LaneEnd :=
  match s.release (.lc n) 5 with
  | (s1, .error e) => (s1, e.done)
  | (s1, .ok _) =>
    let s2 := next (State.tick { s1 with fams := s1.fams ++ [f] })
    (s2.takeTrap n true 1 (BitVec.ofNat 64 f.famid.toNat) 0#64 0, .placed)

/-- A status in vD (R259): the thread goes on, without its reservation and its lookahead windows (R204, R55). -/
def State.outStatus (s : State) (n : Nat) (d : BitVec 10) (k : Int) : State :=
  s.modLc n fun c =>
    { c with resv := none, grp := (c.grp.wrD64 d 1#64 (fun _ => BitVec.ofInt 64 k) .u 0#64).modThr 0 fun t => { t with wins := [] } }

/-- `MIGR.OUT` (R253, R254, R258). (DEDUCED, unsafe: log entry 25.) -/
def execMigrOut (w : BaseW) (s : State) : Host.Outcome State Fault Refusal :=
  issue (.migrOut w) s fun st c =>
    match c.p with
    | .grp _ _ => (st, nexts c.act)
    | .lc n =>
      let g := st.grp c.p
      let a := g.src .int 1 w.a
      let b := g.src .int 2 w.b
      let (s1, r) := (st.outStart c.p (Mask.has (a.poi ||| b.poi) 0)).bind fun s1 _ =>
        s1.outChecks n w.d.toNat ((a.val 0).toNat % 2 ^ 32) (b.val 0)
      match r with
      | .error e => (s1, [(0, e.done)])
      | .ok (.status k) => (s1.outStatus n w.d k, [(0, .next)])
      | .ok (.family f) => let (s2, e) := s1.depart n f fun x => x.admitWalks f.famid
                           (s2, [(0, e)])

/-! ### Solo migration and packing (R260, R261) -/

/-- A packed group of the members of an interval: lane k holds the k-th member, every register G-shaped (R261).
(DESIGN CHOICE, safe: log entry 9.) (DEDUCED, unsafe: log entry 19.) -/
def packGroup (ms : List (W32 × Group)) (hdr : W64) (seed : Nat) : Group :=
  let at_ (l : Nat) : Group := (ms.getD l (0#32, {})).2
  let n := ms.length
  { live := firstLanes n
    regs := (List.range 768).map fun r =>
      (r, ({ sh := .g (allLanes.map fun l => if l < n then (at_ l).rd 0 r else 0#32),
             poison := Mask.ofTest fun l => l < n && (at_ l).poi 0 r 1 } : Reg))
    preds := (List.range 7).map fun k =>
      ({ bits := Mask.ofTest fun l => l < n && (at_ l).pred k 0, uni := false, poison := Mask.ofTest fun l => l < n && (at_ l).predPoi k 0 } : PredV)
    threads := allLanes.map fun l =>
      let t := (at_ l).thr 0
      { fam := (ms.getD l (ms.headD (0#32, {}))).1, pc := hdr, fcsr := t.fcsr, lastPt := t.lastPt, ftret := Config.ftret (seed * 2048 + l) } }

/-- The group of an interval is handed to the dispatcher (R261). -/
def State.closePack (s : State) (k : Pack) : State :=
  let used := (s.teams.filter (·.packed)).map (·.slot)
  let slot := ((List.range 4096).find? fun i => !used.contains i).getD 0
  let t : Team := { tid := s.nextTid, fam := (k.members.headD (0#32, {})).1, packed := true, slot := slot, fsize := 4096,
                    groups := [some (packGroup k.members k.hdr s.fresh)] }
  State.tick { s with packs := s.packs.filter (· != k), teams := s.teams ++ [t], nextTid := s.nextTid + 1 }

/-- The thread joins the open interval of its key, or opens one; 64 threads close it (R261). -/
def State.packIn (s : State) (ptbr hdr key : W64) (fam : W32) (g : Group) : State :=
  let same (k : Pack) : Bool := k.ptbr == ptbr && k.hdr == hdr && k.key == key
  let s0 := (s.packs.filter fun k => same k && s.pt ≥ k.opened + s.packint.toNat).foldl (fun st k => st.closePack k) s
  match s0.packs.find? same with
  | none => { s0 with packs := s0.packs ++ [{ ptbr := ptbr, hdr := hdr, key := key, opened := s0.pt, members := [(fam, g)] }] }
  | some k =>
    let k' := { k with members := k.members ++ [(fam, g)] }
    let s1 := { s0 with packs := s0.packs.map fun x => if x == k then k' else x }
    if k'.members.length ≥ 64 then s1.closePack k' else s1

/-- `MIGR.OUT.solo` (R260). -/
def execMigrOutSolo (w : BaseW) (s : State) : Host.Outcome State Fault Refusal :=
  issue (.migrOutSolo w) s fun st c =>
    match c.p with
    | .grp _ _ => (st, nexts c.act)
    | .lc n =>
      let b := (st.grp c.p).src .int 2 w.b
      match st.outStart c.p (Mask.has b.poi 0) with
      | (s1, .error e) => (s1, [(0, e.done)])
      | (s1, .ok _) =>
        if s1.freeSlots.isEmpty then (s1.outStatus n w.d (-1), [(0, .next)])
        else if (s1.fams.filter (·.solo)).length ≥ Config.soloThreads then (s1.outStatus n w.d (-8), [(0, .next)])
        else
          let k := s1.lc n
          let g := (parentRecord k.grp).wrD64 w.d 1#64 (fun _ => 0#64) .u 0#64
          let pc := (s1.thr c.p 0).pc
          let f : Family :=
            { famid := s1.newFamid, n := 1, solo := true, desc := soloDesc, ptbr := k.ptbr, cws := k.cws, parent := g, d := w.d.toNat,
              origin := n, outPc := pc, teams := 1, ballast := s1.dev.cap, accAt := s1.pt, rate := s1.dev.rate, cap := s1.dev.cap, rank := s1.pt }
          let (s2, e) := s1.depart n f fun x => x.packIn k.ptbr (pc + 8#64) (b.val 0) f.famid g
          (s2, [(0, e)])

/-- PACKING_INTERVAL_EXPIRY (R261): every interval that has ended is handed to the dispatcher. -/
def execPackingIntervalExpiry (s : State) : Host.Outcome State Fault Refusal :=
  .next ((s.packs.filter fun k => s.pt ≥ k.opened + s.packint.toNat).foldl (fun st k => st.closePack k) s)

/-! ### MIGR.IN (R262-R264) -/

/-- A reduction of two 64-bit contributions (R262). -/
def RedOp.apply (op : RedOp) (a b : W64) : W64 :=
  match op with
  | .add => a + b
  | .min => if a.toInt ≤ b.toInt then a else b
  | .max => if a.toInt ≥ b.toInt then a else b
  | .minu => if a.toNat ≤ b.toNat then a else b
  | .maxu => if a.toNat ≥ b.toNat then a else b
  | .or => a ||| b
  | .and => a &&& b
  | .first => a

/-- A contribution joins the family's reduction; `.first` keeps the nonzero value of the lowest index (R262). -/
def Family.contribute (f : Family) (op : RedOp) (x : W64) (tix : Nat) : Family :=
  match op with
  | .first =>
    if x == 0#64 || f.redIdx.any (· ≤ tix) then { f with redAny := true, redval := if f.redAny then f.redval else 0#64 }
    else { f with redAny := true, redval := x, redIdx := some tix }
  | _ => { f with redAny := true, redval := RedOp.apply op (if f.redAny then f.redval else redIdentity op.code) x }

/-- The checks and the closing of R263 in one thread. -/
def State.inChecks (s : State) (p : Party) (l : Nat) (op : RedOp) (w : BaseW) (x : Src) : Eff Unit :=
  let t := s.thr p l
  let h := t.pc + 8#64
  match s.famOf p l with
  | none => Eff.trap s { cause := 0x03 }
  | some f =>
    if f.solo || !(w.d == 1023#10 || w.d.toNat == f.d) then Eff.trap s { cause := 0x03 }
    else if Mask.has x.poi l then Eff.trap s { cause := 0x18 }
    else match f.closed with
      | none => Eff.ok (s.modFam t.fam fun y => { y with closed := some (op.code, h) }) ()
      | some (fn, h0) =>
        if fn != op.code then Eff.trap s { cause := 0x03 }
        else if h0 != h then Eff.trap s { cause := 0x05, va := h } else Eff.ok s ()

/-- `MIGR.IN` in a fan-out family (R263): closes it on first use, a proof point and a release at `.sys`, the contribution, which in a
proofed family is made once, and the thread's end. -/
def execMigrIn (op : RedOp) (w : BaseW) (s : State) : Host.Outcome State Fault Refusal :=
  issue (.migrIn op w) s fun st c =>
    match c.p with
    | .lc _ => (st, nexts c.act)
    | .grp tid j =>
      let x := (st.grp c.p).src .int 2 w.a
      let (s1, rs) := eachLane st (Mask.lanes c.act) fun s l =>
        (s.inChecks c.p l op w x).bind fun s1 _ => (s1.proofPoint c.p l).bind fun s2 _ => (s2.releaseFor c.p l 5).bind fun s3 _ =>
          s3.once c.p l [0x08, op.code, (x.val l).toNat] none fun s4 =>
            let t := s4.thr c.p l
            Eff.ok (s4.modFam t.fam fun f => f.contribute op (x.val l) t.tix) (0, false)
      let s2 := (okLanes rs).foldl (fun s (l, _) => if s.gone c.p then s else (s.mergeFlags c.p l).endThread tid j l) s1
      (s2, rs.map fun r => (r.1, match r.2 with | .ok _ => .placed | .error e => e.done))

/-- `MIGR.IN` of a solo thread (R262, R264): the thread's own state is the record, and it resumes at the following header. -/
def execMigrInSolo (w : BaseW) (s : State) : Host.Outcome State Fault Refusal :=
  issue (.migrInSolo w) s fun st c =>
    match c.p with
    | .lc _ => (st, nexts c.act)
    | .grp tid j =>
      let (s1, rs) := eachLane st (Mask.lanes c.act) fun s l =>
        if s.fanOut c.p l || w.d != 1023#10 || w.a != 0#10 then Eff.trap s { cause := 0x03 } else s.releaseFor c.p l 5
      let s2 := (okLanes rs).foldl (fun s (l, _) =>
        if s.gone c.p then s else (s.soloReturn c.p l ((s.thr c.p l).pc + 8#64) false).endThread tid j l) s1
      (s2, rs.map fun r => (r.1, match r.2 with | .ok _ => .placed | .error e => e.done))

end Sys2Proof.Machine
end

