-- ==== Sys2Proof/Machine/Predicate.lean ====
section
/-!
DEFINITION. The predicate instructions (R153).
-/

namespace Sys2Proof.Machine

/-- A predicate from two predicates; tag U when both are U (R20, R153). -/
def predOp (i : Instr) (w : CtlW) (s : State) (f : Bool → Bool → Bool) : Host.Outcome State Fault Refusal :=
  issueG i s fun c g =>
    let a := w.a.toNat
    let b := w.b.toNat
    g.putP w.d c.act (fun l => f (g.pred a l) (g.pred b l)) (if g.predUni a && g.predUni b then .u else .g)
      (Mask.ofTest (g.predPoi a) ||| Mask.ofTest (g.predPoi b))

def execPand (w : CtlW) (s : State) := predOp (.pand w) w s (· && ·)
def execPor (w : CtlW) (s : State) := predOp (.por w) w s (· || ·)
def execPxor (w : CtlW) (s : State) := predOp (.pxor w) w s (· != ·)
def execPandn (w : CtlW) (s : State) := predOp (.pandn w) w s (fun a b => a && !b)
/-- (a AND b) ≠ 0 on 32 bits. -/
def execPset (w : CtlW) (s : State) :=
  issueG (.pset w) s fun c g =>
    let a := g.src .int 1 w.a
    let b := if w.kf then c.k else g.src .int 1 w.b
    g.putP w.d c.act (fun l => (a.val l &&& b.val l &&& 0xFFFFFFFF#64) != 0#64) (tagOf [a, b]) (poiOf [a, b])
/-- Bit i is pi, so bit 7 is 1. -/
def execPget (w : CtlW) (s : State) :=
  issueG (.pget w) s fun c g =>
    let val (l : Nat) : W32 := BitVec.ofNat 32 (((List.range 8).map fun k => if g.pred k l then 2 ^ k else 0).sum)
    g.wrD w.d c.act val (if (List.range 8).all g.predUni then .u else .g)
      ((List.range 7).foldl (fun m k => m ||| Mask.ofTest (g.predPoi k)) 0#64)

end Sys2Proof.Machine
end

