-- ==== Sys2Proof/Machine/Dispatch.lean ====
section
/-!
DEFINITION. The dispatch: one arm for each constructor of `Instr`, each one direct call of that instruction's meaning.
-/

namespace Sys2Proof.Machine

def exec (i : Instr) (s : State) : Host.Outcome State Fault Refusal :=
  match i with
  | .br w => Sys2Proof.Machine.execBr w s
  | .call w => Sys2Proof.Machine.execCall w s
  | .brx w => Sys2Proof.Machine.execBrx w s
  | .callx w => Sys2Proof.Machine.execCallx w s
  | .ret w => Sys2Proof.Machine.execRet w s
  | .exit w => Sys2Proof.Machine.execExit w s
  | .migrOut w => Sys2Proof.Machine.execMigrOut w s
  | .migrOutSolo w => Sys2Proof.Machine.execMigrOutSolo w s
  | .migrIn op w => Sys2Proof.Machine.execMigrIn op w s
  | .migrInSolo w => Sys2Proof.Machine.execMigrInSolo w s
  | .yield w => Sys2Proof.Machine.execYield w s
  | .sleep w => Sys2Proof.Machine.execSleep w s
  | .sleepWake p lane => Sys2Proof.Machine.execSleepWake p lane s
  | .trap w => Sys2Proof.Machine.execTrap w s
  | .sys w => Sys2Proof.Machine.execSys w s
  | .brk w => Sys2Proof.Machine.execBrk w s
  | .nop w => Sys2Proof.Machine.execNop w s
  | .time w => Sys2Proof.Machine.execTime w s
  | .srr w => Sys2Proof.Machine.execSrr w s
  | .srw w => Sys2Proof.Machine.execSrw w s
  | .srset w => Sys2Proof.Machine.execSrset w s
  | .srclr w => Sys2Proof.Machine.execSrclr w s
  | .shapeixWrite w => Sys2Proof.Machine.execShapeixWrite w s
  | .fcsrWrite w => Sys2Proof.Machine.execFcsrWrite w s
  | .ballastCapWrite w => Sys2Proof.Machine.execBallastCapWrite w s
  | .finjWrite w => Sys2Proof.Machine.execFinjWrite w s
  | .admodeWrite w => Sys2Proof.Machine.execAdmodeWrite w s
  | .ptbrWrite w => Sys2Proof.Machine.execPtbrWrite w s
  | .drainintWrite w => Sys2Proof.Machine.execDrainintWrite w s
  | .proof w => Sys2Proof.Machine.execProof w s
  | .eret w => Sys2Proof.Machine.execEret w s
  | .eretResumeFamily w => Sys2Proof.Machine.execEretResumeFamily w s
  | .wfi w => Sys2Proof.Machine.execWfi w s
  | .tlbsync w => Sys2Proof.Machine.execTlbsync w s
  | .tlbkill w => Sys2Proof.Machine.execTlbkill w s
  | .harvest w => Sys2Proof.Machine.execHarvest w s
  | .fstopStop w => Sys2Proof.Machine.execFstopStop w s
  | .fstopEnd w => Sys2Proof.Machine.execFstopEnd w s
  | .fresumeRestart w => Sys2Proof.Machine.execFresumeRestart w s
  | .fresumeResume w => Sys2Proof.Machine.execFresumeResume w s
  | .fresumeSkip w => Sys2Proof.Machine.execFresumeSkip w s
  | .fresumeKill w => Sys2Proof.Machine.execFresumeKill w s
  | .add sz w => Sys2Proof.Machine.execAdd sz w s
  | .addI sz w => Sys2Proof.Machine.execAddI sz w s
  | .sub sz w => Sys2Proof.Machine.execSub sz w s
  | .addsat sz sg w => Sys2Proof.Machine.execAddsat sz sg w s
  | .subsat sz sg w => Sys2Proof.Machine.execSubsat sz sg w s
  | .mul sz w => Sys2Proof.Machine.execMul sz w s
  | .mulI sz w => Sys2Proof.Machine.execMulI sz w s
  | .mulh sz sg w => Sys2Proof.Machine.execMulh sz sg w s
  | .mad sz w => Sys2Proof.Machine.execMad sz w s
  | .madw sg w => Sys2Proof.Machine.execMadw sg w s
  | .div sz sg w => Sys2Proof.Machine.execDiv sz sg w s
  | .rem sz sg w => Sys2Proof.Machine.execRem sz sg w s
  | .abs sz w => Sys2Proof.Machine.execAbs sz w s
  | .neg sz w => Sys2Proof.Machine.execNeg sz w s
  | .and sz w => Sys2Proof.Machine.execAnd sz w s
  | .andI sz w => Sys2Proof.Machine.execAndI sz w s
  | .or sz w => Sys2Proof.Machine.execOr sz w s
  | .orI sz w => Sys2Proof.Machine.execOrI sz w s
  | .xor sz w => Sys2Proof.Machine.execXor sz w s
  | .xorI sz w => Sys2Proof.Machine.execXorI sz w s
  | .andn sz w => Sys2Proof.Machine.execAndn sz w s
  | .shl sz w => Sys2Proof.Machine.execShl sz w s
  | .shr sz k w => Sys2Proof.Machine.execShr sz k w s
  | .rot sz dir w => Sys2Proof.Machine.execRot sz dir w s
  | .fshf dir w => Sys2Proof.Machine.execFshf dir w s
  | .min sz sg w => Sys2Proof.Machine.execMin sz sg w s
  | .max sz sg w => Sys2Proof.Machine.execMax sz sg w s
  | .clz sz w => Sys2Proof.Machine.execClz sz w s
  | .ctz sz w => Sys2Proof.Machine.execCtz sz w s
  | .popc sz w => Sys2Proof.Machine.execPopc sz w s
  | .brev sz w => Sys2Proof.Machine.execBrev sz w s
  | .bext sz w => Sys2Proof.Machine.execBext sz w s
  | .bins sz w => Sys2Proof.Machine.execBins sz w s
  | .ext sz sg w => Sys2Proof.Machine.execExt sz sg w s
  | .perm w => Sys2Proof.Machine.execPerm w s
  | .sel sz w => Sys2Proof.Machine.execSel sz w s
  | .mov sz w => Sys2Proof.Machine.execMov sz w s
  | .li w => Sys2Proof.Machine.execLi w s
  | .lih w => Sys2Proof.Machine.execLih w s
  | .lea sz w => Sys2Proof.Machine.execLea sz w s
  | .leaI sz w => Sys2Proof.Machine.execLeaI sz w s
  | .cmp sz sg w => Sys2Proof.Machine.execCmp sz sg w s
  | .addc sz w => Sys2Proof.Machine.execAddc sz w s
  | .subb sz w => Sys2Proof.Machine.execSubb sz w s
  | .pand w => Sys2Proof.Machine.execPand w s
  | .por w => Sys2Proof.Machine.execPor w s
  | .pxor w => Sys2Proof.Machine.execPxor w s
  | .pandn w => Sys2Proof.Machine.execPandn w s
  | .pset w => Sys2Proof.Machine.execPset w s
  | .pget w => Sys2Proof.Machine.execPget w s
  | .fadd f w => Sys2Proof.Machine.execFadd f w s
  | .fsub f w => Sys2Proof.Machine.execFsub f w s
  | .fmul f w => Sys2Proof.Machine.execFmul f w s
  | .ffma f w => Sys2Proof.Machine.execFfma f w s
  | .ffms f w => Sys2Proof.Machine.execFfms f w s
  | .fnma f w => Sys2Proof.Machine.execFnma f w s
  | .fdiv f w => Sys2Proof.Machine.execFdiv f w s
  | .fsqrt f w => Sys2Proof.Machine.execFsqrt f w s
  | .frnd f w => Sys2Proof.Machine.execFrnd f w s
  | .fscale f w => Sys2Proof.Machine.execFscale f w s
  | .fmin f w => Sys2Proof.Machine.execFmin f w s
  | .fmax f w => Sys2Proof.Machine.execFmax f w s
  | .fsgn f w => Sys2Proof.Machine.execFsgn f w s
  | .fcmp f w => Sys2Proof.Machine.execFcmp f w s
  | .fclass f w => Sys2Proof.Machine.execFclass f w s
  | .frcp f w => Sys2Proof.Machine.execFrcp f w s
  | .frsq f w => Sys2Proof.Machine.execFrsq f w s
  | .fexp2 f w => Sys2Proof.Machine.execFexp2 f w s
  | .flog2 f w => Sys2Proof.Machine.execFlog2 f w s
  | .fsin f w => Sys2Proof.Machine.execFsin f w s
  | .fcos f w => Sys2Proof.Machine.execFcos f w s
  | .ftanh f w => Sys2Proof.Machine.execFtanh f w s
  | .fdot2 w => Sys2Proof.Machine.execFdot2 w s
  | .cvtff p w => Sys2Proof.Machine.execCvtff p w s
  | .cvtfi dst src w => Sys2Proof.Machine.execCvtfi dst src w s
  | .cvtif src dst w => Sys2Proof.Machine.execCvtif src dst w s
  | .qpack f w => Sys2Proof.Machine.execQpack f w s
  | .qunpk f w => Sys2Proof.Machine.execQunpk f w s
  | .grpon w => Sys2Proof.Machine.execGrpon w s
  | .grpoff w => Sys2Proof.Machine.execGrpoff w s
  | .vote k w => Sys2Proof.Machine.execVote k w s
  | .shfl sz m w => Sys2Proof.Machine.execShfl sz m w s
  | .gmatch sz w => Sys2Proof.Machine.execGmatch sz w s
  | .gelect k w => Sys2Proof.Machine.execGelect k w s
  | .gmask k w => Sys2Proof.Machine.execGmask k w s
  | .gred t w => Sys2Proof.Machine.execGred t w s
  | .gscan t w => Sys2Proof.Machine.execGscan t w s
  | .qbind w => Sys2Proof.Machine.execQbind w s
  | .quadForm core => Sys2Proof.Machine.execQuadForm core s
  | .qfree w => Sys2Proof.Machine.execQfree w s
  | .ld sz w => Sys2Proof.Machine.execLd sz w s
  | .st sz w => Sys2Proof.Machine.execSt sz w s
  | .lda sz w => Sys2Proof.Machine.execLda sz w s
  | .str sz w => Sys2Proof.Machine.execStr sz w s
  | .fence w => Sys2Proof.Machine.execFence w s
  | .ldf sz w => Sys2Proof.Machine.execLdf sz w s
  | .stf sz w => Sys2Proof.Machine.execStf sz w s
  | .ldfc sz w => Sys2Proof.Machine.execLdfc sz w s
  | .stfc sz w => Sys2Proof.Machine.execStfc sz w s
  | .ldk sz w => Sys2Proof.Machine.execLdk sz w s
  | .pref l w => Sys2Proof.Machine.execPref l w s
  | .cline o w => Sys2Proof.Machine.execCline o w s
  | .ldres sz w => Sys2Proof.Machine.execLdres sz w s
  | .stcond sz w => Sys2Proof.Machine.execStcond sz w s
  | .amo op w => Sys2Proof.Machine.execAmo op w s
  | .acas w => Sys2Proof.Machine.execAcas w s
  | .afadd f w => Sys2Proof.Machine.execAfadd f w s
  | .aaddt w => Sys2Proof.Machine.execAaddt w s
  | .tetherAtomicPerform k => Sys2Proof.Machine.execTetherAtomicPerform k s
  | .waitv c w => Sys2Proof.Machine.execWaitv c w s
  | .wake w => Sys2Proof.Machine.execWake w s
  | .overflowRegistration k => Sys2Proof.Machine.execOverflowRegistration k s
  | .bari sp w => Sys2Proof.Machine.execBari sp w s
  | .bara sp w => Sys2Proof.Machine.execBara sp w s
  | .barw sp w => Sys2Proof.Machine.execBarw sp w s
  | .bart sp w => Sys2Proof.Machine.execBart sp w s
  | .barx sp w => Sys2Proof.Machine.execBarx sp w s
  | .mma t w => Sys2Proof.Machine.execMma t w s
  | .mmac t w => Sys2Proof.Machine.execMmac t w s
  | .mzero w => Sys2Proof.Machine.execMzero w s
  | .mload w => Sys2Proof.Machine.execMload w s
  | .platenOpStart tid => Sys2Proof.Machine.execPlatenOpStart tid s
  | .platenOpComplete tid => Sys2Proof.Machine.execPlatenOpComplete tid s
  | .mdrain t w => Sys2Proof.Machine.execMdrain t w s
  | .mdrainv t w => Sys2Proof.Machine.execMdrainv t w s
  | .mstat w => Sys2Proof.Machine.execMstat w s
  | .cpy q sp w => Sys2Proof.Machine.execCpy q sp w s
  | .cpyt q sp w => Sys2Proof.Machine.execCpyt q sp w s
  | .cgath q sp w => Sys2Proof.Machine.execCgath q sp w s
  | .cscat q sp w => Sys2Proof.Machine.execCscat q sp w s
  | .cpart q sp w => Sys2Proof.Machine.execCpart q sp w s
  | .cfill q sp w => Sys2Proof.Machine.execCfill q sp w s
  | .cfence mask w => Sys2Proof.Machine.execCfence mask w s
  | .cstat q w => Sys2Proof.Machine.execCstat q w s
  | .spoolOpStart tid q => Sys2Proof.Machine.execSpoolOpStart tid q s
  | .spoolOpFault tid q => Sys2Proof.Machine.execSpoolOpFault tid q s
  | .spoolOpComplete tid q => Sys2Proof.Machine.execSpoolOpComplete tid q s
  | .hash comb w => Sys2Proof.Machine.execHash comb w s
  | .shash w => Sys2Proof.Machine.execShash w s
  | .scmp w => Sys2Proof.Machine.execScmp w s
  | .spfx w => Sys2Proof.Machine.execSpfx w s
  | .npost w => Sys2Proof.Machine.execNpost w s
  | .nstat w => Sys2Proof.Machine.execNstat w s
  | .packetTransmit e r => Sys2Proof.Machine.execPacketTransmit e r s
  | .packetReceive e p => Sys2Proof.Machine.execPacketReceive e p s
  | .ackReceive e peer seqs => Sys2Proof.Machine.execAckReceive e peer seqs s
  | .retransmitTimeout e r k => Sys2Proof.Machine.execRetransmitTimeout e r k s
  | .networkControlWrite e => Sys2Proof.Machine.execNetworkControlWrite e s
  | .ballastAccrual fam => Sys2Proof.Machine.execBallastAccrual fam s
  | .interruptEntry n => Sys2Proof.Machine.execInterruptEntry n s
  | .rejoinTimeout tid j id => Sys2Proof.Machine.execRejoinTimeout tid j id s
  | .runTableUnpark tid j lane => Sys2Proof.Machine.execRunTableUnpark tid j lane s
  | .maskPredictionResolve tid j => Sys2Proof.Machine.execMaskPredictionResolve tid j s
  | .homeStorePerform k => Sys2Proof.Machine.execHomeStorePerform k s
  | .hostStoreAck w => Sys2Proof.Machine.execHostStoreAck w s
  | .translationWalk p va kind => Sys2Proof.Machine.execTranslationWalk p va kind s
  | .admissionRetry fam => Sys2Proof.Machine.execAdmissionRetry fam s
  | .dispatchReserving fam inst => Sys2Proof.Machine.execDispatchReserving fam inst s
  | .timeSliceExpiry fam inst => Sys2Proof.Machine.execTimeSliceExpiry fam inst s
  | .teamSaveComplete tid => Sys2Proof.Machine.execTeamSaveComplete tid s
  | .machineCheck tid => Sys2Proof.Machine.execMachineCheck tid s
  | .scanSelfTestDone failed => Sys2Proof.Machine.execScanSelfTestDone failed s
  | .proofComparison fam tix => Sys2Proof.Machine.execProofComparison fam tix s
  | .proofTimeout fam tix => Sys2Proof.Machine.execProofTimeout fam tix s
  | .repairComplete k => Sys2Proof.Machine.execRepairComplete k s
  | .pageMoveCopyDone k => Sys2Proof.Machine.execPageMoveCopyDone k s
  | .pageMoveSwitch k => Sys2Proof.Machine.execPageMoveSwitch k s
  | .pageMoveAbort pa => Sys2Proof.Machine.execPageMoveAbort pa s
  | .windowedStoreApply k remote => Sys2Proof.Machine.execWindowedStoreApply k remote s
  | .replicaRequest page pkg => Sys2Proof.Machine.execReplicaRequest page pkg s
  | .handoverOffer page dest => Sys2Proof.Machine.execHandoverOffer page dest s
  | .handoverSwitch page => Sys2Proof.Machine.execHandoverSwitch page s
  | .peerRemoval p => Sys2Proof.Machine.execPeerRemoval p s
  | .linkActivateRequest ptp peersW => Sys2Proof.Machine.execLinkActivateRequest ptp peersW s
  | .epochWrite ptp => Sys2Proof.Machine.execEpochWrite ptp s
  | .ptpMessage port offset gm => Sys2Proof.Machine.execPtpMessage port offset gm s
  | .hostMemWrite pa data => Sys2Proof.Machine.execHostMemWrite pa data s
  | .hostMemRead pa n own => Sys2Proof.Machine.execHostMemRead pa n own s
  | .hostSnoop line own data => Sys2Proof.Machine.execHostSnoop line own data s
  | .backInvalidateResponse line dirty => Sys2Proof.Machine.execBackInvalidateResponse line dirty s
  | .cxlLinkEvent port => Sys2Proof.Machine.execCxlLinkEvent port s
  | .ucieLaneRepair die edge => Sys2Proof.Machine.execUcieLaneRepair die edge s
  | .ucieModuleSpare die edge => Sys2Proof.Machine.execUcieModuleSpare die edge s
  | .flitUndeliverable die => Sys2Proof.Machine.execFlitUndeliverable die s
  | .latencyCoreStart n => Sys2Proof.Machine.execLatencyCoreStart n s
  | .timingDetectorReplay core => Sys2Proof.Machine.execTimingDetectorReplay core s
  | .overcurrent die => Sys2Proof.Machine.execOvercurrent die s
  | .thermalLimit die hot => Sys2Proof.Machine.execThermalLimit die hot s
  | .patrolScrub pa r => Sys2Proof.Machine.execPatrolScrub pa r s
  | .corrRecordFold struct die => Sys2Proof.Machine.execCorrRecordFold struct die s
  | .faultQueueRetry fam => Sys2Proof.Machine.execFaultQueueRetry fam s
  | .loadPerform k => Sys2Proof.Machine.execLoadPerform k s
  | .releasePerform p lane => Sys2Proof.Machine.execReleasePerform p lane s
  | .mohosaSublinkStateChange k up => Sys2Proof.Machine.execMohosaSublinkStateChange k up s
  | .ethernetPortStateChange port up => Sys2Proof.Machine.execEthernetPortStateChange port up s
  | .hdmDecoderCommit lo len => Sys2Proof.Machine.execHdmDecoderCommit lo len s
  | .refusalReceive e r final => Sys2Proof.Machine.execRefusalReceive e r final s
  | .replicaFill page => Sys2Proof.Machine.execReplicaFill page s
  | .governorWindow => Sys2Proof.Machine.execGovernorWindow s
  | .supplyStep => Sys2Proof.Machine.execSupplyStep s
  | .placementEpochEnd => Sys2Proof.Machine.execPlacementEpochEnd s
  | .hostSnoopAnswer => Sys2Proof.Machine.execHostSnoopAnswer s
  | .overcurrentEnd => Sys2Proof.Machine.execOvercurrentEnd s
  | .packingIntervalExpiry => Sys2Proof.Machine.execPackingIntervalExpiry s
  | .watchdogExpiry => Sys2Proof.Machine.execWatchdogExpiry s
  | .leaseExpiry => Sys2Proof.Machine.execLeaseExpiry s
  | .translationExpiry => Sys2Proof.Machine.execTranslationExpiry s
  | .tlbsyncWaitEnd => Sys2Proof.Machine.execTlbsyncWaitEnd s
  | .replicaExpiry => Sys2Proof.Machine.execReplicaExpiry s
  | .deferredRecallExpiry => Sys2Proof.Machine.execDeferredRecallExpiry s
  | .tetherLineReturn => Sys2Proof.Machine.execTetherLineReturn s
  | .teamDispatch => Sys2Proof.Machine.execTeamDispatch s
  | .selfTestDrain => Sys2Proof.Machine.execSelfTestDrain s
  | .linkQuiesceRequest => Sys2Proof.Machine.execLinkQuiesceRequest s
  | .quiesceComplete => Sys2Proof.Machine.execQuiesceComplete s
  | .linkControlWrite => Sys2Proof.Machine.execLinkControlWrite s
  | .timeHoldExit => Sys2Proof.Machine.execTimeHoldExit s
  | .powerOnReset => Sys2Proof.Machine.execPowerOnReset s
  | .packageReset => Sys2Proof.Machine.execPackageReset s
  | .errorLogRetry => Sys2Proof.Machine.execErrorLogRetry s

end Sys2Proof.Machine
end

