-- ==== Sys2Proof/Machine/Run.lean ====
section
/-!
DEFINITION. How the machine comes to an instruction: entering blocks, fetching and decoding, interrupts, which run issues next and which
of the device's own steps is taken (R44, R62, R63, R66, R120, R134, R268; log entry 6). While bring-up is stopped, only a reset acts (R423).
-/

namespace Sys2Proof.Machine

/-! ### Issuing -/

/-- What an entry does: `at_` on a core that stands at its vector, which its header has kept waiting (R269). -/
def State.atVector (s : State) (p : Party) (other : State → State) (at_ : State → Nat → State) : State :=
  match p with
  | .lc n => if (s.lc n).vector then at_ (s.modLc n fun c => { c with vector := false }) n else other s
  | .grp _ _ => other s
/-- A run stands before a block: every lane of it enters the block (R62); a word that is no header traps with cause 0x06 (R63), and halts a
core that stands at its vector (R412). -/
def State.enterBlocks (s : State) (p : Party) (run : List Nat) : State :=
  run.foldl (fun st l =>
    let pc := (st.thr p l).pc
    match st.header p l pc with
    | (s1, .block b) => s1.atVector p (fun c => c.settle p l pc b) (fun c _ => c.settle p l pc b)
    | (s1, .notHeader) => s1.atVector p (fun c => c.trapLane p l { cause := 0x06 }) State.haltCore
    | (s1, .trapped t) => s1.atVector p (fun c => c.trapLane p l t) State.haltCore
    | (s1, .wait) => s1) s

/-- The row that a run-time value selects (R270, R286). (DEDUCED, safe: log entry 39.) -/
def refine (i : Instr) (s : State) : Instr :=
  let val (c : BitVec 10) : Nat := (((s.grp s.cur).src .int 1 c).val s.curLane).toNat % 2 ^ 32
  match i with
  | .eret w => match s.cur with
    | .lc n => if (s.lc n).status.getLsbD 31 then .eretResumeFamily w else i
    | .grp _ _ => i
  | .fstopStop w => if val w.b = 1 then .fstopEnd w else i
  | .fresumeRestart w => if val w.b = 1 then .fresumeResume w else if val w.b = 2 then .fresumeSkip w
    else if val w.b = 3 then .fresumeKill w else i
  | _ => i

/-- Fetches, decodes and runs the word at the current run's PC. A run that issues on a prediction takes no trap (R124): it waits.
(DEDUCED, safe: log entry 39.) -/
def State.runWord (s : State) : Host.Outcome State Fault Refusal :=
  let p := s.cur
  let run := s.runLanes
  let all (s1 : State) (t : Trap) : Host.Outcome State Fault Refusal :=
    if (s.specOf p).isSome then finish s else finish (run.foldl (fun st l => st.endLane p {} l (.trap t)) s1)
  if run.isEmpty then finish s
  else match s.fetch p s.curLane (s.thr p s.curLane).pc with
    | (s1, .error (.trap t)) => all s1 t
    | (s1, .error .stall) => finish s1
    | (s1, .ok w) =>
      if s1.absent.isSome then finish s1
      else match decode w with
        | .error _ => all s1 { cause := 0x01 }
        | .ok i => exec (refine i s1) s1

/-- The run enters the block that it stands before, and then its first word issues; nothing when it issues on a prediction and the
entry would trap, or would park a thread at a rejoin point. -/
def State.runBlock (s : State) : Host.Outcome State Fault Refusal :=
  let p := s.cur
  let pc := (s.thr p s.curLane).pc
  let run := s.runLanes
  let held := (s.specOf p).isSome && ((run.any fun l => ((s.grp p).arrives l pc).isSome) ||
    match (s.header p s.curLane pc).2 with | .block _ => false | _ => true)
  let s1 := s.enterBlocks p run
  if held then finish s
  else if (s1.thr p s1.curLane).blk.isSome && s1.absent.isNone && (s1.thr p s1.curLane).pc == pc + 8#64 then s1.runWord else finish s1

/-- What issues on its own: a latency core, or a quarter of a SIMT core (R179, R351). -/
def State.port (s : State) : Party → Nat
  | .lc n => n
  | .grp tid j => 1024 + 4 * (s.team tid).core + j % 4
/-- The runs of a party, each by its lowest lane. -/
def State.runsOf (s : State) (p : Party) : List (Party × Nat) :=
  let g := s.grp p
  ((g.lanes g.live).filter fun l => (s.runWith p l).head? == some l).map fun l => (p, l)
/-- The instruction that stands before a run, as far as it can be fetched. -/
def State.peek (s : State) (r : Party × Nat) : Option Instr :=
  if (s.thr r.1 r.2).blk.isNone then none
  else match (s.fetch r.1 r.2 (s.thr r.1 r.2).pc).2 with
    | .ok w => (match decode w with | .ok i => some (refine i { s with cur := r.1, curLane := r.2 }) | .error _ => none)
    | .error _ => none
/-- The lanes of a run that would perform an instruction. -/
def State.actOf (s : State) (r : Party × Nat) (x : Sig) : Mask :=
  let live := ((s.thr r.1 r.2).blk.map Blk.live).getD 0
  Mask.ofLanes ((s.runWith r.1 r.2).filter fun l => (laneCause s r.1 x live l).isNone && guardIn (s.grp r.1) x l)
/-- Ballast or the governor holds the run back (R56, R419). -/
def State.unpowered (s : State) (r : Party × Nat) : Bool := (s.peek r).any fun i => !s.powered r.1 (sig i) (s.actOf r (sig i))
/-- The run is not ready to issue (R351): ballast or the governor, the scoreboard, the platen's interlock (R228) or an open prediction (R124) holds it back. -/
def State.heldBack (s : State) (r : Party × Nat) : Bool :=
  s.unpowered r || (s.peek r).any fun i => s.interlocked r.1 i (sig i) ||
    !s.specAllows r.1 i (sig i) (s.runWith r.1 r.2) ((s.runWith r.1 r.2).all fun l =>
      (laneCause s r.1 (sig i) (((s.thr r.1 r.2).blk.map Blk.live).getD 0) l).isNone)
/-- The groups that issue through the same quarter as a party. -/
def State.besides (s : State) (p : Party) : List Party :=
  s.teams.flatMap fun t => if t.st != .resident then [] else
    ((List.range t.groups.length).map (Party.grp t.tid)).filter fun q => s.port q == s.port p && (t.groups.getD (match q with | .grp _ j => j | .lc n => n) none).isSome
/-- A selection of the current run's quarter: it has passed over groups that yielded (R134), runs that ballast or the governor holds back take
their places (R252), and the run takes its group's turn when it issues (R120, R351). -/
def State.takeTurn (s : State) : State :=
  let s1 := (s.besides s.cur).foldl (fun st q => if (st.grp q).passOver then st.modGrp q fun g => { g with passOver := false } else st) s
  let s2 := ((s.besides s.cur).flatMap s.runsOf).foldl (fun st r =>
    if s.unpowered r then (match s.peek r with | some i => st.stallOn r.1 (sig i) (s.actOf r (sig i)) | none => st) else st) s1
  if s.heldBack (s.cur, s.curLane) then s2 else s2.modGrp s.cur fun g => { g with lastIssue := s.cycOf s.cur, turnLane := s.curLane }
/-- The current run issues its next instruction. (DESIGN CHOICE, safe in part: log entry 6.) -/
def State.runNext (s0 : State) : Host.Outcome State Fault Refusal :=
  let go (s : State) := if (s.thr s.cur s.curLane).blk.isSome then s.runWord else s.runBlock
  match s0.cur with
  | .lc n => if s0.irqDue n then exec (.interruptEntry n) s0 else go s0
  | .grp _ _ => if (s0.grp s0.cur).passOver then .next (s0.modGrp s0.cur fun g => { g with passOver := false }) else go s0.takeTurn

/-! ### What comes next by itself -/

/-- The ports after the given one, and round to it. -/
def rotateTo (p : Nat) (l : List Nat) : List Nat := l.filter (p < ·) ++ l.filter (· ≤ p)
/-- The run that holds a party's turn: the ready runs in rotation, each for one instruction at a time (R120). -/
def State.turnRun (s : State) (p : Party) : Option (Party × Nat) :=
  let rs := s.runsOf p
  (rs.find? fun r => r.2 > (s.grp p).turnLane).or rs.head?
/-- The run has begun its instruction, and waits to complete it. -/
def State.waitingRun (s : State) (r : Party × Nat) : Bool := (s.thr r.1 r.2).since.isSome
/-- The family priority of a party. -/
def State.prioOf (s : State) (p : Party) : Nat := ((s.famOf p ((s.grp p).lanes (s.grp p).live |>.headD 0)).map Family.prio).getD 0
/-- A quarter's first group in the order of R351: not issued for 2,048 cycles, the priority, the cycles since it last issued, the slot. -/
def State.firstGroup (s : State) (rs : List (Party × Nat)) : Option (Party × Nat) :=
  let age (r : Party × Nat) : Nat := s.cycOf r.1 - (s.grp r.1).lastIssue
  let old (r : Party × Nat) : Bool := age r ≥ 2048
  let before (a b : Party × Nat) : Bool :=
    if old a != old b then old a
    else if s.prioOf a.1 != s.prioOf b.1 then s.prioOf a.1 > s.prioOf b.1
    else if age a != age b then age a > age b
    else (s.grp a.1).gslot < (s.grp b.1).gslot
  rs.foldl (fun best r => match best with
    | none => some r
    | some b => if before r b then some r else some b) none
/-- The run of a port that issues next, of the groups that it does not pass over (R134). A run that has begun its instruction is not ready for
another, and asks again in turn with the others. Where every run is held back the first takes its place among those that wait.
(DESIGN CHOICE, safe in part: log entry 47.) -/
def State.portRun (s : State) (all : List (Party × Nat)) : Option (Party × Nat) :=
  let rs := all.filter fun r => !(s.grp r.1).passOver
  let wait := rs.filter s.waitingRun
  let go := rs.filter fun r => !s.waitingRun r && !s.heldBack r
  let next := if wait.isEmpty || (!go.isEmpty && s.waitingRun (s.cur, s.curLane)) then s.firstGroup go else s.firstGroup wait
  (next.or (s.firstGroup rs)).or (s.firstGroup all)
/-- The run that issues next: that of the next port, round from the current one. -/
def State.nextRun (s : State) : Option (Party × Nat) :=
  let ps := s.parties
  (rotateTo (s.port s.cur) ((ps.map s.port).eraseDups.foldr (insertBy (· < ·)) [])).findSome? fun k =>
    s.portRun ((ps.filter fun p => s.port p == k).filterMap s.turnRun)

/-- What the machine does when nothing is owed or planned: in turn one of its own steps that may come, and the next run's issue.
(DESIGN CHOICE, safe in part: log entry 6.) -/
def State.runFree (s : State) : Host.Outcome State Fault Refusal :=
  let own := s.due
  let event (other : Host.Outcome State Fault Refusal) : Host.Outcome State Fault Refusal :=
    match own[s.turn / 2 % Nat.max 1 own.length]? with
    | some i => exec i { s with turn := s.turn + 1 }
    | none => other
  let issue (other : Host.Outcome State Fault Refusal) : Host.Outcome State Fault Refusal :=
    match s.nextRun with
    | some (p, l) => State.runNext { s with cur := p, curLane := l, turn := s.turn + 1 }
    | none => other
  if s.stopped then .next s else if s.turn % 2 = 0 then event (issue (.next s)) else issue (event (.next s))

/-- Choices for the steps that follow (log entry 6). -/
def State.choose (s : State) (c : Choices) : State :=
  { s with deferLoads := c.deferLoads, deferStores := c.deferStores, deferAtomics := c.deferAtomics, deferReleases := c.deferReleases,
           guardLate := c.guardLate, tlbOlder := c.tlbOlder, evict := c.evict }
/-- An uncorrectable error (R410): poison in a lane's value, in a forme word or in a granule at its home, with a record of kind POISON
(R414); a lost copy of a latency core, of which the whole line is poisoned at its home unless the copy is clean; a machine check on a team or a
latency core; the return of a waiter as by a forced wake (R211); a store that a latency core has lost; poison that the host returns with a line
(R411); an error that its protection corrects (R414). (DEDUCED, unsafe: log entry 34.) -/
def State.upset (s : State) : Upset → State
  | .reg (.lc n) _ _ => if s.running (.lc n) then s.trapLc n { cause := 0x19 } else s
  | .reg p l r =>
    if !Mask.has (s.grp p).live l then s
    else (s.modGrp p fun g =>
      let x := g.reg r
      { g with regs := putReg g.regs r { x with poison := Mask.put x.poison l true } }).logError 1 0 (s.coreOf p) (s.thr p l).fam 0 0
  | .forme tid off =>
    let t := s.team tid
    if off < t.fsize then (s.modTeam tid fun t => { t with fpoison := addSet (off / 8) t.fpoison }).logError 1 1 t.core t.fam 0 0 else s
  | .tile tid => if (s.team tid).quad then s.dueCheck tid (some (2, (s.team tid).core)) else s
  | .proofBuffer tid => if (s.team? tid).isSome then s.dueCheck tid (some (3, (s.team tid).core)) else s
  | .store n k => match (s.pend.filter fun x => x.party == .lc n && (match x.kind with | .store _ _ => true | _ => false))[k]? with
    | some x => State.trapLc { s with pend := s.pend.erase x } n { cause := 0x19, lost := BitVec.ofNat 64 (s.redirect x.pa) }
    | none => s
  | .hostLine line => if paDie (128 * line) = 31 && paPkg (128 * line) = s.link.pkg then (s.poisonAt (128 * line) 128).logError 1 14 (homeDie (128 * line)) 0#32 (128 * line) 0 else s
  | .corrected struct die => if struct < 18 && die < 28 then s.corrected struct die else s
  | .granule pa struct =>
    if struct < 6 || struct > 8 || !s.paOk pa || paPkg pa != s.link.pkg || paOff pa / 32 * 32 + 32 > Config.dieBytes (paDie pa) then s
    else (s.poisonAt (pa / 32 * 32) 32).logError 1 struct (homeDie pa) 0#32 (pa / 32 * 32) 0
  | .copy n line => match s.dir.find? fun e => e.line == line && e.core == n with
    | some e =>
      if e.st == .m || e.st == .o then ((s.dropDir n line).poisonAt (128 * line) 128).logError 1 11 n 0#32 (128 * line) 0
      else s.dropDir n line
    | none => s
  | .waiter k => match s.waiters[k]? with
    | some w => if w.registered && w.forme.isNone && !w.selected then s.release1 w else s
    | none => s

/-- The planned step. (DESIGN CHOICE, safe in part: log entry 6.) (DESIGN CHOICE, safe: log entry 38.) -/
def State.runPlan (s : State) : Plan → Host.Outcome State Fault Refusal
  | .issue p l => State.runNext { s with cur := p, curLane := l }
  | .event i => if i.isWord || (s.stopped && i != .powerOnReset && i != .packageReset) then .next s else exec i s
  | .elapse ns => finish (s.pass ns 0)
  | .choose c => .next (s.choose c)
  | .upset u => finish (s.upset u)

/-- One step after time has passed: what the machine owes, what is planned, or what comes by itself. -/
def State.act (s : State) : Host.Outcome State Fault Refusal :=
  match s.agenda with
  | i :: rest => exec i { s with agenda := rest }
  | [] => match s.schedule with
    | x :: rest => State.runPlan { s with schedule := rest } x
    | [] => s.runFree

/-! ### Placing an instruction for the fetch -/

/-- Where the byte of a code address lies (R332, R335): the walk leaves no trace. -/
def State.codePa (s : State) (va : W64) : Nat :=
  let sp := s.spaceOf s.cur s.curLane
  if sp.en then match s.walkQuiet sp.root va with
    | .ok (leaf, _, level) => s.redirect (leafBase leaf / 2 ^ pageBits level * 2 ^ pageBits level + va.toNat % 2 ^ pageBits level)
    | .error _ => va.toNat % 2 ^ 52
  else s.redirect (va.toNat % 2 ^ 52)
/-- The header of a block of 1,023 words that may name every register of the current thread (R61). -/
def State.wideHeader (s : State) : Nat := 0xFEFFC00000000000 + s.nregs s.cur s.curLane * 2 ^ 36
/-- Writes one word of code. (DESIGN CHOICE, unsafe: log entry 35.) -/
def State.putCode (s : State) (va : W64) (x : Nat) : State :=
  { s with mem := putCells s.mem (s.codePa va) (bytesOfWord (BitVec.ofNat 64 x)) }

end Sys2Proof.Machine
end

