-- ==== Sys2Proof/Machine/Step.lean ====
section
/-!
DEFINITION. One step of the machine, and the placing of an instruction where the next step fetches it.
-/

namespace Sys2Proof.Machine

/-- One step: time passes, and the machine acts. -/
def step (s : State) : Host.Outcome State Fault Refusal := s.elapse.act

/-- Places an instruction where the next step fetches it: at `pc` inside a block, or behind a header of 1,023 words written at `pc`,
and makes the next step the current run's. (DESIGN CHOICE, unsafe: log entry 35.) -/
def State.withFetchWord (s : State) (_nbits w : Nat) : State :=
  let t := s.thr s.cur s.curLane
  let s1 := if t.blk.isSome then s.putCode t.pc w else (s.putCode t.pc s.wideHeader).putCode (t.pc + 8#64) w
  { s1 with agenda := [], schedule := .issue s.cur s.curLane :: s.schedule }

end Sys2Proof.Machine
end

