-- ==== Sys2Proof/Safety.lean ====
section
/-!
DEFINITION. What counts as a safe run, in the terms of claims: no access beyond memory that exists, memory in its canonical form, the
program counter of every thread aligned, and numbers inside the range of their registers.
-/

namespace Sys2Proof.Machine

/-- Memory is in its one canonical form. -/
abbrev State.memOk (s : State) : Prop := Memory.wf s.mem = true
/-- The machine has stopped on nothing. -/
def State.running? (s : State) : Bool := s.absent.isNone
/-- A step that the machine takes: it stops on no fault and refuses nothing. -/
def State.steps (s : State) : Prop := ∃ t, step s = .next t
/-- A run of `k` steps stays safe: every step is taken and leaves memory in its canonical form. -/
def safeRun : Nat → State → Prop
  | 0, s => s.memOk
  | k + 1, s => s.memOk ∧ ∃ t, step s = .next t ∧ safeRun k t

/-! ### Issuing an instruction -/

/-- The lanes of the current run whose guard is true: those that perform the instruction (R46). -/
def State.acting (s : State) (i : Instr) : Mask := Mask.ofLanes (s.runLanes.filter (guardIn (s.grp s.cur) (sig i)))

/-- The current run issues the instruction: it stands in a block, no check of R66 fails in any of its lanes, and neither the platen's
interlock (R228), nor a prediction (R124), nor ballast or the governor (R56, R419) holds it back. -/
structure State.issues (s : State) (i : Instr) : Prop where
  run : s.runLanes ≠ []
  block : ∃ b, (s.thr s.cur s.curLane).blk = some b ∧ ∀ l ∈ s.runLanes, laneCause s s.cur (sig i) b.live l = none
  free : s.interlocked s.cur i (sig i) = false
  spec : s.specAllows s.cur i (sig i) s.runLanes true = true
  power : s.powered s.cur (sig i) (s.acting i) = true

/-- The state in which the lanes perform the instruction: its cost is debited, a predicted issue is counted. -/
def State.begun (s : State) (i : Instr) : State := (s.debit s.cur (sig i) (s.acting i)).specCount s.cur (sig i) (s.acting i)
/-- The reading of the constant-window operand, in a K-form (R52): the state after it, the operand, the lanes that it stops. -/
def State.windowed (s : State) (i : Instr) : State × Src × List (Nat × LaneEnd) := (s.begun i).kOperand s.cur (sig i) (s.acting i)
/-- The state after the constant-window operand has been read; no K-form: `begun`. -/
def State.opened (s : State) (i : Instr) : State := (s.windowed i).1

/-- The run issues the instruction, and every lane reads its constant-window operand. -/
structure State.ready (s : State) (i : Instr) : Prop where
  issues : s.issues i
  words : (s.windowed i).2.2 = []
  there : (s.opened i).absent = none

/-- The run of a latency core stands at the word of the instruction in its block, and nothing makes it wait: the checks of R66 come next. -/
structure State.stands (s : State) (i : Instr) : Prop where
  block : (s.thr s.cur s.curLane).blk.isSome = true
  clean : ∀ l ∈ s.runLanes, (s.thr s.cur l).pendPoison = false
  free : s.interlocked s.cur i (sig i) = false
  there : s.absent = none

/-- A source operand in one lane (R47, R48): a register, a pair, or an inline integer in the operation's format. -/
def State.opnd (s : State) (k : OKind) (n : Nat) (c : BitVec 10) (l : Nat) : W64 := ((s.grp s.cur).src k n c).val l
/-- The B operand in one lane: the constant-window operand in a K-form (R52). -/
def State.opndB (s : State) (i : Instr) (k : OKind) (n : Nat) (w : BaseW) (l : Nat) : W64 :=
  if w.kf then (s.windowed i).2.1.val l else s.opnd k n w.b l
/-- What a destination of one or two registers of a party holds in one lane. -/
def State.dest (s : State) (p : Party) (n : Nat) (d : BitVec 10) (l : Nat) : W64 :=
  if n = 2 then (s.grp p).rd64 l d.toNat else ((s.grp p).rd l d.toNat).setWidth 64
/-- The registers that a destination of `n` registers names; none for the code that discards (R47). -/
def destRegs (n : Nat) (d : BitVec 10) : List Nat := if inReg d then (List.range n).map (d.toNat + ·) else []
/-- The predicate that a destination names; none for the code that discards, and none for p7 (R25, R47). -/
def destPred (d : BitVec 10) : List Nat := if d.toNat < 7 then [d.toNat] else []

/-- The element `k` of a value in a size (R137). -/
def elem (z : ISize) (k : Nat) (x : W64) : BitVec z.width := x.extractLsb' (z.width * k) z.width

/-- The special registers of a latency core (R26). -/
def LCore.specials (c : LCore) : W32 × W64 × W64 × W32 × W64 × W64 × W64 × W32 × List W64 :=
  (c.status, c.tvec, c.epc, c.cause, c.tval, c.scratch, c.ptbr, c.famsel, c.cws)
/-- The special registers of the package (R26). -/
def State.packageRegs (s : State) : W32 × W64 × Bool × W64 × W32 × W32 := (s.packint, s.capbase, s.admode, s.finj, s.tdlim, s.drainint)

/-- What an instruction leaves alone whose results are the registers `rs` and the predicates `ps` of its own group, and which raises the
flags `fl` in its lanes: every other register and predicate, the rest of every float environment, every special register, every other
group; and every byte of memory reads as in `u`. -/
structure KeepsF (s u t : State) (rs ps : List Nat) (fl : Nat → Flags) : Prop where
  regs : ∀ r, r ∉ rs → (t.grp s.cur).reg r = (s.grp s.cur).reg r
  preds : ∀ n l, n ∉ ps → (t.grp s.cur).pred n l = (s.grp s.cur).pred n l
  fcsr : ∀ l, (t.thr s.cur l).fcsr = orFlags (s.thr s.cur l).fcsr (fl l)
  ftret : ∀ l, (t.thr s.cur l).ftret = (s.thr s.cur l).ftret
  shapeix : (t.grp s.cur).shapeix = (s.grp s.cur).shapeix
  others : ∀ q, q ≠ s.cur → (t.grp q).regs = (s.grp q).regs ∧ (t.grp q).preds = (s.grp q).preds ∧
    ∀ l, (t.thr q l).fcsr = (s.thr q l).fcsr ∧ (t.thr q l).pc = (s.thr q l).pc
  cores : ∀ n, (t.lc n).specials = (s.lc n).specials
  package : t.packageRegs = s.packageRegs
  mem : ∀ a, t.byte a = u.byte a
  poison : t.mpoison = u.mpoison

/-- What the cores hold for a team: the bytes and the poison of its forme, its tiles, and its platen and spool queues (R37, R39). -/
def Team.stores (t : Team) : List (Nat × Byte) × List Nat × List Tile × List PlOp × List SpQueue := (t.forme, t.fpoison, t.tiles, t.plq, t.spq)
/-- What can act on the forme, the tiles or the queues of a team, or ends, saves or restores teams: these instructions, and every step that
is no instruction word. -/
def onTeams : Instr → Bool
  | .exit _ | .eret _ | .migrOut _ | .migrOutSolo _ | .migrIn _ _ | .migrInSolo _ | .fstopStop _ | .fstopEnd _ | .fresumeRestart _ |
    .fresumeResume _ | .fresumeSkip _ | .fresumeKill _ | .qbind _ | .qfree _ | .stf _ _ | .stfc _ _ | .bari .forme _ | .bara .forme _ |
    .barw .forme _ | .bart .forme _ | .barx .forme _ | .mma _ _ | .mmac _ _ | .mzero _ | .mload _ | .mdrain _ _ | .mdrainv _ _ |
    .mstat _ | .cpy _ _ _ | .cpyt _ _ _ | .cgath _ _ _ | .cscat _ _ _ | .cpart _ _ _ | .cfill _ _ _ | .cfence _ _ | .cstat _ _ => true
  | i => !i.isWord
/-- An instruction that acts on no team leaves every forme, every tile and every queue as it was. -/
def State.keepsTeams (s t : State) (i : Instr) : Prop := onTeams i = false → ∀ k, (t.team k).stores = (s.team k).stores

/-- What an instruction leaves alone that raises no flag. -/
def Keeps (s u t : State) (rs ps : List Nat) : Prop := KeepsF s u t rs ps fun _ => 0#32

/-- Every lane of the run stands at the following word (R44), or is parked there because a seventeenth run would arise (R14). -/
def State.movedOn (s t : State) : Prop :=
  ∀ l ∈ s.runLanes, (t.thr s.cur l).pc = (s.thr s.cur l).pc + 8#64 ∧ ((t.thr s.cur l).st = .ready ∨ (t.thr s.cur l).st = .parked)

/-- The outcome of an instruction completes it: the next state holds its results, the run has moved on, and the rest is kept. -/
def completesAs (o : Host.Outcome State Fault Refusal) (i : Instr) (s : State) (rs ps : List Nat) (results : State → Prop) : Prop :=
  ∃ t, o = .next t ∧ results t ∧ s.movedOn t ∧ Keeps s (s.opened i) t rs ps ∧ s.keepsTeams t i
/-- The instruction completes. -/
def completes (i : Instr) (s : State) (rs ps : List Nat) (results : State → Prop) : Prop := completesAs (exec i s) i s rs ps results

/-- An outcome completes the instruction with a value of `n` registers in D: in every lane `l` that performs it, the value satisfies
`R l`. -/
def State.putsAs (s : State) (o : Host.Outcome State Fault Refusal) (i : Instr) (n : Nat) (d : BitVec 10) (R : Nat → W64 → Prop) : Prop :=
  completesAs o i s (destRegs n d) [] fun t => inReg d = true → ∀ l, Mask.has (s.acting i) l = true → R l (t.dest s.cur n d l)
/-- The instruction completes with a value of `n` registers in D that satisfies `R`. -/
def State.puts (s : State) (i : Instr) (n : Nat) (d : BitVec 10) (R : Nat → W64 → Prop) : Prop := s.putsAs (exec i s) i n d R
/-- The instruction completes with the value `v` of `n` registers in D. -/
def State.writes (s : State) (i : Instr) (n : Nat) (d : BitVec 10) (v : Nat → W64) : Prop := s.puts i n d fun l x => x = v l
/-- An outcome completes the instruction with elements in D: in every lane `l` that performs it, every element `k` satisfies `R l k`. -/
def State.givesAs (s : State) (o : Host.Outcome State Fault Refusal) (i : Instr) (z : ISize) (d : BitVec 10)
    (R : (l k : Nat) → BitVec z.width → Prop) : Prop :=
  completesAs o i s (destRegs z.n d) [] fun t =>
    inReg d = true → ∀ l, Mask.has (s.acting i) l = true → ∀ k, k < z.count → R l k (elem z k (t.dest s.cur z.n d l))
/-- The instruction completes with elements in D. -/
def State.gives (s : State) (i : Instr) (z : ISize) (d : BitVec 10) (R : (l k : Nat) → BitVec z.width → Prop) : Prop :=
  s.givesAs (exec i s) i z d R
/-- An outcome completes the instruction with a predicate in D: in every lane that performs it, `v` gives its value. -/
def State.decidesAs (s : State) (o : Host.Outcome State Fault Refusal) (i : Instr) (d : BitVec 10) (v : Nat → Bool) : Prop :=
  completesAs o i s [] (destPred d) fun t => d.toNat < 7 → ∀ l, Mask.has (s.acting i) l = true → (t.grp s.cur).pred d.toNat l = v l
/-- The instruction completes with a predicate in D. -/
def State.decides (s : State) (i : Instr) (d : BitVec 10) (v : Nat → Bool) : Prop := s.decidesAs (exec i s) i d v

/-- Element `k` of a source operand in lane `l`. -/
def State.elA (s : State) (z : ISize) (c : BitVec 10) (l k : Nat) : BitVec z.width := elem z k (s.opnd z.kind z.n c l)
/-- Element `k` of B, or of the constant-window operand in its place (R52). -/
def State.elB (s : State) (i : Instr) (z : ISize) (w : BaseW) (l k : Nat) : BitVec z.width := elem z k (s.opndB i z.kind z.n w l)
/-- The count or descriptor that B gives for element `k` (R137): one 32-bit register in every size, and an element of it in the packed
sizes. -/
def State.countB (s : State) (i : Instr) (z : ISize) (w : BaseW) (l k : Nat) : Nat :=
  let v := s.opndB i z.kind 1 w l
  match z with
  | .w => (v.setWidth 32).toNat
  | .d => (v.setWidth 32).toNat
  | .h2 => (elem .h2 k v).toNat
  | .b4 => (elem .b4 k v).toNat
/-- A 32-bit operand in lane `l`. -/
def State.word (s : State) (c : BitVec 10) (l : Nat) : W32 := (s.opnd .int 1 c l).setWidth 32

/-- The flags that a float instruction raises in a lane: none where a source is poisoned (R104, R156). -/
def State.raised (s : State) (i : Instr) (srcs : List Src) (fl : Nat → Flags) (l : Nat) : Flags :=
  if Mask.has (s.acting i) l && !(srcs.any fun x => Mask.has x.poi l) then fl l else 0#32
/-- A float instruction completes unless a flag that it raises is enabled (R104): its flags are ORed into `s.fcsr` of its lanes. -/
def State.floatsAs (s : State) (o : Host.Outcome State Fault Refusal) (i : Instr) (srcs : List Src) (fl : Nat → Flags) (rs ps : List Nat)
    (results : State → Prop) : Prop :=
  (∀ l, Mask.has (s.acting i) l = true → enabledIn (s.thr s.cur l).fcsr (s.raised i srcs fl l) = false) →
  ∃ t, o = .next t ∧ results t ∧ s.movedOn t ∧ KeepsF s (s.opened i) t rs ps (s.raised i srcs fl) ∧ s.keepsTeams t i
/-- A float instruction gives `cnt` elements of `z` bits in the `n` registers of D: element `k` in lane `l` is the pattern `(r l k).1`, and
the flags `(r l k).2` of all of them are raised. -/
def State.floatsElAs (s : State) (o : Host.Outcome State Fault Refusal) (i : Instr) (z n cnt : Nat) (d : BitVec 10) (srcs : List Src)
    (r : (l k : Nat) → Nat × Flags) : Prop :=
  s.floatsAs o i srcs (fun l => (List.range cnt).foldl (fun a k => a ||| (r l k).2) 0#32) (destRegs n d) [] fun t =>
    inReg d = true → ∀ l, Mask.has (s.acting i) l = true → ∀ k, k < cnt → el z k (t.dest s.cur n d l) = (r l k).1 % 2 ^ z
/-- A float instruction gives the elements `r` in D. -/
def State.floatsEl (s : State) (i : Instr) (z n cnt : Nat) (d : BitVec 10) (srcs : List Src) (r : (l k : Nat) → Nat × Flags) : Prop :=
  s.floatsElAs (exec i s) i z n cnt d srcs r
/-- A float instruction gives the elements `r` of a format in D. -/
def State.floatsTo (s : State) (i : Instr) (f : FFmt) (d : BitVec 10) (srcs : List Src) (r : (l k : Nat) → Nat × Flags) : Prop :=
  s.floatsEl i f.width f.n f.count d srcs r
/-- A float instruction gives the registers `(r l).1` from D on, and raises the flags `(r l).2`. -/
def State.floatsRegs (s : State) (i : Instr) (n : Nat) (d : BitVec 10) (srcs : List Src) (r : Nat → FOut) : Prop :=
  s.floatsAs (exec i s) i srcs (fun l => (r l).2) (destRegs n d) [] fun t =>
    inReg d = true → ∀ l, Mask.has (s.acting i) l = true → ∀ k, k < n → (t.grp s.cur).rd l (d.toNat + k) = (r l).1.getD k 0#32
/-- A float operand in a register of the group. -/
def State.fsrc (s : State) (f : FFmt) (c : BitVec 10) : Src := (s.grp s.cur).src f.kind f.n c
/-- The B operand, or the constant-window operand in its place (R52). -/
def State.fsrcB (s : State) (i : Instr) (f : FFmt) (w : BaseW) : Src := (s.grp s.cur).srcB f.kind f.n w (s.windowed i).2.1
/-- Element `k` of a float operand. -/
def Src.fel (x : Src) (f : FFmt) (l k : Nat) : Nat := el f.width k (x.val l)
/-- The rounding mode and the flushing that are in force in a lane (R53, R101, R105). -/
def State.rm (s : State) (w : BaseW) (l : Nat) : Nat := rmIn (s.thr s.cur l).fcsr w.rm
def State.fz (s : State) (l : Nat) : Bool := fzIn (s.thr s.cur l).fcsr

/-- A relation code on two ordered values (R151): 0 `eq`, 1 `ne`, 2 `lt`, 3 `le`, 4 `gt`, 5 `ge`. -/
def relation (rel : Nat) (lt eq : Bool) : Bool :=
  match rel with | 0 => eq | 1 => !eq | 2 => lt | 3 => lt || eq | 4 => !(lt || eq) | _ => !lt
/-- A combining code (R151, R161): 0 none, 1 `and`, 2 `or`, 3 `xor`. -/
def combined (opc : Nat) (r q : Bool) : Bool := match opc with | 0 => r | 1 => r && q | 2 => r || q | _ => r ^^ q
/-- The number of an R field of a C field that names a predicate, as a destination list. -/
def predR (r : Nat) : List Nat := if r < 7 then [r] else []

/-! ### Exact values of float operations (R97, R101, R102, R105) -/

/-- An exact magnitude, by its order against every number c × 2^q. -/
abbrev Exact := (c : Nat) → (q : Int) → Ordering
/-- m × 2^e. -/
def Exact.dyadic (m : Nat) (e : Int) : Exact := fun c q => compare (m * 2 ^ (e - q).toNat) (c * 2 ^ (q - e).toNat)
/-- (m ÷ p) × 2^e. -/
def Exact.quotient (m p : Nat) (e : Int) : Exact := fun c q => compare (m * 2 ^ (e - q).toNat) (c * p * 2 ^ (q - e).toNat)
/-- √(m × 2^e). -/
def Exact.root (m : Nat) (e : Int) : Exact := fun c q => compare (m * 2 ^ (e - 2 * q).toNat) (c * c * 2 ^ (2 * q - e).toNat)
/-- 1 ÷ √(m × 2^e). -/
def Exact.rroot (m : Nat) (e : Int) : Exact := fun c q => compare (2 ^ (-(2 * q + e)).toNat) (c * c * m * 2 ^ (2 * q + e).toNat)

/-- A rounding mode chooses c × 2^q among the multiples of 2^q, for the magnitude of a value of sign `neg` (R101). -/
def Exact.chooses (x : Exact) (rm : Nat) (neg : Bool) (q : Int) (c : Nat) : Prop :=
  let down : Prop := x c q ≠ .lt ∧ x (c + 1) q = .lt
  let up : Prop := x c q ≠ .gt ∧ (c ≠ 0 → x (c - 1) q = .gt)
  let near : Prop := x (2 * c + 1) (q - 1) ≠ .gt ∧ (c ≠ 0 → x (2 * c - 1) (q - 1) ≠ .lt)
  match rm with
  | 0 => near ∧ (x (2 * c + 1) (q - 1) = .eq ∨ c ≠ 0 ∧ x (2 * c - 1) (q - 1) = .eq → c % 2 = 0)
  | 1 => down
  | 2 => if neg then up else down
  | 3 => if neg then down else up
  | _ => near ∧ x (2 * c + 1) (q - 1) ≠ .eq

/-- A pattern of a format stands for ±c × 2^q (R97). -/
def Fmt.holds (F : Fmt) (v : Nat) (neg : Bool) (c : Nat) (q : Int) : Prop :=
  v < 2 ^ F.bits ∧ ∃ m e, F.dec v = .fin neg m e ∧ Exact.dyadic m e c q = .eq

/-- What an overflow gives (R102). -/
def Fmt.overflows (F : Fmt) (rm : Nat) (sat neg : Bool) (r : Nat × Flags) : Prop :=
  if sat = true then r = (F.max neg, fSAT ||| fNX)
  else if rm = 1 ∨ rm = 2 ∧ neg = false ∨ rm = 3 ∧ neg = true then r = (F.max neg, fOF ||| fNX)
  else if F.top = .e4m3 then r = (F.nan, fOF ||| fNX ||| fNV)
  else r = (F.inf neg, fOF ||| fNX)

/-- A format delivers an exact magnitude other than 0, with its sign (R101, R102, R105): c × 2^q is the value rounded with unbounded
exponent. Below the smallest normal it is tiny, and above the largest finite value it overflows. -/
def Fmt.delivers (F : Fmt) (rm : Nat) (fz sat neg : Bool) (x : Exact) (r : Nat × Flags) : Prop :=
  let low : Int := 1 - F.bias - F.mb
  ∃ (q : Int) (c : Nat), x (2 ^ F.mb) q ≠ .lt ∧ x (2 ^ (F.mb + 1)) q = .lt ∧ Exact.chooses x rm neg q c ∧
    let tiny : Prop := Exact.dyadic c q (2 ^ F.mb) low = .lt
    let large : Prop := ∃ m e, F.dec (F.max false) = .fin false m e ∧ Exact.dyadic c q m e = .gt
    (tiny → fz = true → r = (F.signBit neg, fUF ||| fNX)) ∧
    (tiny → fz = false → ∃ d, Exact.chooses x rm neg low d ∧ F.holds r.1 neg d low ∧
      r.2 = if x d low = .eq then 0#32 else fUF ||| fNX) ∧
    (large → F.overflows rm sat neg r) ∧
    (¬ tiny → ¬ large → F.holds r.1 neg c q ∧ r.2 = if x c q = .eq then 0#32 else fNX)

/-- The order of two values (R161); none with a NaN. -/
def FV.order (a b : FV) : Option Ordering :=
  match a, b with
  | .nan _, _ => none
  | _, .nan _ => none
  | .inf n, .inf k => some (if n == k then .eq else if n then .lt else .gt)
  | .inf n, .fin _ _ _ => some (if n then .lt else .gt)
  | .fin _ _ _, .inf k => some (if k then .gt else .lt)
  | .fin n m e, .fin k p g =>
    let x : Int := (m * 2 ^ (e - g).toNat : Nat)
    let y : Int := (p * 2 ^ (g - e).toNat : Nat)
    some (compare (if n then -x else x) (if k then -y else y))

/-- A relation of `FCMP` on two ordered or unordered values (R161). -/
def relates (rel : Nat) (o : Option Ordering) : Bool :=
  match rel with
  | 0 => o == some .eq
  | 1 => o != some .eq
  | 2 => o == some .lt
  | 3 => o == some .lt || o == some .eq
  | 4 => o == some .gt
  | 5 => o == some .gt || o == some .eq
  | 6 => o == none
  | _ => o != none

/-- A special function's result within `k` ulp of an exact magnitude that lies between 2^t and 2^(t + 1) (R164); under FZ a tiny result is
the zero of its sign (R105). -/
def Exact.within (y : Exact) (k : Nat) (neg fz : Bool) (r : Nat × Flags) : Prop :=
  ∀ t : Int, y 1 t ≠ .lt → y 1 (t + 1) = .lt → t < 128 →
    let u := max (t - 23) (-149)
    (fz = true ∧ t ≤ -126 ∧ r = (F32.signBit neg, fUF ||| fNX)) ∨
    ∃ c q, F32.holds r.1 neg c q ∧ q ≤ u ∧ y (c + k * 2 ^ (u - q).toNat) q ≠ .gt ∧
      (k * 2 ^ (u - q).toNat ≤ c → y (c - k * 2 ^ (u - q).toNat) q ≠ .lt)

/-! ### States that an instruction leaves -/

/-- The instruction completes and leaves what `s'` says: the results, the run moved on, everything else as in `s'`, memory as in `m`. -/
def State.becomes (s : State) (i : Instr) (s' m : State) (rs ps : List Nat) (results : State → Prop) : Prop :=
  ∃ t, exec i s = .next t ∧ results t ∧ s.movedOn t ∧ Keeps s' m t rs ps ∧ s.keepsTeams t i
/-- The lanes that perform the instruction stay at their word, in the state `st`; nothing else changes that an instruction could read. -/
def State.waits (s : State) (i : Instr) (st : Nat → TState) (results : State → Prop) : Prop :=
  ∃ t, exec i s = .next t ∧ results t ∧ Keeps s (s.opened i) t [] [] ∧ s.keepsTeams t i ∧
    ∀ l, Mask.has (s.acting i) l = true → (t.thr s.cur l).pc = (s.thr s.cur l).pc ∧ (t.thr s.cur l).st = st l

/-- Latency core `n` is the current party, its one thread its current run, outside handlers and rejoin points. -/
structure State.alone (s : State) (n : Nat) : Prop where
  cur : s.cur = .lc n
  lane : s.curLane = 0
  run : s.runLanes = [0]
  free : (s.thr (.lc n) 0).rej = [] ∧ (s.thr (.lc n) 0).handler = none

/-- `n` bytes at a physical address lie in memory of the own package, which is neither moved nor replicated. -/
structure State.homed (s : State) (pa n : Nat) : Prop where
  pkg : paPkg pa = s.link.pkg
  domain : s.link.domain.getLsbD s.link.pkg = true
  die : paDie pa < 28
  inside : paOff pa + n ≤ Config.dieBytes (paDie pa)
  fixed : assoc (pageOf pa) s.moved = none
  page : ∀ r ∈ s.pages, r.isFor (pageOf pa) = false
/-- Such bytes, over which no windowed store is still to be applied. -/
structure State.plain (s : State) (pa n : Nat) : Prop extends State.homed s pa n where
  windows : s.windowedOver pa n = false

/-- The hardware's own stores reach the error log: nothing has stopped the machine, no page has moved, none of its stores waits, and what
waits for room there are records of 64 bytes (R414). -/
structure State.logs (s : State) : Prop where
  there : s.absent = none
  fixed : s.moved = []
  free : s.hwq = []
  records : ∀ r ∈ s.errq, r.length = 8

/-- Where supervisor software of core `n` finds the code at an address: translation is off (R332), or the core's TLBs hold the page (R337). -/
def State.codeAt (s : State) (n : Nat) (a : W64) (pa : Nat) : Prop :=
  ((s.lc n).ptbr.getLsbD 0 = false ∧ pa = a.toNat % 2 ^ 52) ∨
  ((s.lc n).ptbr.getLsbD 0 = true ∧ ∃ x, s.tlbFind (s.tlbPath (.lc n)) (spaceOfPtbr (s.lc n).ptbr true) a = some x ∧
    permits x.leaf true .fetch = true ∧ pa = leafBase x.leaf / 2 ^ pageBits x.level * 2 ^ pageBits x.level + a.toNat % 2 ^ pageBits x.level)
/-- A good header stands at an address that supervisor software of core `n` reaches (R62). -/
structure State.headerAt (s : State) (n : Nat) (a w : W64) : Prop where
  canon : canonical a = true
  code : ∃ pa, s.codeAt n a pa ∧ s.plain pa 8 ∧ s.poisoned pa 8 = false ∧ w = BitVec.ofNat 64 (s.rdN pa 8)
  header : isHeader w = true
  good : headerCause w 768 = none

/-- A good header stands at an address that a user thread reaches: the TLBs hold its page, with execute permission, and no copy of the line
is held below the home (R62, R336, R337). -/
structure State.leafTo (s : State) (p : Party) (l : Nat) (a w : W64) : Prop where
  canon : canonical a = true
  user : upper a = false
  space : (s.spaceOf p l).en = true
  code : ∃ x pa, s.tlbFind (s.tlbPath p) (s.spaceOf p l) a = some x ∧ permits x.leaf false .fetch = true ∧
    pa = leafBase x.leaf / 2 ^ pageBits x.level * 2 ^ pageBits x.level + a.toNat % 2 ^ pageBits x.level ∧
    s.plain pa 8 ∧ (∀ c ∈ s.copies, c.line ≠ lineOf pa) ∧ s.poisoned pa 8 = false ∧ w = BitVec.ofNat 64 (s.rdN pa 8)
  header : isHeader w = true
  good : headerCause w (s.nregs p l) = none

/-- The thread of core `n` stands behind the header `w` at `a`. -/
def State.inBlock (t : State) (n : Nat) (a w : W64) : Prop :=
  (t.thr (.lc n) 0).pc = a + 8#64 ∧ (t.thr (.lc n) 0).blk = some { addr := a, word := w } ∧ (t.thr (.lc n) 0).st = .ready

/-- Core `n` has taken an exception (R269): the saved registers, the status, the mode, the entry at `s.tvec`, whose header is `w`. -/
structure State.trapped (s t : State) (n : Nat) (intr : Bool) (code : Nat) (tval epc : W64) (hoff : Nat) (w : W64) : Prop where
  epc : (t.lc n).epc = epc
  tval : (t.lc n).tval = tval
  code : (t.lc n).cause.toNat % 2 ^ 31 = code % 2 ^ 31
  intr : (t.lc n).cause.msb = intr
  mode : (t.lc n).status.getLsbD 0 = true
  pmode : (t.lc n).status.getLsbD 1 = (s.lc n).status.getLsbD 0
  ie : (t.lc n).status.getLsbD 2 = false
  pie : (t.lc n).status.getLsbD 3 = (s.lc n).status.getLsbD 2
  hoff : (t.lc n).status.toNat / 2 ^ 10 % 2 ^ 10 = hoff % 2 ^ 10
  resv : (t.lc n).resv = none
  entry : t.inBlock n (s.lc n).tvec w
  wins : (t.thr (.lc n) 0).wins = []
  regs : (t.lc n).grp.regs = (s.lc n).grp.regs ∧ (t.lc n).grp.preds = (s.lc n).grp.preds
  others : ∀ k, k ≠ n → (t.lc k).specials = (s.lc k).specials ∧ (t.lc k).grp.regs = (s.lc k).grp.regs
  mem : ∀ a, t.byte a = s.byte a

/-- An integer combine of the group network (R177), with its identity. -/
def groupInt (w op : Nat) (xs : List (BitVec w)) : BitVec w :=
  match op with
  | 0 => xs.foldr (· + ·) 0#w
  | 1 => xs.foldr (fun a b => if a.slt b then a else b) (BitVec.intMax w)
  | 2 => xs.foldr (fun a b => if a.ult b then a else b) (BitVec.allOnes w)
  | 3 => xs.foldr (fun a b => if b.slt a then a else b) (BitVec.intMin w)
  | 4 => xs.foldr (fun a b => if b.ult a then a else b) 0#w
  | 5 => xs.foldr (· &&& ·) (BitVec.allOnes w)
  | 6 => xs.foldr (· ||| ·) 0#w
  | _ => xs.foldr (· ^^^ ·) 0#w
/-- Two nodes of the network: an empty one gives the other (R178). -/
def nodes (f : Nat → Nat → Nat) : Option Nat → Option Nat → Option Nat
  | none, y => y
  | x, none => x
  | some a, some b => some (f a b)
/-- Node `i` of level `k` of the reduction tree (R178). -/
def redNode (f : Nat → Nat → Nat) (x : Nat → Option Nat) : Nat → Nat → Option Nat
  | 0, i => x i
  | k + 1, i => nodes f (redNode f x k (2 * i)) (redNode f x k (2 * i + 1))
/-- Lane `l` of step `k` of the scan (R178). -/
def scanNode (f : Nat → Nat → Nat) (x : Nat → Option Nat) : Nat → Nat → Option Nat
  | 0, l => x l
  | k + 1, l => if 2 ^ k ≤ l then nodes f (scanNode f x k (l - 2 ^ k)) (scanNode f x k l) else scanNode f x k l

/-! ### Memory -/

/-- Lane `l` of a party reaches `n` bytes at `va` in one access: the checks of R183 pass, the translation is at hand and gives `x`, the
bytes lie in plain memory, no issued store of the party overlaps them, and no value waits for the thread. -/
structure State.reaches (s : State) (p : Party) (l : Nat) (va : W64) (n : Nat) (k : AccKind) (aligned data : Bool) (x : Xl) : Prop where
  access : s.access p l va n k aligned data = (s, .ok x)
  plain : s.plain x.pa n
  issued : ∀ y ∈ s.pend, s.finds p y = true → ¬(y.pa < x.pa + n ∧ x.pa < y.pa + y.n)
  single : s.proofed p l = false
  fresh : (s.thr p l).got = none
/-- No leased copy of the line is held below the home. -/
def State.uncached (s : State) (pa : Nat) : Prop := ∀ c ∈ s.copies, c.line ≠ lineOf pa
/-- A release at a scope need not wait (R295). -/
structure State.released (s : State) (p : Party) (scope : Nat) : Prop where
  now : s.deferReleases = false
  issued : ∀ y ∈ s.pend, s.finds p y = false
  ready : s.relReady p scope = true
  windows : (s.grp p).wlost ≤ s.pt
/-- One lane performs the instruction: `l`; it reads its address from `a` and reaches `n` bytes. -/
structure State.atPlace (s : State) (i : Instr) (l : Nat) (a : BitVec 10) (off : W64) (n : Nat) (k : AccKind) (x : Xl) : Prop where
  ready : s.ready i
  one : Mask.lanes (s.acting i) = [l]
  addr : Mask.has ((s.grp s.cur).src .int 2 a).poi l = false
  reach : (s.opened i).reaches s.cur l (s.opnd .int 2 a l + off) n k true true x
/-- Register `k` of what a load of a size gives from the bytes at `a` on (R73, R191). -/
def loadedFrom (f : Nat → Byte) (z : LdSize) (a k : Nat) : W32 :=
  match z with
  | .b => (f a).setWidth 32
  | .sb => (f a).signExtend 32
  | .h => (f (a + 1) ++ f a).setWidth 32
  | .sh => (f (a + 1) ++ f a).signExtend 32
  | _ => f (a + 4 * k + 3) ++ f (a + 4 * k + 2) ++ f (a + 4 * k + 1) ++ f (a + 4 * k)
def State.loaded (s : State) (z : LdSize) (pa k : Nat) : W32 := loadedFrom s.byte z pa k
/-- The bytes that a store of `n` bytes takes from the registers of D (R191). -/
def Group.stored (g : Group) (l : Nat) (d : BitVec 10) (n : Nat) : List Byte :=
  (List.range n).map fun k => (g.rd l (d.toNat + k / 4)).extractLsb' (8 * (k % 4)) 8
/-- The memory after a store: the bytes, and poison gone from the granules that it covers whole (R411). -/
def State.withStore (s : State) (pa : Nat) (data : List Byte) : State :=
  { s.setBytes pa data with mpoison := clearPoison s.mpoison pa data.length }
/-- The `n` registers of D hold a number in lane `l`. -/
def State.holdsIn (t : State) (p : Party) (n : Nat) (d : BitVec 10) (l v : Nat) : Prop :=
  inReg d = true → ∀ k, k < n → (t.grp p).rd l (d.toNat + k) = BitVec.ofNat 32 (v / 2 ^ (32 * k))
/-- What an atomic makes of an old value and an operand (R206). -/
def atomValue {w : Nat} (op : AmoOp) (m b : BitVec w) : BitVec w :=
  match op with
  | .swap => b
  | .add => m + b
  | .and => m &&& b
  | .or => m ||| b
  | .xor => m ^^^ b
  | .smin => if b.slt m then b else m
  | .smax => if m.slt b then b else m
  | .umin => if b.ult m then b else m
  | .umax => if m.ult b then b else m
/-- Strings compared byte by byte, then by length (R247). -/
def cmpBytes : List Byte → List Byte → W32
  | [], [] => 0#32
  | [], _ :: _ => 0xFFFFFFFF#32
  | _ :: _, [] => 1#32
  | x :: xs, y :: ys => if x = y then cmpBytes xs ys else if x.ult y then 0xFFFFFFFF#32 else 1#32
/-- Supervisor software of core `n` reads `len` bytes of plain memory at `va`, one access each, without translation. -/
structure State.stringAt (s : State) (n : Nat) (va : W64) (len : Nat) : Prop where
  sup : (s.lc n).sup = true
  off : (s.lc n).ptbr.getLsbD 0 = false
  issued : ∀ y ∈ s.pend, y.party ≠ .lc n
  held : (s.thr (.lc n) 0).held = []
  canon : ∀ k, k < len → canonical (va + BitVec.ofNat 64 k) = true
  plain : ∀ k, k < len → s.plain ((va + BitVec.ofNat 64 k).toNat % 2 ^ 52) 1
  clean : ∀ k, k < len → s.poisoned ((va + BitVec.ofNat 64 k).toNat % 2 ^ 52) 1 = false
/-- The bytes of a string. -/
def State.stringOf (s : State) (va : W64) (len : Nat) : List Byte :=
  (List.range len).map fun k => s.byte ((va + BitVec.ofNat 64 k).toNat % 2 ^ 52)

/-- One lane of a group performs a forme instruction: `l`; its offset comes from `a`, and `n` bytes of the forme lie there (R197). -/
structure State.atForme (s : State) (i : Instr) (tid j l : Nat) (a : BitVec 10) (add : W64) (n : Nat) (off : Nat) : Prop where
  cur : s.cur = .grp tid j
  ready : s.ready i
  one : Mask.lanes (s.acting i) = [l]
  addr : Mask.has ((s.grp s.cur).src .int 1 a).poi l = false
  offset : off = (s.opnd .int 1 a l + add).toNat % 2 ^ 32
  aligned : off % n = 0
  inside : off + n ≤ (s.team tid).fsize
/-! ### Spool operations on one forme (R239, R240) -/

/-- `n` bytes copied one at a time in ascending order. -/
def copied (f : Nat → Byte) (src dst : Nat) : Nat → Nat → Byte
  | 0 => f
  | n + 1 => fun k => if k = dst + n then copied f src dst n (src + n) else copied f src dst n k
/-- Bytes put at an address. -/
def putAt (f : Nat → Byte) (a : Nat) (bs : List Byte) (k : Nat) : Byte := if a ≤ k ∧ k < a + bs.length then bs.getD (k - a) 0#8 else f k
/-- The little-endian number of `n` bytes. -/
def numAt (f : Nat → Byte) (a n : Nat) : Nat := ((List.range n).map fun k => (f (a + k)).toNat * 2 ^ (8 * k)).sum
/-- A copy inside a forme of a size. -/
def copiedIn (size : Nat) (f : Nat → Byte) (src dst n : Nat) : Option (Nat → Byte) :=
  if src + n ≤ size ∧ dst + n ≤ size then some (copied f src dst n) else none
/-- A record of `CPART`: its partition's cursor, and the record where the partition has room, else one more dropped. -/
def SpOp.partitions (o : SpOp) (size : Nat) (f : Nat → Byte) (i : Nat) : Option (Nat → Byte) :=
  let src := o.a.toNat % 2 ^ 32 + i * o.len
  let h := mix64 (BitVec.ofNat 64 (numAt f (src + o.koff) o.klen)) (pair64 (o.par.getD 7 0#32) (o.par.getD 6 0#32))
  let p := h.toNat / 2 ^ o.hb % 2 ^ o.hw
  let cur := o.w 4 + 8 * p
  let fill := numAt f cur 4
  let drop := numAt f (cur + 4) 4
  if src + o.len ≤ size ∧ src + o.koff + o.klen ≤ size ∧ cur + 8 ≤ size then
    if fill + o.len ≤ o.w 5 then
      (copiedIn size f src (o.b.toNat % 2 ^ 32 + p * o.w 5 + fill) o.len).map fun g => putAt g cur (natLe 4 (fill + o.len))
    else some (putAt f (cur + 4) (natLe 4 (drop / 2 ^ 31 * 2 ^ 31 + min (drop % 2 ^ 31 + 1) (2 ^ 31 - 1))))
  else none
/-- Element `i` of an operation inside one forme; none where it reaches beyond the forme. -/
def SpOp.moves (o : SpOp) (size : Nat) (f : Nat → Byte) (i : Nat) : Option (Nat → Byte) :=
  let a := o.a.toNat % 2 ^ 32
  let b := o.b.toNat % 2 ^ 32
  let idx := numAt f (o.w 3 + 4 * i) 4
  match o.kind with
  | .cpy => copiedIn size f (a + i) (b + i) 1
  | .cfill => if b + i < size then some (putAt f (b + i) [BitVec.ofNat 8 (o.a.toNat / 2 ^ (8 * (i % 8)))]) else none
  | .cpyt => copiedIn size f (a + i * o.w 3) (b + i * o.w 4) o.len
  | .cgath => if o.w 3 + 4 * i + 4 ≤ size then copiedIn size f (a + idx * o.w 4) (b + i * o.len) o.len else none
  | .cscat => if o.w 3 + 4 * i + 4 ≤ size then copiedIn size f (a + i * o.len) (b + idx * o.w 4) o.len else none
  | .cpart => o.partitions size f i
/-- The forme after the first elements of an operation, in ascending order. -/
def SpOp.moved (o : SpOp) (size : Nat) (f : Nat → Byte) : Nat → Option (Nat → Byte)
  | 0 => some f
  | k + 1 => (o.moved size f k).bind fun g => o.moves size g k

/-- One lane performs a barrier instruction, on an object in memory or in forme; it has the count or token `b`. -/
structure State.atBarrier (s : State) (i : Instr) (l : Nat) (w : BaseW) (b : Nat) : Prop where
  count : Mask.has ((s.grp s.cur).src .int 1 w.b).poi l = false
  val : b = (s.opnd .int 1 w.b l).toNat % 2 ^ 16
  tok : (s.thr s.cur l).barTok = none
  fresh : (s.thr s.cur l).got = none
  lone : s.awaited s.cur = false
  idle : ∀ y ∈ s.waiters, y.party = s.cur → y.lane ≠ l
  rel : cOrder w.c = 2 ∨ cOrder w.c = 3 → s.proofed s.cur l = false ∧ (s.opened i).released s.cur (cScope w.c)

end Sys2Proof.Machine
end

