-- ==== Sys2Proof/Certificates/Slice0/Obligations.lean ====
section
/-!
DEFINITION. The statements about the machine. A statement about an instruction is about every form and every run that issues it
(`State.ready`); its conclusion is that the instruction completes, with its results and with everything else kept (`completes`).
-/

open Sys2Proof Sys2Proof.Machine

/-! ### Integer instructions -/

/-- R142, R139: sums and differences wrap, or clamp, in every element; NEG and ABS. -/
def Sys2Proof.Claims.IntegerSums : Prop := ∀ s : State,
  (∀ z w, s.ready (.add z w) → s.gives (.add z w) z w.d fun l k v => v = s.elA z w.a l k + s.elB (.add z w) z w l k) ∧
  (∀ z w, s.ready (.addI z w) → s.gives (.addI z w) z.isize w.d fun l k v =>
    v = s.elA z.isize w.a l k + elem z.isize k (w.imm.signExtend 64)) ∧
  (∀ z w, s.ready (.sub z w) → s.gives (.sub z w) z w.d fun l k v => v = s.elA z w.a l k - s.elB (.sub z w) z w l k) ∧
  (∀ z w, s.ready (.neg z w) → s.gives (.neg z w) z w.d fun l k v => v = -s.elA z w.a l k) ∧
  (∀ z w, s.ready (.abs z w) → s.gives (.abs z w) z w.d fun l k v =>
    v = if (s.elA z w.a l k).msb then -s.elA z w.a l k else s.elA z w.a l k) ∧
  (∀ z w, s.ready (.addsat z .u w) → s.gives (.addsat z .u w) z w.d fun l k v =>
    v.toNat = min (2 ^ z.width - 1) ((s.elA z w.a l k).toNat + (s.elB (.addsat z .u w) z w l k).toNat)) ∧
  (∀ z w, s.ready (.subsat z .u w) → s.gives (.subsat z .u w) z w.d fun l k v =>
    v.toNat = (s.elA z w.a l k).toNat - (s.elB (.subsat z .u w) z w l k).toNat) ∧
  (∀ z w, s.ready (.addsat z .s w) → s.gives (.addsat z .s w) z w.d fun l k v =>
    v.toInt = max (-2 ^ (z.width - 1)) (min (2 ^ (z.width - 1) - 1) ((s.elA z w.a l k).toInt + (s.elB (.addsat z .s w) z w l k).toInt))) ∧
  (∀ z w, s.ready (.subsat z .s w) → s.gives (.subsat z .s w) z w.d fun l k v =>
    v.toInt = max (-2 ^ (z.width - 1)) (min (2 ^ (z.width - 1) - 1) ((s.elA z w.a l k).toInt - (s.elB (.subsat z .s w) z w l k).toInt)))

/-- R143, R139: products. -/
def Sys2Proof.Claims.IntegerProducts : Prop := ∀ s : State,
  (∀ z w, s.ready (.mul z w) → s.gives (.mul z w) z w.d fun l k v => v = s.elA z w.a l k * s.elB (.mul z w) z w l k) ∧
  (∀ z w, s.ready (.mulI z w) → s.gives (.mulI z w) z.isize w.d fun l k v =>
    v = s.elA z.isize w.a l k * elem z.isize k (w.imm.signExtend 64)) ∧
  (∀ z w, s.ready (.mulh z .u w) → s.gives (.mulh z .u w) z.isize w.d fun l k v =>
    v.toNat = (s.elA z.isize w.a l k).toNat * (s.elB (.mulh z .u w) z.isize w l k).toNat / 2 ^ z.isize.width) ∧
  (∀ z w, s.ready (.mulh z .s w) → s.gives (.mulh z .s w) z.isize w.d fun l k v =>
    v.toInt = (s.elA z.isize w.a l k).toInt * (s.elB (.mulh z .s w) z.isize w l k).toInt / 2 ^ z.isize.width) ∧
  (∀ z w, s.ready (.mad z w) → s.gives (.mad z w) z w.d fun l k v =>
    v = s.elA z w.a l k * s.elA z w.b l k + s.elA z w.c l k) ∧
  (∀ w, s.ready (.madw .s w) → s.writes (.madw .s w) 2 w.d fun l =>
    (s.word w.a l).signExtend 64 * (s.word w.b l).signExtend 64 + s.opnd .int 2 w.c l) ∧
  (∀ w, s.ready (.madw .u w) → s.writes (.madw .u w) 2 w.d fun l =>
    (s.word w.a l).setWidth 64 * (s.word w.b l).setWidth 64 + s.opnd .int 2 w.c l)

/-- R144, R152: quotients truncate toward zero, remainders take the dividend's sign; a zero divisor gives all ones and the dividend. -/
def Sys2Proof.Claims.IntegerQuotients : Prop := ∀ s : State,
  (∀ z w, s.ready (.div z .u w) → s.gives (.div z .u w) z.isize w.d fun l k v =>
    v = if s.elA z.isize w.b l k = 0 then BitVec.allOnes _ else s.elA z.isize w.a l k / s.elA z.isize w.b l k) ∧
  (∀ z w, s.ready (.div z .s w) → s.gives (.div z .s w) z.isize w.d fun l k v =>
    v = if s.elA z.isize w.b l k = 0 then BitVec.allOnes _ else (s.elA z.isize w.a l k).sdiv (s.elA z.isize w.b l k)) ∧
  (∀ z w, s.ready (.rem z .u w) → s.gives (.rem z .u w) z.isize w.d fun l k v =>
    v = if s.elA z.isize w.b l k = 0 then s.elA z.isize w.a l k else s.elA z.isize w.a l k % s.elA z.isize w.b l k) ∧
  (∀ z w, s.ready (.rem z .s w) → s.gives (.rem z .s w) z.isize w.d fun l k v =>
    v = if s.elA z.isize w.b l k = 0 then s.elA z.isize w.a l k else (s.elA z.isize w.a l k).srem (s.elA z.isize w.b l k))

/-- R150: sums and differences with a carry or a borrow, in and out; C bits 14, 13:11 and 10:8 are CIE, R and Q. -/
def Sys2Proof.Claims.CarryArithmetic : Prop := ∀ (s : State) (z : DSize) (w : BaseW),
  let q := w.c.toNat % 8
  let r := w.c.toNat / 8 % 8
  let ci (l : Nat) : Nat := if w.c.getLsbD 6 && (s.grp s.cur).pred q l then 1 else 0
  let a (l : Nat) : Nat := (s.elA z.isize w.a l 0).toNat
  let b (l : Nat) : Nat := (s.elA z.isize w.b l 0).toNat
  (s.ready (.addc z w) → completes (.addc z w) s (destRegs z.n w.d) (predR r) fun t => ∀ l, Mask.has (s.acting (.addc z w)) l = true →
    (inReg w.d = true → (t.dest s.cur z.n w.d l).toNat = (a l + b l + ci l) % 2 ^ z.width) ∧
    (r < 7 → (t.grp s.cur).pred r l = decide (2 ^ z.width ≤ a l + b l + ci l))) ∧
  (s.ready (.subb z w) → completes (.subb z w) s (destRegs z.n w.d) (predR r) fun t => ∀ l, Mask.has (s.acting (.subb z w)) l = true →
    (inReg w.d = true → ((t.dest s.cur z.n w.d l).toNat : Int) = ((a l : Int) - b l - ci l) % 2 ^ z.width) ∧
    (r < 7 → (t.grp s.cur).pred r l = decide (a l < b l + ci l)))

/-- R142-R144, R150: the arithmetic of integers: sums, products, quotients, and sums with a carry. -/
def Obligations.IntegerArithmetic : Prop :=
  Claims.IntegerSums ∧ Claims.IntegerProducts ∧ Claims.IntegerQuotients ∧ Claims.CarryArithmetic

/-- R145, R139: AND, OR, XOR, ANDN. -/
def Sys2Proof.Claims.IntegerLogic : Prop := ∀ s : State,
  (∀ z w, s.ready (.and z w) → s.gives (.and z w) z w.d fun l k v => v = s.elA z w.a l k &&& s.elB (.and z w) z w l k) ∧
  (∀ z w, s.ready (.or z w) → s.gives (.or z w) z w.d fun l k v => v = s.elA z w.a l k ||| s.elB (.or z w) z w l k) ∧
  (∀ z w, s.ready (.xor z w) → s.gives (.xor z w) z w.d fun l k v => v = s.elA z w.a l k ^^^ s.elB (.xor z w) z w l k) ∧
  (∀ z w, s.ready (.andn z w) → s.gives (.andn z w) z w.d fun l k v => v = s.elA z w.a l k &&& ~~~s.elB (.andn z w) z w l k) ∧
  (∀ z w, s.ready (.andI z w) → s.gives (.andI z w) z.isize w.d fun l k v =>
    v = s.elA z.isize w.a l k &&& elem z.isize k (w.imm.signExtend 64)) ∧
  (∀ z w, s.ready (.orI z w) → s.gives (.orI z w) z.isize w.d fun l k v =>
    v = s.elA z.isize w.a l k ||| elem z.isize k (w.imm.signExtend 64)) ∧
  (∀ z w, s.ready (.xorI z w) → s.gives (.xorI z w) z.isize w.d fun l k v =>
    v = s.elA z.isize w.a l k ^^^ elem z.isize k (w.imm.signExtend 64))

/-- R146, R137, R152: shifts, rotates and funnel shifts take their count modulo the width. -/
def Sys2Proof.Claims.IntegerShifts : Prop := ∀ s : State,
  (∀ z w, s.ready (.shl z w) → s.gives (.shl z w) z w.d fun l k v =>
    v = s.elA z w.a l k <<< (s.countB (.shl z w) z w l k % z.width)) ∧
  (∀ z w, s.ready (.shr z .l w) → s.gives (.shr z .l w) z w.d fun l k v =>
    v = s.elA z w.a l k >>> (s.countB (.shr z .l w) z w l k % z.width)) ∧
  (∀ z w, s.ready (.shr z .a w) → s.gives (.shr z .a w) z w.d fun l k v =>
    v = (s.elA z w.a l k).sshiftRight (s.countB (.shr z .a w) z w l k % z.width)) ∧
  (∀ z w, s.ready (.rot z .l w) → s.gives (.rot z .l w) z.isize w.d fun l k v =>
    v = (s.elA z.isize w.a l k).rotateLeft (s.countB (.rot z .l w) z.isize w l k)) ∧
  (∀ z w, s.ready (.rot z .r w) → s.gives (.rot z .r w) z.isize w.d fun l k v =>
    v = (s.elA z.isize w.a l k).rotateRight (s.countB (.rot z .r w) z.isize w l k)) ∧
  (∀ w, s.ready (.fshf .l w) → s.gives (.fshf .l w) .w w.d fun l _ v =>
    v = ((s.word w.a l ++ s.word w.b l) <<< ((s.word w.c l).toNat % 32)).extractLsb' 32 32) ∧
  (∀ w, s.ready (.fshf .r w) → s.gives (.fshf .r w) .w w.d fun l _ v =>
    v = ((s.word w.a l ++ s.word w.b l) >>> ((s.word w.c l).toNat % 32)).extractLsb' 0 32)

/-- R145, R146: logic and shifts. -/
def Obligations.IntegerLogicAndShifts : Prop :=
  Claims.IntegerLogic ∧ Claims.IntegerShifts

/-- R147: the smaller and the larger, counts of bits, reversal. -/
def Sys2Proof.Claims.IntegerSelection : Prop := ∀ s : State,
  (∀ z w, s.ready (.min z .u w) → s.gives (.min z .u w) z w.d fun l k v =>
    v.toNat = min (s.elA z w.a l k).toNat (s.elB (.min z .u w) z w l k).toNat) ∧
  (∀ z w, s.ready (.min z .s w) → s.gives (.min z .s w) z w.d fun l k v =>
    v.toInt = min (s.elA z w.a l k).toInt (s.elB (.min z .s w) z w l k).toInt) ∧
  (∀ z w, s.ready (.max z .u w) → s.gives (.max z .u w) z w.d fun l k v =>
    v.toNat = max (s.elA z w.a l k).toNat (s.elB (.max z .u w) z w l k).toNat) ∧
  (∀ z w, s.ready (.max z .s w) → s.gives (.max z .s w) z w.d fun l k v =>
    v.toInt = max (s.elA z w.a l k).toInt (s.elB (.max z .s w) z w l k).toInt) ∧
  (∀ z w, s.ready (.clz z w) → s.gives (.clz z w) z w.d fun l k v =>
    v.toNat ≤ z.width ∧ (∀ j, j < v.toNat → (s.elA z w.a l k).getMsbD j = false) ∧
    (v.toNat < z.width → (s.elA z w.a l k).getMsbD v.toNat = true)) ∧
  (∀ z w, s.ready (.ctz z w) → s.gives (.ctz z w) z w.d fun l k v =>
    v.toNat ≤ z.width ∧ (∀ j, j < v.toNat → (s.elA z w.a l k).getLsbD j = false) ∧
    (v.toNat < z.width → (s.elA z w.a l k).getLsbD v.toNat = true)) ∧
  (∀ z w, s.ready (.popc z w) → s.gives (.popc z w) z w.d fun l k v =>
    v.toNat = (List.range z.width).countP (s.elA z w.a l k).getLsbD) ∧
  (∀ z w, s.ready (.brev z w) → s.gives (.brev z w) z w.d fun l k v => v = (s.elA z w.a l k).reverse)

/-- R148, R152: bit fields and byte permutation; `p` is the position and `n` the length inside the word. -/
def Sys2Proof.Claims.IntegerFields : Prop := ∀ s : State,
  (∀ z w, s.ready (.bext z w) → s.gives (.bext z w) z.isize w.d fun l k v =>
    let c := s.countB (.bext z w) z.isize w l k
    let p := c % 256
    let n := min (c / 256 % 256) (z.isize.width - p)
    ∀ j, j < z.isize.width → v.getLsbD j = (decide (j < n) && (s.elA z.isize w.a l k).getLsbD (p + j))) ∧
  (∀ z w, s.ready (.bins z w) → s.gives (.bins z w) z.isize w.d fun l k v =>
    let c := (s.word w.c l).toNat
    let p := c % 256
    let n := min (c / 256 % 256) (z.isize.width - p)
    ∀ j, j < z.isize.width → v.getLsbD j =
      if p ≤ j ∧ j < p + n then (s.elA z.isize w.b l k).getLsbD (j - p) else (s.elA z.isize w.a l k).getLsbD j) ∧
  (∀ z w, s.ready (.ext z .u w) → s.gives (.ext z .u w) z.isize w.d fun l k v =>
    let m := s.countB (.ext z .u w) z.isize w l k % 256
    ∀ j, j < z.isize.width → v.getLsbD j = (decide (m = 0 ∨ j < m) && (s.elA z.isize w.a l k).getLsbD j)) ∧
  (∀ z w, s.ready (.ext z .s w) → s.gives (.ext z .s w) z.isize w.d fun l k v =>
    let m := s.countB (.ext z .s w) z.isize w l k % 256
    ∀ j, j < z.isize.width → v.getLsbD j = (s.elA z.isize w.a l k).getLsbD (if m = 0 ∨ j < m then j else m - 1)) ∧
  (∀ w, s.ready (.perm w) → s.gives (.perm w) .w w.d fun l _ v => ∀ j, j < 4 →
    let c := (s.word w.c l).extractLsb' (4 * j) 4
    let x := (s.word w.b l ++ s.word w.a l).extractLsb' (8 * (c.toNat % 8)) 8
    v.extractLsb' (8 * j) 8 = if c.getLsbD 3 then (if x.msb then 0xFF#8 else 0#8) else x)

/-- R147, R148: the smaller and the larger, counts, reversal, bit fields, byte permutation. -/
def Obligations.IntegerSelectionAndFields : Prop :=
  Claims.IntegerSelection ∧ Claims.IntegerFields

/-- R149: selection, moves, immediates and addresses. -/
def Sys2Proof.Claims.IntegerMoves : Prop := ∀ s : State,
  (∀ w, s.ready (.sel .d w) → s.gives (.sel .d w) .d w.d fun l k v =>
    v = if (s.grp s.cur).pred w.c.toNat l then s.elA .d w.a l k else s.elA .d w.b l k) ∧
  (∀ z w, z ≠ .d → s.ready (.sel z w) → s.gives (.sel z w) .w w.d fun l k v =>
    v = if (s.grp s.cur).pred w.c.toNat l then s.elA .w w.a l k else s.elA .w w.b l k) ∧
  (∀ z w, s.ready (.mov z w) → s.gives (.mov z w) z.isize w.d fun l k v => v = s.elA z.isize w.a l k) ∧
  (∀ w, s.ready (.li w) → s.writes (.li w) 1 w.d fun _ => w.imm.setWidth 64) ∧
  (∀ w, s.ready (.lih w) → completes (.lih w) s (if inReg w.d then [w.d.toNat + 1] else []) [] fun t =>
    inReg w.d = true → ∀ l, Mask.has (s.acting (.lih w)) l = true → (t.grp s.cur).rd l (w.d.toNat + 1) = w.imm) ∧
  (∀ z w, s.ready (.lea z w) → s.gives (.lea z w) z.isize w.d fun l k v =>
    v = s.elA z.isize w.a l k + (s.word w.b l).signExtend z.isize.width <<< (w.c.toNat % 8)) ∧
  (∀ z w, s.ready (.leaI z w) → s.gives (.leaI z w) z.isize w.d fun l k v =>
    v = s.elA z.isize w.a l k + elem z.isize k (w.imm.signExtend 64))

/-- R47, R48: what a source code supplies: a register, an even pair, or the inline integer n = code - 832 in the operand's format, exact in
every float format. -/
def Sys2Proof.Claims.OperandForms : Prop := ∀ (s : State) (c : BitVec 10) (l : Nat),
  (c.toNat < 768 → s.opnd .int 1 c l = ((s.grp s.cur).rd l c.toNat).setWidth 64) ∧
  (c.toNat < 768 → s.opnd .int 2 c l = pair64 ((s.grp s.cur).rd l (c.toNat + 1)) ((s.grp s.cur).rd l c.toNat)) ∧
  (768 ≤ c.toNat → c.toNat < 896 →
    s.opnd .int 1 c l = BitVec.ofInt 64 ((c.toNat : Int) - 832) ∧ s.opnd .int 2 c l = BitVec.ofInt 64 ((c.toNat : Int) - 832) ∧
    (∀ k, k < 2 → elem .h2 k (s.opnd (.pack 16) 1 c l) = BitVec.ofInt 16 ((c.toNat : Int) - 832)) ∧
    (∀ k, k < 4 → elem .b4 k (s.opnd (.pack 8) 1 c l) = BitVec.ofInt 8 ((c.toNat : Int) - 832)) ∧
    ∀ (f : FFmt) (k : Nat), k < f.count → ∃ n m e, f.fmt.dec ((s.fsrc f c).fel f l k) = .fin n m e ∧
      (if n then -(m : Int) else m) * 2 ^ e.toNat = ((c.toNat : Int) - 832) * 2 ^ (-e).toNat)

/-- R141: a destination carries the poison marks of its sources, and no other, the odd register of a pair too: integer results, `SEL` with
its predicate, sums with a carry, and float results that no enabled flag stops. `SEL`'s predicate marks it whichever source it takes
(DEDUCED: log entry 12). -/
def Sys2Proof.Claims.PoisonMarks : Prop := ∀ (s : State) (z : Sys2Proof.ISize) (y : DSize) (sg : Sgn) (dir : Dir) (sh : ShrKind) (f : FFmt) (w : BaseW),
  let g := s.grp s.cur
  let one (n : Nat) (c : BitVec 10) (l : Nat) : Bool := Mask.has (g.src .int n c).poi l
  let two (i : Instr) (n m : Nat) (l : Nat) : Bool :=
    one n w.a l || (if w.kf then Mask.has (s.windowed i).2.1.poi l else one m w.b l)
  let marks (i : Instr) (n : Nat) (d : BitVec 10) (m : Nat → Bool) : Prop := s.ready i →
    ∃ t, exec i s = .next t ∧ ∀ l, Mask.has (s.acting i) l = true → ∀ r ∈ destRegs n d, Mask.has ((t.grp s.cur).reg r).poison l = m l
  let quiet : Prop := ∀ l fl, enabledIn (s.thr s.cur l).fcsr fl = false
  (∀ i ∈ [Instr.add z w, .sub z w, .addsat z sg w, .subsat z sg w, .mul z w, .and z w, .or z w, .xor z w, .andn z w, .min z sg w, .max z sg w],
    marks i z.n w.d (two i z.n z.n)) ∧
  (∀ i ∈ [Instr.shl z w, .shr z sh w], marks i z.n w.d (two i z.n 1)) ∧
  (∀ i ∈ [Instr.rot y dir w, .bext y w, .ext y sg w], marks i y.n w.d (two i y.n 1)) ∧
  (∀ i ∈ [Instr.abs z w, .neg z w, .clz z w, .ctz z w, .popc z w, .brev z w], marks i z.n w.d (one z.n w.a)) ∧
  marks (.mulh y sg w) y.n w.d (two (.mulh y sg w) y.n y.n) ∧
  (∀ i ∈ [Instr.div y sg w, .rem y sg w], marks i y.n w.d fun l => one y.n w.a l || one y.n w.b l) ∧
  marks (.mad z w) z.n w.d (fun l => one z.n w.a l || one z.n w.b l || one z.n w.c l) ∧
  marks (.madw sg w) 2 w.d (fun l => one 1 w.a l || one 1 w.b l || one 2 w.c l) ∧
  (∀ i ∈ [Instr.fshf dir w, .perm w], marks i 1 w.d fun l => one 1 w.a l || one 1 w.b l || one 1 w.c l) ∧
  marks (.bins y w) y.n w.d (fun l => one y.n w.a l || one y.n w.b l || one 1 w.c l) ∧
  marks (.lea y w) y.n w.d (fun l => one y.n w.a l || one 1 w.b l) ∧
  (∀ v : ImmW, ∀ i ∈ [Instr.addI y v, .mulI y v, .andI y v, .orI y v, .xorI y v, .leaI y v], marks i y.n v.d (one y.n v.a)) ∧
  marks (.mov y w) y.n w.d (one y.n w.a) ∧
  (∀ v, marks (.li v) 1 v.d fun _ => false) ∧
  marks (.sel z w) z.n w.d (fun l => one z.n w.a l || one z.n w.b l || g.predPoi w.c.toNat l) ∧
  (∀ i ∈ [Instr.addc y w, .subb y w],
    marks i y.n w.d fun l => one y.n w.a l || one y.n w.b l || (w.c.getLsbD 6 && g.predPoi (w.c.toNat % 8) l)) ∧
  (∀ v, marks (.pget v) 1 v.d fun l => (List.range 7).any fun k => g.predPoi k l) ∧
  (quiet → (∀ i ∈ [Instr.fadd f w, .fsub f w, .fmul f w, .fdiv f w, .fmin f w, .fmax f w], marks i f.n w.d (two i f.n f.n)) ∧
    (∀ i ∈ [Instr.ffma f w, .ffms f w, .fnma f w], marks i f.n w.d fun l => one f.n w.a l || one f.n w.b l || one f.n w.c l) ∧
    (∀ i ∈ [Instr.fsqrt f w, .frnd f w], marks i f.n w.d (one f.n w.a)) ∧
    marks (.fsgn f w) f.n w.d fun l => one f.n w.a l || one f.n w.b l)

/-- R141: a predicate carries the poison marks of its sources: comparisons, with the combining predicate where it is read, operations on
predicates, and the carry of a sum. -/
def Sys2Proof.Claims.PredicatePoison : Prop := ∀ (s : State) (y : DSize) (sg : Sgn) (w : BaseW) (v : CtlW),
  let g := s.grp s.cur
  let one (n : Nat) (c : BitVec 10) (l : Nat) : Bool := Mask.has (g.src .int n c).poi l
  let marks (i : Instr) (p : Nat) (m : Nat → Bool) : Prop := s.ready i → p < 7 →
    ∃ t, exec i s = .next t ∧ ∀ l, Mask.has (s.acting i) l = true → (t.grp s.cur).predPoi p l = m l
  let opc := w.c.toNat / 256
  let q := w.c.toNat / 32 % 8
  marks (.cmp y sg w) w.d.toNat (fun l => one y.n w.a l || one y.n w.b l || (opc != 0 && g.predPoi q l)) ∧
  (∀ i ∈ [Instr.pand v, .por v, .pxor v, .pandn v], marks i v.d.toNat fun l => g.predPoi v.a.toNat l || g.predPoi v.b.toNat l) ∧
  (marks (.pset v) v.d.toNat fun l => one 1 v.a l || (if v.kf then Mask.has (s.windowed (.pset v)).2.1.poi l else one 1 v.b l)) ∧
  (∀ i ∈ [Instr.addc y w, .subb y w],
    marks i (w.c.toNat / 8 % 8) fun l => one y.n w.a l || one y.n w.b l || (w.c.getLsbD 6 && g.predPoi (w.c.toNat % 8) l))

/-- R18-R21: the shape tags of a group of a SIMT core: what a write that reaches every non-exited thread leaves, and that any other write
leaves tag G and the values of the other threads. Code 0 is U, 1 is A, 2 is G. -/
def Sys2Proof.Claims.ShapeTags : Prop := ∀ (s : State) (w : BaseW), (s.grp s.cur).single = false → w.kf = false →
  inReg w.d = true → inReg w.a = true → inReg w.b = true →
  let g := s.grp s.cur
  let sh (r : BitVec 10) (k : Nat) : Shaped := (g.reg (r.toNat + k)).sh
  let whole (i : Instr) (P : Shaped → Prop) : Prop := s.ready i → s.acting i = g.live →
    ∃ t, exec i s = .next t ∧ P ((t.grp s.cur).reg w.d.toNat).sh
  let pair (i : Instr) (code : Nat) : Prop := s.ready i → s.acting i = g.live →
    ∃ t, exec i s = .next t ∧ ((t.grp s.cur).reg w.d.toNat).sh.code = code ∧ ((t.grp s.cur).reg (w.d.toNat + 1)).sh.code = code
  let arith : List Instr := [.add .w w, .sub .w w, .mul .w w, .shl .w w]
  let others : List Instr := [.and .w w, .or .w w, .xor .w w, .andn .w w, .add .h2 w, .add .b4 w, .shr .w .l w, .min .w .s w, .max .w .u w]
  let wide : List Instr := [.add .d w, .sub .d w, .and .d w, .mul .d w]
  ((sh w.a 0).code = 0 → (sh w.b 0).code = 0 → ∀ i ∈ arith ++ others, whole i fun x => x.code = 0) ∧
  (∀ x p y q, sh w.a 0 = .a x p → sh w.b 0 = .a y q →
    whole (.add .w w) (· = .a (x + y) (p + q)) ∧ whole (.sub .w w) (· = .a (x - y) (p - q))) ∧
  (∀ x p y, sh w.a 0 = .a x p → sh w.b 0 = .u y →
    whole (.add .w w) (· = .a (x + y) p) ∧ whole (.sub .w w) (· = .a (x - y) p) ∧ whole (.mul .w w) (· = .a (x * y) (p * y)) ∧
    whole (.shl .w w) (· = .a (x <<< (y.toNat % 32)) (p <<< (y.toNat % 32)))) ∧
  (∀ x y q, sh w.a 0 = .u x → sh w.b 0 = .a y q →
    whole (.add .w w) (· = .a (x + y) q) ∧ whole (.sub .w w) (· = .a (x - y) (0#32 - q)) ∧ whole (.mul .w w) (· = .a (x * y) (x * q)) ∧
    whole (.shl .w w) fun z => z.code = 2) ∧
  ((sh w.a 0).code = 2 ∨ (sh w.b 0).code = 2 → ∀ i ∈ arith ++ others, whole i fun x => x.code = 2) ∧
  ((sh w.a 0).code = 1 ∨ (sh w.b 0).code = 1 → ∀ i ∈ others, whole i fun x => x.code = 2) ∧
  (whole (.mov .w w) fun x => x.code = (sh w.a 0).code ∧ ∀ b p, sh w.a 0 = .a b p → x = .a b p) ∧
  ((∀ k, k < 2 → (sh w.a k).code = 0 ∧ (sh w.b k).code = 0) → ∀ i ∈ wide, pair i 0) ∧
  ((∃ k, k < 2 ∧ ((sh w.a k).code ≠ 0 ∨ (sh w.b k).code ≠ 0)) → ∀ i ∈ wide, pair i 2) ∧
  (∀ i ∈ (Instr.mov .w w) :: arith ++ others, s.ready i → s.acting i ≠ 0#64 → s.acting i ≠ g.live →
    ∃ t, exec i s = .next t ∧ ((t.grp s.cur).reg w.d.toNat).sh.code = 2 ∧
      ∀ l, l < 64 → Mask.has (s.acting i) l = false → (t.grp s.cur).rd l w.d.toNat = g.rd l w.d.toNat) ∧
  (∀ sg, w.c.toNat / 256 = 0 → w.d.toNat < 7 → s.ready (.cmp .w sg w) → s.acting (.cmp .w sg w) ≠ 0#64 →
    ∃ t, exec (.cmp .w sg w) s = .next t ∧
      ((t.grp s.cur).predUni w.d.toNat = true ↔ s.acting (.cmp .w sg w) = g.live ∧ (sh w.a 0).code = 0 ∧ (sh w.b 0).code = 0))

/-- R18-R21, R48, R141, R149: moves, what a source code supplies, how poison marks spread over registers and predicates, and the shape
tags of results. The model's choices in it: log entries 12, 17. -/
def Obligations.MovesOperandsPoison : Prop :=
  Claims.IntegerMoves ∧ Claims.OperandForms ∧ Claims.PoisonMarks ∧ Claims.PredicatePoison ∧ Claims.ShapeTags

/-- R151: comparison, signed or unsigned, with a combining predicate; C bits 17:16, 15:13 and 10:8 are OPC, Q and REL. -/
def Sys2Proof.Claims.IntegerCompare : Prop := ∀ (s : State) (z : DSize) (w : BaseW),
  let rel := w.c.toNat % 8
  let q := w.c.toNat / 32 % 8
  let opc := w.c.toNat / 256
  (s.ready (.cmp z .u w) → s.decides (.cmp z .u w) w.d fun l =>
    combined opc (relation rel ((s.elA z.isize w.a l 0).ult (s.elA z.isize w.b l 0)) (s.elA z.isize w.a l 0 == s.elA z.isize w.b l 0))
      ((s.grp s.cur).pred q l)) ∧
  (s.ready (.cmp z .s w) → s.decides (.cmp z .s w) w.d fun l =>
    combined opc (relation rel ((s.elA z.isize w.a l 0).slt (s.elA z.isize w.b l 0)) (s.elA z.isize w.a l 0 == s.elA z.isize w.b l 0))
      ((s.grp s.cur).pred q l))

/-- R153: operations on predicates, and between predicates and registers. -/
def Sys2Proof.Claims.PredicateOps : Prop := ∀ (s : State) (w : CtlW),
  let p (c : BitVec 10) (l : Nat) : Bool := (s.grp s.cur).pred c.toNat l
  (s.ready (.pand w) → s.decides (.pand w) w.d fun l => p w.a l && p w.b l) ∧
  (s.ready (.por w) → s.decides (.por w) w.d fun l => p w.a l || p w.b l) ∧
  (s.ready (.pxor w) → s.decides (.pxor w) w.d fun l => p w.a l ^^ p w.b l) ∧
  (s.ready (.pandn w) → s.decides (.pandn w) w.d fun l => p w.a l && !p w.b l) ∧
  (s.ready (.pset w) → s.decides (.pset w) w.d fun l =>
    s.word w.a l &&& ((if w.kf then (s.windowed (.pset w)).2.1.val l else s.opnd .int 1 w.b l).setWidth 32) != 0#32) ∧
  (s.ready (.pget w) → s.puts (.pget w) 1 w.d fun l x => ∀ k, k < 32 → x.getLsbD k = (decide (k < 8) && (s.grp s.cur).pred k l))

/-- R151, R153: integer comparison and the operations on predicates. -/
def Obligations.ComparesAndPredicates : Prop :=
  Claims.IntegerCompare ∧ Claims.PredicateOps

/-! ### Float instructions -/

/-- R154, R155, R157-R160, R162: float arithmetic in every format, with its flags. -/
def Sys2Proof.Claims.FloatInstructions : Prop := ∀ s : State,
  (∀ f w, s.ready (.fadd f w) → s.floatsTo (.fadd f w) f w.d [s.fsrc f w.a, s.fsrcB (.fadd f w) f w] fun l k =>
    f.fmt.add (s.rm w l) (s.fz l) ((s.fsrc f w.a).fel f l k) ((s.fsrcB (.fadd f w) f w).fel f l k)) ∧
  (∀ f w, s.ready (.fsub f w) → s.floatsTo (.fsub f w) f w.d [s.fsrc f w.a, s.fsrcB (.fsub f w) f w] fun l k =>
    f.fmt.sub (s.rm w l) (s.fz l) ((s.fsrc f w.a).fel f l k) ((s.fsrcB (.fsub f w) f w).fel f l k)) ∧
  (∀ f w, s.ready (.fmul f w) → s.floatsTo (.fmul f w) f w.d [s.fsrc f w.a, s.fsrcB (.fmul f w) f w] fun l k =>
    f.fmt.mul (s.rm w l) (s.fz l) ((s.fsrc f w.a).fel f l k) ((s.fsrcB (.fmul f w) f w).fel f l k)) ∧
  (∀ f w, s.ready (.fdiv f w) → s.floatsTo (.fdiv f w) f w.d [s.fsrc f w.a, s.fsrcB (.fdiv f w) f w] fun l k =>
    f.fmt.div (s.rm w l) (s.fz l) ((s.fsrc f w.a).fel f l k) ((s.fsrcB (.fdiv f w) f w).fel f l k)) ∧
  (∀ f w, s.ready (.ffma f w) → s.floatsTo (.ffma f w) f w.d [s.fsrc f w.a, s.fsrc f w.b, s.fsrc f w.c] fun l k =>
    f.fmt.fma (s.rm w l) (s.fz l) false false ((s.fsrc f w.a).fel f l k) ((s.fsrc f w.b).fel f l k) ((s.fsrc f w.c).fel f l k)) ∧
  (∀ f w, s.ready (.ffms f w) → s.floatsTo (.ffms f w) f w.d [s.fsrc f w.a, s.fsrc f w.b, s.fsrc f w.c] fun l k =>
    f.fmt.fma (s.rm w l) (s.fz l) false true ((s.fsrc f w.a).fel f l k) ((s.fsrc f w.b).fel f l k) ((s.fsrc f w.c).fel f l k)) ∧
  (∀ f w, s.ready (.fnma f w) → s.floatsTo (.fnma f w) f w.d [s.fsrc f w.a, s.fsrc f w.b, s.fsrc f w.c] fun l k =>
    f.fmt.fma (s.rm w l) (s.fz l) true false ((s.fsrc f w.a).fel f l k) ((s.fsrc f w.b).fel f l k) ((s.fsrc f w.c).fel f l k)) ∧
  (∀ f w, s.ready (.fsqrt f w) → s.floatsTo (.fsqrt f w) f w.d [s.fsrc f w.a] fun l k =>
    f.fmt.sqrt (s.rm w l) (s.fz l) ((s.fsrc f w.a).fel f l k)) ∧
  (∀ f w, s.ready (.frnd f w) → s.floatsTo (.frnd f w) f w.d [s.fsrc f w.a] fun l k =>
    f.fmt.rnd (s.rm w l) (s.fz l) ((s.fsrc f w.a).fel f l k)) ∧
  (∀ f w, s.ready (.fscale f w) →
    let b := (s.grp s.cur).srcB (if f.packed then .pack 16 else .int) 1 w (s.windowed (.fscale f w)).2.1
    s.floatsTo (.fscale f w) f w.d [s.fsrc f w.a, b] fun l k =>
      f.fmt.scale (s.rm w l) (s.fz l) ((s.fsrc f w.a).fel f l k)
        (if f.packed then (elem .h2 k (b.val l)).toInt else ((b.val l).setWidth 32).toInt)) ∧
  (∀ f w, s.ready (.fmin f w) → s.floatsTo (.fmin f w) f w.d [s.fsrc f w.a, s.fsrcB (.fmin f w) f w] fun l k =>
    f.fmt.minmax false (s.fz l) ((s.fsrc f w.a).fel f l k) ((s.fsrcB (.fmin f w) f w).fel f l k)) ∧
  (∀ f w, s.ready (.fmax f w) → s.floatsTo (.fmax f w) f w.d [s.fsrc f w.a, s.fsrcB (.fmax f w) f w] fun l k =>
    f.fmt.minmax true (s.fz l) ((s.fsrc f w.a).fel f l k) ((s.fsrcB (.fmax f w) f w).fel f l k)) ∧
  (∀ f w, s.ready (.fsgn f w) → s.floatsTo (.fsgn f w) f w.d [s.fsrc f w.a, s.fsrc f w.b] fun l k =>
    (f.fmt.sgn (w.c.toNat % 4) ((s.fsrc f w.a).fel f l k) ((s.fsrc f w.b).fel f l k), 0#32)) ∧
  (∀ w, s.ready (.fdot2 w) → s.floatsTo (.fdot2 w) .f32 w.d [s.fsrc .b2 w.a, s.fsrc .b2 w.b, s.fsrc .f32 w.c] fun l _ =>
    dot2 (s.rm w l) (s.fz l) ((s.fsrc .b2 w.a).fel .b2 l 0) ((s.fsrc .b2 w.b).fel .b2 l 0) ((s.fsrc .b2 w.a).fel .b2 l 1)
      ((s.fsrc .b2 w.b).fel .b2 l 1) ((s.fsrc .f32 w.c).fel .f32 l 0))

/-- R101, R102, R105, R157, R158: sums, products, quotients, square roots, scalings and integral values deliver the rounding of the exact
value, in every mode. -/
def Sys2Proof.Claims.FloatValues : Prop := ∀ (f : FFmt) (rm : Nat) (fz : Bool) (x y z : Nat) (n k j : Bool) (m p r : Nat) (e g h : Int), rm ≤ 4 →
  let F := f.fmt
  F.decZ fz x = .fin n m e → F.decZ fz y = .fin k p g → F.decZ fz z = .fin j r h →
  -- the exact sum of two numbers, each with its sign
  let sum (a : Bool) (m : Nat) (e : Int) (b : Bool) (p : Nat) (g : Int) (v : Nat × Flags) : Prop :=
    let u : Int := (m * 2 ^ (e - g).toNat : Nat)
    let w : Int := (p * 2 ^ (g - e).toNat : Nat)
    let t : Int := (if a then -u else u) + (if b then -w else w)
    t ≠ 0 → F.delivers rm fz false (decide (t < 0)) (Exact.dyadic t.natAbs (min e g)) v
  sum n m e k p g (F.add rm fz x y) ∧ sum n m e (!k) p g (F.sub rm fz x y) ∧
  (m * p ≠ 0 → F.delivers rm fz false (n ^^ k) (Exact.dyadic (m * p) (e + g)) (F.mul rm fz x y)) ∧
  (m * p = 0 → F.mul rm fz x y = (F.signBit (n ^^ k), 0#32)) ∧
  (∀ np nc, sum ((n ^^ k) ^^ np) (m * p) (e + g) (j ^^ nc) r h (F.fma rm fz np nc x y z)) ∧
  (m ≠ 0 → p ≠ 0 → F.delivers rm fz false (n ^^ k) (Exact.quotient m p (e - g)) (F.div rm fz x y)) ∧
  (m ≠ 0 → n = false → F.delivers rm fz false false (Exact.root m e) (F.sqrt rm fz x)) ∧
  (∀ i : Int, m ≠ 0 → F.delivers rm fz false n (Exact.dyadic m (e + i)) (F.scale rm fz x i)) ∧
  (∃ c, Exact.chooses (Exact.dyadic m e) rm n 0 c ∧ F.holds (F.rnd rm fz x).1 n c 0 ∧
    (F.rnd rm fz x).2 = if Exact.dyadic m e c 0 = .eq then 0#32 else fNX)

/-- R117, R162: `FDOT2` rounds the exact sum of two products and an addend once. -/
def Sys2Proof.Claims.FloatDot : Prop := ∀ (rm : Nat) (fz : Bool) (a0 b0 a1 b1 c : Nat) (n0 k0 n1 k1 j : Bool) (m0 p0 m1 p1 r : Nat)
    (e0 g0 e1 g1 h : Int), rm ≤ 4 →
  BF16.decZ fz a0 = .fin n0 m0 e0 → BF16.decZ fz b0 = .fin k0 p0 g0 → BF16.decZ fz a1 = .fin n1 m1 e1 → BF16.decZ fz b1 = .fin k1 p1 g1 →
  F32.decZ fz c = .fin j r h →
  let lo := min (min (e0 + g0) (e1 + g1)) h
  let term (s : Bool) (m : Nat) (e : Int) : Int := let v : Int := (m * 2 ^ (e - lo).toNat : Nat); if s then -v else v
  let t := term (n0 ^^ k0) (m0 * p0) (e0 + g0) + term (n1 ^^ k1) (m1 * p1) (e1 + g1) + term j r h
  t ≠ 0 → F32.delivers rm fz false (decide (t < 0)) (Exact.dyadic t.natAbs lo) (dot2 rm fz a0 b0 a1 b1 c)

/-- R104: on a latency core a flag that is raised and enabled is ORed into `s.fcsr`, no destination is written, and the thread traps with
cause 0x38. -/
def Sys2Proof.Claims.FloatTraps : Prop := ∀ (s : State) (n : Nat) (f : FFmt) (w : BaseW), s.alone n →
  let rm := s.rm w 0
  let fz := s.fz 0
  let a (k : Nat) : Nat := (s.fsrc f w.a).fel f 0 k
  let b (k : Nat) : Nat := (s.fsrc f w.b).fel f 0 k
  let c (k : Nat) : Nat := (s.fsrc f w.c).fel f 0 k
  let kb (i : Instr) (k : Nat) : Nat := (s.fsrcB i f w).fel f 0 k
  let traps (i : Instr) (srcs : List Src) (r : Nat → Flags) : Prop :=
    let fl := s.raised i srcs (fun _ => (List.range f.count).foldl (fun x k => x ||| r k) 0#32) 0
    let m := s.opened i
    ∀ hw, s.ready i → Mask.has (s.acting i) 0 = true → enabledIn (s.thr (.lc n) 0).fcsr fl = true → m.headerAt n (s.lc n).tvec hw →
      (s.lc n).tvec.toNat % 8 = 0 →
      ∃ t, exec i s = .next t ∧ m.trapped t n false 0x38 0#64 (s.thr (.lc n) 0).pc (s.thr (.lc n) 0).hoff hw ∧
        (t.thr (.lc n) 0).fcsr = orFlags (s.thr (.lc n) 0).fcsr fl
  let two (i : Instr) (op : Nat → Bool → Nat → Nat → Nat × Flags) : Prop :=
    traps i [s.fsrc f w.a, s.fsrcB i f w] fun k => (op rm fz (a k) (kb i k)).2
  two (.fadd f w) f.fmt.add ∧ two (.fsub f w) f.fmt.sub ∧ two (.fmul f w) f.fmt.mul ∧ two (.fdiv f w) f.fmt.div ∧
  (traps (.ffma f w) [s.fsrc f w.a, s.fsrc f w.b, s.fsrc f w.c] fun k => (f.fmt.fma rm fz false false (a k) (b k) (c k)).2) ∧
  (traps (.fsqrt f w) [s.fsrc f w.a] fun k => (f.fmt.sqrt rm fz (a k)).2) ∧
  (traps (.frnd f w) [s.fsrc f w.a] fun k => (f.fmt.rnd rm fz (a k)).2)

/-- R101-R105, R154-R160, R162: float arithmetic: the instructions, the numbers that they deliver, the trap of an enabled flag. -/
def Obligations.FloatArithmetic : Prop :=
  Claims.FloatInstructions ∧ Claims.FloatValues ∧ Claims.FloatDot ∧ Claims.FloatTraps

/-- R98: the special encodings of the formats, and their largest finite values. -/
def Sys2Proof.Claims.FloatEncodings : Prop :=
  ([F64, F32, F16, BF16, E5M2].map fun F => (F.inf false, F.inf true, F.nan)) =
    [(0x7FF0000000000000, 0xFFF0000000000000, 0x7FF8000000000000), (0x7F800000, 0xFF800000, 0x7FC00000), (0x7C00, 0xFC00, 0x7E00),
      (0x7F80, 0xFF80, 0x7FC0), (0x7C, 0xFC, 0x7E)] ∧
  E4M3.nan = 0x7F ∧ E4M3.max false = 0x7E ∧ E4M3.holds 0x7E false 448 0 ∧ E5M2.holds (E5M2.max false) false 57344 0 ∧
  E2M1.holds (E2M1.max false) false 6 0 ∧ F32.holds (F32.max false) false 0xFFFFFF 104 ∧ E4M3.dec 0x7F = .nan false ∧ E4M3.dec 0xFF = .nan false ∧
  (∀ f : FFmt, ∀ v, (f.fmt.dec v).isSnan = true ↔ v / 2 ^ f.fmt.mb % 2 ^ f.fmt.eb = 2 ^ f.fmt.eb - 1 ∧ v % 2 ^ f.fmt.mb ≠ 0 ∧
    v.testBit (f.fmt.mb - 1) = false)

/-- R159-R161: the order of two values, the smaller and the larger of them, their relations, and the classes of encodings. -/
def Sys2Proof.Claims.FloatOrder : Prop := ∀ (f : FFmt) (fz : Bool) (x y : Nat),
  let F := f.fmt
  let a := F.decZ fz x
  let b := F.decZ fz y
  let o := a.order b
  let nv : Flags := if a.isSnan || b.isSnan then fNV else 0#32
  let flushed (v : Nat) (d : FV) : Nat := if d.isZero then F.signBit d.neg else v
  (∀ rel, rel < 8 → F.cmp rel fz x y =
    (relates rel o, if 2 ≤ rel ∧ rel ≤ 5 ∧ o = none then fNV else nv)) ∧
  (∀ mx, F.minmax mx fz x y = ((
    if a.isNan = true ∧ b.isNan = true then F.nan
    else if a.isNan = true then flushed y b
    else if b.isNan = true then flushed x a
    else if o = some (if mx then .lt else .gt) ∨ (a.isZero = true ∧ b.isZero = true ∧ a.neg = mx ∧ b.neg = !mx) then flushed y b else flushed x a), nv)) ∧
  (let s := x.testBit (F.eb + F.mb)
   let e := x / 2 ^ F.mb % 2 ^ F.eb
   let m := x % 2 ^ F.mb
   F.cls x = 2 ^ (
    if e = 2 ^ F.eb - 1 then (if m = 0 then (if s then 0 else 7) else if m < 2 ^ (F.mb - 1) then 8 else 9)
    else if e = 0 then (if m = 0 then (if s then 3 else 4) else if s then 2 else 5)
    else if s then 1 else 6))

/-- R163, R164: the special and the exact cases of the special functions, the bounds of `FRCP` and `FRSQ`, and NX wherever a finite input is no
exact case. -/
def Sys2Proof.Claims.SpecialValues : Prop := ∀ (fz : Bool) (x : Nat),
  let v := F32.decZ fz x
  let r (fn : Nat) : Nat × Flags := special32 fn fz x
  let one : Nat := 0x3F800000
  (∀ sg, v = .nan sg → ∀ fn, fn < 7 → r fn = (F32.nan, if sg then fNV else 0#32)) ∧
  (∀ n, v = .inf n → r 0 = (F32.signBit n, 0#32) ∧ r 1 = (if n then (F32.nan, fNV) else (0, 0#32)) ∧
    r 2 = (if n then 0 else F32.inf false, 0#32) ∧ r 3 = (if n then (F32.nan, fNV) else (F32.inf false, 0#32)) ∧
    r 4 = (F32.nan, fNV) ∧ r 5 = (F32.nan, fNV) ∧ r 6 = (F32.signBit n + one, 0#32)) ∧
  (∀ n e, v = .fin n 0 e → r 0 = (F32.inf n, fDZ) ∧ r 1 = (F32.inf n, fDZ) ∧ r 2 = (one, 0#32) ∧ r 3 = (F32.inf true, fDZ) ∧
    r 4 = (F32.signBit n, 0#32) ∧ r 5 = (one, 0#32) ∧ r 6 = (F32.signBit n, 0#32)) ∧
  (∀ n m e, v = .fin n m e → m ≠ 0 →
    let mag := Exact.dyadic m e
    let inexact (fn : Nat) : Prop := (r fn).2.getLsbD 4 = true
    (n = true → r 1 = (F32.nan, fNV) ∧ r 3 = (F32.nan, fNV)) ∧
    (n = false → mag 128 0 ≠ .lt → r 2 = (F32.inf false, fOF ||| fNX)) ∧ (n = true → mag 150 0 = .gt → r 2 = (0, fUF ||| fNX)) ∧
    (mag 10 0 ≠ .lt → r 6 = (F32.signBit n + one, fNX)) ∧
    (∀ k, mag 1 k = .eq → F32.delivers 0 fz false n (Exact.dyadic 1 (-k)) (r 0)) ∧
    (∀ k, mag 1 (2 * k) = .eq → n = false → F32.delivers 0 fz false false (Exact.dyadic 1 (-k)) (r 1)) ∧
    (∀ i : Int, mag i.natAbs 0 = .eq → decide (i < 0) = n → -149 ≤ i → i ≤ 127 → F32.delivers 0 fz false false (Exact.dyadic 1 i) (r 2)) ∧
    (∀ k, mag 1 k = .eq → n = false → (k = 0 → r 3 = (0, 0#32)) ∧
      (k ≠ 0 → F32.delivers 0 fz false (decide (k < 0)) (Exact.dyadic k.natAbs 0) (r 3))) ∧
    (∀ h, mag h (-1) = .eq →
      r 4 = (if h % 2 = 0 then F32.signBit n else F32.signBit (n ^^ (h % 4 == 3)) + one, 0#32) ∧
      r 5 = (if h % 2 = 0 then F32.signBit (h % 4 == 2) + one else 0, 0#32)) ∧
    ((∀ k, mag 1 k ≠ .eq) → inexact 0 ∧ (n = false → inexact 3)) ∧ (n = false → (∀ k, mag 1 (2 * k) ≠ .eq) → inexact 1) ∧
    ((∀ i, mag i 0 ≠ .eq) → inexact 2) ∧ ((∀ h, mag h (-1) ≠ .eq) → inexact 4 ∧ inexact 5) ∧ inexact 6 ∧
    Exact.within (Exact.quotient 1 m (-e)) 1 n fz (r 0) ∧ (n = false → Exact.within (Exact.rroot m e) 1 false fz (r 1)))

/-- R107-R110: the numbers that conversions deliver: between float formats, to and from integers, and to MX blocks. -/
def Sys2Proof.Claims.ConversionValues : Prop := ∀ (rm : Nat) (fz : Bool), rm ≤ 4 →
  (∀ (f : FFmt) (dst : Fmt) (sat : Bool) (x : Nat), dst ∈ [F64, F32, F16, BF16, E5M2, E4M3] →
    let v := f.fmt.decZ fz x
    let r := convFF f.fmt dst rm fz sat x
    (∀ n m e, v = .fin n m e → m ≠ 0 → dst.delivers rm (fz && decide (16 ≤ dst.bits)) sat n (Exact.dyadic m e) r) ∧
    (∀ n e, v = .fin n 0 e → r = (dst.signBit n, 0#32)) ∧
    (∀ sg, v = .nan sg → r = (dst.nan, if sg then fNV else 0#32)) ∧
    (∀ n, v = .inf n → r = if dst = E4M3 then (if sat then (E4M3.max n, fSAT) else (E4M3.nan, fNV)) else (dst.inf n, 0#32))) ∧
  (∀ (F : Fmt) (w : Nat) (signed : Bool) (x : Nat), F = F32 ∨ F = F64 → w = 32 ∨ w = 64 →
    let lo : Int := if signed then -(2 ^ (w - 1)) else 0
    let hi : Int := if signed then 2 ^ (w - 1) - 1 else 2 ^ w - 1
    let out (i : Int) (fl : Flags) : Prop := convFI F w signed rm fz x = ((i % 2 ^ w).toNat, fl)
    (∀ n m e, F.decZ fz x = .fin n m e → ∃ c : Nat, Exact.chooses (Exact.dyadic m e) rm n 0 c ∧
      let i : Int := if n then -c else c
      (lo ≤ i → i ≤ hi → out i (if Exact.dyadic m e c 0 = .eq then 0#32 else fNX)) ∧ (hi < i → out hi fNV) ∧ (i < lo → out lo fNV)) ∧
    (∀ n, F.decZ fz x = .inf n → out (if n then lo else hi) fNV) ∧ (∀ sg, F.decZ fz x = .nan sg → out 0 fNV)) ∧
  (∀ (F : Fmt) (w : Nat) (signed : Bool) (x : Nat), F = F32 ∨ F = F64 → w = 32 ∨ w = 64 → x < 2 ^ w →
    let i : Int := if signed = true ∧ 2 ^ (w - 1) ≤ x then x - 2 ^ w else x
    (i = 0 → convIF F w signed rm fz x = (0, 0#32)) ∧
    (i ≠ 0 → F.delivers rm fz false (decide (i < 0)) (Exact.dyadic i.natAbs 0) (convIF F w signed rm fz x))) ∧
  (∀ (F : Fmt) (emax : Int) (vs : List Nat), (F, emax) ∈ [(E4M3, (8 : Int)), (E5M2, 15), (E2M1, 2)] → vs.length = 32 →
    let ds := vs.map (F32.decZ fz)
    let out := mxQuantise F fz vs
    ((∃ d ∈ ds, d.isNan = true ∨ d.isInf = true) → out = (0xFF, List.replicate 32 0, fNV)) ∧
    ((∀ d ∈ ds, d.isNan = false ∧ d.isInf = false) → ∃ (X : Int) (fls : Nat → Flags),
      ((∀ d ∈ ds, d.isZero = true) → X = -127) ∧
      (∀ t : Int, (∃ d ∈ ds, ∃ n m e, d = .fin n m e ∧ Exact.dyadic m e 1 t ≠ .lt) →
        (∀ d ∈ ds, ∀ n m e, d = .fin n m e → Exact.dyadic m e 1 (t + 1) = .lt) → X = max (-127) (min 127 (t - emax))) ∧
      out.1 = (X + 127).toNat ∧ out.2.1.length = 32 ∧
      (∀ i n m e, ds[i]? = some (.fin n m e) →
        (m = 0 → out.2.1[i]? = some (F.signBit n) ∧ fls i = 0#32) ∧
        (m ≠ 0 → ∃ p, out.2.1[i]? = some p ∧ F.delivers 0 false true n (Exact.dyadic m (e - X)) (p, fls i))) ∧
      out.2.2 = if (List.range 32).any fun i => (fls i).getLsbD 6 then fSAT else 0#32))

/-- R161: `FCMP` compares every element, selects with HSEL and combines with OPC; `FCLASS` gives the class mask of every element. -/
def Sys2Proof.Claims.FloatCompare : Prop := ∀ (s : State) (f : FFmt) (w : BaseW),
  (s.ready (.fcmp f w) →
    let opc := w.c.toNat / 256
    let q := w.c.toNat / 32 % 8
    let hs := w.c.toNat / 8 % 4
    let c (l k : Nat) : Bool × Flags := f.fmt.cmp (w.c.toNat % 8) (s.fz l) ((s.fsrc f w.a).fel f l k) ((s.fsrc f w.b).fel f l k)
    let r (l : Nat) : Bool :=
      if f.packed then (match hs with
        | 0 => (c l 0).1 && (c l 1).1
        | 1 => (c l 0).1 || (c l 1).1
        | 2 => (c l 0).1
        | _ => (c l 1).1)
      else (c l 0).1
    s.floatsAs (exec (.fcmp f w) s) (.fcmp f w) [s.fsrc f w.a, s.fsrc f w.b, (s.grp s.cur).qsrc opc q]
      (fun l => (List.range f.count).foldl (fun a k => a ||| (c l k).2) 0#32) [] (destPred w.d) fun t =>
        w.d.toNat < 7 → ∀ l, Mask.has (s.acting (.fcmp f w)) l = true →
          (t.grp s.cur).pred w.d.toNat l = combined opc (r l) ((s.grp s.cur).pred q l)) ∧
  (s.ready (.fclass f w) →
    s.floatsAs (exec (.fclass f w) s) (.fclass f w) [s.fsrc f w.a] (fun _ => 0#32) (destRegs 1 w.d) [] fun t =>
      inReg w.d = true → ∀ l, Mask.has (s.acting (.fclass f w)) l = true →
        (t.dest s.cur 1 w.d l).toNat = ((List.range f.count).map fun k => f.fmt.cls ((s.fsrc f w.a).fel f l k) * 2 ^ (16 * k)).sum)

/-- R163: the special functions, in binary32 or through it. -/
def Sys2Proof.Claims.FloatSpecialFunctions : Prop := ∀ (s : State) (f : SFmt) (w : BaseW),
  let r (fn l k : Nat) : Nat × Flags :=
    if f.ffmt.packed then special16 f.ffmt.fmt fn (s.fz l) ((s.fsrc f.ffmt w.a).fel f.ffmt l k)
    else special32 fn (s.fz l) ((s.fsrc f.ffmt w.a).fel f.ffmt l k)
  (s.ready (.frcp f w) → s.floatsTo (.frcp f w) f.ffmt w.d [s.fsrc f.ffmt w.a] (r 0)) ∧
  (s.ready (.frsq f w) → s.floatsTo (.frsq f w) f.ffmt w.d [s.fsrc f.ffmt w.a] (r 1)) ∧
  (s.ready (.fexp2 f w) → s.floatsTo (.fexp2 f w) f.ffmt w.d [s.fsrc f.ffmt w.a] (r 2)) ∧
  (s.ready (.flog2 f w) → s.floatsTo (.flog2 f w) f.ffmt w.d [s.fsrc f.ffmt w.a] (r 3)) ∧
  (s.ready (.fsin f w) → s.floatsTo (.fsin f w) f.ffmt w.d [s.fsrc f.ffmt w.a] (r 4)) ∧
  (s.ready (.fcos f w) → s.floatsTo (.fcos f w) f.ffmt w.d [s.fsrc f.ffmt w.a] (r 5)) ∧
  (s.ready (.ftanh f w) → s.floatsTo (.ftanh f w) f.ffmt w.d [s.fsrc f.ffmt w.a] (r 6))

/-- R165-R168: conversions between float formats, between floats and integers, and to and from FP8 and MX blocks. -/
def Sys2Proof.Claims.FloatConversions : Prop := ∀ (s : State) (w : BaseW),
  let src (f : FFmt) : Src := s.fsrc f w.a
  let cv (x d : Fmt) (l v : Nat) : Nat × Flags := convFF x d (s.rm w l) (s.fz l) false v
  let half (k : Nat) : Src := if k = 0 then s.fsrc .f32 w.a else s.fsrc .f32 w.b
  let two (d : Fmt) (l k : Nat) : Nat × Flags := quietIf (Mask.has (half k).poi l) (cv F32 d l ((half k).fel .f32 l 0))
  let i (p : FFPair) : Instr := .cvtff p w
  (s.ready (i .f32f64) → s.floatsTo (i .f32f64) .f32 w.d [src .f64] fun l _ => cv F64 F32 l ((src .f64).fel .f64 l 0)) ∧
  (s.ready (i .f64f32) → s.floatsTo (i .f64f32) .f64 w.d [src .f32] fun l _ => cv F32 F64 l ((src .f32).fel .f32 l 0)) ∧
  (s.ready (i .h2f32) → s.floatsTo (i .h2f32) .h2 w.d [] (two F16)) ∧
  (s.ready (i .b2f32) → s.floatsTo (i .b2f32) .b2 w.d [] (two BF16)) ∧
  (s.ready (i .f32h2) → s.floatsEl (i .f32h2) 32 2 2 w.d [src .h2] fun l k => cv F16 F32 l ((src .h2).fel .h2 l k)) ∧
  (s.ready (i .f32b2) → s.floatsEl (i .f32b2) 32 2 2 w.d [src .b2] fun l k => cv BF16 F32 l ((src .b2).fel .b2 l k)) ∧
  (s.ready (i .h2b2) → s.floatsTo (i .h2b2) .h2 w.d [src .b2] fun l k => cv BF16 F16 l ((src .b2).fel .b2 l k)) ∧
  (s.ready (i .b2h2) → s.floatsTo (i .b2h2) .b2 w.d [src .h2] fun l k => cv F16 BF16 l ((src .h2).fel .h2 l k)) ∧
  (∀ dst x, s.ready (.cvtfi dst x w) →
    let f : FFmt := match x with | .f32 => .f32 | .f64 => .f64
    s.floatsEl (.cvtfi dst x w) (iWidth dst) (iRegs dst) 1 w.d [src f] fun l _ =>
      convFI f.fmt (iWidth dst) (iSigned dst) (s.rm w l) (s.fz l) ((src f).fel f l 0)) ∧
  (∀ x dst, s.ready (.cvtif x dst w) →
    let f : FFmt := match dst with | .f32 => .f32 | .f64 => .f64
    let a := (s.grp s.cur).src .int (iRegs x) w.a
    s.floatsTo (.cvtif x dst w) f w.d [a] fun l _ =>
      convIF f.fmt (iWidth x) (iSigned x) (s.rm w l) (s.fz l) ((a.val l).toNat % 2 ^ iWidth x)) ∧
  (∀ q, q = .e4m3 ∨ q = .e5m2 → s.ready (.qpack q w) →
    let g := s.grp s.cur
    let r (k : Nat) : Nat := if k < 2 then w.a.toNat + k else w.b.toNat + k - 2
    s.floatsEl (.qpack q w) 8 1 4 w.d [] fun l k =>
      quietIf (g.poi l (r k) 1) (convFF F32 (QForm.elem q) (s.rm w l) (s.fz l) (w.c.getLsbD 0) (g.rd l (r k)).toNat)) ∧
  (∀ q, q = .mx8e4 ∨ q = .mx8e5 ∨ q = .mx4 → s.ready (.qpack q w) →
    let g := s.grp s.cur
    s.floatsRegs (.qpack q w) (QForm.bits q + 1) w.d [g.spanSrc w.a 32] fun l =>
      let (sc, es, fl) := mxQuantise (QForm.elem q) (s.fz l) (g.span l w.a 32)
      (wordsOf (QForm.bits q) (es.foldr (fun x acc => x + 2 ^ QForm.bits q * acc) 0) ++ [BitVec.ofNat 32 sc], fl)) ∧
  (∀ q, q = .e4m3 ∨ q = .e5m2 → s.ready (.qunpk q w) →
    let g := s.grp s.cur
    s.floatsRegs (.qunpk q w) 4 w.d [g.spanSrc w.a 1] fun l =>
      let r (k : Nat) : Nat × Flags := widenElem (QForm.elem q) (s.fz l) 0 ((g.rd l w.a.toNat).toNat / 2 ^ (8 * k) % 2 ^ 8)
      ((List.range 4).map fun k => BitVec.ofNat 32 (r k).1, (List.range 4).foldl (fun a k => a ||| (r k).2) 0#32)) ∧
  (∀ q, q = .mx8e4 ∨ q = .mx8e5 ∨ q = .mx4 → s.ready (.qunpk q w) →
    let g := s.grp s.cur
    s.floatsRegs (.qunpk q w) 32 w.d [] fun l =>
      let x := (g.span l w.a (QForm.bits q)).foldr (fun v acc => v + 2 ^ 32 * acc) 0
      let sc := (g.rd l w.b.toNat).toNat % 256
      let r (k : Nat) : Nat × Flags :=
        if sc = 255 then (F32.nan, 0#32) else quietIf (g.poi l (w.a.toNat + QForm.bits q * k / 32) 1 || g.poi l w.b.toNat 1)
          (widenElem (QForm.elem q) (s.fz l) ((sc : Int) - 127) (x / 2 ^ (QForm.bits q * k) % 2 ^ QForm.bits q))
      ((List.range 32).map fun k => BitVec.ofNat 32 (r k).1, (List.range 32).foldl (fun a k => a ||| (r k).2) 0#32))

/-- R98, R107-R110, R159-R161, R163-R168: float comparison and classes, special functions, conversions, and their numbers. The bounds of
`FEXP2`, `FLOG2`, `FSIN`, `FCOS` and `FTANH` are left out. The model's choices in it: log entry 10. -/
def Obligations.FloatComparesAndConversions : Prop :=
  Claims.FloatCompare ∧ Claims.FloatSpecialFunctions ∧ Claims.FloatConversions ∧ Claims.FloatEncodings ∧ Claims.FloatOrder ∧
    Claims.SpecialValues ∧ Claims.ConversionValues

/-- R101: what each rounding mode chooses when m * 2^e is rounded to a multiple of 2^q, with d = q - e bits below it. -/
def Sys2Proof.Claims.RoundingModes : Prop := ∀ (neg : Bool) (m d : Nat) (e : Int), 0 < d →
  let r (rm : Nat) : Nat := (roundAt rm neg m e false (e + d)).1
  (∀ rm, (roundAt rm neg m e false (e + d)).2 = decide (m % 2 ^ d ≠ 0)) ∧
  r 1 = m / 2 ^ d ∧
  r 2 = (if neg then (m + 2 ^ d - 1) / 2 ^ d else m / 2 ^ d) ∧
  r 3 = (if neg then m / 2 ^ d else (m + 2 ^ d - 1) / 2 ^ d) ∧
  (2 * m ≤ 2 ^ d * (2 * r 0 + 1) ∧ 2 ^ d * (2 * r 0) ≤ 2 * m + 2 ^ d ∧
    (2 * m = 2 ^ d * (2 * r 0 + 1) ∨ 2 ^ d * (2 * r 0) = 2 * m + 2 ^ d → r 0 % 2 = 0)) ∧
  (2 * m < 2 ^ d * (2 * r 4 + 1) ∧ 2 ^ d * (2 * r 4) ≤ 2 * m + 2 ^ d)

/-- R157: the special cases of the float operations. -/
def Sys2Proof.Claims.FloatSpecialCases : Prop := ∀ (f : FFmt) (rm : Nat) (fz : Bool) (x y z : Nat),
  let F := f.fmt
  let a := F.decZ fz x
  let b := F.decZ fz y
  let c := F.decZ fz z
  let ops : List (Nat × Flags) := [F.add rm fz x y, F.sub rm fz x y, F.mul rm fz x y, F.div rm fz x y]
  ((a.isSnan ∨ b.isSnan) → ∀ r ∈ ops, r = (F.nan, fNV)) ∧
  ((a.isNan ∨ b.isNan) → ¬ a.isSnan → ¬ b.isSnan → ∀ r ∈ ops, r = (F.nan, 0#32)) ∧
  (∀ n, a = .inf n → b = .inf (!n) → F.add rm fz x y = (F.nan, fNV)) ∧
  (∀ n, a = .inf n → b = .inf n → F.sub rm fz x y = (F.nan, fNV)) ∧
  (a.isZero ∧ b.isInf ∨ a.isInf ∧ b.isZero → F.mul rm fz x y = (F.nan, fNV) ∧
    ∀ np nc, ((F.fma rm fz np nc x y z).1 = F.nan ∧ (F.fma rm fz np nc x y z).2 = fNV)) ∧
  (∀ n m e, a = .fin n m e → m ≠ 0 → b.isZero → F.div rm fz x y = (F.inf (n != b.neg), fDZ)) ∧
  (a.isZero ∧ b.isZero ∨ a.isInf ∧ b.isInf → F.div rm fz x y = (F.nan, fNV)) ∧
  (∀ n m e, a = .fin n m e → b.isInf → F.div rm fz x y = (F.signBit (n != b.neg), 0#32)) ∧
  (∀ n m e, b = .fin n m e → m ≠ 0 → a.isInf → F.div rm fz x y = (F.inf (a.neg != n), 0#32)) ∧
  (a.isZero → F.sqrt rm fz x = (F.signBit a.neg, 0#32)) ∧
  (a = .inf false → F.sqrt rm fz x = (F.inf false, 0#32)) ∧
  (a.neg → ¬ a.isZero → F.sqrt rm fz x = (F.nan, fNV)) ∧
  (c.isNan → ¬ c.isSnan → ¬ a.isNan → ¬ b.isNan → ∀ np nc, (F.fma rm fz np nc x y z).1 = F.nan)

/-- R101, R157: the rounding modes and the special cases of the float operations. -/
def Obligations.FloatRounding : Prop :=
  Claims.RoundingModes ∧ Claims.FloatSpecialCases

/-! ### Guards and the instructions of groups -/

/-- R46: a run none of whose threads has a true guard performs nothing: it writes no register, predicate, special register or byte, and
stands at the following word. -/
def Obligations.GuardFalse : Prop := ∀ (s : State) (i : Instr), i.isWord = true → isTransfer i = false → s.ready i → s.acting i = 0#64 →
  completes i s [] [] fun _ => True

/-- R174-R176: votes, shuffles, matches, election and masks, over the lanes that perform the instruction. -/
def Sys2Proof.Claims.GroupExchange : Prop := ∀ (s : State) (w : BaseW),
  let p (l : Nat) : Bool := (s.grp s.cur).pred w.a.toNat l
  (s.ready (.vote .all w) → s.decides (.vote .all w) w.d fun _ => (Mask.lanes (s.acting (.vote .all w))).all p) ∧
  (s.ready (.vote .any w) → s.decides (.vote .any w) w.d fun _ => (Mask.lanes (s.acting (.vote .any w))).any p) ∧
  (s.ready (.vote .uni w) → s.decides (.vote .uni w) w.d fun _ =>
    (Mask.lanes (s.acting (.vote .uni w))).all p || !(Mask.lanes (s.acting (.vote .uni w))).any p) ∧
  (s.ready (.vote .ballot w) → s.puts (.vote .ballot w) 2 w.d fun _ x =>
    ∀ k, k < 64 → x.getLsbD k = (Mask.has (s.acting (.vote .ballot w)) k && p k)) ∧
  (∀ z m, s.ready (.shfl z m w) →
    let b (l : Nat) : Nat := ((s.opndB (.shfl z m w) .int 1 w l).setWidth 32 : W32).toNat
    let k (l : Nat) : Option Nat := match m with
      | .idx => some (b l % 64)
      | .up => if b l ≤ l then some (l - b l) else none
      | .down => if l + b l < 64 then some (l + b l) else none
      | .xor => some (l ^^^ (b l % 64))
    s.gives (.shfl z m w) z.isize w.d fun l _ v =>
      v = s.elA z.isize w.a (match k l with | some j => if Mask.has (s.acting (.shfl z m w)) j then j else l | none => l) 0) ∧
  (∀ z, s.ready (.gmatch z w) → s.puts (.gmatch z w) 2 w.d fun l x =>
    ∀ k, k < 64 → x.getLsbD k = (Mask.has (s.acting (.gmatch z w)) k && s.elA z.isize w.a k 0 == s.elA z.isize w.a l 0)) ∧
  (s.ready (.gelect .lo w) → s.decides (.gelect .lo w) w.d fun l => (Mask.lanes (s.acting (.gelect .lo w))).all (l ≤ ·)) ∧
  (s.ready (.gelect .hi w) → s.decides (.gelect .hi w) w.d fun l => (Mask.lanes (s.acting (.gelect .hi w))).all (· ≤ l)) ∧
  (s.ready (.gmask .act w) → s.writes (.gmask .act w) 2 w.d fun _ => s.acting (.gmask .act w)) ∧
  (s.ready (.gmask .live w) → s.writes (.gmask .live w) 2 w.d fun _ => (s.grp s.cur).live)

/-- R177, R178: an integer reduction combines the values of all active lanes; a scan those up to each lane, or below it. -/
def Sys2Proof.Claims.GroupReductions : Prop := ∀ (s : State) (t : GType) (w : BaseW), GType.isFloat t = false →
  let z : Sys2Proof.ISize := if t.n = 2 then .d else .w
  let op := w.c.toNat % 8
  let of (ls : List Nat) : BitVec z.width := groupInt z.width op (ls.map fun k => s.elA z w.a k 0)
  (s.ready (.gred t w) → s.gives (.gred t w) z w.d fun _ _ v => v = of (Mask.lanes (s.acting (.gred t w)))) ∧
  (s.ready (.gscan t w) → s.gives (.gscan t w) z w.d fun l _ v =>
    v = of ((Mask.lanes (s.acting (.gscan t w))).filter fun k => if w.c.getLsbD 3 then k < l else k ≤ l))

/-- R178: float reductions and scans combine in the fixed order of the network, whatever flags they raise; no trap is enabled. -/
def Sys2Proof.Claims.GroupNetwork : Prop := ∀ (s : State) (t : GType) (w : BaseW), GType.isFloat t = true →
  (∀ l fl, enabledIn (s.thr s.cur l).fcsr fl = false) →
  let F := GType.fmt t
  let first (i : Instr) : Nat := (Mask.lanes (s.acting i)).headD 0
  let a := (s.grp s.cur).src (.flt F) t.n w.a
  let f (i : Instr) (x y : Nat) : Nat := (gOp t (w.c.toNat % 8) (s.rm w (first i)) (s.fz (first i)) x y).1
  let x (i : Instr) (l : Nat) : Option Nat := if Mask.has (s.acting i) l then some ((a.val l).toNat % 2 ^ GType.bits t) else none
  let leaves (i : Instr) (r : Nat → Option Nat) : Prop := ∃ u fl, exec i s = .next u ∧ s.movedOn u ∧
    KeepsF s (s.opened i) u (destRegs t.n w.d) [] (fun l => if Mask.has (s.acting i) l then fl else 0#32) ∧ s.keepsTeams u i ∧
    (inReg w.d = true → ∀ l, Mask.has (s.acting i) l = true →
      (u.dest s.cur t.n w.d l).toNat = ((r l).getD (gIdentity t (w.c.toNat % 8))) % 2 ^ GType.bits t)
  (s.ready (.gred t w) → s.acting (.gred t w) ≠ 0#64 → leaves (.gred t w) fun _ => redNode (f (.gred t w)) (x (.gred t w)) 6 0) ∧
  (s.ready (.gscan t w) → s.acting (.gscan t w) ≠ 0#64 → leaves (.gscan t w) fun l =>
    scanNode (f (.gscan t w)) (if w.c.getLsbD 3 then fun k => if k = 0 then none else x (.gscan t w) (k - 1) else x (.gscan t w)) 6 l)

/-- R174-R178: the operations among the lanes of a group. The model's choices in it: log entries 18, 51. -/
def Obligations.GroupOperations : Prop :=
  Claims.GroupExchange ∧ Claims.GroupReductions ∧ Claims.GroupNetwork

/-- R170-R172: the region opens when the last thread arrives at its `GRPON`, changes nothing inside a region, and `GRPOFF` closes it; the
rejoin points of the threads are put aside and come back. -/
def Sys2Proof.Claims.GroupRegions : Prop := ∀ (s : State) (w : CtlW) (tid j : Nat), s.cur = .grp tid j →
  let g := s.grp s.cur
  (s.ready (.grpon w) → g.gst = .region ∨ g.gst = .suspended → completes (.grpon w) s [] [] fun t => (t.grp s.cur).gst = g.gst) ∧
  (s.ready (.grpon w) → g.gst = .opened ∨ g.gst = .arriving → s.acting (.grpon w) = g.live →
    (∀ l, Mask.has g.live l = true → l ∈ s.runLanes) →
    completes (.grpon w) s [] [] fun t => (t.grp s.cur).gst = .region ∧ ∀ l, Mask.has g.live l = true →
      (t.thr s.cur l).rej = [] ∧ (t.thr s.cur l).savedRej = (g.thr l).rej) ∧
  (s.ready (.grpon w) → g.gst = .opened ∨ g.gst = .arriving → s.acting (.grpon w) ≠ 0#64 →
    (∃ l, l < g.threads.length ∧ Mask.has g.live l = true ∧ Mask.has (s.acting (.grpon w)) l = false ∧ (g.thr l).st ≠ .arrived) →
    s.waits (.grpon w) (fun _ => .arrived) fun t => (t.grp s.cur).gst = .arriving) ∧
  (s.ready (.grpoff w) → s.acting (.grpoff w) ≠ 0#64 → completes (.grpoff w) s [] [] fun t => (t.grp s.cur).gst = .opened ∧
    ∀ l, l < g.threads.length → Mask.has g.live l = true → (t.thr s.cur l).rej = (g.thr l).savedRej ∧ (t.thr s.cur l).savedRej = [])

/-- R179, R180: `QBIND` registers its group and waits until the quad has formed; the quad forms when the four members have come and no
other holds the tiles; a member's `QFREE` waits for the quad's platen operations and dissolves it. -/
def Sys2Proof.Claims.Quads : Prop := ∀ (s : State) (w : CtlW),
  (∀ tid j, s.cur = .grp tid j → s.ready (.qbind w) → s.acting (.qbind w) ≠ 0#64 → 4 ≤ (s.team tid).groups.length →
    ((s.team tid).quad = true → (s.team tid).member j = true → completes (.qbind w) s [] [] fun _ => True) ∧
    ((s.team tid).quad = false → (s.team tid).qmem.length = 4 → (s.team tid).qmem.getD (j % 4) none = none →
      s.waits (.qbind w) (fun _ => .binding) fun t => (t.team tid).qmem.getD (j % 4) none = some (j, s.pt))) ∧
  (∀ core tm, (s.teams.filter fun t => t.core == core && (t.st == .resident || t.st == .saving)) = [tm] → tm.st = .resident → s.team? tm.tid = some tm → tm.quad = false →
    tm.qmem.all (·.isSome) = true →
    ∃ t, exec (.quadForm core) s = .next t ∧ (t.team tm.tid).quad = true ∧ (t.team tm.tid).tiles.length = 4 ∧
      (∀ j l, (t.thr (.grp tm.tid j) l).st ≠ .binding) ∧ t.fresh = s.fresh + 4 ∧ t.mem = s.mem) ∧
  (∀ tid j, s.cur = .grp tid j → s.ready (.qfree w) → s.acting (.qfree w) ≠ 0#64 →
    ((s.team tid).quad && (s.team tid).member j) = true → (s.team tid).plq = [] →
    completes (.qfree w) s [] [] fun t => (t.team tid).quad = false) ∧
  (∀ tid j, s.cur = .grp tid j → s.ready (.qfree w) → ((s.team tid).quad && (s.team tid).member j) = false →
    completes (.qfree w) s [] [] fun t => (t.team tid).quad = (s.team tid).quad)

/-- R170-R172, R179, R180: group regions and quads. The model's choices in it: log entries 8, 44. -/
def Obligations.RegionsAndQuads : Prop :=
  Claims.GroupRegions ∧ Claims.Quads

/-! ### Control transfer -/

/-- R128, R59, R62: branches, calls and returns of a latency core reach the word after their target's header, and write the link. -/
def Sys2Proof.Claims.Transfers : Prop := ∀ (s : State) (n : Nat), s.alone n → (s.lc n).sup = true →
  let pc := (s.thr (.lc n) 0).pc
  let goes (i : Instr) (link : BitVec 10) (a : W64) : Prop := ∀ hw, s.ready i → Mask.has (s.acting i) 0 = true → s.headerAt n a hw →
    ∃ t, exec i s = .next t ∧ t.inBlock n a hw ∧ Keeps s s t (destRegs 2 link) [] ∧ s.keepsTeams t i ∧
      (inReg link = true → t.dest (.lc n) 2 link 0 = pc + 8#64)
  (∀ w, goes (.br w) w.link (pc + BitVec.ofInt 64 (8 * w.off.toInt))) ∧
  (∀ w, goes (.call w) w.link (pc + BitVec.ofInt 64 (8 * w.off.toInt))) ∧
  (∀ w : CtlW, let a := (s.grp (.lc n)).rd64 0 w.a.toNat
    (s.grp (.lc n)).poi 0 w.a.toNat 2 = false → a.toNat % 8 = 0 →
      goes (.brx w) w.d a ∧ goes (.callx w) w.d a ∧ goes (.ret w) 1023#10 a) ∧
  (∀ i, i.isWord = true → isTransfer i = true → s.ready i → Mask.has (s.acting i) 0 = false → completes i s [] [] fun _ => True)

/-- R63, R128, R141: a transfer to a misaligned or poisoned target, or to a word that is no header, traps at the branch. -/
def Sys2Proof.Claims.TransferTraps : Prop := ∀ (s : State) (n : Nat) (hw : W64), s.alone n → n < s.lcs.length → s.headerAt n (s.lc n).tvec hw →
  (s.lc n).tvec.toNat % 8 = 0 →
  let th := s.thr (.lc n) 0
  let traps (i : Instr) (code : Nat) (tval : W64) : Prop := s.ready i → Mask.has (s.acting i) 0 = true →
    ∃ t, exec i s = .next t ∧ s.trapped t n false code tval th.pc th.hoff hw
  (∀ w : CtlW, (s.grp (.lc n)).poi 0 w.a.toNat 2 = true → traps (.brx w) 0x18 0#64 ∧ traps (.callx w) 0x18 0#64 ∧ traps (.ret w) 0x18 0#64) ∧
  (∀ w : CtlW, let a := (s.grp (.lc n)).rd64 0 w.a.toNat
    (s.grp (.lc n)).poi 0 w.a.toNat 2 = false → a.toNat % 8 ≠ 0 →
      traps (.brx w) 0x05 a ∧ traps (.callx w) 0x05 a ∧ traps (.ret w) 0x05 a) ∧
  (∀ w : JumpW, let a := th.pc + BitVec.ofInt 64 (8 * w.off.toInt)
    (s.lc n).sup = true → (s.lc n).ptbr.getLsbD 0 = false → canonical a = true → s.plain (a.toNat % 2 ^ 52) 8 → s.poisoned (a.toNat % 2 ^ 52) 8 = false →
      isHeader (BitVec.ofNat 64 (s.rdN (a.toNat % 2 ^ 52) 8)) = false → inReg w.link = false → traps (.br w) 0x05 a)

/-- R119-R122, R128: a branch on a SIMT core that one thread of the run takes, with mask prediction off by MPX and outside a region. The
taken thread reaches the word behind the header, the others the next word. A split whose block names a rejoin point opens that point for the
threads of the run; a thread that enters its innermost point's header parks there, and the last one that is expected releases it. -/
def Sys2Proof.Claims.GroupBranches : Prop := ∀ (s : State) (tid j l : Nat) (b : Blk) (hw : W64) (w : JumpW),
  s.cur = .grp tid j → s.ready (.br w) → Mask.lanes (s.acting (.br w)) = [l] → inReg w.link = false →
  let p := s.cur
  let g := s.grp p
  let pc := (s.thr p s.curLane).pc
  let a := pc + BitVec.ofInt 64 (8 * w.off.toInt)
  let here := pc + 8#64
  (s.thr p s.curLane).blk = some b → b.mpx = true → b.inside here = true → g.gst = .opened → a ≠ here → s.leafTo p l a hw →
  let goes (P : State → Prop) : Prop := ∃ t, exec (.br w) s = .next t ∧ P t
  let splits (t : State) : Prop := (t.thr p l).pc = a + 8#64 ∧ (t.thr p l).blk = some { addr := a, word := hw } ∧
    ∀ k ∈ s.runLanes, k ≠ l → (t.thr p k).pc = here ∧ (t.thr p k).blk = some b
  (g.arrives l a = none → s.runLanes = [l] ∨ b.rejoin = 0 → goes fun t => splits t ∧ (t.grp p).points = g.points ∧
    ∀ k, (t.thr p k).rej = (s.thr p k).rej) ∧
  (s.runLanes ≠ [l] → b.rejoin ≠ 0 → (∀ k ∈ s.runLanes, (s.thr p k).rej = []) → a ≠ b.point → goes fun t => splits t ∧
    ∃ id, (∀ q ∈ g.points, q.id ≠ id) ∧ (∀ k ∈ s.runLanes, (t.thr p k).rej = [id]) ∧
      ∃ q ∈ (t.grp p).points, q.id = id ∧ q.hdr = b.point ∧ q.expect = Mask.ofLanes s.runLanes ∧ q.arrived = 0#64) ∧
  (s.runLanes = [l] → ∀ q ∈ g.points, (s.thr p l).rej.head? = some q.id → q.hdr = a → (g.points.map (·.id)).Nodup →
    let left := q.expect &&& ~~~(Mask.put q.arrived l true)
    (left ≠ 0#64 → goes fun t => (t.thr p l).pc = a ∧ (t.thr p l).st = .rejoin q.id ∧
      ∃ y ∈ (t.grp p).points, y.id = q.id ∧ y.expect = q.expect ∧ Mask.has y.arrived l = true) ∧
    (left = 0#64 → goes fun t => (t.thr p l).pc = a ∧ (∀ y ∈ (t.grp p).points, y.id ≠ q.id) ∧
      ∀ k, k < g.threads.length → Mask.has g.live k = true → k = l ∨ (s.thr p k).st = .rejoin q.id →
        ((t.thr p k).st = .ready ∨ (t.thr p k).st = .parked) ∧ q.id ∉ (t.thr p k).rej ∧ (k ≠ l → (t.thr p k).pc = (s.thr p k).pc)))

/-- R55, R56: lookahead on a latency core. A word that names a register of an open window, or is guarded by a predicate of it, traps with
cause 0x08 before it performs anything, whatever its guard; an instruction with LA opens its window whatever its guard, and every executed
word counts. -/
def Sys2Proof.Claims.LookaheadTraps : Prop := ∀ (s : State) (n : Nat), s.alone n →
  let th := s.thr (.lc n) 0
  let opened (tail : BitVec 8) (regs : List Nat) : List Win :=
    if laOf tail ≠ 0 ∧ regs ≠ [] then [{ left := laOf tail, regs := regs, preds := [] }] else []
  let counts (i : Instr) (new : List Win) : Prop := ∃ t, exec i s = .next t ∧
    ∀ x, x ∈ (t.thr (.lc n) 0).wins ↔ x ∈ new ∨ ∃ y ∈ th.wins, 1 < y.left ∧ x = { y with left := y.left - 1 }
  (∀ (w : BaseW) (hw : W64), let i := Instr.add .w w
    w.kf = false → s.stands i → (∀ b, th.blk = some b → (sig i).staticCause b.live = none) → s.headerAt n (s.lc n).tvec hw →
    (s.lc n).tvec.toNat % 8 = 0 →
    (∃ x ∈ th.wins, (∃ c ∈ [w.a, w.b, w.d], inReg c = true ∧ c.toNat ∈ x.regs) ∨ w.g.toNat % 8 ∈ x.preds) →
    ∃ t, exec i s = .next t ∧ s.trapped t n false 0x08 0#64 th.pc th.hoff hw) ∧
  (∀ y sg w, s.ready (.div y sg w) → counts (.div y sg w) (opened w.tail (destRegs y.n w.d))) ∧
  (∀ z w, s.ready (.ld z w) → s.acting (.ld z w) = 0#64 → counts (.ld z w) (opened w.tail (destRegs z.n w.d))) ∧
  (∀ w, s.ready (.nop w) → counts (.nop w) [])

/-- R55, R63, R119-R122, R128: branches, calls, returns, and their traps; rejoin points; lookahead windows. -/
def Obligations.ControlTransfers : Prop :=
  Claims.Transfers ∧ Claims.TransferTraps ∧ Claims.GroupBranches ∧ Claims.LookaheadTraps

/-! ### Exceptions -/

/-- R269: taking a trap or an interrupt on a latency core. -/
def Sys2Proof.Claims.TakingExceptions : Prop := ∀ (s : State) (n : Nat) (intr : Bool) (code : Nat) (tval epc : W64) (hoff : Nat) (hw : W64),
  n < s.lcs.length → (s.lc n).grp.threads.length = 1 → s.headerAt n (s.lc n).tvec hw → (s.lc n).tvec.toNat % 8 = 0 →
  code < 2 ^ 31 → s.trapped (s.takeTrap n intr code tval epc hoff) n intr code tval epc hoff hw

/-- R276, R133, R269: the user traps of a latency core. -/
def Sys2Proof.Claims.UserTraps : Prop := ∀ (s : State) (n : Nat) (w : CtlW) (hw : W64), s.alone n → s.headerAt n (s.lc n).tvec hw →
  (s.lc n).tvec.toNat % 8 = 0 →
  let th := s.thr (.lc n) 0
  let a := (s.grp (.lc n)).src .int 1 w.a
  let code : W64 := BitVec.setWidth 64 (BitVec.setWidth 32 (a.val 0))
  let traps (i : Instr) (c : Nat) (tval : W64) : Prop := s.ready i → Mask.has (s.acting i) 0 = true →
    ∃ t, exec i s = .next t ∧ s.trapped t n false c tval th.pc th.hoff hw
  (Mask.has a.poi 0 = false → traps (.trap w) 0x32 code ∧ traps (.sys w) 0x33 code) ∧
  (Mask.has a.poi 0 = true → traps (.trap w) 0x18 0#64 ∧ traps (.sys w) 0x18 0#64) ∧
  traps (.brk w) 0x31 0#64 ∧ traps (.exit w) 0x33 0xFFFFFFFFFFFFFFFF#64

/-- R268, R269: an interrupt is taken between instructions when IE is 1: of those that are pending, in whatever order, one of the lowest
number, the one that came first. -/
def Sys2Proof.Claims.Interrupts : Prop := ∀ (s : State) (n : Nat) (hw : W64) (pre post : List Irq) (q : Irq), s.running (.lc n) = true →
  (s.lc n).status.getLsbD 2 = true → (s.lc n).inside = false → (s.lc n).grp.threads.length = 1 → q.num < 2 ^ 31 →
  s.headerAt n (s.lc n).tvec hw → (s.lc n).tvec.toNat % 8 = 0 → s.absent = none →
  (s.lc n).pend = pre ++ q :: post → (∀ r ∈ pre, q.num < r.num) → (∀ r ∈ post, q.num ≤ r.num) →
  ∃ t, exec (.interruptEntry n) s = .next t ∧
    s.trapped t n true q.num q.tval (s.thr (.lc n) 0).pc (s.thr (.lc n) 0).hoff hw ∧ (t.lc n).pend = pre ++ post ∧
    ∀ x ∈ t.waiters, x.party ≠ Party.lc n

/-- R268, R269, R276: taking an exception on a latency core: by trap, by instruction, by interrupt. The model's choices in it: log entry 23. -/
def Obligations.Exceptions : Prop :=
  Claims.TakingExceptions ∧ Claims.UserTraps ∧ Claims.Interrupts

/-- R270: the return to supervisor software with RES = 0: MODE and IE come back, and the thread stands at `s.epc` in its block. -/
def Sys2Proof.Claims.ExceptionReturn : Prop := ∀ (s : State) (n : Nat) (w : CtlW) (hw : W64), s.alone n → s.ready (.eret w) →
  Mask.has (s.acting (.eret w)) 0 = true → (s.lc n).status.getLsbD 1 = true → (s.lc n).epc.toNat % 8 = 0 →
  let hoff := (s.lc n).status.toNat / 2 ^ 10 % 1024
  let hdr := (s.lc n).epc - BitVec.ofNat 64 (8 * hoff)
  s.headerAt n hdr hw →
  ∃ t, exec (.eret w) s = .next t ∧ (t.lc n).sup = true ∧ (t.lc n).status.getLsbD 2 = (s.lc n).status.getLsbD 3 ∧ (t.lc n).resv = none ∧
    (t.thr (.lc n) 0).blk = some { addr := hdr, word := hw } ∧
    (t.thr (.lc n) 0).pc = (if hoff = 0 then (s.lc n).epc + 8#64 else (s.lc n).epc) ∧ (t.thr (.lc n) 0).st = .ready ∧
    (t.lc n).grp.regs = (s.lc n).grp.regs ∧ (t.lc n).grp.preds = (s.lc n).grp.preds ∧ ∀ a, t.byte a = s.byte a

/-- R270, R264: the return that resumes the thread of a family whose record is complete. -/
def Sys2Proof.Claims.FamilyReturn : Prop := ∀ (s : State) (n : Nat) (w : CtlW), s.alone n → s.ready (.eretResumeFamily w) →
  Mask.has (s.acting (.eretResumeFamily w)) 0 = true → ∀ f x, s.fam? (s.lc n).famsel = some f → f.state = .ended → f.completed = some x →
  x.exitMark = false → f.d < 768 → f.parent.threads.length = 1 → Mask.has f.parent.live 0 = true →
  ∃ t, exec (.eretResumeFamily w) s = .next t ∧ (t.lc n).status.getLsbD 31 = false ∧ (t.lc n).sup = false ∧
    (t.lc n).status.getLsbD 2 = true ∧ (t.lc n).cws = f.cws ∧ t.fam? (s.lc n).famsel = none ∧
    (t.thr (.lc n) 0).pc = x.pc ∧ (∀ v, x.result = some v → (t.grp (.lc n)).rd64 0 f.d = v) ∧
    ∀ r, r ≠ f.d → r ≠ f.d + 1 → (t.grp (.lc n)).reg r = f.parent.reg r

/-- R264, R270: the two returns from an exception. The model's choices in it: log entries 23, 39. -/
def Obligations.ExceptionReturns : Prop :=
  Claims.ExceptionReturn ∧ Claims.FamilyReturn

/-! ### System registers -/

/-- R272, R33: a read of a system register, in every lane that may read it. -/
def Sys2Proof.Claims.SystemReads : Prop := ∀ (s : State) (w : CtlW), s.ready (.srr w) → sysCause w.num s.cur.isLc (s.sup s.cur) true false = none →
  (∀ l, Mask.has (s.acting (.srr w)) l = true → s.proofed s.cur l = false ∧ (w.num = 0 → (s.thr s.cur l).lastPt ≤ s.pt)) →
  s.puts (.srr w) (sysN w) w.d fun l x =>
    let v := (s.opened (.srr w)).sysRead s.cur l w.num
    x = if sysWide w.num then BitVec.ofNat 64 v else (BitVec.ofNat 32 v).setWidth 64

/-- R16, R26: the values of the system registers. -/
def Sys2Proof.Claims.SystemValues : Prop := ∀ (s : State) (p : Party) (l n tid j : Nat),
  s.sysRead p l 0x000 = s.pt ∧ s.sysRead p l 0x001 = s.cycOf p % 2 ^ 64 ∧ s.sysRead p l 0x002 = (s.thr p l).fcsr.toNat ∧
  s.sysRead p l 0x003 = (s.thr p l).ftret.toNat ∧ s.sysRead p l 0x004 = (s.grp p).rh ∧ s.sysRead p l 0x005 = (s.grp p).ackout ∧
  s.sysRead p l 0x006 = (s.grp p).shapeix.toNat ∧ s.sysRead p l 0x008 = (s.grp p).mpMiss * 2 ^ 32 + (s.grp p).mpPred ∧
  s.sysRead (.grp tid j) l 0x010 = (s.thr (.grp tid j) l).tix ∧ s.sysRead (.lc n) l 0x010 = 0 ∧
  s.sysRead (.grp tid j) l 0x011 = l ∧ s.sysRead (.lc n) l 0x011 = 0 ∧
  s.sysRead (.grp tid j) l 0x012 = j ∧ s.sysRead (.lc n) l 0x012 = 0 ∧
  s.sysRead (.lc n) l 0x015 = n ∧ s.sysRead (.lc n) l 0x016 = 24 + n / 24 ∧
  s.sysRead (.grp tid j) l 0x017 = (s.thr (.grp tid j) l).fam.toNat ∧ s.sysRead (.lc n) l 0x017 = 0 ∧
  (∀ k, k < 8 → s.sysRead (.lc n) l (0x020 + k) = ((s.lc n).cws.getD k 0#64).toNat) ∧
  (∀ f, s.famOf (.grp tid j) l = some f → ∀ k, k < 8 → s.sysRead (.grp tid j) l (0x020 + k) = (f.cws.getD k 0#64).toNat) ∧
  (∀ f, s.famOf (.grp tid j) l = some f → s.sysRead (.grp tid j) l 0x030 = f.units s.pt) ∧
  (∀ f, s.fam? (s.lc n).famsel = some f → s.sysRead (.lc n) l 0x030 = f.units s.pt ∧ s.sysRead (.lc n) l 0x031 = f.rate ∧
    s.sysRead (.lc n) l 0x032 = f.cap ∧ s.sysRead (.lc n) l 0x033 = f.repairs.toNat) ∧
  s.sysRead p l 0x034 = s.packint.toNat ∧ s.sysRead p l 0x040 = s.capbase.toNat ∧ s.sysRead p l 0x041 = s.admode.toNat ∧
  s.sysRead p l 0x042 = s.finj.toNat ∧ s.sysRead (.lc n) l 0x043 = (s.lc n).famsel.toNat ∧
  s.sysRead (.lc n) l 0x050 = (s.lc n).status.toNat ∧ s.sysRead (.lc n) l 0x051 = (s.lc n).tvec.toNat ∧
  s.sysRead (.lc n) l 0x052 = (s.lc n).epc.toNat ∧ s.sysRead (.lc n) l 0x053 = (s.lc n).cause.toNat ∧
  s.sysRead (.lc n) l 0x054 = (s.lc n).tval.toNat ∧ s.sysRead (.lc n) l 0x055 = (s.lc n).scratch.toNat ∧
  s.sysRead (.lc n) l 0x056 = (s.lc n).ptbr.toNat ∧ s.sysRead p l 0x057 = s.tdlim.toNat ∧ s.sysRead p l 0x058 = s.drainint.toNat

/-- R16, R26, R272: reads of system registers and their values. The model's choices in it: log entries 7, 17. -/
def Obligations.SystemRegisterReads : Prop :=
  Claims.SystemReads ∧ Claims.SystemValues

/-- R26-R31, R266, R267, R332: what a write by supervisor software leaves in each system register. -/
def Sys2Proof.Claims.SystemWrites : Prop := ∀ (s : State) (n : Nat) (w : CtlW) (i : Instr), s.alone n → (s.lc n).sup = true →
  i ∈ [Instr.srw w, .shapeixWrite w, .fcsrWrite w, .ballastCapWrite w, .finjWrite w, .admodeWrite w, .ptbrWrite w, .drainintWrite w] →
  s.ready i → Mask.has (s.acting i) 0 = true →
  let a := (s.grp s.cur).src .int (sysN w) w.a
  Mask.has a.poi 0 = false →
  let v : W64 := if sysWide w.num then a.val 0 else ((a.val 0).setWidth 32).setWidth 64
  let u : W32 := (a.val 0).setWidth 32
  let sets (s' : State) : Prop := s.becomes i s' (s.opened i) [] [] fun _ => True
  (w.num = 0x002 → sets (s.modThr (.lc n) 0 fun t => { t with fcsr := fcsrWrite t.fcsr u })) ∧
  (w.num = 0x006 → u.toNat < 768 → sets (s.modGrp (.lc n) fun g => { g with shapeix := u })) ∧
  (∀ k, k < 8 → w.num = 0x020 + k → sets (s.modLc n fun c => { c with cws := setAt c.cws k fun o => masked64 o v 0x00FFFFFFFFFFFF81#64 })) ∧
  (w.num = 0x034 → sets { s with packint := u }) ∧
  (w.num = 0x041 → s.dev.caps.getLsbD 8 = true → sets { s with admode := u.getLsbD 0 }) ∧
  (w.num = 0x041 → s.dev.caps.getLsbD 8 = false → sets { s with admode := s.admode && u.getLsbD 0 }) ∧
  (w.num = 0x042 → sets (s.armFinj v)) ∧
  (w.num = 0x043 → sets (s.modLc n fun c => { c with famsel := u })) ∧
  (w.num = 0x050 → sets (s.modLc n fun c => { c with status := masked32 c.status u 0x800FFC0E#32 })) ∧
  (w.num = 0x051 → sets (s.modLc n fun c => { c with tvec := v })) ∧
  (w.num = 0x052 → sets (s.modLc n fun c => { c with epc := v })) ∧
  (w.num = 0x053 → sets (s.modLc n fun c => { c with cause := masked32 c.cause u 0x800000FF#32 })) ∧
  (w.num = 0x054 → sets (s.modLc n fun c => { c with tval := v })) ∧
  (w.num = 0x055 → sets (s.modLc n fun c => { c with scratch := v })) ∧
  (w.num = 0x056 → sets (s.modLc n fun c => { c with ptbr := v &&& 0xFFFFFFFFFFFF0001#64 })) ∧
  (w.num = 0x057 → sets { s with tdlim := masked32 s.tdlim u 0x00FFFFFF#32 }) ∧
  (w.num = 0x058 → sets { s with drainint := u }) ∧
  (∀ f, s.fam? (s.lc n).famsel = some f → f.state ≠ .ended →
    let fam (r : Family → Prop) : Prop := s.becomes i s (s.opened i) [] [] fun t => ∃ y, t.fam? (s.lc n).famsel = some y ∧ r y
    (w.num = 0x031 → fam fun y => y.rate = u.toNat ∧ y.cap = f.cap ∧ y.balance s.pt = f.balance s.pt) ∧
    (w.num = 0x032 → fam fun y => y.cap = v.toNat ∧ y.rate = f.rate ∧ y.balance s.pt = min (v.toNat * 1000) (f.balance s.pt)) ∧
    (w.num = 0x033 → f.state ≠ .stopped → fam fun y => y.repairs = u) ∧
    (w.num = 0x033 → f.state = .stopped →
      let s' := (s.modFam f.famid fun y => { y with repairs := u }).headerNow f.famid
      s'.absent = none → s.becomes i s' s' [] [] fun t => ∃ y, t.fam? (s.lc n).famsel = some y ∧ y.repairs = u))

/-- R272: `SRSET` and `SRCLR` give the old value and set or clear the bits of the mask, in one step. -/
def Sys2Proof.Claims.SystemBits : Prop := ∀ (s : State) (n : Nat) (w : CtlW), s.alone n →
  let a := (s.grp s.cur).src .int (sysN w) w.a
  let old : W64 := BitVec.ofNat 64 (s.sysRead (.lc n) 0 w.num)
  let narrow (x : W64) : W64 := if sysWide w.num then x else (x.setWidth 32).setWidth 64
  let sets (i : Instr) (v : W64) : Prop := s.ready i → Mask.has (s.acting i) 0 = true → sysCause w.num true (s.lc n).sup true true = none →
    Mask.has a.poi 0 = false → ∀ s', s.sysWrite (.lc n) 0 w.num (narrow v) = Eff.ok s' () →
    s'.absent = none → s.becomes i s' s' (destRegs (sysN w) w.d) [] fun t => inReg w.d = true → t.dest (.lc n) (sysN w) w.d 0 = narrow old
  sets (.srset w) (old ||| a.val 0) ∧ sets (.srclr w) (old &&& ~~~a.val 0)

/-- R26-R31, R272: writes of system registers, and of single bits of them. The model's choices in it: log entry 23. -/
def Obligations.SystemRegisterWrites : Prop :=
  Claims.SystemWrites ∧ Claims.SystemBits

/-- R26, R27, R28, R29, R66: an access that the register does not allow traps on a latency core, for every number of a register. Causes 0x0A
and 0x0B are checks of the word, whatever its guard and its other fields; a number that is absent, and a write of what may only be read,
raise 0x03. The model's choices in it: log entry 23. -/
def Obligations.SystemTraps : Prop := ∀ (s : State) (n : Nat) (w : CtlW) (hw : W64), s.alone n → s.headerAt n (s.lc n).tvec hw →
  (s.lc n).tvec.toNat % 8 = 0 →
  let th := s.thr (.lc n) 0
  let takes (i : Instr) (code : Nat) : Prop := ∃ t, exec i s = .next t ∧ s.trapped t n false code 0#64 th.pc th.hoff hw
  let word (is : List Instr) (code : Nat) : Prop := ∀ i ∈ is, s.stands i → takes i code
  let access (is : List Instr) (code : Nat) : Prop := ∀ i ∈ is, s.ready i → Mask.has (s.acting i) 0 = true → takes i code
  let within (a b : Nat) : Prop := a ≤ w.num ∧ w.num ≤ b
  let writes : List Instr := [.srw w, .shapeixWrite w, .fcsrWrite w, .ballastCapWrite w, .finjWrite w, .admodeWrite w, .ptbrWrite w,
    .drainintWrite w, .srset w, .srclr w]
  (w.num = 0x003 → word (.srr w :: writes) 0x0B) ∧
  (within 0x030 0x033 ∨ within 0x041 0x043 ∨ within 0x050 0x058 → (s.lc n).sup = false → word (.srr w :: writes) 0x0A) ∧
  (w.num = 0x034 → (s.lc n).sup = false → word writes 0x0A) ∧
  (within 0x00A 0x00F ∨ within 0x019 0x01F ∨ within 0x028 0x02F ∨ within 0x035 0x03F ∨ within 0x044 0x04F ∨ 0x059 ≤ w.num →
    access (.srr w :: writes) 0x03) ∧
  (within 0x000 0x001 ∨ within 0x004 0x005 ∨ within 0x007 0x009 ∨ within 0x010 0x018 ∨ w.num = 0x040 → access writes 0x03) ∧
  (w.num = 0x030 → (s.lc n).sup = true → access writes 0x03) ∧
  (w.num = 0x006 → Mask.has ((s.grp s.cur).src .int (sysN w) w.a).poi 0 = false →
    768 ≤ (((s.grp s.cur).src .int (sysN w) w.a).val 0).toNat % 2 ^ 32 → access [.srw w, .shapeixWrite w] 0x03)

/-! ### Waiting and time -/

/-- R131, R134-R136, R274, R277: `NOP`, `YIELD`, `SLEEP`, `TIME`, `PROOF`, and the event that ends a sleep. -/
def Sys2Proof.Claims.TimeAndWaits : Prop := ∀ (s : State) (w : CtlW),
  (s.ready (.nop w) → completes (.nop w) s [] [] fun _ => True) ∧
  (s.ready (.yield w) → s.acting (.yield w) ≠ 0#64 → completes (.yield w) s [] [] fun t =>
    s.cur.isLc = false → (∀ l, Mask.has (s.grp s.cur).live l = true → (s.thr s.cur l).st = .ready → l ∈ s.runLanes) →
    (t.grp s.cur).passOver = true) ∧
  (s.ready (.sleep w) → (∀ l, Mask.has (s.acting (.sleep w)) l = true → Mask.has ((s.grp s.cur).src .int 2 w.a).poi l = false ∧
      (s.opnd .int 2 w.a l).toNat + 4 ≤ s.pt) → completes (.sleep w) s [] [] fun _ => True) ∧
  (s.ready (.sleep w) → (∀ l, Mask.has (s.acting (.sleep w)) l = true → Mask.has ((s.grp s.cur).src .int 2 w.a).poi l = false ∧
      s.pt < (s.opnd .int 2 w.a l).toNat + 4) → s.waits (.sleep w) (fun l => .sleep (s.opnd .int 2 w.a l)) fun _ => True) ∧
  (∀ p l v, s.running p = true → l < (s.grp p).threads.length → (s.thr p l).st = .sleep v → v.toNat + 4 ≤ s.pt →
    ∃ t st, exec (.sleepWake p l) s = .next t ∧ t.thr p l = { s.thr p l with st := st } ∧ (st = .ready ∨ st = .parked) ∧
      ((∀ k, k ≠ l → (s.thr p k).st ≠ .ready) → st = .ready) ∧ (t.grp p).regs = (s.grp p).regs ∧ t.mem = s.mem) ∧
  (s.ready (.time w) → (∀ x ∈ s.pend, x.party ≠ s.cur) → s.homesDone s.cur = true →
    (∀ l, Mask.has (s.acting (.time w)) l = true → s.proofed s.cur l = false ∧ (s.thr s.cur l).lastPt ≤ s.pt) →
    s.writes (.time w) 2 w.d fun _ => BitVec.ofNat 64 s.pt) ∧
  (s.ready (.proof w) → (∀ l, Mask.has (s.acting (.proof w)) l = true → s.proofed s.cur l = false ∨ (s.thr s.cur l).passed = true) →
    completes (.proof w) s [] [] fun _ => True) ∧
  (s.ready (.proof w) → (∀ l, Mask.has (s.acting (.proof w)) l = true → s.proofed s.cur l = true ∧ (s.thr s.cur l).passed = false) →
    s.waits (.proof w) (fun _ => .proofWait) fun t => ∀ l, Mask.has (s.acting (.proof w)) l = true →
      let th := s.thr s.cur l
      ({ fam := th.fam, tix := th.tix, rid := s.ridOf s.cur, q := th.q, pc := th.pc, count := th.held.length, sig := signature th.held } : ProofEntry)
        ∈ t.proofs)

/-- R271, R285, R339: `WFI`, `TLBSYNC` and `TLBKILL`. -/
def Sys2Proof.Claims.SupervisorWaits : Prop := ∀ (s : State) (n : Nat) (w : CtlW), s.alone n →
  (s.ready (.wfi w) → Mask.has (s.acting (.wfi w)) 0 = true → (s.lc n).pend ≠ [] → completes (.wfi w) s [] [] fun t => (t.lc n).wait = .none) ∧
  (s.ready (.wfi w) → (s.lc n).pend = [] → s.waits (.wfi w) (fun _ => .ready) fun t => Mask.has (s.acting (.wfi w)) 0 = true → (t.lc n).wait = .wfi) ∧
  (s.ready (.tlbsync w) → Mask.has (s.acting (.tlbsync w)) 0 = true → (s.lc n).wait = .none → (s.thr (.lc n) 0).since = none →
    (∀ x ∈ s.pend, x.party ≠ .lc n) → (s.grp (.lc n)).rh + 4 ≤ s.pt →
    s.waits (.tlbsync w) (fun _ => .ready) fun t => (t.lc n).wait = .tlbsync s.pt) ∧
  (∀ k, s.ready (.tlbsync w) → Mask.has (s.acting (.tlbsync w)) 0 = true → (s.lc n).wait = .tlbsync k → k + 16004 ≤ s.pt →
    completes (.tlbsync w) s [] [] fun t => (t.lc n).wait = .none) ∧
  (∀ k, (s.lc n).wait = .tlbsync k → k + 16004 ≤ s.pt → ∃ t, exec .tlbsyncWaitEnd s = .next t ∧ (t.thr (.lc n) 0).passed = true ∧ t.mem = s.mem) ∧
  (s.ready (.tlbkill w) → Mask.has (s.acting (.tlbkill w)) 0 = true →
    let a := (s.grp s.cur).src .int 2 w.a
    let b := (s.grp s.cur).src .int 1 w.b
    let mode := (b.val 0).toNat % 2 ^ 32
    let asid := (s.lc n).ptbr.toNat / 2 ^ 52
    Mask.has b.poi 0 = false → mode ≤ 2 → (mode = 0 → Mask.has a.poi 0 = false ∧ canonical (a.val 0) = true) → s.pend = [] →
    s.homesDone s.cur = true →
    completes (.tlbkill w) s [] [] fun t => t.nleaf = [] ∧ ∀ x : Tlb, x ∈ t.tlbs ↔ x ∈ s.tlbs ∧
      ¬ (mode = 0 ∧ (x.asid = asid ∨ leafBit x.leaf 5 = true) ∧ (a.val 0).toNat / 2 ^ pageBits x.level = x.vpage ∨
         mode = 1 ∧ x.asid = asid ∧ leafBit x.leaf 5 = false ∨ mode = 2))

/-- R131-R136, R271, R274, R277, R285: instructions that wait, and time. The model's choices in it: log entries 7, 24, 47. -/
def Obligations.Waiting : Prop :=
  Claims.TimeAndWaits ∧ Claims.SupervisorWaits

/-- R342: `HARVEST` counts the mapped pages whose store record is set, clears the records, and sets D in their leaves. -/
def Sys2Proof.Claims.Harvest : Prop := ∀ (s : State) (n : Nat) (w : CtlW), s.alone n → s.ready (.harvest w) →
  Mask.has (s.acting (.harvest w)) 0 = true →
  let a := (s.grp s.cur).src .int 2 w.a
  let b := (s.grp s.cur).src .int 1 w.b
  let k := (b.val 0).toNat % 2 ^ 32
  let die := 24 + n / 24 % 4
  let root := (s.spaceOf (.lc n) 0).root
  let r := s.harvestPages root die (a.val 0) k
  Mask.has a.poi 0 = false → Mask.has b.poi 0 = false → k ≤ 65536 → canonical (a.val 0) = true → (a.val 0).toNat % 2 ^ 17 = 0 →
  (a.val 0).toNat + k * 2 ^ 17 ≤ (if upper (a.val 0) then 2 ^ 64 else 2 ^ 55) → (∀ x ∈ s.pend, x.party ≠ .lc n) →
  s.homesDone s.cur = true → s.hwq = [] → s.harvestHeld root (a.val 0) k = [] → r.1.absent = none →
  s.becomes (.harvest w) s r.1 (destRegs 1 w.d) [] fun t => t.srec = r.1.srec ∧
    (inReg w.d = true → t.dest (.lc n) 1 w.d 0 = BitVec.ofNat 64 r.2) ∧ r.2 ≤ k

/-- R342: one page of `HARVEST`. -/
def Sys2Proof.Claims.HarvestPage : Prop := ∀ (s : State) (root die : Nat) (a leaf : W64) (ea level : Nat), s.memOk →
  s.walkQuiet root a = .ok (leaf, ea, level) →
  let pg := pageOf (s.redirect (leafBase leaf / 2 ^ pageBits level * 2 ^ pageBits level + a.toNat % 2 ^ pageBits level))
  (s.recorded pg = false → s.harvestPage root die a = (s, 0)) ∧
  (s.recorded pg = true → s.plain ea 8 → ea % 8 = 0 → s.hwq = [] → s.mayStore ea 8 none = true → (∀ x k, s.recordAt pg = some (x, k) → ¬(ea ≤ x ∧ x < ea + 8)) →
    (s.harvestPage root die a).2 = 1 ∧ ((s.harvestPage root die a).1.rdN ea 8) = s.rdN ea 8 ||| 0x80 ∧
    (∀ b, ¬(ea ≤ b ∧ b < ea + 8) → (∀ k, s.recordAt pg ≠ some (b, k)) → (s.harvestPage root die a).1.byte b = s.byte b) ∧
    (s.srec.Nodup → pageOf ea ≠ pg → (s.harvestPage root die a).1.recorded pg = false))

/-- R342: a range of pages is done page by page, and the count is the sum. -/
def Sys2Proof.Claims.HarvestRange : Prop := ∀ (s : State) (root die : Nat) (va : W64) (k : Nat),
  let r := s.harvestPages root die va k
  let p := r.1.harvestPage root die (va + BitVec.ofNat 64 (k * 2 ^ 17))
  s.harvestPages root die va 0 = (s, 0) ∧ s.harvestPages root die va (k + 1) = (p.1, r.2 + p.2)

/-- R342: `HARVEST`, for a range of pages and for one. The model's choices in it: log entries 3, 24, 42. -/
def Obligations.StoreRecords : Prop :=
  Claims.Harvest ∧ Claims.HarvestPage ∧ Claims.HarvestRange

/-! ### Memory -/

/-- R73, R181, R191: loads give the little-endian bytes of memory, zero-extended or sign-extended. -/
def Sys2Proof.Claims.Loads : Prop := ∀ (s : State) (l : Nat) (x : Xl),
  let gives (i : Instr) (z : LdSize) (d : BitVec 10) (results : State → Prop) : Prop :=
    completes i s (destRegs z.n d) [] fun t => results t ∧ (inReg d = true → ∀ k, k < z.n → (t.grp s.cur).rd l (d.toNat + k) = (s.opened i).loaded z x.pa k)
  (∀ z w, s.atPlace (.ld z w) l w.a (offOf w.imm) z.bytes .load x → (s.opened (.ld z w)).uncached x.pa → s.deferLoads = false →
    gives (.ld z w) z w.d fun _ => True) ∧
  (∀ z w, s.atPlace (.ld z w) l w.a (offOf w.imm) z.bytes .load x → s.deferLoads = true → x.mt ≠ 1 → completes (.ld z w) s [] [] fun t =>
    (∃ o, (t.grp s.cur).loads = (s.grp s.cur).loads ++ [o] ∧ o.d = w.d ∧ o.size = z ∧ o.want = Mask.ofLanes [l] ∧ o.vals = []) ∧
    ∃ e, t.pend = s.pend ++ [e] ∧ e.party = s.cur ∧ e.lane = l ∧ e.pa = x.pa ∧ e.n = z.bytes ∧ e.out = some w.d) ∧
  (∀ z w, s.atPlace (.lda z w) l w.a 0#64 z.ld.bytes .load x → (s.opened (.lda z w)).uncached x.pa → s.deferLoads = false →
    gives (.lda z w) z.ld w.d fun t => cOrder w.c = 1 → 2 ≤ cScope w.c → s.cur.isLc = false →
      ∀ c ∈ t.copies, c.holder ≠ .l1 (s.coreOf s.cur) ∧ c.holder ≠ .kc (s.coreOf s.cur)) ∧
  (∀ n z w, s.cur = .lc n → s.atPlace (.ldres z w) l w.a (offOf w.imm) z.bytes .load x → x.mt ≠ 1 →
    gives (.ldres z w) (if z = .d then .d else .w) w.d fun t =>
      (t.lc n).resv = some { line := lineOf x.pa, deferEnd := s.pt + 128, recalled := false }) ∧
  (∀ z (w : ImmW), let m := s.opened (.ldk z w)
    s.ready (.ldk z w) → Mask.lanes (s.acting (.ldk z w)) = [l] → (m.window s.cur l w.a.toNat).getLsbD 0 = true →
    m.reaches s.cur l (windowAddr (m.window s.cur l w.a.toNat) w.imm.toNat) (4 * z.n) .load true false x → m.uncached x.pa →
    gives (.ldk z w) (if z = .d then .d else .w) w.d fun _ => True)

/-- R181, R191, R195: stores write the little-endian bytes of their registers, and nothing else. -/
def Sys2Proof.Claims.Stores : Prop := ∀ (s : State) (l : Nat) (x : Xl),
  let g := s.grp s.cur
  let writes (i : Instr) (n : Nat) (d : BitVec 10) : Prop :=
    s.becomes i s ((s.opened i).withStore x.pa (g.stored l d n)) [] [] fun _ => True
  (∀ z w, s.atPlace (.st z w) l w.a (offOf w.imm) z.bytes .store x → g.poi l w.d.toNat z.n = false → s.deferStores = false →
    (s.opened (.st z w)).homeBusy x.pa z.bytes (some s.cur) = false → writes (.st z w) z.bytes w.d) ∧
  (∀ z w, s.atPlace (.str z w) l w.a 0#64 z.st.bytes .store x → g.poi l w.d.toNat z.st.n = false → s.deferStores = false →
    (s.opened (.str z w)).homeBusy x.pa z.st.bytes (some s.cur) = false →
    (cOrder w.c = 2 → (s.opened (.str z w)).released s.cur (cScope w.c)) → writes (.str z w) z.st.bytes w.d)

/-- R183, R335, R336: the checks of a load and of a store in their order, on a latency core: a poisoned address, an address that is not
canonical or is the supervisor's, a misaligned one, a leaf that does not permit the access, poisoned store data; and the cause of a walk
that fails: 0x10 where the first table entry is not valid. -/
def Sys2Proof.Claims.MemoryTraps : Prop := ∀ (s : State) (n : Nat) (w : ImmW) (hw : W64), s.alone n → s.headerAt n (s.lc n).tvec hw →
  (s.lc n).tvec.toNat % 8 = 0 → (s.thr (.lc n) 0).got = none →
  let th := s.thr (.lc n) 0
  let sp := s.spaceOf (.lc n) 0
  let hs := s.tlbPath (.lc n)
  let a := (s.grp s.cur).src .int 2 w.a
  let va := a.val 0 + offOf w.imm
  let good := canonical va = true ∧ (upper va = true → (s.lc n).sup = true)
  let runs (i : Instr) : Prop := s.ready i ∧ Mask.has (s.acting i) 0 = true
  let traps (i : Instr) (code : Nat) (tval : W64) : Prop := runs i → ∃ t, exec i s = .next t ∧ s.trapped t n false code tval th.pc th.hoff hw
  (Mask.has a.poi 0 = true → ∀ z y, traps (.ld z w) 0x18 0#64 ∧ traps (.st y w) 0x18 0#64) ∧
  (Mask.has a.poi 0 = false → ¬ good → ∀ z y, traps (.ld z w) 0x13 va ∧ traps (.st y w) 0x13 va) ∧
  (Mask.has a.poi 0 = false → good → (∀ z, va.toNat % LdSize.bytes z ≠ 0 → traps (.ld z w) 0x12 va) ∧
    (∀ y, va.toNat % StSize.bytes y ≠ 0 → traps (.st y w) 0x12 va)) ∧
  (Mask.has a.poi 0 = false → good → ∀ z y, va.toNat % LdSize.bytes z = 0 → va.toNat % StSize.bytes y = 0 →
    (sp.en = false → sp.sup = false → traps (.ld z w) 0x13 va ∧ traps (.st y w) 0x13 va) ∧
    (sp.en = false → sp.sup = true → s.paOk (va.toNat % 2 ^ 52) = true → inReg w.d = true → (s.grp s.cur).poi 0 w.d.toNat y.n = true →
      traps (.st y w) 0x18 0#64) ∧
    (sp.en = true → s.admode = false → ∀ x, s.tlbFind hs sp va = some x → (∀ h ∈ hs, (s.tlbAt h sp va).isSome = true) →
      (permits x.leaf sp.sup .load = false → traps (.ld z w) 0x13 va) ∧ (permits x.leaf sp.sup .store = false → traps (.st y w) 0x13 va)) ∧
    (sp.en = true → s.tlbFind hs sp va = none → ∀ i k, (i = .ld z w ∧ k = .load ∨ i = .st y w ∧ k = .store) →
      ∀ m c, s.fill hs sp va k = (m, .error c) → c = 0x10 ∨ c = 0x13 → m.absent = none → m.headerAt n (m.lc n).tvec hw → runs i →
      ∃ t, exec i s = .next t ∧ m.trapped t n false c va th.pc th.hoff hw) ∧
    (s.nleaf = [] → s.moved = [] → s.mpoison = [] → let ea := sp.root + 8 * vaIndex va 1
      s.tableOk ea = true → s.rdN ea 8 % 2 = 0 → ∀ k, (s.fill hs sp va k).2 = .error 0x10))

/-- R183, R184, R185: a forme access of a thread whose offset is poisoned, misaligned, or reaches beyond the forme parks the thread at its
word; no register and no byte of the forme changes. -/
def Sys2Proof.Claims.FormeTraps : Prop := ∀ (s t : State) (tid j l : Nat) (w : ImmW) (f : Family), s.cur = .grp tid j → s.famOf s.cur l = some f →
  (∀ y ∈ s.waiters, y.party = s.cur → y.lane ≠ l) → (s.grp s.cur).gst ≠ .arriving →
  let a := (s.grp s.cur).src .int 1 w.a
  let off := (a.val l + offOf w.imm).toNat % 2 ^ 32
  let parks (i : Instr) (bytes : Nat) : Prop := s.ready i → Mask.lanes (s.acting i) = [l] → exec i s = .next t →
    Mask.has a.poi l = true ∨ off % bytes ≠ 0 ∨ (s.team tid).fsize < off + bytes →
    (t.thr s.cur l).pc = (s.thr s.cur l).pc ∧ (t.thr s.cur l).st = .faulted ∧ (t.grp s.cur).regs = (s.grp s.cur).regs ∧
      ∀ k, (t.team tid).fbyte k = (s.team tid).fbyte k
  (∀ z, parks (.ldf z w) (LdSize.bytes z)) ∧ (∀ y, parks (.stf y w) (StSize.bytes y))

/-- R73, R181, R183-R185, R191, R195: loads and stores, and their traps. The model's choices in it: log entry 6. -/
def Obligations.LoadsAndStores : Prop :=
  Claims.Loads ∧ Claims.Stores ∧ Claims.MemoryTraps ∧ Claims.FormeTraps

/-- R203, R204: `STCOND` stores and gives 0 while the reservation holds; otherwise it stores nothing and gives 1.
The model's choices in it: log entries 6, 46. -/
def Obligations.Reservations : Prop := ∀ (s : State) (l n : Nat) (x : Xl) (z : DSize) (w : ImmW), s.cur = .lc n →
  s.atPlace (.stcond z w) l w.a (offOf w.imm) z.bytes .store x → x.mt ≠ 1 → (s.grp s.cur).poi l w.d.toNat z.n = false →
  (∀ r, (s.lc n).resv = some r → r.line = lineOf x.pa → (r.recalled = false ∨ s.pt < r.deferEnd) → s.homeBusy x.pa z.bytes (some s.cur) = false →
    s.becomes (.stcond z w) s (s.withStore x.pa ((s.grp s.cur).stored l w.d z.bytes)) (destRegs z.n w.d) [] fun t =>
      t.holdsIn s.cur z.n w.d l 0 ∧ (t.lc n).resv = none) ∧
  ((∀ r, (s.lc n).resv = some r → r.line ≠ lineOf x.pa ∨ r.recalled = true ∧ r.deferEnd ≤ s.pt) →
    completes (.stcond z w) s (destRegs z.n w.d) [] fun t => t.holdsIn s.cur z.n w.d l 1 ∧ (t.lc n).resv = none)

/-- R205-R209: atomics give the old value and store the new one, in one step at the home of the line; `AADDT` wakes the waiters at its
address when the new value has reached its threshold. The model's choices in it: log entry 6. -/
def Obligations.Atomics : Prop := ∀ (s : State) (l : Nat) (x : Xl) (w : BaseW),
  let g := s.grp s.cur
  let old (i : Instr) (n : Nat) : Nat := (s.opened i).rdN x.pa n
  let free (i : Instr) (n : Nat) : Prop := s.atPlace i l w.a 0#64 n .rmw x ∧ s.deferAtomics = false ∧
    (s.opened i).homeBusy x.pa n none = false ∧ (s.opened i).poisoned x.pa n = false ∧ (cOrder w.c = 2 ∨ cOrder w.c = 3 → (s.opened i).released s.cur (cScope w.c))
  let makes (i : Instr) (n : Nat) (new : Option Nat) : Prop :=
    s.becomes i s (match new with | some v => (s.opened i).withStore x.pa (natLe n v) | none => s.opened i) (destRegs (n / 4) w.d) [] fun t =>
      t.holdsIn s.cur (n / 4) w.d l (old i n)
  let n := 4 * cSz w.c
  let lo (k : Nat) : BitVec (8 * n) := BitVec.ofNat (8 * n) (if cSz w.c = 2 then g.rd64 l (w.b.toNat + 2 * k) else (g.rd l (w.b.toNat + k)).setWidth 64).toNat
  (∀ op, free (.amo op w) n → Mask.has (g.src .int (cSz w.c) w.b).poi l = false →
    makes (.amo op w) n (some (atomValue op (BitVec.ofNat (8 * n) (old (.amo op w) n)) (BitVec.ofNat (8 * n) (s.opnd .int (cSz w.c) w.b l).toNat)).toNat)) ∧
  (free (.acas w) n → g.poi l w.b.toNat (2 * cSz w.c) = false →
    makes (.acas w) n (if BitVec.ofNat (8 * n) (old (.acas w) n) = lo 0 then some (lo 1).toNat else none)) ∧
  (free (.aaddt w) n → g.poi l w.b.toNat (2 * cSz w.c) = false →
    let i := Instr.aaddt w
    let v := BitVec.ofNat (8 * n) (old i n) + lo 0
    s.becomes i s ((s.opened i).withStore x.pa (natLe n v.toNat)) (destRegs (n / 4) w.d) [] fun t => t.holdsIn s.cur (n / 4) w.d l (old i n) ∧
      ((lo 1).toNat ≤ v.toNat → ∀ y ∈ (s.opened i).waitersAt x.pa, ∀ k, y.party = .lc k → k < 96 → y.party ≠ s.cur → s.running y.party = true →
        y.lane < (s.grp y.party).threads.length →
        ((t.thr y.party y.lane).st = .ready ∨ (t.thr y.party y.lane).st = .parked) ∧ (t.thr y.party y.lane).got.isSome = true)) ∧
  (∀ f : FFmt, let b := g.src f.kind f.n w.b
    free (.afadd f w) (4 * f.n) → Mask.has b.poi l = false →
    makes (.afadd f w) (4 * f.n) (some ((unEl f.width ((List.range f.count).map fun k =>
      (f.fmt.add 0 false (el f.width k (BitVec.ofNat 64 (old (.afadd f w) (4 * f.n)))) (b.fel f l k)).1)).toNat)))

/-- R210-R213, R211, R323: `WAITV` gives the value at once when its condition holds, and parks the thread as a waiter otherwise; `WAKE`
gives the number of waiters that it has woken. The model's choices in it: log entries 6, 21, 46. -/
def Obligations.WaitAndWake : Prop := ∀ (s : State) (l : Nat) (x : Xl) (w : BaseW),
  let n := 4 * cSz w.c
  let b := (s.grp s.cur).src .int (cSz w.c) w.b
  (∀ c, let i := Instr.waitv c w
    let old := (s.opened i).rdN x.pa n
    s.atPlace i l w.a 0#64 n .load x → x.mt ≠ 1 → Mask.has b.poi l = false → (s.opened i).homeBusy x.pa n none = false →
    ((WCond.cond c (b.val l)).holds n old = true → completes i s (destRegs (cSz w.c) w.d) [] fun t => t.holdsIn s.cur (cSz w.c) w.d l old) ∧
    ((WCond.cond c (b.val l)).holds n old = false → (s.opened i).poisoned x.pa n = false → (s.opened i).regRoom (homeDie x.pa) = true →
      s.waits i (fun _ => .engineWait) fun t => ∃ y ∈ t.waiters, y.party = s.cur ∧ y.lane = l ∧ y.pa = x.pa ∧ y.n = n ∧ y.registered = true ∧
        y.cond = .cond c (b.val l))) ∧
  (let i := Instr.wake w
    let m := s.opened i
    let k := ((s.opnd .int 1 w.b l).toNat) % 2 ^ 32
    s.atPlace i l w.a 0#64 4 .load x → x.mt ≠ 1 → Mask.has ((s.grp s.cur).src .int 1 w.b).poi l = false →
    (cOrder w.c = 2 → m.released s.cur (cScope w.c)) →
    completes i s (destRegs 1 w.d) [] fun t => t.holdsIn s.cur 1 w.d l (min (m.waitersAt x.pa).length k) ∧
      ∀ y ∈ (m.waitersAt x.pa).take k, ∀ h, y.party = .lc h → h < 96 → y.party ≠ s.cur → s.running y.party = true → y.lane < (s.grp y.party).threads.length →
        ((t.thr y.party y.lane).st = .ready ∨ (t.thr y.party y.lane).st = .parked) ∧ (t.thr y.party y.lane).got.isSome = true)

/-- R196, R201, R202: fences, prefetches and line operations complete and store nothing. The model's choices in it: log entries 36, 43. -/
def Obligations.FencesAndLines : Prop := ∀ (s : State) (l : Nat) (x : Xl),
  (∀ w : BaseW, s.ready (.fence w) → (∀ k, Mask.has (s.acting (.fence w)) k = true → s.proofed s.cur k = false) →
    s.awaited s.cur = false → (cOrder w.c = 2 ∨ cOrder w.c = 3 → (s.opened (.fence w)).released s.cur (cScope w.c)) → completes (.fence w) s [] [] fun t =>
      s.acting (.fence w) ≠ 0#64 → cOrder w.c = 1 ∨ cOrder w.c = 3 → 2 ≤ cScope w.c → s.cur.isLc = false →
      ∀ c ∈ t.copies, c.holder ≠ .l1 (s.coreOf s.cur) ∧ c.holder ≠ .kc (s.coreOf s.cur)) ∧
  (∀ v w, let i := Instr.pref v w
    s.ready i → Mask.lanes (s.acting i) = [l] → (s.opened i).reaches s.cur l (s.opnd .int 2 w.a l + offOf w.imm) 1 .load false true x →
    completes i s [] [] fun _ => True) ∧
  (∀ o w, let i := Instr.cline o w
    s.ready i → Mask.lanes (s.acting i) = [l] → Mask.has ((s.grp s.cur).src .int 2 w.a).poi l = false →
    (s.opened i).reaches s.cur l (s.opnd .int 2 w.a l + offOf w.imm) 1 .load false true x → (∀ y ∈ s.pend, s.finds s.cur y = false) →
    completes i s [] [] fun t => o = .drop →
      (∀ n, s.cur = .lc n → ∀ e ∈ t.dir, ¬(e.line = lineOf x.pa ∧ e.core = n)) ∧
      (s.cur.isLc = false → ∀ c ∈ t.copies, c.line = lineOf x.pa → c.holder ≠ .l1 (s.coreOf s.cur)))

/-- R292-R295, R314, R324: the steps that perform an issued store, load, atomic or release, and that register a waiter. -/
def Sys2Proof.Claims.IssuedAccesses : Prop := ∀ (s : State) (k : Nat) (e : Pend), s.absent = none → s.memOk →
  s.pend[k]? = some e → s.plain e.pa e.n → s.running e.party = true → e.lane < (s.grp e.party).threads.length → e.lane < 64 →
  (∀ y ∈ s.pend, y ≠ e → s.finds e.party y = true → ¬(y.pa < e.pa + e.n ∧ e.pa < y.pa + y.n)) → s.pend.Nodup →
  let others : Prop := ∀ y ∈ s.pend, y.party = e.party → y = e ∨ ∃ d rh, y.kind = .store d rh
  let goesOn (t : State) : Prop := (t.thr e.party e.lane).st = .ready ∨ (t.thr e.party e.lane).st = .parked
  (∀ d rh, e.kind = .store d rh → d.length = e.n → s.homeBusy e.pa e.n (some e.party) = false →
    ∃ t, exec (.homeStorePerform k) s = .next t ∧ (∀ a, t.byte a = (s.setBytes e.pa d).byte a) ∧ t.pend = s.pend.erase e) ∧
  (∀ mt lc rh, e.kind = .load mt lc rh → e.out = none → s.sameLoad e = [e] → s.uncached e.pa → ∃ t, exec (.loadPerform k) s = .next t ∧
    (t.thr e.party e.lane).got = some (s.rdN e.pa e.n, s.poisoned e.pa e.n) ∧ (∀ a, t.byte a = s.byte a) ∧ t.pend = s.pend.erase e ∧
    ((s.thr e.party e.lane).st = .engineWait → others → goesOn t)) ∧
  (∀ mt lc rh o, e.kind = .load mt lc rh → e.out = some o.d → s.sameLoad e = [e] → s.uncached e.pa → s.poisoned e.pa e.n = false →
    (s.grp e.party).loads = [o] → o.want = Mask.ofLanes [e.lane] → o.vals = [] → e.n = o.size.bytes →
    Mask.has (s.grp e.party).live e.lane = true → ((s.grp e.party).single = true → e.lane = 0) → ∃ t, exec (.loadPerform k) s = .next t ∧
    (t.grp e.party).loads = [] ∧ (∀ a, t.byte a = s.byte a) ∧ t.pend = s.pend.erase e ∧
    (inReg o.d = true → o.d.toNat + o.size.n ≤ 768 → ∀ k, k < o.size.n → (t.grp e.party).rd e.lane (o.d.toNat + k) = s.loaded o.size e.pa k)) ∧
  (∀ w : BaseW, ∀ b1 b2 : W64, e.kind = .rmw (.amo .add w) b1 b2 → s.sameAtomic e = [e] → e.n = 4 * cSz w.c → s.homeBusy e.pa e.n none = false →
    s.poisoned e.pa e.n = false → (s.thr e.party e.lane).st = .engineWait →
    ∃ t, exec (.tetherAtomicPerform k) s = .next t ∧ (t.thr e.party e.lane).got = some (s.rdN e.pa e.n, false) ∧
      (others → goesOn t) ∧ t.rdN e.pa e.n = (s.rdN e.pa e.n + b1.toNat) % 2 ^ (8 * e.n))

/-- R295, R324: a release that a thread waits in is performed; a waiter held at its core registers when there is room. -/
def Sys2Proof.Claims.ReleaseAndRegister : Prop := ∀ (s : State), s.absent = none →
  (∀ p l scope, (s.thr p l).rel = some scope → s.running p = true → l < (s.grp p).threads.length → s.released p scope →
    ∃ t, exec (.releasePerform p l) s = .next t ∧ (t.thr p l).passed = true ∧ (t.thr p l).rel = none ∧ t.mem = s.mem) ∧
  (∀ k y, s.waiters[k]? = some y → y.registered = false → s.regRoom (homeDie y.pa) = true → y.cond.holds y.n (s.rdN y.pa y.n) = false →
    ∃ t, exec (.overflowRegistration k) s = .next t ∧ { y with registered := true } ∈ t.waiters ∧ t.mem = s.mem)

/-- R292-R295, R324: accesses that were issued are performed later. The model's choices in it: log entry 6. -/
def Obligations.DelayedAccesses : Prop :=
  Claims.IssuedAccesses ∧ Claims.ReleaseAndRegister

/-- R95, R191: reading after writing gives the bytes written, and every other byte is as before. The model's choices in it: log entry 1. -/
def Obligations.MemoryReadWrite : Prop := ∀ (s : State) (a : Nat) (data : List Byte), s.memOk →
  (s.setBytes a data).memOk ∧ (s.setBytes a data).bytes a data.length = data ∧
  ∀ b, ¬(a ≤ b ∧ b < a + data.length) → (s.setBytes a data).byte b = s.byte b

/-! ### Forme, barriers, strings -/

/-- R197-R199: loads and stores of the team's forme, and of the forme of a team of the cluster. The model's choices in it: log entry 8. -/
def Obligations.Forme : Prop := ∀ (s : State) (tid j l off : Nat),
  let g := s.grp s.cur
  let reads (i : Instr) (z : LdSize) (d : BitVec 10) (f : Nat → Byte) : Prop := completes i s (destRegs z.n d) [] fun t =>
    inReg d = true → ∀ k, k < z.n → (t.grp s.cur).rd l (d.toNat + k) = loadedFrom f z off k
  let holds (t : State) (k n : Nat) (d : BitVec 10) : Prop := (t.team k).fbytes off n = g.stored l d n ∧
    ∀ b, ¬(off ≤ b ∧ b < off + n) → (t.team k).fbyte b = (s.team k).fbyte b
  let pos (w : BaseW) : Nat := (s.opnd .int 1 w.b l).toNat % 2 ^ 32
  let posOk (w : BaseW) : Prop := Mask.has (g.src .int 1 w.b).poi l = false ∧ pos w < ((s.fam? (s.team tid).fam).map Family.cluster).getD 1
  (∀ z w, s.atForme (.ldf z w) tid j l w.a (offOf w.imm) z.bytes off → reads (.ldf z w) z w.d (s.team tid).fbyte) ∧
  (∀ z w, s.atForme (.stf z w) tid j l w.a (offOf w.imm) z.bytes off → g.poi l w.d.toNat z.n = false →
    completes (.stf z w) s [] [] fun t => holds t tid z.bytes w.d) ∧
  (∀ z w, s.atForme (.ldfc z w) tid j l w.a 0#64 z.bytes off → posOk w →
    (∀ u, s.teamAt (s.team tid) (pos w) = some u → pos w ≠ (s.team tid).cip → reads (.ldfc z w) z w.d u.fbyte) ∧
    (pos w = (s.team tid).cip → reads (.ldfc z w) z w.d (s.team tid).fbyte) ∧
    (s.teamAt (s.team tid) (pos w) = none → reads (.ldfc z w) z w.d fun _ => 0#8)) ∧
  (∀ z w, s.atForme (.stfc z w) tid j l w.a 0#64 z.bytes off → posOk w → g.poi l w.d.toNat z.n = false →
    (∀ u, s.teamAt (s.team tid) (pos w) = some u → completes (.stfc z w) s [] [] fun t => holds t u.tid z.bytes w.d) ∧
    (s.teamAt (s.team tid) (pos w) = none → completes (.stfc z w) s [] [] fun t => ∀ k b, (t.team k).fbyte b = (s.team k).fbyte b))

/-- R214, R216, R218: an arrival adds its count; the last one starts the next phase; an excess sets OVR. -/
def Sys2Proof.Claims.BarrierObjects : Prop := ∀ o n, o < 2 ^ 64 → n < 2 ^ 16 →
  let a := objArrived o + n
  objExpected (arrive o n) = objExpected o ∧ objScope (arrive o n) = objScope o ∧ arrive o n < 2 ^ 64 ∧
  (n = 0 ∨ a < objExpected o → objPhase (arrive o n) = objPhase o ∧ objArrived (arrive o n) = a % 2 ^ 16 ∧ arrive o n / 2 ^ 63 = o / 2 ^ 63) ∧
  (0 < n → objExpected o ≤ a → objPhase (arrive o n) = (objPhase o + 1) % 2 ^ 16 ∧ objArrived (arrive o n) = 0 ∧
    arrive o n / 2 ^ 63 = if objExpected o < a then 1 else o / 2 ^ 63)

/-- R217-R220: barrier instructions on an object in memory. -/
def Sys2Proof.Claims.MemoryBarriers : Prop := ∀ (s : State) (l b : Nat) (x : Xl) (w : BaseW), x.mt ≠ 1 →
  let at_ (i : Instr) (k : AccKind) : Prop := s.atPlace i l w.a 0#64 8 k x ∧ s.atBarrier i l w b ∧ (s.opened i).memOk ∧
    (s.opened i).poisoned x.pa 8 = false ∧ (s.opened i).homeBusy x.pa 8 none = false ∧ (s.opened i).regRoom (homeDie x.pa) = true
  let obj (i : Instr) : Nat := (s.opened i).rdN x.pa 8
  let d (i : Instr) : Nat := (objPhase (obj i) + 2 ^ 16 - b) % 2 ^ 16
  let waiter (t : State) (tok : Nat) : Prop := ∃ y ∈ t.waiters, y.party = s.cur ∧ y.lane = l ∧ y.pa = x.pa ∧ y.cond = .phase tok ∧ y.registered = true
  (at_ (.bari .mem w) .store → s.becomes (.bari .mem w) s ((s.opened (.bari .mem w)).withStore x.pa (natLe 8 (b + cScope w.c * 2 ^ 48))) [] [] fun _ => True) ∧
  (at_ (.bara .mem w) .rmw → s.becomes (.bara .mem w) s ((s.opened (.bara .mem w)).withStore x.pa (natLe 8 (arrive (obj (.bara .mem w)) b)))
    (destRegs 1 w.d) [] fun t => t.holdsIn s.cur 1 w.d l (objPhase (obj (.bara .mem w)))) ∧
  (at_ (.barw .mem w) .load →
    (0 < d (.barw .mem w) → d (.barw .mem w) < 2 ^ 15 → completes (.barw .mem w) s (destRegs 1 w.d) [] fun t =>
      t.holdsIn s.cur 1 w.d l (min (d (.barw .mem w)) 255)) ∧
    (d (.barw .mem w) = 0 → s.waits (.barw .mem w) (fun _ => .engineWait) fun t => waiter t b)) ∧
  (at_ (.bart .mem w) .load → d (.bart .mem w) < 2 ^ 15 → completes (.bart .mem w) s (destRegs 1 w.d) [] fun t =>
    t.holdsIn s.cur 1 w.d l (min (d (.bart .mem w)) 255)) ∧
  (at_ (.barx .mem w) .rmw →
    let m := (s.opened (.barx .mem w)).withStore x.pa (natLe 8 (arrive (obj (.barx .mem w)) b))
    let o := obj (.barx .mem w)
    (0 < b → objExpected o ≤ objArrived o + b → s.becomes (.barx .mem w) s m (destRegs 1 w.d) [] fun t => t.holdsIn s.cur 1 w.d l 1) ∧
    (b = 0 ∨ objArrived o + b < objExpected o → ∃ t, exec (.barx .mem w) s = .next t ∧ Keeps s m t [] [] ∧ s.keepsTeams t (.barx .mem w) ∧ waiter t (objPhase o) ∧
      (t.thr s.cur l).pc = (s.thr s.cur l).pc ∧ (t.thr s.cur l).st = .engineWait ∧ (t.thr s.cur l).barTok = some (objPhase o)))

/-- R217-R220: barrier instructions on an object in the team's forme. -/
def Sys2Proof.Claims.FormeBarriers : Prop := ∀ (s : State) (tid j l off b : Nat) (w : BaseW), (s.team tid).fpoi off 8 = false →
  let at_ (i : Instr) : Prop := s.atForme i tid j l w.a 0#64 8 off ∧ s.atBarrier i l w b
  let o := leNat ((s.team tid).fbytes off 8)
  let d : Nat := (objPhase o + 2 ^ 16 - b) % 2 ^ 16
  let holds (t : State) (v : Nat) : Prop := (t.team tid).fbytes off 8 = natLe 8 v ∧
    ∀ c, ¬(off ≤ c ∧ c < off + 8) → (t.team tid).fbyte c = (s.team tid).fbyte c
  let waiter (t : State) (tok : Nat) : Prop := ∃ y ∈ t.waiters, y.party = s.cur ∧ y.lane = l ∧ y.forme = some tid ∧ y.pa = off ∧ y.cond = .phase tok
  (at_ (.bari .forme w) → completes (.bari .forme w) s [] [] fun t => holds t (b + cScope w.c * 2 ^ 48)) ∧
  (at_ (.bara .forme w) → completes (.bara .forme w) s (destRegs 1 w.d) [] fun t => holds t (arrive o b) ∧ t.holdsIn s.cur 1 w.d l (objPhase o)) ∧
  (at_ (.barw .forme w) →
    (0 < d → d < 2 ^ 15 → completes (.barw .forme w) s (destRegs 1 w.d) [] fun t => t.holdsIn s.cur 1 w.d l (min d 255)) ∧
    (d = 0 → (s.team tid).late off s.pt = false → s.waits (.barw .forme w) (fun _ => .formeWait) fun t => waiter t b)) ∧
  (at_ (.bart .forme w) → d < 2 ^ 15 → completes (.bart .forme w) s (destRegs 1 w.d) [] fun t => t.holdsIn s.cur 1 w.d l (min d 255)) ∧
  (at_ (.barx .forme w) → 0 < b → objExpected o ≤ objArrived o + b →
    completes (.barx .forme w) s (destRegs 1 w.d) [] fun t => holds t (arrive o b) ∧ t.holdsIn s.cur 1 w.d l 1)

/-- R216, R218: `BARW` and `BART` trap with cause 0x21 on a latency core where the token is no phase that the object has left within the
last 2^15 phases, nor its present one. -/
def Sys2Proof.Claims.BarrierTokens : Prop := ∀ (s : State) (n b : Nat) (x : Xl) (w : BaseW) (hw : W64), s.alone n → x.mt ≠ 1 →
  ∀ i ∈ [Instr.barw .mem w, .bart .mem w], s.atPlace i 0 w.a 0#64 8 .load x → s.atBarrier i 0 w b → (s.opened i).memOk →
  (s.opened i).poisoned x.pa 8 = false → (s.opened i).homeBusy x.pa 8 none = false → (s.opened i).regRoom (homeDie x.pa) = true →
  2 ^ 15 ≤ (objPhase ((s.opened i).rdN x.pa 8) + 2 ^ 16 - b) % 2 ^ 16 →
  let th := s.thr (.lc n) 0
  let m := ((s.opened i).barStep s.cur (.mem (s.opnd .int 2 w.a 0) x) fun _ => none).1
  m.absent = none → m.headerAt n (m.lc n).tvec hw → (m.lc n).tvec.toNat % 8 = 0 →
  ∃ t, exec i s = .next t ∧ m.trapped t n false 0x21 0#64 th.pc th.hoff hw

/-- R214-R220: barrier objects in memory and in the forme. The model's choices in it: log entries 6, 21. -/
def Obligations.Barriers : Prop :=
  Claims.BarrierObjects ∧ Claims.MemoryBarriers ∧ Claims.FormeBarriers ∧ Claims.BarrierTokens

/-- R246: `HASH`. -/
def Sys2Proof.Claims.Hashes : Prop := ∀ (s : State) (w : BaseW),
  let mix (x seed : W64) : W64 :=
    let h0 := x ^^^ seed
    let h1 := (h0 ^^^ h0 >>> 31) * 0xD6E8FEB86659FD93#64
    let h2 := (h1 ^^^ h1 >>> 32) * 0xD6E8FEB86659FD93#64
    h2 ^^^ h2 >>> 32
  (s.ready (.hash false w) → s.writes (.hash false w) 2 w.d fun l => mix (s.opnd .int 2 w.a l) (s.opnd .int 2 w.b l)) ∧
  (s.ready (.hash true w) → s.writes (.hash true w) 2 w.d fun l =>
    mix (s.opnd .int 2 w.a l ^^^ (s.opnd .int 2 w.b l <<< 17 ||| s.opnd .int 2 w.b l >>> 47)) (s.opnd .int 2 w.c l))

/-- R247: `shash` of the empty string, of one byte, and of a word. -/
def Sys2Proof.Claims.StringHash : Prop := ∀ (b : Byte) (bs : List Byte) (seed : W64), bs.length = 8 →
  shash [] seed = mix64 (rotl17 (mix64 0#64 seed)) seed ∧
  shash [b] seed = mix64 (b.setWidth 64 ^^^ rotl17 (mix64 1#64 seed)) (seed ^^^ 1#64) ∧
  shash bs seed = mix64 (rotl17 (mix64 (BitVec.ofNat 64 (leNat bs) ^^^ rotl17 (mix64 8#64 seed)) seed)) (seed ^^^ 8#64)

/-- R247, R248: string hashes, comparisons and prefixes, read by supervisor software byte by byte. -/
def Sys2Proof.Claims.Strings : Prop := ∀ (s : State) (n : Nat) (w : BaseW), s.alone n →
  let g := s.grp s.cur
  let a := s.opnd .int 2 w.a 0
  let len : Nat := (s.opnd .int 1 w.b 0).toNat % 2 ^ 32
  let ok (i : Instr) : Prop := s.ready i ∧ Mask.has (s.acting i) 0 = true ∧ Mask.has (g.src .int 2 w.a).poi 0 = false
  (ok (.shash w) → Mask.has (g.src .int 1 w.b).poi 0 = false → s.stringAt n a len → s.writes (.shash w) 2 w.d fun _ =>
    shash (s.stringOf a len) (s.opnd .int 2 w.c 0)) ∧
  (ok (.scmp w) → Mask.has (g.src .int 2 w.b).poi 0 = false → g.poi 0 w.c.toNat 2 = false →
    let b := s.opnd .int 2 w.b 0
    let la := (g.rd 0 w.c.toNat).toNat
    let lb := (g.rd 0 (w.c.toNat + 1)).toNat
    s.stringAt n a (min la lb) → s.stringAt n b (min la lb) → s.puts (.scmp w) 1 w.d fun _ x =>
      ∀ r, r = (if (s.stringOf a (min la lb)) = s.stringOf b (min la lb) then (if la < lb then 0xFFFFFFFF#32 else if lb < la then 1#32 else 0#32)
        else cmpBytes (s.stringOf a (min la lb)) (s.stringOf b (min la lb))) → x = r.setWidth 64) ∧
  (ok (.spfx w) → Mask.has (g.src .int 1 w.b).poi 0 = false → s.stringAt n a (min 8 len) → s.puts (.spfx w) 2 w.d fun _ x =>
    ∀ k, k < 8 → x.extractLsb' (56 - 8 * k) 8 = if k < len then (s.stringOf a (min 8 len)).getD k 0#8 else 0#8)

/-- R246-R248: hashes and strings. -/
def Obligations.HashesAndStrings : Prop :=
  Claims.Hashes ∧ Claims.StringHash ∧ Claims.Strings

/-! ### Platen -/

/-- R223-R227: a queued platen instruction of a quad's member joins the first operation that its quarter has not joined, and gives the
operation's promise. The model's choices in it: log entry 7. -/
def Obligations.PlatenIssue : Prop := ∀ (s : State) (tid j k cycles : Nat) (kind : PlKind) (useData col : Bool) (ends : Ctl → List Nat)
    (w : BaseW) (i : Instr),
  (∃ t, i = .mma t w ∧ kind = .mma t ∧ cycles = nOf w.c / 2 ∧ useData = true ∧ col = false ∧ ends = mmaEnds t) ∨
    (∃ t, i = .mmac t w ∧ kind = .mmac t ∧ cycles = nOf w.c / 2 ∧ useData = true ∧ col = true ∧ ends = mmaEnds t) ∨
    (i = .mzero w ∧ kind = .mzero ∧ cycles = 32 ∧ useData = false ∧ col = false ∧ ends = fun _ => []) ∨
    (i = .mload w ∧ kind = .mload ∧ cycles = 2 * nOf w.c ∧ useData = true ∧ col = false ∧
      ends = fun c => [rowArea c.data (16 * c.pitch) 128 (4 * nOf w.c)]) →
  s.cur = .grp tid j → s.ready i → s.acting i ≠ 0#64 →
  let tm := s.team tid
  let g := s.grp s.cur
  let l0 := (Mask.lanes (s.acting i)).headD 0
  let ctl := (List.range 4).map fun n => g.rd l0 (w.a.toNat + n)
  tm.quad = true → tm.member j = true → (col = true → ((s.opened i).columnOf ((s.opened i).team tid)).isSome = true) → g.poi l0 w.a.toNat 4 = false →
  ctlCheck (ctlOf ctl) tm.fsize useData true false (ends (ctlOf ctl)) = none →
  (∀ n, n < k → ∃ o, tm.plq[n]? = some o ∧ (o.members.any fun m => m.quarter == j % 4) = true) →
  (∀ o, tm.plq[k]? = some o → (o.members.any fun m => m.quarter == j % 4) = false) → k ≤ tm.plq.length → k < 8 →
  let promise := max s.pt (tm.promiseBefore k) + 100 + (10 * cycles + 13) / 14 + (if col then 200 else 0)
  completes i s (destRegs 2 w.d) [] fun t =>
    (inReg w.d = true → ∀ l, Mask.has (s.acting i) l = true → t.dest s.cur 2 w.d l = BitVec.ofNat 64 promise) ∧
    ∃ o m, (t.team tid).plq[k]? = some o ∧ m ∈ o.members ∧ m.quarter = j % 4 ∧ m.kind = kind ∧ m.ctl = ctl ∧ m.breg = w.b.toNat ∧
      m.act = s.acting i ∧ m.promise = promise

/-- R228-R232, R111-R114, R225: the head operation of a quad. At its start it reads its B spans and performs its first K block of 32
products: the exact sum, rounded once to the accumulator's FP32, with the special cases of R112, or the INT32 sum; or it fills the tiles with zeros, words of the forme, or NaN when its members disagree; each later block follows in a step of its own;
then the status appears. The model's choices in it: log entries 8, 15. -/
def Obligations.PlatenOperations : Prop := ∀ (s : State) (tid : Nat) (o : PlOp) (rest : List PlOp) (m : PlMember) (ms : List PlMember),
  let tm := s.team tid
  s.team? tid = some tm → tm.tid = tid → tm.st = .resident → (∀ x ∈ s.repairs, x.src ≠ tid ∧ x.dst ≠ tid) →
  tm.plq = o :: rest → o.members = m :: ms → tm.tiles.length = 4 →
  let c := ctlOf m.ctl
  let n := nOf m.c
  let word (t : State) (q r col : Nat) : Nat := ((t.team tid).tile q).get r col
  let goesTo (i : Instr) (next : Nat) (r : State → Prop) : Prop := ∃ t p, exec i s = .next t ∧ (t.team tid).plq = p :: rest ∧
    p.started = true ∧ p.members = o.members ∧ p.next = next ∧ (∀ q, ((t.team tid).tile q).status = (tm.tile q).status) ∧ r t
  let block (p : PlOp) (blk : Nat) (t : State) : Prop := ∀ q r col, q < 4 → r < 32 → col < n →
    (BitVec.ofNat 32 (word t q r col)).toInt = (((tm.tile q).get r col : Int) + ((List.range 32).map fun k =>
      sgn 8 (tm.elemA .int8 c (32 * q + r) (32 * blk + k)) * sgn 8 (p.elemB .int8 (32 * blk + k) col)).sum).bmod (2 ^ 32)
  let floats (p : PlOp) (ty : PType) (blk : Nat) (t : State) : Prop := ∀ q r col, q < 4 → r < 32 → col < n →
    let a (k : Nat) : FV := ty.fmt.dec (tm.elemA ty c (32 * q + r) (32 * blk + k))
    let b (k : Nat) : FV := ty.fmt.dec (p.elemB ty (32 * blk + k) col)
    let sa : Nat := if ty.mx then tm.scaleA c (32 * q + r) blk else 127
    let sb : Nat := if ty.mx then p.scaleB ty blk col else 127
    let acc : FV := F32.dec ((tm.tile q).get r col)
    let v := word t q r col
    let signed (neg : Bool) (x : Nat) : Int := if neg then -(x : Int) else x
    (sa = 0xFF ∨ sb = 0xFF ∨ acc.isNan = true ∨ (∃ k, k < 32 ∧ ((a k).isNan = true ∨ (b k).isNan = true)) → v = 0x7FC00000) ∧
    (∀ k neg zneg e, k < 32 → a k = .inf neg ∧ b k = .fin zneg 0 e ∨ a k = .fin zneg 0 e ∧ b k = .inf neg → v = 0x7FC00000) ∧
    (sa ≠ 0xFF → sb ≠ 0xFF → ∀ (na nb : Nat → Bool) (ma mb : Nat → Nat) (ea eb : Nat → Int) (nc : Bool) (mc : Nat) (ec lo : Int),
      (∀ k, k < 32 → a k = .fin (na k) (ma k) (ea k) ∧ b k = .fin (nb k) (mb k) (eb k) ∧ lo ≤ ea k + eb k + (sa : Int) + sb - 254) →
      acc = .fin nc mc ec → lo ≤ ec →
      let tot : Int := ((List.range 32).map fun k =>
        signed (na k ^^ nb k) (ma k * mb k * 2 ^ (ea k + eb k + (sa : Int) + sb - 254 - lo).toNat)).sum + signed nc (mc * 2 ^ (ec - lo).toNat)
      (tot = 0 → v = 0 ∨ v = 0x80000000) ∧
      (tot ≠ 0 → ∃ fl, F32.delivers 0 false (satOf m.c) (decide (tot < 0)) (Exact.dyadic tot.natAbs lo) (v, fl)))
  let beyond (t : State) : Prop := ∀ q r col, q < 4 → r < 32 → n ≤ col → col < 256 → word t q r col = word s q r col
  (o.started = false → o.next = 0 → o.marks = [] → o.formed = true → o.agrees = true →
    (m.kind = .mzero → goesTo (.platenOpStart tid) 1 fun t => ∀ q r col, q < 4 → r < 32 → col < 256 → word t q r col = 0) ∧
    (m.kind = .mload → goesTo (.platenOpStart tid) 1 fun t => ∀ q r col, q < 4 → r < 32 → col < n →
      word t q r col = leNat (tm.fbytes (c.data + 16 * c.pitch * (32 * q + r) + 4 * col) 4)) ∧
    (m.kind = .mma .int8 → goesTo (.platenOpStart tid) 1 (block { o with bspan := tm.spans o } 0)) ∧
    (∀ ty, m.kind = .mma ty → goesTo (.platenOpStart tid) 1 beyond) ∧
    (∀ ty, ty ≠ .int8 → m.kind = .mma ty → goesTo (.platenOpStart tid) 1 (floats { o with bspan := tm.spans o } ty 0))) ∧
  (o.started = false → o.next = 0 → o.marks = [] → o.formed = true → o.agrees = false → o.isMmac = false →
    goesTo (.platenOpStart tid) 4 fun t => ∀ q r col, q < 4 → r < 32 → col < 256 → word t q r col = 0x7FC00000) ∧
  (o.started = true → o.next < o.blocks true →
    (m.kind = .mma .int8 → goesTo (.platenOpComplete tid) (o.next + 1) (block o o.next)) ∧
    (∀ ty, m.kind = .mma ty → goesTo (.platenOpComplete tid) (o.next + 1) beyond) ∧
    (∀ ty, ty ≠ .int8 → m.kind = .mma ty → goesTo (.platenOpComplete tid) (o.next + 1) (floats o ty o.next))) ∧
  (o.started = true → o.blocks true ≤ o.next → o.bar = none → (∃ (j : Nat) (g : Group), tm.groups[j]? = some (some g) ∧ g.live ≠ 0#64) →
    tm.packed = false → o.marks.length = 4 → s.absent = none →
    ∃ t, exec (.platenOpComplete tid) s = .next t ∧ (t.team tid).plq = rest ∧
      ∀ q, q < 4 → ((t.team tid).tile q).status = (tm.tile q).status ||| o.marks.getD q 0#4)

/-- R115, R116, R233-R235: drains and status reads of a quad's member whose queue holds nothing of its quarter.
The model's choices in it: log entry 8. -/
def Obligations.PlatenDrains : Prop := ∀ (s : State) (tid j : Nat) (w : BaseW), s.cur = .grp tid j →
  let tm := s.team tid
  let g := s.grp s.cur
  let q := j % 4
  let tile := tm.tile q
  tm.quad = true → tm.member j = true → (∀ o ∈ tm.plq, ∀ m ∈ o.members, m.quarter ≠ q) → q < tm.tiles.length →
  let flags (i : Instr) (st : BitVec 4) (l : Nat) : Flags := if Mask.has (s.acting i) l then statusFlags st else 0#32
  (∀ ty, let i := Instr.mdrain ty w
    let l0 := (Mask.lanes (s.acting i)).headD 0
    let cb := ctlOf ((List.range 4).map fun k => g.rd l0 (w.a.toNat + k))
    let n := nOf w.c
    s.ready i → s.acting i ≠ 0#64 → g.poi l0 w.a.toNat 4 = false → ty.mx = false → ty.outRow n ≤ 16 * cb.pitch →
    ctlCheck cb tm.fsize true false false [rowArea cb.data (16 * cb.pitch) (32 * q + 32) (ty.outRow n)] = none →
    ∃ t st, exec i s = .next t ∧ s.movedOn t ∧ KeepsF s (s.opened i) t [] [] (flags i st) ∧ ((t.team tid).tile q).status = st ∧
      ∀ r, r < 32 → (t.team tid).fbytes (cb.data + 16 * cb.pitch * (32 * q + r)) (drainRow ty n (satOf w.c) (tile.get r)).1.length =
        (drainRow ty n (satOf w.c) (tile.get r)).1) ∧
  (∀ v, let i := Instr.mdrainv v w
    let l0 := (Mask.lanes (s.acting i)).headD 0
    let j0 := 8 * ((s.opnd .int 1 w.a l0).toNat % 32)
    let bits := 8 * v.n
    let e (l k : Nat) : Nat :=
      let x := tile.get (l % 32) (j0 + 4 * (l / 32) + k)
      match drainvFmt v with | some f => (drainConv f (satOf w.c) x).1 | none => x
    s.ready i → s.acting i ≠ 0#64 → ∃ t st, exec i s = .next t ∧ s.movedOn t ∧ KeepsF s (s.opened i) t (destRegs v.n w.d) [] (flags i st) ∧
      ((t.team tid).tile q).status = st ∧ ∀ l, Mask.has (s.acting i) l = true →
        t.holdsIn s.cur v.n w.d l (((List.range 4).map fun k => e l k % 2 ^ bits * 2 ^ (bits * k)).sum)) ∧
  (s.ready (.mstat w) → s.acting (.mstat w) ≠ 0#64 → completes (.mstat w) s (destRegs 1 w.d) [] fun t =>
      (inReg w.d = true → ∀ l, Mask.has (s.acting (.mstat w)) l = true → t.dest s.cur 1 w.d l = tile.status.setWidth 64) ∧
      ((t.team tid).tile q).status = if w.c.getLsbD 1 then 0#4 else tile.status)

/-! ### Spool -/

/-- R236-R238, R243: a spool instruction enters its operation at the end of its queue and gives its promise. -/
def Sys2Proof.Claims.SpoolIssue : Prop := ∀ (s : State) (tid j l : Nat) (q : QueueNo) (sp : SpSpace) (w : BaseW) (kind : SpKind) (i : Instr) (srcG dstG : Bool),
  (i = .cpy q sp w ∧ kind = .cpy ∨ i = .cpyt q sp w ∧ kind = .cpyt ∨ i = .cgath q sp w ∧ kind = .cgath ∨ i = .cscat q sp w ∧ kind = .cscat ∨
      i = .cpart q sp w ∧ kind = .cpart) ∧ srcG = sp.srcG ∧ dstG = sp.dstG ∨
    (∃ f, i = .cfill q f w ∧ kind = .cfill ∧ srcG = false ∧ dstG = (f == .gg)) →
  s.cur = .grp tid j → s.ready i → Mask.lanes (s.acting i) = [l] →
  let g := s.grp s.cur
  let m := s.opened i
  let wide (glob : Bool) (c : BitVec 10) : Src := if glob then g.src .int 2 c else g.src .int 1 c
  let low (glob : Bool) (v : W64) : W64 := if glob then v else BitVec.ofNat 64 (v.toNat % 2 ^ 32)
  let a := wide (kind == .cfill || srcG) w.a
  let b := wide dstG w.b
  let o : SpOp := { kind := kind, srcG := srcG, dstG := dstG, grp := j, lane := l, pc := (g.thr l).pc, a := low (kind == .cfill || srcG) (a.val l),
                    b := low dstG (b.val l), par := (List.range 8).map fun k => g.rd l (w.c.toNat + k), promise := 0 }
  Mask.has a.poi l = false → Mask.has b.poi l = false → (∀ k ∈ spReads kind, g.poi l (w.c.toNat + k) 1 = false) →
  m.spoolCheck s.cur l (s.team tid).fsize o = none → s.proofed s.cur l = false → m.released s.cur 1 →
  (s.team tid).spq.length = 4 → ((s.team tid).queue q.toNat).pending < 64 →
  let x := (s.team tid).queue q.toNat
  let promise := m.spoolPromise s.cur l x o
  completes i s (destRegs 2 w.d) [] fun t => t.holdsIn s.cur 2 w.d l promise ∧
    ((t.team tid).queue q.toNat).items = x.items ++ [.op { o with promise := promise, num := x.done + x.pending }] ∧
    ((t.team tid).queue q.toNat).lastp = promise

/-- R244, R245: `CFENCE` completes at once and raises the floor of the queues that it joins; `CSTAT` gives DONE, FLT, PEND and LASTP. -/
def Sys2Proof.Claims.SpoolQueues : Prop := ∀ (s : State) (tid j : Nat) (w : BaseW), s.cur = .grp tid j → (s.team tid).spq.length = 4 →
  (∀ mask, s.ready (.cfence mask w) → s.acting (.cfence mask w) ≠ 0#64 → completes (.cfence mask w) s [] [] fun t =>
    (∀ p q, p < 4 → q < 4 → p ≠ q → mask.getLsbD p = true → mask.getLsbD q = true →
      ((s.team tid).queue q).lastp ≤ ((t.team tid).queue p).floor) ∧
    ∀ p, p < 4 → ((t.team tid).queue p).pending = ((s.team tid).queue p).pending) ∧
  (∀ q : QueueNo, s.ready (.cstat q w) → (∀ l, Mask.has (s.acting (.cstat q w)) l = true → s.proofed s.cur l = false) →
    completes (.cstat q w) s (destRegs 4 w.d) [] fun t =>
      let x := (s.team tid).queue q.toNat
      inReg w.d = true → ∀ l, Mask.has (s.acting (.cstat q w)) l = true →
        x.lastp < 2 ^ 64 → x.pending < 2 ^ 16 →
        t.dest s.cur 2 w.d l = BitVec.ofNat 64 x.lastp ∧
        ((t.grp s.cur).rd l (w.d.toNat + 2)).toNat % 2 ^ 16 = x.pending ∧
        ((t.grp s.cur).rd l (w.d.toNat + 2)).getLsbD 16 = (x.items.any fun y => match y with | .op o => o.parked.isSome | .fence _ => false) ∧
        (t.grp s.cur).rd l (w.d.toNat + 3) = BitVec.ofNat 32 x.done)

/-- R236-R238, R243-R245: entering operations in the queues of the spool, and their state. The model's choices in it: log entries 7, 48. -/
def Obligations.SpoolQueuing : Prop :=
  Claims.SpoolIssue ∧ Claims.SpoolQueues

/-- R239-R242: an operation inside the forme runs to its end, element by element: `CPY`, `CPYT`, `CGATH`, `CSCAT`, `CPART`, `CFILL`; an index beyond the forme parks a gather; a finished operation leaves its queue.
The model's choices in it: log entry 16. -/
def Obligations.SpoolOperations : Prop := ∀ (s : State) (tid q : Nat) (o : SpOp) (rest : List SpItem),
  let tm := s.team tid
  s.team? tid = some tm → tm.tid = tid → tm.st = .resident → tm.spq.length = 4 → q < 4 → (tm.queue q).items = .op o :: rest → o.parked = none →
  o.part = none → (∀ x ∈ s.repairs, x.src ≠ tid ∧ x.dst ≠ tid) → s.absent = none → s.segs = [] →
  (o.kind = .cfill → o.dstG = false → o.next = 0 → (o.b.toNat % 2 ^ 32) + o.len ≤ tm.fsize →
    ∃ t, exec (.spoolOpStart tid q) s = .next t ∧
      (∀ k, k < o.len → (t.team tid).fbyte (o.b.toNat % 2 ^ 32 + k) = BitVec.ofNat 8 (o.a.toNat / 2 ^ (8 * (k % 8)))) ∧
      (∀ a, ¬(o.b.toNat % 2 ^ 32 ≤ a ∧ a < o.b.toNat % 2 ^ 32 + o.len) → (t.team tid).fbyte a = tm.fbyte a) ∧ t.mem = s.mem ∧
      ((t.team tid).queue q).items.head? = some (.op { o with next := o.len, started := true })) ∧
  (o.srcG = false → o.dstG = false → o.next = 0 → tm.fpoison = [] → tm.fsize ≤ 2 ^ 32 → ∀ f, o.moved tm.fsize tm.fbyte o.total = some f →
    ∃ t, exec (.spoolOpStart tid q) s = .next t ∧ (∀ a, (t.team tid).fbyte a = f a) ∧ t.mem = s.mem ∧
      ((t.team tid).queue q).items.head? = some (.op { o with next := o.total, started := true })) ∧
  (o.kind = .cgath → o.srcG = false → o.next < o.total → o.w 3 + 4 * o.next + 4 ≤ tm.fsize → tm.fpoi (o.w 3 + 4 * o.next) 4 = false →
    let r : SpRun := { p := .grp tid o.grp, lane := o.lane, tid := tid, qn := q }
    tm.fsize < (o.a.toNat % 2 ^ 32) + leNat (tm.fbytes (o.w 3 + 4 * o.next) 4) * o.w 4 + o.len →
    (s.spPark r o { cause := 0x14 }).absent = none →
    ∃ t, exec (.spoolOpFault tid q) s = .next t ∧ ((t.team tid).queue q).items.head? = some (.op { o with parked := some 0x14 })) ∧
  (o.total ≤ o.next → o.bar = none → (∃ (j : Nat) (g : Group), tm.groups[j]? = some (some g) ∧ g.live ≠ 0#64) → tm.packed = false → (∀ x ∈ rest, x.isOp = true) →
    ∃ t, exec (.spoolOpComplete tid q) s = .next t ∧ ((t.team tid).queue q).items = rest ∧
      ((t.team tid).queue q).done = ((tm.queue q).done + 1) % 2 ^ 32)

/-! ### Migration -/

/-- R254, R255, R258, R260, R268, R269: `MIGR.OUT` and `MIGR.OUT.solo`. A status in D when a check fails; otherwise the family exists, its
parent record holds the thread's registers, and the core has taken interrupt 0x01. `r` is the outcome of the checks before.
The model's choices in it: log entries 3, 11, 25. -/
def Obligations.MigrationOut : Prop := ∀ (s : State) (n : Nat) (w : BaseW) (hw : W64), s.alone n →
  let g := s.grp (.lc n)
  let pc := (s.thr (.lc n) 0).pc
  let status (i : Instr) (m : State) (k : Int) : Prop := s.becomes i s m (destRegs 2 w.d) [] fun t =>
    inReg w.d = true → t.dest (.lc n) 2 w.d 0 = BitVec.ofInt 64 k
  (let i := Instr.migrOut w
   let m := s.opened i
   let N := (s.opnd .int 1 w.a 0).toNat % 2 ^ 32
   let da := s.opnd .int 2 w.b 0
   let r := (m.outStart (.lc n) false).bind fun s1 _ => s1.outChecks n w.d.toNat N da
   s.ready i → Mask.has (s.acting i) 0 = true → Mask.has (g.src .int 1 w.a).poi 0 = false → Mask.has (g.src .int 2 w.b).poi 0 = false →
   (∀ s1 s2 bs, m.outStart (.lc n) false = (s1, .ok ()) → da.toNat % 64 = 0 → s1.outLoad (.lc n) da 64 = (s2, .ok bs) → s2.absent = none →
      (N = 0 → status i s2 (-7)) ∧ (N ≠ 0 → leNat ((bs.drop 56).take 8) = 0 ∨ leNat ((bs.drop 56).take 8) % 64 ≠ 0 → status i s2 (-2))) ∧
   (∀ k, r.2 = .ok (.status k) → r.1.absent = none → status i r.1 k) ∧
   (∀ f, r.2 = .ok (.family f) → f.leased = false → r.1.absent = none → r.1.released (.lc n) 5 → r.1.headerAt n (r.1.lc n).tvec hw →
      (r.1.lc n).tvec.toNat % 8 = 0 →
      ∃ t, exec i s = .next t ∧ r.1.trapped t n true 1 (BitVec.ofNat 64 f.famid.toNat) 0#64 0 hw ∧
        ∃ y ∈ t.fams, y.famid = f.famid ∧ y.n = N ∧ y.d = w.d.toNat ∧ y.outPc = pc ∧ y.origin = n ∧ ∀ k, y.parent.reg k = g.reg k)) ∧
  (let i := Instr.migrOutSolo w
   let r := (s.opened i).outStart (.lc n) false
   let solos := (s.fams.filter fun f => f.solo).length
   s.ready i → Mask.has (s.acting i) 0 = true → Mask.has (g.src .int 2 w.b).poi 0 = false → r.2 = .ok () → r.1.absent = none →
   (s.freeSlots = [] → status i r.1 (-1)) ∧
   (s.freeSlots ≠ [] → Config.soloThreads ≤ solos → status i r.1 (-8)) ∧
   (s.freeSlots ≠ [] → solos < Config.soloThreads → r.1.released (.lc n) 5 → r.1.headerAt n (r.1.lc n).tvec hw → (r.1.lc n).tvec.toNat % 8 = 0 →
      ∃ t f, exec i s = .next t ∧ r.1.trapped t n true 1 (BitVec.ofNat 64 f.famid.toNat) 0#64 0 hw ∧ f ∈ t.fams ∧ f.solo = true ∧ f.n = 1 ∧
        f.d = w.d.toNat ∧ f.outPc = pc ∧ f.origin = n ∧ (inReg w.d = true → f.parent.rd64 0 w.d.toNat = 0#64) ∧
        ∀ k, k ∉ destRegs 2 w.d → f.parent.reg k = g.reg k))

/-- R132, R262-R264: `MIGR.IN` adds the contribution to the family's reduction and closes it at its first use, the solo form completes
the thread's record, and `EXIT` contributes nothing; the thread has ended. The model's choices in it: log entries 19, 25. -/
def Obligations.MigrationIn : Prop := ∀ (s : State) (tid j l : Nat) (f : Family), s.cur = .grp tid j → s.famOf s.cur l = some f →
  (s.grp s.cur).gst ≠ .arriving → s.frecs = [] →
  let g := s.grp s.cur
  let th := g.thr l
  let pc := th.pc
  let acts (i : Instr) : Prop := s.ready i ∧ Mask.lanes (s.acting i) = [l] ∧ s.proofed s.cur l = false ∧ s.released s.cur 5
  let ended (t : State) : Prop := Mask.has (t.grp s.cur).live l = false ∧ ∀ a, t.byte a = s.byte a
  (∀ op (w : BaseW), let i := Instr.migrIn op w
    let x := s.opnd .int 2 w.a l
    let old := if f.redAny then f.redval else redIdentity op.code
    acts i → (s.team tid).packed = false → f.solo = false → w.d = 1023#10 ∨ w.d.toNat = f.d → Mask.has (g.src .int 2 w.a).poi l = false →
    f.closed = none ∨ f.closed = some (op.code, pc + 8#64) →
    ∃ t y, exec i s = .next t ∧ ended t ∧ t.fam? th.fam = some y ∧ y.closed = some (op.code, pc + 8#64) ∧ y.redAny = true ∧
      y.redval = match op with
        | .add => old + x
        | .min => if x.slt old then x else old
        | .minu => if x.ult old then x else old
        | .max => if old.slt x then x else old
        | .maxu => if old.ult x then x else old
        | .or => old ||| x
        | .and => old &&& x
        | .first => if x = 0#64 ∨ (f.redIdx.any fun k => decide (k ≤ th.tix)) = true then old else x) ∧
  (∀ w : BaseW, let i := Instr.migrInSolo w
    acts i → f.solo = true → w.d = 1023#10 → w.a = 0#10 →
    ∃ t y, exec i s = .next t ∧ ended t ∧ t.fam? th.fam = some y ∧
      y.completed = some { pc := pc + 8#64, result := none, flags := 0#32, exitMark := false } ∧ ∀ k, y.parent.rd 0 k = g.rd l k) ∧
  (∀ w : CtlW, let i := Instr.exit w
    acts i → (f.solo = false → (s.team tid).packed = false → ∃ t y, exec i s = .next t ∧ ended t ∧ t.fam? th.fam = some y ∧ y.redval = f.redval ∧
        ((s.team tid).rid = 0 → y.ended = f.ended + 1) ∧ y.flags = f.flags ||| (th.fcsr &&& 0xDF#32)) ∧
      (f.solo = true → ∃ t y, exec i s = .next t ∧ ended t ∧ t.fam? th.fam = some y ∧
        y.completed = some { pc := pc, result := none, flags := 0#32, exitMark := true } ∧ ∀ k, y.parent.rd 0 k = g.rd l k))

/-! ### Families and teams -/

/-- R286, R344: `FSTOP` and `FRESUME` on families, with their statuses; `FRESUME` on a thread that stands in a fault.
The model's choices in it: log entry 26. -/
def Obligations.FamilyControl : Prop := ∀ (s : State) (n : Nat) (w : CtlW), s.alone n →
  let g := s.grp (.lc n)
  let id : W32 := s.word w.a 0
  let sel := (s.word w.b 0).toNat
  let ok (i : Instr) : Prop := s.ready i ∧ Mask.has (s.acting i) 0 = true ∧ Mask.has (g.src .int 1 w.a).poi 0 = false ∧
    Mask.has (g.src .int 1 w.b).poi 0 = false ∧ (i ≠ .fstopStop w → i ≠ .fstopEnd w → Mask.has (g.src .int 1 w.c).poi 0 = false)
  let gives (i : Instr) (m : State) (k : Int) (r : State → Prop) : Prop := s.becomes i s m (destRegs 1 w.d) [] fun t =>
    r t ∧ (inReg w.d = true → t.dest (.lc n) 1 w.d 0 = (BitVec.ofInt 32 k).setWidth 64)
  let answers (i : Instr) (r : State → Prop) : Prop := ∃ t, exec i s = .next t ∧ s.movedOn t ∧ r t ∧
    (∀ k, k ∉ destRegs 1 w.d → (t.grp (.lc n)).reg k = g.reg k) ∧ (inReg w.d = true → t.dest (.lc n) 1 w.d 0 = 0#64) ∧ ∀ a, t.byte a = s.byte a
  let all : List Instr := [.fstopStop w, .fstopEnd w, .fresumeRestart w, .fresumeResume w, .fresumeSkip w, .fresumeKill w]
  (∀ i ∈ all, ok i → ((s.fam? id).all fun f => f.state == .ended) = true → gives i (s.opened i) (-1) fun _ => True) ∧
  (∀ f, s.fam? id = some f → f.state ≠ .ended →
    (ok (.fstopStop w) → 1 < sel → gives (.fstopStop w) (s.opened (.fstopStop w)) (-3) fun _ => True) ∧
    (ok (.fstopStop w) → sel = 0 → f.state = .stopped → (g.thr 0).since = none → gives (.fstopStop w) (s.opened (.fstopStop w)) (-2) fun _ => True) ∧
    (ok (.fstopStop w) → sel = 0 → f.state = .ready ∨ f.state = .walking →
      let m := (s.modFam id fun y => { y with fromWalking := f.state == .walking }).enterStopped id
      m.absent = none → gives (.fstopStop w) m 0 fun t => ∃ y, t.fam? id = some y ∧ y.state = .stopped) ∧
    (ok (.fstopStop w) → sel = 0 → f.state = .running → f.solo = false →
      (s.active id ≠ [] → s.waits (.fstopStop w) (fun _ => .ready) fun t =>
        (∃ y, t.fam? id = some y ∧ y.stopping = true) ∧ ∀ x ∈ t.teams, x.fam = id → x.packed = false → x.st ≠ .resident) ∧
      (let m := (s.modFam id fun x => { x with stopping := true }).enterStopped id
       s.active id = [] → m.absent = none → ∃ t, exec (.fstopStop w) s = .next t ∧ Keeps s m t [] [] ∧ (∃ y, t.fam? id = some y ∧ y.state = .stopped) ∧
         (t.thr (.lc n) 0).pc = (s.thr (.lc n) 0).pc ∧ (t.thr (.lc n) 0).st = .ready)) ∧
    (ok (.fstopEnd w) → s.frecs = [] → answers (.fstopEnd w) fun t => ∃ y x, t.fam? id = some y ∧ y.state = .ended ∧ y.cause = some 0xFF ∧
      y.completed = some x ∧ x.pc = f.outPc + 8#64 ∧ x.result = some (BitVec.ofInt 64 (-(256 + 255))) ∧ ∀ z ∈ t.teams, z.fam = id → z.packed = true) ∧
    (ok (.fresumeRestart w) → 3 < sel → gives (.fresumeRestart w) (s.opened (.fresumeRestart w)) (-3) fun _ => True) ∧
    (ok (.fresumeRestart w) → sel = 0 → f.state ≠ .stopped → gives (.fresumeRestart w) (s.opened (.fresumeRestart w)) (-2) fun _ => True) ∧
    (ok (.fresumeRestart w) → sel = 0 → f.state = .stopped → f.solo = false → gives (.fresumeRestart w) (s.opened (.fresumeRestart w)) 0 fun t =>
      ∃ y, t.fam? id = some y ∧ y.state = if f.fromWalking then .walking else .ready) ∧
    (∀ i ∈ [Instr.fresumeResume w, .fresumeSkip w, .fresumeKill w], ok i → s.faultedAt id (s.word w.c 0).toNat = [] →
      s.parkedOps id (s.word w.c 0).toNat = [] → gives i (s.opened i) (-4) fun _ => True) ∧
    (∀ tid j l, s.faultedAt id (s.word w.c 0).toNat = [(tid, j, l)] → s.parkedOps id (s.word w.c 0).toNat = [] → (s.team tid).st = .resident →
      (s.thr (.grp tid j) l).st = .faulted → (s.grp (.grp tid j)).gst ≠ .arriving →
      let th := s.thr (.grp tid j) l
      (ok (.fresumeResume w) → answers (.fresumeResume w) fun t => t.thr (.grp tid j) l = { th with st := .ready, ordered := 0 }) ∧
      (ok (.fresumeSkip w) → (∀ m v, (s.opened (.fresumeSkip w)).fetch (.grp tid j) l th.pc = (m, .ok v) → v.toNat / 2 ^ 56 ≠ 0x08) →
        answers (.fresumeSkip w) fun t => (t.thr (.grp tid j) l).pc = th.pc + 8#64 ∧ (t.thr (.grp tid j) l).st = .ready) ∧
      (ok (.fresumeKill w) → s.frecs = [] → answers (.fresumeKill w) fun t => Mask.has (t.grp (.grp tid j)).live l = false)))

/-- R134, R252, R261, R343, R348, R352-R357, R367, R417: the steps of the family scheduler and of the dispatcher.
The model's choices in it: log entries 19, 28, 38, 42. -/
def Obligations.Scheduling : Prop := ∀ (s : State) (fam : W32) (f : Family), s.fam? fam = some f →
  let fams (t : State) (r : Family → Prop) : Prop := ∃ y, t.fam? fam = some y ∧ r y
  let same (t : State) : Prop := ∀ a, t.byte a = s.byte a
  (f.state ≠ .ended → ∃ t, exec (.ballastAccrual fam) s = .next t ∧ same t ∧ fams t fun y =>
    1000 * y.ballast + y.ballastFrac = min (1000 * f.cap) (1000 * f.ballast + f.ballastFrac + f.rate * (s.pt - f.accAt)) ∧ y.ballastFrac < 1000 ∧
      y.accAt = s.pt) ∧
  (∀ va m, f.state = .walking → f.admitPages = [va] → s.admitWalk f va = (m, none) → m.absent = none →
    ∃ t, exec (.admissionRetry fam) s = .next t ∧ fams t fun y => y.state = .ready ∧ y.admitPages = [] ∧ y.rank = s.pt) ∧
  (∀ inst t0, f.passed = [(inst, t0)] → t0 + 1000000 ≤ s.pt → inst ∉ f.reserving →
    ∃ t, exec (.dispatchReserving fam inst) s = .next t ∧ same t ∧ fams t fun y => y.reserving = f.reserving ++ [inst]) ∧
  (∀ inst, let mine := s.sliceTeams f inst
    let expired := mine.filter fun x => decide (s.pt ≥ x.since + f.slice)
    (s.requestDue mine = true → exec (.timeSliceExpiry fam inst) s = .next s) ∧
    (expired ≠ [] → s.requestDue mine = false →
      (s.someoneWaits f mine expired = true → ∃ t, exec (.timeSliceExpiry fam inst) s = .next t ∧ same t ∧ ∀ x ∈ t.teams,
        x.tid ∈ mine.map (·.tid) → x.st ≠ .resident) ∧
      (s.someoneWaits f mine expired = false → ∃ t, exec (.timeSliceExpiry fam inst) s = .next t ∧ same t ∧
        t.teams.map (·.st) = s.teams.map (·.st) ∧ ∀ x ∈ t.teams, x.tid ∈ expired.map (·.tid) → x.since = s.pt))) ∧
  (∀ tid tm, s.team? tid = some tm → tm.fam = fam → tm.packed = false → tm.st = .saving →
    let mine := (s.teamsOf fam).filter fun x => x.st == .saving && (f.cohort || x.num / f.area == tm.num / f.area)
    let m := mine.foldl (fun st x => st.saveTeam x) s
    (∀ x ∈ mine, s.teamQuiet x = true) → (((m.writeHeader fam).simtUpdate fam).familySettle fam).absent = none →
    ∃ t, exec (.teamSaveComplete tid) s = .next t ∧ ∀ x ∈ mine, (t.team x.tid).st = .saved) ∧
  ((s.fams.filter fun g => s.watchDue g) = [f] → s.absent = none → s.frecs = [] →
    faultQueueSize s f.queue ≤ s.rdHw (s.faultQueue f.queue 8) 8 - s.rdN (s.faultQueue f.queue 0) 8 →
    ∃ t, exec .watchdogExpiry s = .next t ∧ same t ∧ (fams t fun y => y.stopping = true) ∧
      (∃ r, t.frecs = [r] ∧ r.fam = fam ∧ (r.dws.headD 0#64).toNat % 256 = 0x30) ∧
      ∀ x ∈ t.teams, x.fam = fam → x.packed = false → x.st ≠ .resident) ∧
  (s.faultDrain.absent = none → ∃ t, exec (.faultQueueRetry fam) s = .next t ∧ t.frecs.Sublist s.frecs ∧
    ((∀ r ∈ s.frecs, r.fam ≠ fam) → t = s)) ∧
  (∃ t, exec .packingIntervalExpiry s = .next t ∧ same t ∧ (∀ k ∈ s.packs, k.opened + s.packint.toNat ≤ s.pt → k ∉ t.packs) ∧
    (∀ k ∈ t.packs, k ∈ s.packs) ∧ ∀ k, s.packs = [k] → k.opened + s.packint.toNat ≤ s.pt → k.members.length ≤ 64 →
      ∃ x, t.teams = s.teams ++ [x] ∧ x.packed = true ∧ x.st = .pending ∧ ∀ l, l < k.members.length → Mask.has (x.grp 0).live l = true ∧
        ((x.grp 0).thr l).pc = k.hdr ∧ ∀ r, r < 768 → (x.grp 0).rd l r = ((k.members.getD l (0#32, {})).2).rd 0 r) ∧
  (s.drainint ≠ 0#32 → s.drain.busy = false → s.drain.last + s.drainint.toNat * 1000000000 ≤ s.pt → (∀ x ∈ s.teams, x.packed = false → (s.fam? x.fam).isSome = true) →
    ∀ u, s.nextUnit = some u → ∃ t, exec .selfTestDrain s = .next t ∧ same t ∧ t.drain = { unit := u, last := s.pt, busy := true } ∧
      ∀ x ∈ t.teams, testUnit x.core = u → x.st ≠ .resident) ∧
  (s.drain.busy = true → (∀ h ∈ s.holds, testUnit h.core ≠ s.drain.unit) → s.absent = none →
    ∃ t, exec (.scanSelfTestDone []) s = .next t ∧ same t ∧ t.drain = { s.drain with busy := false } ∧ ∀ c, t.core c = s.core c) ∧
  (s.link.aligned = true → f.solo = false → f.state = .ready → f.stopping = false → s.teams = [] → s.fams = [f] → f.n = 64 → f.teams = 1 → f.repl = 1 →
    f.cohort = false → f.nextInst = 0 → f.cw = 1 → f.chh = 1 → f.affinity = [] → f.groups = 1 → f.regSpace ≤ 1536 * 1024 → f.formeSize ≤ 2 ^ 20 →
    s.coreUsable 0 = true → s.absent = none →
    ∃ t x g, exec .teamDispatch s = .next t ∧ t.teams = [x] ∧ x.st = .resident ∧ x.core = 0 ∧ x.fam = fam ∧ x.groups = [some g] ∧
      g.live = 0xFFFFFFFFFFFFFFFF#64 ∧ fams t (fun y => y.state = .running) ∧
      ∀ l, l < 64 → (g.thr l).pc = f.outPc + 8#64 ∧ (f.d + 1 < f.nregs → g.rd l f.d = BitVec.ofNat 32 l ∧ g.rd l (f.d + 1) = 0#32) ∧
        ∀ r, r < f.nregs → r ≠ f.d → r ≠ f.d + 1 → g.rd l r = f.parent.rd 0 r)

/-- R363, R378-R383, R388: a machine check ends a family, restarts a team of a restartable one, and has a team in triple mode repaired;
equal intervals of two replicas pass their proof point, a late replica is repaired, and a repair copies the source's groups.
The model's choices in it: log entries 14, 27, 29. -/
def Obligations.ChecksAndProofs : Prop := ∀ (s : State) (fam : W32) (f : Family), s.fam? fam = some f →
  (∀ tid tm, s.team? tid = some tm → tm.fam = fam → tm.packed = false → tm.st = .resident → tm.specs = [] →
    let m := s.checkRecord tm fam
    (f.repl ≤ 1 → f.restartable = false → f.state ≠ .ended → m.absent = none → s.frecs = [] →
      ∃ t y, exec (.machineCheck tid) s = .next t ∧ t.fam? fam = some y ∧ y.state = .ended ∧ y.cause = some 0x19) ∧
    (f.repl ≤ 1 → f.restartable = true → tm.restarts < 3 → f.stopping = false → f.state = .running → m.absent = none →
      ∃ t, exec (.machineCheck tid) s = .next t ∧ ∃ x, t.team? tid = some x ∧ x.st = .pending ∧ x.restarts = tm.restarts + 1 ∧ x.groups = []) ∧
    (∀ src, f.repl = 3 → (s.copies_ tm).find? (fun x => x.rid != tm.rid && (x.st == .resident || x.st == .saving || x.st == .saved)) = some src →
      s.absent = none → ∃ t, exec (.machineCheck tid) s = .next t ∧ ∃ r ∈ t.repairs, r.src = src.tid ∧ r.dst = tid)) ∧
  (∀ tix e0 e1 a b j j' l l', f.repl = 2 → s.entriesOf fam tix = [e0, e1] → e0.rid = 0 → e1.rid = 1 → e0.q = e1.q → s.oncesOf fam tix = [] →
    s.segs = [] →
    s.copyOf f 0 tix = some (a, j, l) → s.copyOf f 1 tix = some (b, j', l') → a.tid ≠ b.tid → (s.teams.map (·.tid)).Nodup →
    ((a.grp j).thr l).held = [] → l < (a.grp j).threads.length → l' < (b.grp j').threads.length → s.absent = none →
    (e0.pc = e1.pc → e0.count = e1.count → e0.sig = e1.sig →
      ∃ t, exec (.proofComparison fam tix) s = .next t ∧ (∀ c, t.byte c = s.byte c) ∧ t.entriesOf fam tix = [] ∧
        (t.thr (.grp a.tid j) l).passed = true ∧ (t.thr (.grp b.tid j') l').passed = true ∧
        (((a.grp j).thr l).st = .proofWait → (t.thr (.grp a.tid j) l).st = .ready) ∧ (t.thr (.grp a.tid j) l).q = ((a.grp j).thr l).q + 1) ∧
    (e0.sig ≠ e1.sig → f.restartable = false → f.state ≠ .ended → ∀ t, exec (.proofComparison fam tix) s = .next t →
      ∃ y, t.fam? fam = some y ∧ y.state = .ended ∧ y.cause = some 0x28)) ∧
  (∀ tix e0 e1 k a b c j j' j'' l l' l'', f.repl = 3 → s.proofs = [e0, e1] → e0.rid = 0 → e1.rid = 1 → e0.pc = e1.pc → e0.count = e1.count →
    e0.sig = e1.sig → e0.q = e1.q → s.entriesOf fam tix = [e0, e1] → s.onces = [] → s.segs = [] →
    (s.clocks.filter fun c => c.fam == fam && c.tix == tix && decide (c.count ≥ 1000000)) = [k] → k.key = .interval e0.q →
    s.copyOf f 0 tix = some (a, j, l) → s.copyOf f 1 tix = some (b, j', l') → s.copyOf f 2 tix = some (c, j'', l'') →
    ((a.grp j).thr l).held = [] → l < (a.grp j).threads.length → (s.teams.map (·.tid)).Nodup → a.tid ≠ b.tid → a.tid ≠ c.tid →
    ((a.grp j).thr l).st = .proofWait → s.absent = none →
    ∃ t, exec (.proofTimeout fam tix) s = .next t ∧ (t.thr (.grp a.tid j) l).passed = true ∧ ∃ r ∈ t.repairs, r.src = a.tid ∧ r.dst = c.tid) ∧
  (∀ k r a b, s.repairs[k]? = some r → s.team? r.src = some a → s.team? r.dst = some b → a.tid ≠ b.tid → b.fam = fam → b.st = .resident →
    f.state ≠ .stopped → s.absent = none → ∃ t x, exec (.repairComplete k) s = .next t ∧ t.repairs = s.repairs.eraseIdx k ∧ t.team? r.dst = some x ∧
      x.rid = b.rid ∧ x.core = b.core ∧ (∀ j q, (x.grp j).reg q = (a.grp j).reg q) ∧ (∀ j l, ((x.grp j).thr l).pc = ((a.grp j).thr l).pc) ∧
      ∃ y, t.fam? fam = some y ∧ y.repairs = f.repairs + 1#32)

/-- R14, R22, R122, R125, R335: a parked thread enters a run, a rejoin point is released after 2^16 cycles, a prediction is resolved, with
the tags of before where the window wrote nothing, a translation is walked for. The model's choices in it: log entries 22, 38, 47, 50. -/
def Obligations.RunEvents : Prop := ∀ (s : State) (tid j : Nat), s.running (.grp tid j) = true →
  let p : Party := .grp tid j
  let g := s.grp p
  (∀ l, (g.thr l).st = .parked → l < g.threads.length → ∃ t, exec (.runTableUnpark tid j l) s = .next t ∧ (t.thr p l).pc = (g.thr l).pc ∧
    ((t.thr p l).st = .ready ∨ (t.thr p l).st = .parked) ∧ (t.grp p).regs = g.regs) ∧
  (∀ id c0, (∃ q ∈ g.points, q.id = id ∧ q.first = some c0) → c0 + 2 ^ 16 ≤ s.cycOf p → ∃ t, exec (.rejoinTimeout tid j id) s = .next t ∧
    (∀ q ∈ (t.grp p).points, q.id ≠ id) ∧ (∀ l, l < g.threads.length → (g.thr l).st = .rejoin id →
      (t.thr p l).st = .ready ∨ (t.thr p l).st = .parked) ∧ (t.grp p).regs = g.regs) ∧
  (∀ sp, s.specOf p = some sp → s.absent = none → (sp.predicted ^^^ sp.actual) &&& sp.run = 0#64 →
    ∃ t, exec (.maskPredictionResolve tid j) s = .next t ∧ t.specOf p = none ∧ (t.grp p).mpPred = min 0xFFFFFFFF (g.mpPred + 1) ∧ (t.grp p).mpMiss = g.mpMiss ∧
      (t.grp p).regs = g.regs ∧ (t.grp p).preds = g.preds) ∧
  (∀ sp, s.specOf p = some sp → s.absent = none → (sp.predicted ^^^ sp.actual) &&& sp.run ≠ 0#64 →
    ∃ t, exec (.maskPredictionResolve tid j) s = .next t ∧ t.specOf p = none ∧ (t.grp p).mpMiss = min 0xFFFFFFFF (g.mpMiss + 1) ∧
      ∀ l, l < g.threads.length → l < 64 → Mask.has ((sp.predicted ^^^ sp.actual) &&& sp.run) l = true →
        (t.thr p l).pc = (sp.before.thr l).pc ∧ (t.thr p l).blk = (sp.before.thr l).blk ∧ (∀ r, (t.grp p).rd l r = sp.before.rd l r) ∧
        ∀ n, n < 7 → g.preds.length = 7 → sp.before.preds.length = 7 → (t.grp p).pred n l = sp.before.pred n l) ∧
  (∀ sp, s.specOf p = some sp → s.absent = none → (sp.predicted ^^^ sp.actual) &&& sp.run ≠ 0#64 →
    ∃ t, exec (.maskPredictionResolve tid j) s = .next t ∧
      (∀ r, (∀ e ∈ sp.wrote, r ∉ e.1) → ((t.grp p).reg r).sh.code = (sp.before.reg r).sh.code) ∧
      ∀ n, n < 7 → g.preds.length = 7 → sp.before.preds.length = 7 → (∀ e ∈ sp.wrote, n ∉ e.2.1) →
        (t.grp p).predUni n = sp.before.predUni n) ∧
  (∀ (q : Party) va k leaf ea, let sp := s.spaceOf q 0
    sp.en = true → canonical va = true → upper va = false → s.tlbFind (s.tlbPath q) sp va = none → s.nleaf = [] → s.moved = [] → s.mpoison = [] →
    s.absent = none → s.admode = false → s.walkQuiet sp.root va = .ok (leaf, ea, 3) → leaf.getLsbD 6 = true →
    (s.fill (s.tlbPath q) sp va k).1.absent = none →
    ∃ t, exec (.translationWalk q va k) s = .next t ∧ (∀ a, t.byte a = s.byte a) ∧
      ∃ x ∈ t.tlbs, x.leaf = leaf ∧ x.ea = ea ∧ x.asid = sp.asid ∧ x.vpage = va.toNat / 2 ^ 17 ∧ x.expiry = s.pt + 16000)

/-- R204, R312, R323, R338, R399: what has run out is forgotten, and nothing else. The model's choices in it: log entries 37, 38, 40. -/
def Obligations.Expiries : Prop := ∀ s : State,
  let same (t : State) : Prop := (∀ a, t.byte a = s.byte a) ∧ t.lcs.length = s.lcs.length ∧ t.teams = s.teams ∧ t.fams = s.fams ∧ t.packageRegs = s.packageRegs
  (∃ t, exec .leaseExpiry s = .next t ∧ same t ∧ t.lcs = s.lcs ∧ ∀ c, c ∈ t.copies ↔ c ∈ s.copies ∧ s.pt + 4 < c.expiry) ∧
  (∃ t, exec .translationExpiry s = .next t ∧ same t ∧ t.lcs = s.lcs ∧ (∀ x, x ∈ t.tlbs ↔ x ∈ s.tlbs ∧ s.pt + 4 < x.expiry) ∧
    ∀ x, x ∈ t.nleaf ↔ x ∈ s.nleaf ∧ s.pt + 4 < x.expiry) ∧
  (∃ t, exec .deferredRecallExpiry s = .next t ∧ same t ∧ ∀ n, n < s.lcs.length → (t.lc n).grp = (s.lc n).grp ∧ (t.lc n).specials = (s.lc n).specials ∧
    (t.lc n).resv = match (s.lc n).resv with
      | some r => if r.recalled = true ∧ r.deferEnd ≤ s.pt then none else some r
      | none => none) ∧
  (∃ t, exec .tetherLineReturn s = .next t ∧ same t ∧ t.lcs = s.lcs ∧ (∀ e ∈ t.tether, e ∈ s.tether ∧ s.pt < e.2 + 4000) ∧
    (s.tether.length ≤ 16384 → ∀ e ∈ s.tether, s.pt < e.2 + 4000 → e ∈ t.tether)) ∧
  (∃ t, exec .replicaExpiry s = .next t ∧ same t ∧ t.lcs = s.lcs ∧ (∀ x, x ∈ t.replicas ↔ x ∈ s.replicas ∧ s.pt < x.expiry) ∧
    ∀ r ∈ t.pages, r.lexp * 65536 ≤ s.pt → r.repl = 0#64) ∧
  (∀ page x, s.replicas = [x] → x.page = page → s.pt < x.expiry →
    ∃ t, exec (.replicaFill page) s = .next t ∧ same t ∧ t.lcs = s.lcs ∧ t.replicas = [{ x with filled := true }])

/-! ### Pages, packages and links -/

/-- R326-R329: the epoch's end reads the placement control block; a copied page switches to its new home with its bytes; a move that is
aborted leaves the old home. The model's choices in it: log entries 14, 30, 38, 42. -/
def Obligations.PageMoves : Prop := ∀ (s : State) (k : Nat) (m : Move), s.moves[k]? = some m →
  (∃ t, exec (.pageMoveCopyDone k) s = .next t ∧ (∀ a, t.byte a = s.byte a) ∧ ∃ x, t.moves = s.moves.set k x ∧
    (m.aborted = false → x.copied = true) ∧ x.page = m.page ∧ x.dest = m.dest ∧ x.aborted = m.aborted ∧
    (m.copied = false → m.aborted = false → s.pt ≤ x.switchAt ∧ m.switchAt ≤ x.switchAt)) ∧
  (m.aborted = true → m.owed = 0 → m.switchAt ≤ s.pt → ∃ t, exec (.pageMoveSwitch k) s = .next t ∧ t.moves = s.moves.eraseIdx k ∧
    (∀ x ∈ t.moved, x.1 ≠ m.dest) ∧ ∀ a, t.byte a = s.byte a) ∧
  (m.copied = true → m.aborted = false → m.owed = 0 → m.switchAt ≤ s.pt → m.page ≠ m.dest → s.memOk → ∃ t, exec (.pageMoveSwitch k) s = .next t ∧ t.memOk ∧
    t.moves.map (·.page) = (s.moves.eraseIdx k).map (·.page) ∧ (∀ x ∈ t.moved, x.1 ≠ m.dest) ∧
    (∀ off v, off < 2 ^ 17 → (m.page * 2 ^ 17 + off, v) ∈ s.mem → t.byte (m.dest * 2 ^ 17 + off) = v) ∧
    (∀ a, pageOf a ≠ m.dest → t.byte a = s.byte a) ∧
    ∀ x ∈ t.pend, pageOf x.pa ≠ m.page) ∧
  (∀ a, pageOf a = m.page → s.copying m.page = some k → let pa := a / 32 * 32
    let x : Move := { m with aborted := true, switchAt := s.pt + 16004 }
    let u := (({ s with moves := s.moves.set k x } : State).poisonAt pa 32).logError 1 (if paDie pa < 24 then 9 else 10) (paDie pa) 0#32 pa 0
    (∀ y ∈ s.moves, y.owed = 0) → u.absent = none → pageOf (leafBase (BitVec.ofNat 64 (s.rdHw (s.redirect m.ea) 8))) ≠ m.dest →
    ∃ t, exec (.pageMoveAbort a) s = .next t ∧ t.moves = s.moves.set k x ∧ t.moved = s.moved ∧ (∀ a, t.byte a = u.byte a) ∧
      (s.hwq = [] → (∀ r ∈ s.errq, r.length = 8) → (∀ b, s.own Config.errlog ≤ b → b < s.own Config.errlog + 256 + 64 * Config.errlogSize → s.redirect b / 32 ≠ pa / 32) →
        t.poisoned pa 32 = true)) ∧
  (∀ d, d < 28 → s.dies.length = 28 → (List.range 28).filter (s.epochDue ·) = [d] → (s.die d).mode = 0 →
    let b := s.own (Config.placement d)
    s.absent = none → ∃ t, exec .placementEpochEnd s = .next t ∧ (∀ a, t.byte a = s.byte a) ∧ (t.die d).epochStart = s.pt ∧
      (s.rdN (b + 16) 48 = 0 → (t.die d).mode = s.rdN b 4 % 8 ∧ (t.die d).epochUs = s.rdN (b + 4) 4 ∧ (t.die d).hbmLow = s.rdN (b + 8) 4 ∧
        (t.die d).maxMoves = s.rdN (b + 12) 4))

/-- R302, R397, R399-R401: windowed stores, replicas, hand-over of a page, removal of a package.
The model's choices in it: log entries 14, 32, 38. -/
def Obligations.PagesOfPackages : Prop := ∀ s : State,
  let own := s.link.pkg
  (∀ k w, s.wstores[k]? = some w → w.applied = false → s.olderWindowed k w = false → s.homeBusy w.pa w.data.length w.party = false →
    s.homed w.pa w.data.length → s.absent = none →
    ∃ t, exec (.windowedStoreApply k none) s = .next t ∧ (∀ a, t.byte a = (s.setBytes w.pa w.data).byte a) ∧
      ∀ x ∈ t.wstores, x = { w with applied := true } ∨ x ∈ s.wstores ∧ x ≠ w) ∧
  (∀ k (r : RemoteReq) data, r.pkg < 64 → r.pkg ≠ own → s.inDomain r.pkg = true → r.op = .store data → s.homed r.pa data.length →
    s.homeBusy r.pa data.length none = false → s.wctOf (lineOf r.pa) < (r.window + 2) * s.link.w - 100 → s.absent = none →
    ∃ t, exec (.windowedStoreApply k (some r)) s = .next t ∧ ∀ a, t.byte a = (s.setBytes r.pa data).byte a) ∧
  (∀ page, (s.pageRec page).ho = none → s.inDomain own = true → s.inDomain (s.pageRec page).writer = true → (s.pageRec page).writer ≠ own →
    s.link.state = .active ∨ s.link.state = .hold → s.link.quiescing = false →
    ∃ t, exec (.replicaRequest page own) s = .next t ∧ (∃ x ∈ t.replicas, x.page = page ∧ x.expiry = s.pt + 100000) ∧
      s.pt + 100000 ≤ (t.pageRec page).lexp * 65536 ∧ (∀ a, t.byte a = s.byte a)) ∧
  (∀ page pkg, pkg < 64 → pkg ≠ own → (s.pageRec page).ho = none → s.inDomain pkg = true → s.inDomain own = true → (s.pageRec page).writer = own →
    s.link.admits = true → ∃ t, exec (.replicaRequest page pkg) s = .next t ∧ (t.pageRec page).repl.getLsbD pkg = true ∧ t.replicas = s.replicas ∧
      s.pt + 100000 ≤ (t.pageRec page).lexp * 65536 ∧ (∀ a, t.byte a = s.byte a)) ∧
  (∀ page dest, let r := s.pageRec page
    let per := s.pt / 100000 - 1
    let count := (assoc (per, dest) r.wcount).getD 0
    page < 2 ^ 35 → r.ho = none → r.writer = own → dest ≠ own → s.inDomain dest = true → s.link.admits = true → 0 < s.link.hothresh → 100000 ≤ s.pt →
    s.bigLeaf (page / 8192) = false → s.link.hothresh ≤ count → (assoc (per, r.alloc.getD page) s.ownStores).getD 0 < count → r.lastHo = none →
    ∃ t, exec (.handoverOffer page dest) s = .next t ∧ (t.pageRec page).ho = some dest ∧ (t.pageRec page).writer = own) ∧
  (∀ page q (h : HandOver), h.page = page → h.waits = [] → page < 2 ^ 35 → (s.pageRec page).ho = some q → (s.pageRec page).alloc = none → s.memOk →
    (∀ n r, (s.lc n).resv = some r → pageOf (128 * r.line) ≠ page) →
    ∃ t, exec (.handoverSwitch h) s = .next t ∧ (t.pageRec page).writer = q ∧ (t.pageRec page).ho = none ∧ (∀ a, t.byte a = s.byte a) ∧
      ∀ e ∈ t.dir, pageOf (128 * e.line) ≠ page) ∧
  (∀ p, p < 64 → p ≠ own → s.inDomain p = true → s.memOk → (∀ n ∈ s.nets, n.adds = []) → ∃ t, exec (.peerRemoval p) s = .next t ∧ t.inDomain p = false ∧
    (∀ q, q < 64 → q ≠ p → t.inDomain q = s.inDomain q) ∧ (∀ r ∈ t.pages, r.repl.getLsbD p = false ∧ r.ho ≠ some p) ∧
    (∀ w ∈ t.wstores, w.peers.getLsbD p = true → w.applied = true) ∧
    ∀ c, s.irqCore s.link.route = c → c < s.lcs.length → ({ num := 0x10, tval := BitVec.ofNat 64 (9 + 256 * p) } : Irq) ∈ (t.lc c).pend)

/-- R393, R395, R398, R408, R409, R429: the link control block, quiescing, activation, time, and events of ports and edges.
The model's choices in it: log entries 5, 7, 32. -/
def Obligations.LinksAndTime : Prop := ∀ s : State, s.absent = none →
  let l := s.link
  let keeps (t : State) : Prop := t.mem = s.mem ∧ t.lcs.length = s.lcs.length ∧ t.teams = s.teams ∧ t.fams = s.fams
  let raised (t : State) (source unit : Nat) : Prop := ∀ c, s.irqCore s.link.route = c → c < s.lcs.length →
    ({ num := 0x10, tval := BitVec.ofNat 64 (source + 256 * unit) } : Irq) ∈ (t.lc c).pend
  (let b := s.own Config.linkctl
   s.rdN (b + 32) 8 = 0 → s.rdN (b + 48) 8 = 0 → l.state ≠ .down → s.rdN b 8 / 256 % 4 = 0 → s.rdN (b + 40) 8 = l.epoch →
   ∃ t, exec .linkControlWrite s = .next t ∧ t.link.domain = BitVec.ofNat 64 (s.rdN (b + 56) 8) ∧ t.link.hothresh = s.rdN (b + 28) 4 ∧
     (s.rdN (b + 8) 1 < 96 → t.link.route = s.rdN (b + 8) 1) ∧ (l.state ≠ .quiet → t.link.w = l.w) ∧ t.link.pkg = l.pkg ∧ t.link.state = l.state ∧
     (l.state = .quiet → 1000 ≤ s.rdN (b + 20) 4 → s.rdN (b + 20) 4 ≤ 64000 → t.link.w = s.rdN (b + 20) 4)) ∧
  (l.req = 1 → ∃ t, exec .linkQuiesceRequest s = .next t ∧ t.link = { l with quiescing := true }) ∧
  (l.quiescing = true → (∀ w ∈ s.wstores, (w.window + 2) * l.w ≤ s.pt) → ∃ t, exec .quiesceComplete s = .next t ∧ t.link.state = .quiet ∧
    t.link.quiescing = false ∧ t.link.req = 0) ∧
  (∀ ptp ws, l.req = 2 → l.epochReq = none → l.state ≠ .hold → (∀ x ∈ ws, x = l.w) → ∃ t, exec (.linkActivateRequest ptp ws) s = .next t ∧ t.link.state = .active ∧ t.link.req = 0 ∧
    t.pt = if l.domain = 1#64 <<< l.pkg ∨ l.ptSet = true then s.pt else max s.pt (ptp - l.epoch)) ∧
  (∀ ptp e, l.epochReq = some e → ∃ t, exec (.epochWrite ptp) s = .next t ∧ t.link.epoch = (if e + s.pt ≤ ptp then e else l.epoch) ∧
    t.link.epochReq = none ∧ t.pt = s.pt ∧ (ptp < e + s.pt → l.state = .down → t.link.req = 0)) ∧
  (∀ port offset v, v.gm = l.gm → l.roles.set port v.role = l.roles → (offset.natAbs ≤ l.thold ∨ l.state ≠ .active) →
    ∃ t, exec (.ptpMessage port offset v) s = .next t ∧ keeps t ∧ t.link.offset = offset ∧ t.link.state = l.state ∧ t.lcs = s.lcs) ∧
  (∀ port offset v, (v.gm ≠ l.gm ∨ l.roles.set port v.role ≠ l.roles) → offset.natAbs ≤ l.thold →
    ∃ t, exec (.ptpMessage port offset v) s = .next t ∧ t.link.gm = v.gm ∧ t.link.roles = l.roles.set port v.role ∧ t.link.state = l.state ∧
      raised t 0x0B port) ∧
  (∀ port (offset : Int) v, v.gm = l.gm → l.roles.set port v.role = l.roles → l.thold < offset.natAbs → l.state = .active → l.domain ≠ 1#64 <<< l.pkg →
    ∃ t, exec (.ptpMessage port offset v) s = .next t ∧ t.link.state = .hold ∧ raised t 0x0A 1) ∧
  (∀ t0, l.state = .hold → l.within = some t0 → t0 + 1000000 ≤ s.pt → ∃ t, exec .timeHoldExit s = .next t ∧ t.link.state = .active ∧ raised t 0x0A 0) ∧
  (∀ k up, k < 8 → l.sublinks.length = 8 → l.sublinks.getD k up ≠ up → ∃ t, exec (.mohosaSublinkStateChange k up) s = .next t ∧ keeps t ∧
    t.link.sublinks.getD k (!up) = up ∧ raised t 0x08 k) ∧
  (∀ port up, port < 8 → s.nets.length = 4 → ((s.net (port / 2)).ports).length = 2 → (s.net (port / 2)).ports.getD (port % 2) up ≠ up →
    ∃ t, exec (.ethernetPortStateChange port up) s = .next t ∧ keeps t ∧ (t.net (port / 2)).ports.getD (port % 2) (!up) = up ∧ raised t 0x10 port) ∧
  (∀ port, port ≤ 1 → ∃ t, exec (.cxlLinkEvent port) s = .next t ∧ keeps t ∧ raised t port 0) ∧
  (∀ d edge, exec (.ucieLaneRepair d edge) s = .next s) ∧
  (∀ d edge, d < 28 → s.dies.length = 28 → edge ∉ (s.die d).spared →
    ((s.modDie d fun y => { y with spared := y.spared ++ [edge] }).logError 7 12 d 0#32 0 0).absent = none →
    ∃ t, exec (.ucieModuleSpare d edge) s = .next t ∧ edge ∈ (t.die d).spared ∧ raised t 0x02 d) ∧
  (∀ d, d < 28 → s.dies.length = 28 → (s.die d).isolated = false → ∃ t, exec (.flitUndeliverable d) s = .next t ∧ keeps t ∧ (t.die d).isolated = true ∧
    ∀ x ∈ s.teams, x.core / 24 = d → x.st = .resident → Instr.machineCheck x.tid ∈ t.agenda)

/-- R189, R303, R304, R390-R392, R411: the host's accesses to device memory, its snoops of host lines, its acknowledgements.
The model's choices in it: log entries 16, 33, 38. -/
def Obligations.HostAccesses : Prop := ∀ s : State, s.absent = none →
  let answer (t : State) (pa : Nat) (data : List Byte) (poison : Bool) : Prop := ∃ a, t.host.answers.head? = some a ∧ a.pa = pa ∧ a.data = data ∧
    a.poison = poison ∧ s.pt ≤ a.pt
  (∀ w, s.owed w ≠ 0 → (∀ n, w = .party (.lc n) → n < s.lcs.length) → (∀ tid j, w = .party (.grp tid j) → s.running (.grp tid j) = true) →
    ∃ t, exec (.hostStoreAck w) s = .next t ∧ t.host.acks = s.host.acks.eraseP (·.who == w) ∧
      (∀ p, w = .party p → (t.grp p).ackout = (s.grp p).ackout - 1) ∧ t.mem = s.mem) ∧
  (∀ pa data, s.hostReach pa data.length = true → s.plain pa data.length → (∀ n r, (s.lc n).resv = some r → r.line ≠ lineOf pa) →
    ∃ t, exec (.hostMemWrite pa data) s = .next t ∧ (∀ a, t.byte a = (s.setBytes pa data).byte a) ∧ answer t pa [] false) ∧
  (∀ pa n own, s.hostReach pa n = true → s.plain pa n → ∃ t, exec (.hostMemRead pa n own) s = .next t ∧ t.mem = s.mem ∧
    answer t pa (s.bytes pa n) (s.poisoned pa n) ∧ ∀ k, k < n → (assoc ((pa + k) / 64) t.host.halves).isSome = true) ∧
  (∀ line own data, paDie (128 * line) = 31 → ∃ t, exec (.hostSnoop line own data) s = .next t ∧ t.mem = s.mem ∧
    t.host.snoops.length = s.host.snoops.length + 1) ∧
  (∀ line own, s.host.snoops = [(line, own, [])] → own = false ∨ (s.lineInfo line).lease < s.pt ∧ s.deferred line = false → (∀ a ∈ s.host.acks, a.rmw = true → a.line ≠ line) →
    ∃ t, exec .hostSnoopAnswer s = .next t ∧ t.mem = s.mem ∧
    t.host.snoops = [] ∧ answer t (128 * line) (s.bytes (128 * line) 128) (s.poisoned (128 * line) 128) ∧
    (own = true → ∀ c ∈ t.copies, c.line ≠ line)) ∧
  (∀ line, s.host.binv = [line] → ∃ t, exec (.backInvalidateResponse line []) s = .next t ∧ t.mem = s.mem ∧ t.host.binv = [] ∧
    ∀ h ∈ t.host.halves, h.1 / 2 ≠ line) ∧
  (∀ lo len, s.stopped = false → (s.host.hdm.filter (·.1 == lo % 2)).length < 2 → 0 < len →
    ∃ t, exec (.hdmDecoderCommit lo len) s = .next t ∧ t.host.hdm = s.host.hdm ++ [(lo % 2, lo / 2 * 2, len)] ∧ t.mem = s.mem)

/-! ### Reliability, supply, reset -/

/-- R411, R413, R414: `patrolScrub` with each result, `corrRecordFold` and `errorLogRetry` complete wherever the hardware can write its error
log: a corrected codeword is counted, an uncorrectable one poisons its granule, the corrected errors of a second make one record or, while
the log is full, count in LOST, and a waiting record is written once there is room. -/
def Sys2Proof.Claims.ScrubAndLog : Prop := ∀ s : State, s.logs →
  let b := s.own Config.errlog
  let struct (pa : Nat) : Nat := if paDie pa < 24 then 9 else 10
  let used := s.rdHw (b + 8) 8 - s.rdHw b 8
  (∀ pa, exec (.patrolScrub pa .clean) s = .next s) ∧
  (∀ pa, s.plain pa 32 → pa % 32 = 0 → ∃ t, exec (.patrolScrub pa .corrected) s = .next t ∧
    t.rdHw (b + 32) 8 = min (2 ^ 64 - 1) (s.rdHw (b + 32) 8 + 1) ∧
    ((∀ x ∈ s.folds, x.struct = struct pa → x.die ≠ paDie pa) →
      t.folds = { struct := struct pa, die := paDie pa, n := 1, sec := s.pt / 10 ^ 9 } :: s.folds)) ∧
  (∀ pa, s.plain pa 32 → pa % 32 = 0 → (∀ k, k < 32 → ¬ (b ≤ pa + k ∧ pa + k < b + 256 + 64 * Config.errlogSize)) →
    ∃ t, exec (.patrolScrub pa .uncorrectable) s = .next t ∧ t.poisoned pa 32 = true) ∧
  (∀ y, s.folds = [y] → y.sec < s.pt / 10 ^ 9 → ∃ t, exec (.corrRecordFold y.struct y.die) s = .next t ∧ t.folds = [] ∧
    (Config.errlogSize ≤ used → t.rdHw (b + 24) 8 = (s.rdHw (b + 24) 8 + 1) % 2 ^ 64) ∧
    (used < Config.errlogSize → s.errq = [] → t.errq = [] ∧ t.rdHw (b + 8) 8 = (s.rdHw (b + 8) 8 + 1) % 2 ^ 64)) ∧
  (∃ t, exec .errorLogRetry s = .next t ∧
    (Config.errlogSize ≤ used → t.errq = s.errq ∧ ∀ a, t.byte a = s.byte a) ∧
    (∀ r, s.errq = [r] → used < Config.errlogSize → t.errq = [] ∧ t.rdHw (b + 8) 8 = (s.rdHw (b + 8) 8 + 1) % 2 ^ 64))

/-- R415, R416, R418: `timingDetectorReplay` and `supplyStep` complete: a replay costs one cycle and is counted; at the end of a C-die's
window the voltage, then the frequency, steps up or down as the replays and the quiet windows say, and the counts restart. -/
def Sys2Proof.Claims.TimingAndSupply : Prop := ∀ (s : State) (d : Nat), d < 24 → s.dies.length = 28 →
  let x := s.die d
  (∀ c, c / 24 = d → ∃ t, exec (.timingDetectorReplay c) s = .next t ∧ (∀ a, t.byte a = s.byte a) ∧ (t.core c).cyc = (s.core c).cyc + 1 ∧
    (t.core c).tdrepl = ((s.core c).tdrepl + 1) % 2 ^ 64 ∧ (t.die d).replays = x.replays + 1 ∧ ∀ k, k ≠ c → t.core k = s.core k) ∧
  (s.logs → (List.range 24).filter (fun k => decide ((s.die k).winEnd ≤ s.pt)) = [d] →
    let limit := s.tdlim.toNat % 2 ^ 16
    let quiet := s.tdlim.toNat / 2 ^ 16 % 256
    let many : Prop := limit ≠ 0 ∧ limit < x.replays
    let calm : Prop := quiet ≠ 0 ∧ quiet ≤ x.quiet + 1
    let up : Nat × Nat := if x.v < 450 then (x.v + 10, x.f) else if 1400 < x.f then (x.v, x.f - 100) else (x.v, x.f)
    let down : Nat × Nat := if x.f < 1800 then (x.v, x.f + 100) else if max (s.dev.top d).vfloor (s.dev.top d).vnom < x.v then (x.v - 10, x.f) else (x.v, x.f)
    ∃ t, exec .supplyStep s = .next t ∧ (t.die d).replays = 0 ∧ s.pt < (t.die d).winEnd ∧
      ((t.die d).v, (t.die d).f) = (if x.hot = true then down else if many then up else if 4 * x.replays < limit ∧ calm then down else (x.v, x.f)) ∧
      (t.die d).quiet = (if x.hot = true then x.quiet else if many ∨ limit ≤ 4 * x.replays ∨ calm then 0 else x.quiet + 1) ∧
      ∀ k, k ≠ d → k < 24 → t.die k = s.die k)

/-- R418, R419: `overcurrent`, `overcurrentEnd`, `thermalLimit` and `governorWindow` complete: the clock of a die is halved for 10 µs, a die
is or is no longer above its limit temperature, and the sum of an ended window restarts. -/
def Sys2Proof.Claims.CurrentAndHeat : Prop := ∀ (s : State) (d : Nat), d < 24 → s.dies.length = 28 →
  let x := s.die d
  let same (t : State) : Prop := (∀ a, t.byte a = s.byte a) ∧ (∀ k, k ≠ d → k < 24 → t.die k = s.die k) ∧ (t.die d).v = x.v ∧ (t.die d).f = x.f
  let ends (e : State → Die → Die) : State → Prop := fun t => (∀ a, t.byte a = s.byte a) ∧ ∀ k, k < 28 → t.die k = e s (s.die k)
  (s.logs → ∃ t, exec (.overcurrent d) s = .next t ∧ (t.die d).overcur = some (s.pt + 10000) ∧ (t.die d).v = x.v ∧ (t.die d).f = x.f) ∧
  (∃ t, exec .overcurrentEnd s = .next t ∧ ends (fun u y => { y with overcur := y.overcur.filter fun e => decide (u.pt < e) }) t) ∧
  (∀ hot, ∃ t, exec (.thermalLimit d hot) s = .next t ∧ (t.die d).hot = hot ∧ same t) ∧
  (∃ t, exec .governorWindow s = .next t ∧ ends (fun u y => { y with govSum := if y.govEnd ≤ u.pt then 0 else y.govSum }) t)

/-- R411, R413-R419: patrol scrubs, records of errors, timing detectors, supply steps, overcurrent, heat and the governor's windows complete
with the effect of their rules. The model's choices in it: log entries 4, 27, 34, 42. -/
def Obligations.Reliability : Prop := Claims.ScrubAndLog ∧ Claims.TimingAndSupply ∧ Claims.CurrentAndHeat

/-- R423, R427, R428: a reset of either kind leaves what bring-up leaves, whatever stood before: the loader's core at its entry where the
ROM section and the boot firmware verify, every core held where one does not; a held latency core starts at the header that the table names,
with the capability table's address in v0:v1. The model's choices in it: log entries 1, 2, 3, 4. -/
def Obligations.Resets : Prop := ∀ s : State,
  let d := s.dev.load
  (∀ i ∈ [Instr.powerOnReset, .packageReset],
    (d.rom.good = true → d.flash = true → ∃ t, exec i s = .next t ∧ t.stopped = false ∧ t.fams = [] ∧ t.teams = [] ∧ t.pt = 0 ∧ t.tlbs = [] ∧
      t.copies = [] ∧ t.pend = [] ∧ t.waiters = [] ∧ t.dev = d ∧ t.memOk ∧ t.tdlim = BitVec.ofNat 32 d.tdlim ∧ t.packint = 2000#32 ∧
      t.drainint = 600#32 ∧ t.admode = false ∧ t.finj = 0#64 ∧ (∀ k, k < 24 → (t.die k).v = (d.top k).vnom) ∧
      (∀ c, (t.core c).removed = d.scanFails.contains c) ∧
      (d.site = 0 → t.lcs = State.reset.lcs ∧ t.link = State.reset.link ∧ t.capbase = State.reset.capbase ∧
        ∀ a, ¬(Config.capbase ≤ a ∧ a < Config.capbase + (capTable d).length) → ¬(Config.errlog + 64 ≤ a ∧ a < Config.errlog + 152) →
          t.byte a = State.reset.byte a) ∧
      (d.site ≠ 0 → t.link.pkg = d.site ∧ t.link.domain = 1#64 <<< d.site ∧ t.link.state = .down ∧ (t.lc 0).sup = true ∧
        (t.grp (.lc 0)).rd64 0 0 = t.capbase ∧ (t.thr (.lc 0) 0).pc = BitVec.ofNat 64 (t.own Config.loaderEntry) ∧
        ∀ n, 1 ≤ n → t.lc n = State.reset.lc n)) ∧
    (d.rom.good = false ∨ d.flash = false → ∃ t, exec i s = .next t ∧ t.stopped = true ∧ t.mem = [] ∧ t.fams = [] ∧ t.teams = [] ∧ t.lcs.length = 96 ∧
      ∀ n, n < 96 → (t.lc n).held = true)) ∧
  (∀ n, let a := s.own Config.startTable + 8 * n
    s.stopped = false → n < s.lcs.length → s.rdN a 8 ≠ 0 → (s.lc n).held = true → n ∉ s.dev.lcHarvest → n ∉ s.dev.lcFails → s.plain a 8 → s.hwq = [] →
    s.absent = none →
    ∃ t, exec (.latencyCoreStart n) s = .next t ∧ (t.lc n).held = false ∧ (t.lc n).sup = true ∧ (t.lc n).status.getLsbD 2 = false ∧
      (t.thr (.lc n) 0).pc = BitVec.ofNat 64 (s.rdN a 8) ∧ (t.grp (.lc n)).rd64 0 0 = s.capbase ∧ t.rdHw a 8 = 0 ∧
      ∀ b, ¬(a ≤ b ∧ b < a + 8) → t.byte b = s.byte b)

/-! ### Network -/

/-- R249-R251: `NPOST` gives the status of a work request and queues it; `NSTAT` gives the counts of its family at its engine.
The model's choices in it: log entry 31. -/
def Obligations.NetworkInstructions : Prop := ∀ (s : State) (l : Nat) (w : BaseW),
  let e := s.engineOf s.cur
  let n := s.net e
  let fam (k : Nat) : W32 := match s.cur with | .lc _ => 0#32 | .grp _ _ => (s.thr s.cur k).fam
  (let i := Instr.npost w
   let wr := (List.range 8).map fun k => (s.grp s.cur).rd64 l (w.a.toNat + 2 * k)
   let peer := (wr.getD 1 0#64).toNat % 2 ^ 32
   let gives (v : W32) (r : State → Prop) : Prop := s.becomes i s (s.opened i) (destRegs 1 w.d) [] fun t =>
     r t ∧ (inReg w.d = true → (t.grp s.cur).rd l w.d.toNat = v)
   s.ready i → Mask.lanes (s.acting i) = [l] → (s.grp s.cur).poi l w.a.toNat 16 = false → (s.opened i).npostCheck s.cur l wr = none →
   s.proofed s.cur l = false → (s.opened i).released s.cur 5 → e < s.nets.length →
   (wrMalformed wr = true → gives 0xFFFFFFFE#32 fun t => t.nets = s.nets) ∧
   (wrMalformed wr = false → n.npeer ≤ peer ∨ (s.byte (n.peers + 64 * peer + 24)).getLsbD 0 = false → gives 0xFFFFFFFD#32 fun t => t.nets = s.nets) ∧
   (wrMalformed wr = false → peer < n.npeer → (s.byte (n.peers + 64 * peer + 24)).getLsbD 0 = true →
     (n.slots ≤ (n.reqs.filter fun r => r.fam == fam l && !r.answer).length → gives 0xFFFFFFFF#32 fun t => t.nets = s.nets) ∧
     ((n.reqs.filter fun r => r.fam == fam l && !r.answer).length < n.slots → gives 0#32 fun t =>
       ∃ r, (t.net e).reqs = n.reqs ++ [r] ∧ r.wr = wr ∧ r.fam = fam l ∧ r.sent = [] ∧ r.done = false ∧ r.sup = s.sup s.cur))) ∧
  (let i := Instr.nstat w
   s.ready i → (∀ k f, Mask.has (s.acting i) k = true → s.famOf s.cur k = some f → f.repl ≤ 1) →
   completes i s (destRegs 4 w.d) [] fun t => inReg w.d = true → ∀ k, Mask.has (s.acting i) k = true →
     let out := (n.reqs.filter fun r => r.fam == fam k && !r.answer).length
     let fails := (assoc (fam k) n.fails).getD 0
     out < 2 ^ 32 → fails < 2 ^ 32 → n.slots < 2 ^ 32 →
       ((t.grp s.cur).rd k w.d.toNat).toNat = out ∧ ((t.grp s.cur).rd k (w.d.toNat + 1)).toNat = n.slots - out ∧
       ((t.grp s.cur).rd k (w.d.toNat + 2)).toNat = fails ∧ ((t.grp s.cur).rd k (w.d.toNat + 3)).toNat % 2 ^ 8 = (24 + e) % 2 ^ 8)

/-- R250, R404-R407: packets out and in, acknowledgement, retransmission, refusal, and the control block of an engine.
The model's choices in it: log entry 31. -/
def Obligations.NetworkEvents : Prop := ∀ (s : State) (e : Nat), e < s.nets.length → s.absent = none →
  let n := s.net e
  let asks (x : NetReq) : Prop := x.opc = 3 ∧ x.answer = false
  let sends (x : NetReq) : Prop := (x.opc = 1 ∨ x.opc = 2) ∧ x.answer = false
  -- the bitmap shows the packet, and no other that has not been taken
  let acked (t : State) (pk : Packet) (o : List OutMsg) : Prop := ∃ m, t.outbox = o ++ [.ack e pk.peer m] ∧ m.has pk.seq = true ∧
    ∀ q, m.has q = true → q = pk.seq ∨ (pk.peer, q) ∈ n.seen
  let lives (r k : Nat) (x : NetReq) : Prop := n.reqs[r]? = some x ∧ x.done = false ∧ (∀ y ∈ n.reqs, y.id = x.id → y = x) ∧ k < x.count
  (∀ r x, lives r 0 x → x.sent = [] → x.retryAt ≤ s.pt →
    (asks x → ∃ t pk, exec (.packetTransmit e r) s = .next t ∧ t.mem = s.mem ∧ t.outbox = s.outbox ++ [.packet e (x.base % max 1 x.path) pk] ∧ pk.data = [] ∧
      pk.seq = x.base ∧ pk.peer = x.peer ∧ pk.reply = false) ∧
    (∀ la, la = x.wr.getD 2 0#64 → sends x → x.sup = true → x.ptbr.getLsbD 0 = false → canonical la = true → la.toNat % 2 ^ 17 + x.len ≤ 2 ^ 17 →
      x.len ≤ 2048 → s.plain (la.toNat % 2 ^ 52) x.len → s.poisoned (la.toNat % 2 ^ 52) x.len = false →
      ∃ t pk, exec (.packetTransmit e r) s = .next t ∧ t.mem = s.mem ∧ t.outbox = s.outbox ++ [.packet e (x.base % max 1 x.path) pk] ∧
        pk.data = s.bytes (la.toNat % 2 ^ 52) x.len ∧ pk.seq = x.base ∧ pk.peer = x.peer ∧ pk.raddr = x.dw 3)) ∧
  (∀ pk, pk.mode = .rudi ∨ pk.mode = .uud → ∃ t, exec (.packetReceive e pk) s = .next t ∧ t.mem = s.mem ∧
    t.outbox = s.outbox ++ [.refusal e pk.peer pk.msg true]) ∧
  (∀ pk, pk.mode = .rud ∨ pk.mode = .rod → (pk.peer, pk.seq) ∈ n.seen → ∃ t, exec (.packetReceive e pk) s = .next t ∧ t.mem = s.mem ∧
    acked t pk s.outbox) ∧
  (∀ pk : Packet, (pk.peer, pk.seq) ∉ n.seen → n.early = [] → pk.mode = .rud → pk.reply = false → (∀ m ∈ n.rx, ¬ (m.peer = pk.peer ∧ m.msg = pk.msg)) →
    (n.nres ≤ pk.ri → ∃ t, exec (.packetReceive e pk) s = .next t ∧ t.mem = s.mem ∧
      acked t pk (s.outbox ++ [.refusal e pk.peer pk.msg true])) ∧
    (let r := s.resource n pk.ri
     pk.ri < n.nres → r.kind = 1 → pk.op = .write → pk.key = r.key → pk.raddr + pk.len ≤ r.lim → pk.idx = 0 → pk.len ≤ 2048 → pk.data.length = pk.len →
     ∀ u p, s.netStore e r.sp (BitVec.ofNat 64 (r.base + pk.raddr)) pk.data (pk.len + 1) = (u, p) → p.stop = none → u.absent = none → u.nets = s.nets →
       ∃ t, exec (.packetReceive e pk) s = .next t ∧ (∀ a, t.byte a = u.byte a) ∧ acked t pk u.outbox)) ∧
  (∀ x c t0 seqs, n.reqs = [x] → x.done = false → sends x → x.count = 1 → x.sent = [(0, c, t0, false)] → seqs.has x.base = true →
    ∃ t, exec (.ackReceive e x.peer seqs) s = .next t ∧ t.mem = s.mem ∧ (x.cinc = 0 → (t.net e).reqs = []) ∧
      (x.cinc ≠ 0 → ∃ a, (t.net e).adds = n.adds ++ [a] ∧ a.inc = x.cinc ∧ a.caddr = x.wr.getD 6 0#64)) ∧
  (∀ r k c t0 x, lives r k x → x.sent.find? (·.1 == k) = some (k, c, t0, false) → t0 + n.rto ≤ s.pt → asks x →
    (c ≤ n.retry → ∃ t pk, exec (.retransmitTimeout e r k) s = .next t ∧ t.mem = s.mem ∧ t.outbox = s.outbox ++ [.packet e ((x.base + k) % max 1 x.path) pk] ∧
      pk.seq = x.base + k) ∧
    (n.retry < c → x.cinc = 0 → ∃ t, exec (.retransmitTimeout e r k) s = .next t ∧ t.mem = s.mem ∧ (∀ y ∈ (t.net e).reqs, y.id ≠ x.id) ∧
      assoc x.fam (t.net e).fails = some (min (2 ^ 32 - 1) ((assoc x.fam n.fails).getD 0 + 1)))) ∧
  (∀ r x, lives r 0 x → x.answer = false → x.cinc = 0 → ∃ t, exec (.refusalReceive e r true) s = .next t ∧ t.mem = s.mem ∧
    (∀ y ∈ (t.net e).reqs, y.id ≠ x.id) ∧ assoc x.fam (t.net e).fails = some (min (2 ^ 32 - 1) ((assoc x.fam n.fails).getD 0 + 1))) ∧
  (let b := s.own (Config.netctl e)
   ∃ t, exec (.networkControlWrite e) s = .next t ∧ t.mem = s.mem ∧ (s.rdN (b + 40) 24 = 0 → (t.net e).slots = s.rdN (b + 8) 4 ∧
     (t.net e).rto = s.rdN (b + 12) 4 ∧ (t.net e).peers = s.rdN (b + 32) 8 / 64 * 64 ∧ (t.net e).res = s.rdN (b + 20) 8 / 64 * 64 ∧
     (1 ≤ s.rdN b 4 % 16 → (t.net e).retry = s.rdN b 4 % 16) ∧ (s.rdN (b + 16) 4 ≤ 65536 → (t.net e).nres = s.rdN (b + 16) 4)))

/-- R184, R278, R282: on a SIMT core `BRK` and `TRAP` enter the family trap handler, with the return address and the kind in `s.ftret`;
without a handler, or inside it, and for `SYS`, the thread stays at its word and is faulted. -/
def Obligations.SimtTraps : Prop := ∀ (s t : State) (tid j l : Nat) (w : CtlW) (f : Family), s.cur = .grp tid j → s.famOf s.cur l = some f →
  (∀ y ∈ s.waiters, y.party = s.cur → y.lane ≠ l) →
  let th := s.thr s.cur l
  let ok (i : Instr) : Prop := s.ready i ∧ Mask.lanes (s.acting i) = [l] ∧ (s.grp s.cur).gst ≠ .arriving ∧
    Mask.has ((s.grp s.cur).src .int 1 w.a).poi l = false ∧ exec i s = .next t
  let enters (kind : W64) : Prop := (t.thr s.cur l).ftret = (th.pc + 8#64) ||| kind ∧ (t.thr s.cur l).handler.isSome = true ∧ (t.thr s.cur l).wins = [] ∧
    ((s.grp s.cur).gst = .region → (t.grp s.cur).gst = .suspended)
  let parks : Prop := (t.thr s.cur l).pc = th.pc ∧ (t.thr s.cur l).st = .faulted ∧ (t.thr s.cur l).ftret = th.ftret
  (f.handler ≠ 0 → th.handler = none → (ok (.brk w) → enters 2#64) ∧ (ok (.trap w) → enters 3#64)) ∧
  (f.handler = 0 ∨ th.handler.isSome = true → (ok (.brk w) → parks) ∧ (ok (.trap w) → parks)) ∧ (ok (.sys w) → parks)

/-! ### Encoding, the step, invariants, reset -/

/-- R44, R137: the decoder gives back every instruction that its word alone selects; the rows that a run-time value selects share their
word with the row that they refine. -/
def Sys2Proof.Claims.DecodeEncode : Prop :=
  (∀ i : Instr, i.canonical = true → decode (encode i) = .ok i) ∧
  (∀ w : CtlW, decode (encode (.eretResumeFamily w)) = .ok (.eret w) ∧ decode (encode (.fstopEnd w)) = .ok (.fstopStop w) ∧
    ∀ i ∈ [Instr.fresumeResume w, .fresumeSkip w, .fresumeKill w], decode (encode i) = .ok (.fresumeRestart w))

/-- R45, R66, R77: every word that the decoder takes is the word of what it gives: no bit is dropped, and no two instructions share a word. -/
def Sys2Proof.Claims.EncodeDecode : Prop := ∀ (x : W64) (i : Instr), decode x = .ok i → encode i = x ∧ i.canonical = true

/-- R44, R45, R66, R77: the decoder and the encoder agree, both ways. The model's choices in it: log entry 39. -/
def Obligations.DecodeAndEncode : Prop :=
  Claims.DecodeEncode ∧ Claims.EncodeDecode

/-- Words of the manual's examples, one for each group of opcodes, and words that the manual reserves. The model's choices in it: log entry 13. -/
def Obligations.DecodeWords : Prop :=
  decode 0x0670FFC000000000#64 = .ok (.exit { g := 7#4, fn := 0#4, d := 1023#10, a := 0#10, b := 0#10, c := 0#10, tail := 0#8 }) ∧
  decode 0x0770018030100000#64 = .ok (.migrOut { g := 7#4, d := 6#10, a := 3#10, b := 4#10, c := 0#10, tail := 0#8 }) ∧
  (∃ w, decode 0x20A001C06604B080#64 = .ok (.add .w w) ∧ w.kf = true) ∧
  (∃ w, decode 0x407002848D159E00#64 = .ok (.li w) ∧ w.imm = 0x12345678#32) ∧
  decode 0x507000C010080000#64 = .ok (.pand { g := 7#4, fn := 0#4, d := 3#10, a := 1#10, b := 2#10, c := 0#10, tail := 0#8 }) ∧
  decode 0x63700280B0300D00#64 = .ok (.ffma .f32 { g := 7#4, d := 10#10, a := 11#10, b := 12#10, c := 13#10, tail := 0#8 }) ∧
  decode 0x6970008080240200#64 = .ok (.fcmp .f32 { g := 7#4, d := 2#10, a := 8#10, b := 9#10, c := 2#10, tail := 0#8 }) ∧
  (∃ w, decode 0x6D70050150000020#64 = .ok (.frcp .f32 w) ∧ w.d = 20#10 ∧ w.a = 21#10) ∧
  (∃ w, decode 0x7A70030140580100#64 = .ok (.qpack .e4m3 w) ∧ w.d = 12#10 ∧ w.a = 20#10 ∧ w.b = 22#10) ∧
  decode 0x9070FFC000000000#64 = .ok (.grpon { g := 7#4, fn := 0#4, d := 1023#10, a := 0#10, b := 0#10, c := 0#10, tail := 0#8 }) ∧
  (∃ w, decode 0x94720781F0000000#64 = .ok (.gred .f32 w) ∧ w.d = 30#10 ∧ w.a = 31#10) ∧
  (∃ w, decode 0x96700A0070000000#64 = .ok (.gmatch .w w) ∧ w.d = 40#10 ∧ w.a = 7#10) ∧
  decode 0xA1720200A0004000#64 = .ok (.st .w { g := 7#4, d := 8#10, a := 10#10, imm := 64#20, tail := 0#8 }) ∧
  (∃ w, decode 0xAB70FFC000026000#64 = .ok (.fence w) ∧ cOrder w.c = 3 ∧ cScope w.c = 4) ∧
  (∃ w, decode 0xC07107828D058000#64 = .ok (.amo .add w) ∧ w.d = 30#10 ∧ w.a = 40#10 ∧ cOrder w.c = 0 ∧ cScope w.c = 3) ∧
  (∃ w, decode 0xC87102810024A000#64 = .ok (.barw .forme w) ∧ w.d = 10#10 ∧ w.a = 16#10 ∧ w.b = 9#10) ∧
  (∃ w, decode 0xD2700080C0000004#64 = .ok (.mzero w)) ∧
  decode 0xE074010140782808#64 = .ok (.cpy 0#2 .gf { g := 7#4, d := 4#10, a := 20#10, b := 30#10, c := 40#10, tail := 8#8 }) ∧
  decode 0xE870018080280000#64 = .ok (.hash false { g := 7#4, d := 6#10, a := 8#10, b := 10#10, c := 0#10, tail := 0#8 }) ∧
  decode 0xEC70008200000004#64 = .ok (.npost { g := 7#4, d := 2#10, a := 32#10, b := 0#10, c := 0#10, tail := 4#8 }) ∧
  decode 0#64 = .error (.reservedOp 0) ∧ decode 0xFE00000000000000#64 = .error .header

/-- R44, R63, R66: a step in which a run issues executes the instruction that the word at its PC decodes to, in the state that time has
passed in; a word that decodes to none makes the thread of a latency core take a trap with cause 0x01.
The model's choices in it: log entries 7, 35, 39. -/
def Obligations.StepRunsDecoded : Prop := ∀ (s : State) (p : Party) (l : Nat) (rest : List Plan) (x : W64) (m : State),
  s.elapse.agenda = [] → s.elapse.schedule = .issue p l :: rest →
  let t0 : State := { s.elapse with schedule := rest, cur := p, curLane := l }
  let t : State := if p.isLc then t0 else t0.takeTurn
  (t.thr p l).blk.isSome = true → t.runLanes ≠ [] → (∀ n, p = .lc n → t.irqDue n = false) → (p.isLc = false → (t.grp p).passOver = false) →
  t.fetch p l (t.thr p l).pc = (m, .ok x) → m.absent = none →
  (∀ i, decode x = .ok i → step s = exec (refine i m) m) ∧
  (∀ i, decode x = .ok i → (∀ w, i ≠ .eret w ∧ i ≠ .fstopStop w ∧ i ≠ .fresumeRestart w) → step s = exec i m) ∧
  (∀ e n hw, decode x = .error e → p = .lc n → t.runLanes = [0] → m.headerAt n (m.lc n).tvec hw → (m.lc n).tvec.toNat % 8 = 0 →
    ∃ u, step s = .next u ∧ m.trapped u n false 0x01 0#64 (m.thr (.lc n) 0).pc (m.thr (.lc n) 0).hoff hw)

/-- No instruction and no step is refused: what is not a next state is an access beyond the memory of a die.
The model's choices in it: log entry 4. -/
def Obligations.NeverRefused : Prop :=
  (∀ (i : Instr) (s : State), (∃ t, exec i s = .next t) ∨ ∃ pa, exec i s = .fault (.absentMemory pa)) ∧
  (∀ s : State, (∃ t, step s = .next t) ∨ ∃ pa, step s = .fault (.absentMemory pa))

/-- Every step keeps memory in its canonical form, from every state that has it. The model's choices in it: log entry 1. -/
def Obligations.MemoryStaysCanonical : Prop := ∀ s t : State, s.memOk → step s = .next t → t.memOk

/-- R27, R36: no instruction that a latency core issues in user mode, or a SIMT core, changes the vector, the page-table base, the scratch
register or the family selection of any latency core, or the registers of the package, but for `s.finj`, whose ARM the store that it
falsifies clears (R389). -/
def Obligations.UserIsolation : Prop := ∀ (s t : State) (i : Instr), i.isWord = true → s.sup s.cur = false → exec i s = .next t →
  (∀ n, (t.lc n).tvec = (s.lc n).tvec ∧ (t.lc n).ptbr = (s.lc n).ptbr ∧ (t.lc n).scratch = (s.lc n).scratch ∧ (t.lc n).famsel = (s.lc n).famsel) ∧
  t.tdlim = s.tdlim ∧ t.drainint = s.drainint ∧ t.capbase = s.capbase ∧ t.packint = s.packint ∧ t.admode = s.admode

/-- R26, R398, R427: the state after reset. The model's choices in it: log entries 1, 2, 4. -/
def Obligations.ResetState : Prop :=
  State.reset.memOk ∧ State.reset.pt = 0 ∧ State.reset.fams = [] ∧ State.reset.teams = [] ∧ State.reset.lcs.length = 96 ∧
  (State.reset.lc 0).sup = true ∧ (State.reset.lc 0).status.getLsbD 2 = false ∧ (State.reset.lc 0).held = false ∧
  (∀ n, 1 ≤ n → n < 96 → (State.reset.lc n).held = true) ∧
  (∀ n, n < 96 → let c := State.reset.lc n
    c.status = 3#32 ∧ c.tvec = 0#64 ∧ c.epc = 0#64 ∧ c.cause = 0#32 ∧ c.tval = 0#64 ∧ c.scratch = 0#64 ∧ c.ptbr = 0#64 ∧ c.famsel = 0#32 ∧
      c.cws = List.replicate 8 0#64 ∧ (State.reset.thr (.lc n) 0).fcsr = 0#32 ∧ (State.reset.grp (.lc n)).ackout = 0) ∧ (State.reset.grp (.lc 0)).rd64 0 0 = State.reset.capbase ∧
  (∀ r, 2 ≤ r → r < 768 → (State.reset.grp (.lc 0)).rd 0 r = 0#32) ∧ State.reset.packint = 2000#32 ∧ State.reset.drainint = 600#32 ∧
  State.reset.admode = false ∧ State.reset.finj = 0#64 ∧ State.reset.link.state = .down ∧ State.reset.link.w = 4000 ∧
  State.reset.link.thold = 40 ∧ State.reset.link.hothresh = 4096

/-! ### Rules stated whole -/

/-- R136: `NOP` has no effect on any thread. -/
def Obligations.NopHasNoEffect : Prop := ∀ (s : State) (w : CtlW), s.ready (.nop w) →
  completes (.nop w) s [] [] fun t => (∀ q, (t.grp q).regs = (s.grp q).regs ∧ (t.grp q).preds = (s.grp q).preds) ∧ ∀ a, t.byte a = s.byte a

/-- R106: the sign of an exact zero sum: that of two zeros of the same sign; otherwise +0, and −0 in RDN, whose mode is 2. A sum is one of
`FADD` and `FSUB`, or the sum of a product and an addend. -/
def Obligations.ZeroSums : Prop := ∀ (f : FFmt) (rm : Nat) (fz : Bool) (x y z : Nat) (n k j : Bool) (m p r : Nat) (e g h : Int),
  let F := f.fmt
  let same (u : Nat) (a : Int) (v : Nat) (b : Int) : Prop := u * 2 ^ (a - b).toNat = v * 2 ^ (b - a).toNat
  let zero : Nat × Flags := (F.signBit (rm == 2), 0#32)
  F.decZ fz x = .fin n m e → F.decZ fz y = .fin k p g → F.decZ fz z = .fin j r h →
  (m = 0 → p = 0 → k = n → F.add rm fz x y = (F.signBit n, 0#32)) ∧
  (same m e p g → k ≠ n → F.add rm fz x y = zero) ∧
  (m = 0 → p = 0 → k ≠ n → F.sub rm fz x y = (F.signBit n, 0#32)) ∧
  (same m e p g → k = n → F.sub rm fz x y = zero) ∧
  (∀ np nc, let sp := (n ^^ k) ^^ np
    let sc := j ^^ nc
    (m * p = 0 → r = 0 → sp = sc → F.fma rm fz np nc x y z = (F.signBit sp, 0#32)) ∧
    (same (m * p) (e + g) r h → sp ≠ sc → F.fma rm fz np nc x y z = zero))

/-- R267: `s.cause`: 0 at reset; supervisor software reads it whole, by a pair with 0 in its odd register, and writes INT (bit 31) and CODE
(bits 7:0); a user access traps 0x0A;
taking an exception writes both, and zeros between them. -/
def Obligations.CauseRegister : Prop :=
  (∀ n, n < State.reset.lcs.length → (State.reset.lc n).cause = 0#32) ∧
  (∀ (s : State) (n : Nat) (w : CtlW), s.alone n → w.num = 0x053 →
    let a := (s.grp s.cur).src .int (sysN w) w.a
    let u : W32 := (a.val 0).setWidth 32
    ((s.lc n).sup = true → s.ready (.srr w) → s.writes (.srr w) (sysN w) w.d fun _ => (s.lc n).cause.setWidth 64) ∧
    ((s.lc n).sup = true → s.ready (.srw w) → Mask.has (s.acting (.srw w)) 0 = true → Mask.has a.poi 0 = false →
      ∃ c : W32, c.getLsbD 31 = u.getLsbD 31 ∧ c.setWidth 8 = u.setWidth 8 ∧ c.extractLsb' 8 23 = (s.lc n).cause.extractLsb' 8 23 ∧
        s.becomes (.srw w) (s.modLc n fun x => { x with cause := c }) (s.opened (.srw w)) [] [] fun t => (t.lc n).cause = c) ∧
    ((s.lc n).sup = false → ∀ hw, s.headerAt n (s.lc n).tvec hw → (s.lc n).tvec.toNat % 8 = 0 → ∀ i ∈ [Instr.srr w, .srw w, .srset w, .srclr w],
      s.stands i → ∃ t, exec i s = .next t ∧ s.trapped t n false 0x0A 0#64 (s.thr (.lc n) 0).pc (s.thr (.lc n) 0).hoff hw)) ∧
  (∀ (s : State) (n : Nat) (intr : Bool) (code : Nat) (tval epc : W64) (hoff : Nat), n < s.lcs.length → code < 256 →
    (s.takeTrap n intr code tval epc hoff).absent = none →
    ((s.takeTrap n intr code tval epc hoff).lc n).cause = BitVec.ofNat 32 (code + if intr then 2 ^ 31 else 0))
end

