-- ==== Sys2Proof/Laws/Elements.lean ====
section
/-!
SUPPORT. The element operations of the integer instructions, computed on numbers, are the bit-vector operations.
-/

namespace Sys2Proof.Machine

variable {w : Nat}

theorem ofNat_wrap (i : Int) : BitVec.ofNat w (wrap w i) = BitVec.ofInt w i := by
  apply BitVec.eq_of_toNat_eq
  have h1 := Int.emod_nonneg i (show (2 ^ w : Int) ≠ 0 by positivity)
  have h2 := Int.emod_lt_of_pos i (show (0 : Int) < 2 ^ w by positivity)
  simp only [wrap, BitVec.toNat_ofNat, BitVec.toNat_ofInt, Nat.cast_pow, Nat.cast_ofNat]
  exact Nat.mod_eq_of_lt (by zify; omega)

theorem ofNat_toNats (x : BitVec w) : BitVec.ofNat w x.toNat = x := by simp
theorem el_add (x y : BitVec w) : BitVec.ofNat w (x.toNat + y.toNat) = x + y := by simp [BitVec.ofNat_add]
theorem el_mul (x y : BitVec w) : BitVec.ofNat w (x.toNat * y.toNat) = x * y := by simp [BitVec.ofNat_mul]
theorem el_sub (x y : BitVec w) : BitVec.ofNat w (wrap w ((x.toNat : Int) - y.toNat)) = x - y := by
  rw [ofNat_wrap]
  apply BitVec.eq_of_toInt_eq
  rw [BitVec.toInt_ofInt, BitVec.toInt_sub, BitVec.toInt_eq_toNat_bmod, BitVec.toInt_eq_toNat_bmod]
  simp
theorem el_neg (x : BitVec w) : BitVec.ofNat w (wrap w (-(x.toNat : Int))) = -x := by
  have := el_sub (0 : BitVec w) x
  simpa using this
theorem el_abs (x : BitVec w) : BitVec.ofNat w (sgn w x.toNat).natAbs = if x.msb then -x else x := by
  simp only [sgn, BitVec.ofNat_toNat, BitVec.setWidth_eq]
  apply BitVec.eq_of_toNat_eq
  have hx := x.isLt
  by_cases h : x.msb = true
  · rw [if_pos h, BitVec.toInt_eq_msb_cond, if_pos h, BitVec.toNat_neg, BitVec.toNat_ofNat]
    congr 1
    have : ((2 ^ w : Nat) : Int) = ((2 ^ w - x.toNat : Nat) : Int) + x.toNat := by push_cast [hx.le]; ring
    rw [this]
    have e : (x.toNat : Int) - (((2 ^ w - x.toNat : Nat) : Int) + x.toNat) = -((2 ^ w - x.toNat : Nat) : Int) := by ring
    rw [e, Int.natAbs_neg, Int.natAbs_natCast]
  · rw [if_neg h, BitVec.toInt_eq_msb_cond, if_neg h, BitVec.toNat_ofNat]
    simp

theorem el_addsat_u (x y : BitVec w) : (BitVec.ofNat w (clampTo .u w (asInt .u w x.toNat + asInt .u w y.toNat))).toNat =
    min (2 ^ w - 1) (x.toNat + y.toNat) := by
  have hw := Nat.two_pow_pos w
  simp only [clampTo, asInt, wrap, BitVec.toNat_ofNat]
  have e : max (0 : Int) (min (2 ^ w - 1) ((x.toNat : Int) + y.toNat)) = ((min (2 ^ w - 1) (x.toNat + y.toNat) : Nat) : Int) := by
    have : (1 : Int) ≤ 2 ^ w := by exact_mod_cast hw
    rw [max_eq_right (by omega)]; push_cast [hw]; rfl
  rw [e]
  have : min (2 ^ w - 1) (x.toNat + y.toNat) < 2 ^ w := by omega
  rw [show (2 ^ w : Int) = ((2 ^ w : Nat) : Int) by push_cast; rfl, ← Int.natCast_mod, Int.toNat_natCast, Nat.mod_mod, Nat.mod_eq_of_lt this]
theorem el_subsat_u (x y : BitVec w) : (BitVec.ofNat w (clampTo .u w (asInt .u w x.toNat - asInt .u w y.toNat))).toNat =
    x.toNat - y.toNat := by
  have hw := Nat.two_pow_pos w
  have hx := x.isLt
  simp only [clampTo, asInt, wrap, BitVec.toNat_ofNat]
  have e : max (0 : Int) (min (2 ^ w - 1) ((x.toNat : Int) - y.toNat)) = ((x.toNat - y.toNat : Nat) : Int) := by
    have : (x.toNat : Int) < 2 ^ w := by exact_mod_cast hx
    omega
  rw [e]
  have : x.toNat - y.toNat < 2 ^ w := by omega
  rw [show (2 ^ w : Int) = ((2 ^ w : Nat) : Int) by push_cast; rfl, ← Int.natCast_mod, Int.toNat_natCast, Nat.mod_mod, Nat.mod_eq_of_lt this]
theorem el_clamp_s (hw : 0 < w) (i : Int) : (BitVec.ofNat w (clampTo .s w i)).toInt = max (-2 ^ (w - 1)) (min (2 ^ (w - 1) - 1) i) := by
  simp only [clampTo]
  rw [ofNat_wrap, BitVec.toInt_ofInt]
  have h : (2 : Int) ^ w = 2 * 2 ^ (w - 1) := by rw [← pow_succ', Nat.sub_add_cancel hw]
  have hp : (0 : Int) < 2 ^ (w - 1) := by positivity
  apply Int.bmod_eq_of_le
  · push_cast; rw [h]; omega
  · push_cast; rw [h]; omega
theorem asInt_s (x : BitVec w) : asInt .s w x.toNat = x.toInt := by simp [asInt, sgn]
theorem asInt_u (x : BitVec w) : asInt .u w x.toNat = (x.toNat : Int) := rfl

theorem el_mulh_u (x y : BitVec w) : (BitVec.ofNat w (wrap w ((asInt .u w x.toNat * asInt .u w y.toNat) / 2 ^ w))).toNat =
    x.toNat * y.toNat / 2 ^ w := by
  rw [ofNat_wrap, BitVec.toNat_ofInt]
  simp only [asInt]
  have : x.toNat * y.toNat / 2 ^ w < 2 ^ w := by
    apply Nat.div_lt_of_lt_mul
    exact Nat.mul_lt_mul'' x.isLt y.isLt
  have e : ((x.toNat : Int) * y.toNat / 2 ^ w) = ((x.toNat * y.toNat / 2 ^ w : Nat) : Int) := by push_cast; rfl
  rw [e, ← Int.natCast_mod, Int.toNat_natCast, Nat.mod_eq_of_lt this]
theorem el_mulh_s (hw : 0 < w) (x y : BitVec w) : (BitVec.ofNat w (wrap w ((asInt .s w x.toNat * asInt .s w y.toNat) / 2 ^ w))).toInt =
    x.toInt * y.toInt / 2 ^ w := by
  rw [asInt_s, asInt_s, ofNat_wrap, BitVec.toInt_ofInt]
  have h : (2 : Int) ^ w = 2 * 2 ^ (w - 1) := by rw [← pow_succ', Nat.sub_add_cancel hw]
  have hp : (0 : Int) < 2 ^ (w - 1) := by positivity
  have x1 := BitVec.le_toInt x
  have x2 := @BitVec.toInt_lt w x
  have y1 := BitVec.le_toInt y
  have y2 := @BitVec.toInt_lt w y
  have m1 : x.toInt * y.toInt ≤ 2 ^ (w - 1) * 2 ^ (w - 1) := by nlinarith
  have m2 : -(2 ^ (w - 1) * 2 ^ (w - 1)) ≤ x.toInt * y.toInt := by nlinarith
  apply Int.bmod_eq_of_le
  · push_cast; rw [h]
    rw [Int.le_ediv_iff_mul_le (by positivity)]
    have : -(2 * 2 ^ (w - 1) / 2 : Int) = -(2 ^ (w - 1)) := by omega
    rw [this]; nlinarith
  · push_cast; rw [h]
    rw [Int.ediv_lt_iff_lt_mul (by positivity)]
    have : (2 * 2 ^ (w - 1) + 1 : Int) / 2 = 2 ^ (w - 1) := by omega
    rw [this]; nlinarith
theorem el_mad (x y z : BitVec w) : BitVec.ofNat w (x.toNat * y.toNat + z.toNat) = x * y + z := by
  simp [BitVec.ofNat_add, BitVec.ofNat_mul]

theorem el_div_u (x y : BitVec w) : BitVec.ofNat w (divRem .u w x.toNat y.toNat).1 = if y = 0 then BitVec.allOnes _ else x / y := by
  have hs : (Sgn.u == Sgn.s) = false := rfl
  by_cases hy : y = 0
  · simp only [divRem, hy, if_true, BitVec.allOnes]
    simp [BitVec.ofNatLT_eq_ofNat]
  · have : y.toNat ≠ 0 := fun h => hy (BitVec.eq_of_toNat_eq (by simpa using h))
    simp only [divRem, this, hy, if_false, hs, Bool.false_and, asInt, Bool.false_eq_true]
    rw [ofNat_wrap]
    apply BitVec.eq_of_toNat_eq
    rw [BitVec.toNat_ofInt, BitVec.toNat_udiv]
    have e : ((x.toNat : Int)).tdiv y.toNat = ((x.toNat / y.toNat : Nat) : Int) := by simp
    rw [e, ← Int.natCast_mod, Int.toNat_natCast]
    exact Nat.mod_eq_of_lt (lt_of_le_of_lt (Nat.div_le_self _ _) x.isLt)
theorem el_rem_u (x y : BitVec w) : BitVec.ofNat w (divRem .u w x.toNat y.toNat).2 = if y = 0 then x else x % y := by
  have hs : (Sgn.u == Sgn.s) = false := rfl
  by_cases hy : y = 0
  · simp [divRem, hy]
  · have : y.toNat ≠ 0 := fun h => hy (BitVec.eq_of_toNat_eq (by simpa using h))
    simp only [divRem, this, hy, if_false, hs, Bool.false_and, asInt, Bool.false_eq_true]
    rw [ofNat_wrap]
    apply BitVec.eq_of_toNat_eq
    rw [BitVec.toNat_ofInt, BitVec.toNat_umod]
    have e : ((x.toNat : Int)).tmod y.toNat = ((x.toNat % y.toNat : Nat) : Int) := by
      rw [Int.tmod_eq_emod_of_nonneg (by omega)]; push_cast; rfl
    rw [e, ← Int.natCast_mod, Int.toNat_natCast]
    exact Nat.mod_eq_of_lt (lt_of_le_of_lt (Nat.mod_le _ _) x.isLt)
theorem el_div_s (hw : 0 < w) (x y : BitVec w) :
    BitVec.ofNat w (divRem .s w x.toNat y.toNat).1 = if y = 0 then BitVec.allOnes _ else x.sdiv y := by
  have hs : (Sgn.s == Sgn.s) = true := rfl
  by_cases hy : y = 0
  · simp only [divRem, hy, if_true, BitVec.allOnes]
    simp [BitVec.ofNatLT_eq_ofNat]
  · have : y.toNat ≠ 0 := fun h => hy (BitVec.eq_of_toNat_eq (by simpa using h))
    simp only [divRem, this, hy, if_false, hs, Bool.true_and, asInt_s]
    by_cases hc : (x.toInt == -2 ^ (w - 1) && y.toInt == -1) = true
    · rw [if_pos hc]
      simp only [Bool.and_eq_true, beq_iff_eq] at hc
      rw [ofNat_toNats]
      apply BitVec.eq_of_toInt_eq
      rw [BitVec.toInt_sdiv, hc.1, hc.2]
      have h : (2 : Int) ^ w = 2 * 2 ^ (w - 1) := by rw [← pow_succ', Nat.sub_add_cancel hw]
      have hp : (0 : Int) < 2 ^ (w - 1) := by positivity
      have e : (-2 ^ (w - 1) : Int).tdiv (-1) = 2 ^ (w - 1) := by simp
      rw [e, Int.bmod_def]
      push_cast
      have e2 : (2 : Int) ^ (w - 1) % 2 ^ w = 2 ^ (w - 1) := Int.emod_eq_of_lt (by omega) (by omega)
      rw [e2, h]
      omega
    · rw [if_neg hc, ofNat_wrap]
      apply BitVec.eq_of_toInt_eq
      rw [BitVec.toInt_ofInt, BitVec.toInt_sdiv]
theorem el_rem_s (hw : 0 < w) (x y : BitVec w) :
    BitVec.ofNat w (divRem .s w x.toNat y.toNat).2 = if y = 0 then x else x.srem y := by
  have hs : (Sgn.s == Sgn.s) = true := rfl
  by_cases hy : y = 0
  · simp [divRem, hy]
  · have : y.toNat ≠ 0 := fun h => hy (BitVec.eq_of_toNat_eq (by simpa using h))
    simp only [divRem, this, hy, if_false, hs, Bool.true_and, asInt_s]
    by_cases hc : (x.toInt == -2 ^ (w - 1) && y.toInt == -1) = true
    · rw [if_pos hc]
      simp only [Bool.and_eq_true, beq_iff_eq] at hc
      apply BitVec.eq_of_toInt_eq
      rw [BitVec.toInt_srem, hc.2]; simp
    · rw [if_neg hc, ofNat_wrap]
      apply BitVec.eq_of_toInt_eq
      rw [BitVec.toInt_srem, BitVec.toInt_ofInt]
      have h : (2 : Int) ^ w = 2 * 2 ^ (w - 1) := by rw [← pow_succ', Nat.sub_add_cancel hw]
      have hp : (0 : Int) < 2 ^ (w - 1) := by positivity
      have x1 := BitVec.le_toInt x
      have x2 := @BitVec.toInt_lt w x
      have b : -(2 ^ (w - 1)) ≤ x.toInt.tmod y.toInt ∧ x.toInt.tmod y.toInt < 2 ^ (w - 1) := by
        have hn : (x.toInt.tmod y.toInt).natAbs ≤ x.toInt.natAbs := by rw [Int.natAbs_tmod]; exact Nat.mod_le _ _
        rcases le_total 0 x.toInt with hx | hx
        · have h1 := Int.tmod_nonneg y.toInt hx
          omega
        · have h1 := Int.tmod_nonneg y.toInt (show 0 ≤ -x.toInt by omega)
          rw [Int.neg_tmod] at h1
          omega
      apply Int.bmod_eq_of_le
      · push_cast; rw [h]; omega
      · push_cast; rw [h]; omega

/-! ### Logic and shifts -/

theorem el_and (x y : BitVec w) : BitVec.ofNat w (x.toNat &&& y.toNat) = x &&& y := by
  apply BitVec.eq_of_toNat_eq; rw [BitVec.toNat_ofNat, BitVec.toNat_and, Nat.mod_eq_of_lt]
  exact lt_of_le_of_lt Nat.and_le_left x.isLt
theorem el_or (x y : BitVec w) : BitVec.ofNat w (x.toNat ||| y.toNat) = x ||| y := by
  apply BitVec.eq_of_toNat_eq; rw [BitVec.toNat_ofNat, BitVec.toNat_or, Nat.mod_eq_of_lt]
  exact Nat.or_lt_two_pow x.isLt y.isLt
theorem el_xor (x y : BitVec w) : BitVec.ofNat w (x.toNat ^^^ y.toNat) = x ^^^ y := by
  apply BitVec.eq_of_toNat_eq; rw [BitVec.toNat_ofNat, BitVec.toNat_xor, Nat.mod_eq_of_lt]
  exact Nat.xor_lt_two_pow x.isLt y.isLt
theorem el_andn (x y : BitVec w) : BitVec.ofNat w (x.toNat &&& (2 ^ w - 1 - y.toNat)) = x &&& ~~~y := by
  rw [← BitVec.toNat_not]; exact el_and x (~~~y)
theorem el_shl (x : BitVec w) (n : Nat) : BitVec.ofNat w (x.toNat * 2 ^ n) = x <<< n := by
  apply BitVec.eq_of_toNat_eq; rw [BitVec.toNat_ofNat, BitVec.toNat_shiftLeft, Nat.shiftLeft_eq]
theorem el_shr (x : BitVec w) (n : Nat) : BitVec.ofNat w (x.toNat / 2 ^ n) = x >>> n := by
  apply BitVec.eq_of_toNat_eq; rw [BitVec.toNat_ofNat, BitVec.toNat_ushiftRight, Nat.shiftRight_eq_div_pow, Nat.mod_eq_of_lt]
  exact lt_of_le_of_lt (Nat.div_le_self _ _) x.isLt
theorem el_sar (x : BitVec w) (n : Nat) : BitVec.ofNat w (shrA w n x.toNat) = x.sshiftRight n := by
  unfold shrA
  rw [ofNat_wrap]
  apply BitVec.eq_of_toInt_eq
  rw [BitVec.toInt_ofInt, BitVec.toInt_sshiftRight]
  simp only [sgn, BitVec.ofNat_toNat, BitVec.setWidth_eq]
  rw [← BitVec.toInt_sshiftRight, ← BitVec.toInt_ofInt, BitVec.ofInt_toInt]
theorem rotl_bit (hw : 0 < w) (x : BitVec w) (n j : Nat) (hn : n < w) (hj : j < w) :
    (rotlN w n x.toNat).testBit j = x.getLsbD ((j + w - n) % w) := by
  have hx := x.isLt
  have hd : x.toNat / 2 ^ (w - n) < 2 ^ n := by
    rw [Nat.div_lt_iff_lt_mul (by positivity), ← pow_add, show n + (w - n) = w by omega]; exact hx
  have e : x.toNat * 2 ^ n + x.toNat / 2 ^ (w - n) = (x.toNat <<< n) ||| (x.toNat >>> (w - n)) := by
    rw [Nat.shiftRight_eq_div_pow, ← Nat.shiftLeft_add_eq_or_of_lt hd, Nat.shiftLeft_eq]
  unfold rotlN
  rw [e, Nat.testBit_mod_two_pow, Nat.testBit_or, Nat.testBit_shiftLeft, Nat.testBit_shiftRight]
  simp only [BitVec.getLsbD, hj, decide_true, Bool.true_and]
  by_cases h : n ≤ j
  · have e1 : (j + w - n) % w = j - n := by
      rw [show j + w - n = (j - n) + w by omega, Nat.add_mod_right, Nat.mod_eq_of_lt (by omega)]
    rw [e1, show x.toNat.testBit (w - n + j) = false from Nat.testBit_lt_two_pow (lt_of_lt_of_le hx (Nat.pow_le_pow_right (by omega) (by omega)))]
    simp [h]
  · have e1 : (j + w - n) % w = w - n + j := by
      rw [show j + w - n = w - n + j by omega, Nat.mod_eq_of_lt (by omega)]
    rw [e1]; simp [h]
theorem el_rotl (hw : 0 < w) (x : BitVec w) (n : Nat) : BitVec.ofNat w (rotlN w (n % w) x.toNat) = x.rotateLeft n := by
  apply BitVec.eq_of_getLsbD_eq
  intro j hj
  have hn := Nat.mod_lt n hw
  rw [BitVec.getLsbD_ofNat, rotl_bit hw x _ _ hn hj, BitVec.getLsbD_rotateLeft]
  simp only [hj, decide_true, Bool.true_and, Bool.cond_decide]
  split
  · rename_i h
    congr 1
    rw [show j + w - n % w = w - n % w + j by omega, Nat.mod_eq_of_lt (by omega)]
  · rename_i h
    congr 1
    rw [show j + w - n % w = (j - n % w) + w by omega, Nat.add_mod_right, Nat.mod_eq_of_lt (by omega)]
theorem el_rotr (hw : 0 < w) (x : BitVec w) (n : Nat) : BitVec.ofNat w (rotlN w ((w - n % w) % w) x.toNat) = x.rotateRight n := by
  apply BitVec.eq_of_getLsbD_eq
  intro j hj
  have hn := Nat.mod_lt n hw
  rw [BitVec.getLsbD_ofNat, rotl_bit hw x _ _ (Nat.mod_lt _ hw) hj, BitVec.getLsbD_rotateRight]
  simp only [hj, decide_true, Bool.true_and, Bool.cond_decide]
  by_cases h0 : n % w = 0
  · simp only [h0, Nat.sub_zero, Nat.mod_self, Nat.zero_add, hj, if_true]
    congr 1
    rw [Nat.add_mod_right, Nat.mod_eq_of_lt hj]
  · rw [Nat.mod_eq_of_lt (show w - n % w < w by omega), show j + w - (w - n % w) = j + n % w by omega]
    split
    · congr 1
      rw [Nat.mod_eq_of_lt (by omega), Nat.add_comm]
    · congr 1
      rw [show j + n % w = (j + n % w - w) + w by omega, Nat.add_mod_right, Nat.mod_eq_of_lt (by omega)]
      omega

theorem el_fshf (dir : Dir) (x y c : W32) : BitVec.ofNat 32 (fshfN dir x.toNat y.toNat c.toNat) =
    match dir with
    | .l => ((x ++ y) <<< (c.toNat % 32)).extractLsb' 32 32
    | .r => ((x ++ y) >>> (c.toNat % 32)).extractLsb' 0 32 := by
  have e : x.toNat * 2 ^ 32 + y.toNat = (x ++ y).toNat := by
    rw [BitVec.toNat_append, ← Nat.shiftLeft_add_eq_or_of_lt y.isLt, Nat.shiftLeft_eq]
  have hlt := (x ++ y).isLt
  generalize (x ++ y) = v at *
  cases dir <;> apply BitVec.eq_of_toNat_eq <;>
    simp only [fshfN, e, BitVec.toNat_ofNat, BitVec.extractLsb'_toNat, BitVec.toNat_shiftLeft, BitVec.toNat_ushiftRight,
      Nat.shiftRight_eq_div_pow, Nat.shiftLeft_eq, Nat.mod_mod]
  · rw [show (2 : Nat) ^ (32 + 32) = 2 ^ 32 * 2 ^ 32 by norm_num, Nat.mod_mul_right_div_self, Nat.mod_mod]
  · simp

/-! ### Selection and counting -/

theorem el_min_u (x y : BitVec w) : (BitVec.ofNat w (if asInt .u w y.toNat < asInt .u w x.toNat then y.toNat else x.toNat)).toNat =
    min x.toNat y.toNat := by
  simp only [asInt, Nat.cast_lt]
  split <;> simp <;> omega
theorem el_min_s (x y : BitVec w) : (BitVec.ofNat w (if asInt .s w y.toNat < asInt .s w x.toNat then y.toNat else x.toNat)).toInt =
    min x.toInt y.toInt := by
  simp only [asInt_s]
  split <;> simp <;> omega
theorem el_max_u (x y : BitVec w) : (BitVec.ofNat w (if asInt .u w x.toNat < asInt .u w y.toNat then y.toNat else x.toNat)).toNat =
    max x.toNat y.toNat := by
  simp only [asInt, Nat.cast_lt]
  split <;> simp <;> omega
theorem el_max_s (x y : BitVec w) : (BitVec.ofNat w (if asInt .s w x.toNat < asInt .s w y.toNat then y.toNat else x.toNat)).toInt =
    max x.toInt y.toInt := by
  simp only [asInt_s]
  split <;> simp <;> omega

theorem toNat_small (n : Nat) (h : n ≤ w) : (BitVec.ofNat w n).toNat = n := by
  rw [BitVec.toNat_ofNat, Nat.mod_eq_of_lt (lt_of_le_of_lt h Nat.lt_two_pow_self)]

theorem bitLen_le (x : BitVec w) : bitLen x.toNat ≤ w := by
  unfold bitLen; split
  · omega
  · rename_i h; have := (Nat.log2_lt h).2 x.isLt; omega
theorem el_clz (x : BitVec w) : let v := BitVec.ofNat w (clzN w x.toNat)
    v.toNat ≤ w ∧ (∀ j, j < v.toNat → x.getMsbD j = false) ∧ (v.toNat < w → x.getMsbD v.toNat = true) := by
  have hb := bitLen_le x
  have e : x.toNat % 2 ^ w = x.toNat := Nat.mod_eq_of_lt x.isLt
  simp only [clzN, e]
  rw [toNat_small _ (by omega)]
  refine ⟨by omega, ?_, ?_⟩
  · intro j hj
    rw [BitVec.getMsbD]
    simp only [show decide (j < w) = true by simp; omega, Bool.true_and, BitVec.getLsbD]
    apply Nat.testBit_lt_two_pow
    unfold bitLen at hj
    split at hj
    · rename_i h; rw [h]; positivity
    · rename_i h
      exact lt_of_lt_of_le ((Nat.log2_lt h).1 (Nat.lt_succ_self _)) (Nat.pow_le_pow_right (by omega) (by omega))
  · intro hv
    rw [BitVec.getMsbD]
    unfold bitLen at *
    split at hv
    · omega
    · rename_i h
      rw [if_neg h] at hb ⊢
      simp only [show decide (w - (x.toNat.log2 + 1) < w) = true by simp; omega, Bool.true_and, BitVec.getLsbD]
      rw [show w - 1 - (w - (x.toNat.log2 + 1)) = x.toNat.log2 by omega]
      exact Nat.testBit_log2 h
theorem el_ctz (x : BitVec w) : let v := BitVec.ofNat w (ctzN w x.toNat)
    v.toNat ≤ w ∧ (∀ j, j < v.toNat → x.getLsbD j = false) ∧ (v.toNat < w → x.getLsbD v.toNat = true) := by
  simp only [ctzN]
  cases h : (List.range w).find? fun k => x.toNat.testBit k with
  | none =>
    simp only [Option.getD_none]
    rw [toNat_small _ le_rfl]
    refine ⟨le_rfl, fun j hj => ?_, fun hv => absurd hv (lt_irrefl _)⟩
    have := List.find?_eq_none.1 h j (List.mem_range.2 hj)
    simpa [BitVec.getLsbD] using this
  | some k =>
    simp only [Option.getD_some]
    have hk : k < w := List.mem_range.1 (List.mem_of_find?_eq_some h)
    rw [toNat_small _ hk.le]
    refine ⟨hk.le, fun j hj => ?_, fun _ => ?_⟩
    · rw [List.find?_range_eq_some] at h
      have := h.2.2 j hj
      simpa [BitVec.getLsbD] using this
    · have := List.find?_some h
      simpa [BitVec.getLsbD] using this
theorem el_popc (x : BitVec w) : (BitVec.ofNat w (popcN w x.toNat)).toNat = (List.range w).countP x.getLsbD := by
  have e : popcN w x.toNat = (List.range w).countP x.getLsbD := by
    rw [popcN, List.countP_eq_length_filter]; rfl
  rw [e, toNat_small]
  have := List.countP_le_length (p := x.getLsbD) (l := List.range w)
  simpa using this
theorem sum_bits (w : Nat) (p : Nat → Bool) (j : Nat) :
    (((List.range w).map fun k => if p k then 2 ^ k else 0).sum).testBit j = (decide (j < w) && p j) := by
  have hlt : ∀ w, ((List.range w).map fun k => if p k then 2 ^ k else 0).sum < 2 ^ w := by
    intro w; induction w with
    | zero => simp
    | succ n ih => rw [List.range_succ]; simp only [List.map_append, List.map_cons, List.map_nil, List.sum_append, List.sum_cons, List.sum_nil]
                   rw [pow_succ]; split <;> omega
  induction w with
  | zero => simp
  | succ n ih =>
    rw [List.range_succ]
    simp only [List.map_append, List.map_cons, List.map_nil, List.sum_append, List.sum_cons, List.sum_nil, Nat.add_zero]
    cases hp : p n with
    | false =>
      simp only [Bool.false_eq_true, if_false, Nat.add_zero, ih]
      by_cases h : j = n
      · subst h; simp [hp]
      · have : decide (j < n) = decide (j < n + 1) := by simp; omega
        rw [this]
    | true =>
      simp only [if_true]
      rw [Nat.add_comm]
      have hS := hlt n
      rcases lt_trichotomy j n with h | h | h
      · rw [Nat.testBit_two_pow_add_gt h, ih]; simp [h]; omega
      · subst h; rw [Nat.testBit_two_pow_add_eq, ih]; simp [hp]
      · rw [Nat.testBit_lt_two_pow (lt_of_lt_of_le (b := 2 ^ (n + 1)) (by rw [pow_succ]; omega) (Nat.pow_le_pow_right (by omega) h))]
        simp; omega
theorem sum_bits_rev (w : Nat) (p : Nat → Bool) :
    ((List.range w).map fun k => if p k then 2 ^ (w - 1 - k) else 0).sum =
      ((List.range w).map fun k => if p (w - 1 - k) then 2 ^ k else 0).sum := by
  have hl : ∀ f : Nat → Nat, ((List.range w).map f).sum = ∑ k ∈ Finset.range w, f k := fun f => rfl
  rw [hl, hl, ← Finset.sum_range_reflect]
  apply Finset.sum_congr rfl
  intro k hk
  have := Finset.mem_range.1 hk
  rw [show w - 1 - (w - 1 - k) = k by omega]
theorem el_brev (x : BitVec w) : BitVec.ofNat w (brevN w x.toNat) = x.reverse := by
  apply BitVec.eq_of_getLsbD_eq
  intro j hj
  rw [BitVec.getLsbD_ofNat, brevN, sum_bits_rev w fun k => x.toNat.testBit k, sum_bits, BitVec.getLsbD_reverse, BitVec.getMsbD]
  simp [hj, BitVec.getLsbD]

/-! ### Fields -/

theorem el_bext (x : BitVec w) (c j : Nat) (hj : j < w) : (BitVec.ofNat w (bextN w x.toNat c)).getLsbD j =
    (decide (j < min (c / 256 % 256) (w - c % 256)) && x.getLsbD (c % 256 + j)) := by
  rw [BitVec.getLsbD_ofNat]
  simp only [hj, decide_true, Bool.true_and, bextN]
  split
  · rename_i h
    have : ¬ j < min (c / 256 % 256) (w - c % 256) := by simp at h; omega
    simp [this]
  · rw [Nat.testBit_mod_two_pow, Nat.testBit_div_two_pow, Nat.add_comm j]
    rfl
theorem el_bins (x y : BitVec w) (c j : Nat) (hj : j < w) : (BitVec.ofNat w (binsN w x.toNat y.toNat c)).getLsbD j =
    if c % 256 ≤ j ∧ j < c % 256 + min (c / 256 % 256) (w - c % 256) then y.getLsbD (j - c % 256) else x.getLsbD j := by
  rw [BitVec.getLsbD_ofNat]
  simp only [hj, decide_true, Bool.true_and, binsN]
  split
  · rename_i h
    have : ¬ (c % 256 ≤ j ∧ j < c % 256 + min (c / 256 % 256) (w - c % 256)) := by simp at h; omega
    rw [if_neg this]; rfl
  · rename_i h
    generalize hp : c % 256 = p at *
    have hn : Nat.min (c / 256 % 256) (w - p) = min (c / 256 % 256) (w - p) := rfl
    rw [hn]
    generalize hm : min (c / 256 % 256) (w - p) = n at *
    have e : x.toNat % 2 ^ p + y.toNat % 2 ^ n * 2 ^ p + x.toNat / 2 ^ (p + n) * 2 ^ (p + n) =
        ((x.toNat / 2 ^ (p + n)) <<< (p + n)) ||| (((y.toNat % 2 ^ n) <<< p) ||| (x.toNat % 2 ^ p)) := by
      have h1 : x.toNat % 2 ^ p < 2 ^ p := Nat.mod_lt _ (by positivity)
      have h2 : y.toNat % 2 ^ n < 2 ^ n := Nat.mod_lt _ (by positivity)
      rw [← Nat.shiftLeft_add_eq_or_of_lt h1, ← Nat.shiftLeft_add_eq_or_of_lt, Nat.shiftLeft_eq, Nat.shiftLeft_eq]
      · ring
      · rw [Nat.shiftLeft_eq, pow_add]
        nlinarith [Nat.two_pow_pos p, Nat.two_pow_pos n]
    rw [e, Nat.testBit_or, Nat.testBit_or, Nat.testBit_shiftLeft, Nat.testBit_shiftLeft, Nat.testBit_mod_two_pow, Nat.testBit_mod_two_pow,
      Nat.testBit_div_two_pow]
    simp only [BitVec.getLsbD]
    by_cases c1 : p ≤ j
    · by_cases c2 : j < p + n
      · simp [c1, c2, show ¬ (p + n ≤ j) by omega, show j - p < n by omega, show ¬ j < p by omega]
      · simp [c1, c2, show (p + n ≤ j) by omega, show ¬ j - p < n by omega, show ¬ j < p by omega]
    · simp [c1, show ¬ (p + n ≤ j) by omega, show j < p by omega]
theorem el_ext_u (x : BitVec w) (c j : Nat) (hj : j < w) : (BitVec.ofNat w (extN .u w x.toNat c)).getLsbD j =
    (decide (c % 256 = 0 ∨ j < c % 256) && x.getLsbD j) := by
  rw [BitVec.getLsbD_ofNat]
  simp only [hj, decide_true, Bool.true_and, extN]
  split
  · rename_i h
    have : c % 256 = 0 ∨ j < c % 256 := by simp at h; omega
    simp [this, BitVec.getLsbD]
  · rename_i h
    have : c % 256 ≠ 0 := by simp at h; omega
    rw [Nat.testBit_mod_two_pow]; simp [this, BitVec.getLsbD]
theorem el_ext_s (x : BitVec w) (c j : Nat) (hj : j < w) : (BitVec.ofNat w (extN .s w x.toNat c)).getLsbD j =
    x.getLsbD (if c % 256 = 0 ∨ j < c % 256 then j else c % 256 - 1) := by
  simp only [extN]
  split
  · rename_i h
    have : c % 256 = 0 ∨ j < c % 256 := by simp at h; omega
    simp [this]
  · rename_i h
    generalize hm : c % 256 = m at *
    have h1 : m ≠ 0 ∧ m < w := by simp at h; omega
    have e : BitVec.ofNat w (wrap w (sgn m (x.toNat % 2 ^ m))) = (BitVec.ofNat m (x.toNat % 2 ^ m)).signExtend w := by
      rw [ofNat_wrap]; rfl
    simp only [e, BitVec.getLsbD_signExtend, hj, decide_true, Bool.true_and, h1.1, false_or, BitVec.getLsbD_ofNat, Nat.testBit_mod_two_pow]
    split
    · rename_i hjm; simp [hjm, BitVec.getLsbD]
    · rename_i hjm
      rw [BitVec.msb_eq_getLsbD_last, BitVec.getLsbD_ofNat, Nat.testBit_mod_two_pow]
      simp [show m - 1 < m by omega, BitVec.getLsbD]
theorem byte_of_sum (B : Nat → Nat) (hB : ∀ k, B k < 256) (j : Nat) (hj : j < 4) :
    (BitVec.ofNat 32 (((List.range 4).map fun k => B k * 2 ^ (8 * k)).sum)).extractLsb' (8 * j) 8 = BitVec.ofNat 8 (B j) := by
  have e : ((List.range 4).map fun k => B k * 2 ^ (8 * k)).sum = ∑ k ∈ Finset.range 4, B k * 2 ^ (8 * k) := rfl
  rw [e, Finset.sum_range_succ, Finset.sum_range_succ, Finset.sum_range_succ, Finset.sum_range_succ, Finset.sum_range_zero]
  apply BitVec.eq_of_toNat_eq
  rw [BitVec.extractLsb'_toNat, BitVec.toNat_ofNat, Nat.shiftRight_eq_div_pow, BitVec.toNat_ofNat]
  have h0 := hB 0; have h1 := hB 1; have h2 := hB 2; have h3 := hB 3
  clear e
  have : j = 0 ∨ j = 1 ∨ j = 2 ∨ j = 3 := by omega
  rcases this with rfl | rfl | rfl | rfl <;> norm_num <;> omega
/-- Byte `k` that `PERM` selects. -/
def permByte (v c k : Nat) : Nat :=
  let s := c / 2 ^ (4 * k) % 16
  let b := v / 2 ^ (8 * (s % 8)) % 256
  if s ≥ 8 then (if b ≥ 128 then 255 else 0) else b
theorem permByte_lt (v c k : Nat) : permByte v c k < 256 := by
  simp only [permByte]; split
  · split <;> omega
  · omega
theorem permN_eq (a b c v : Nat) (hv : a + b * 2 ^ 32 = v) :
    permN a b c = ((List.range 4).map fun k => permByte v c k * 2 ^ (8 * k)).sum := by
  subst hv
  unfold permN permByte
  rfl
theorem el_perm (x y c : W32) (j : Nat) (hj : j < 4) :
    (BitVec.ofNat 32 (permN x.toNat y.toNat c.toNat)).extractLsb' (8 * j) 8 =
      (let s := c.extractLsb' (4 * j) 4
       let b := (y ++ x).extractLsb' (8 * (s.toNat % 8)) 8
       if s.getLsbD 3 then (if b.msb then 0xFF#8 else 0#8) else b) := by
  have hx : x.toNat + y.toNat * 2 ^ 32 = (y ++ x).toNat := by
    rw [BitVec.toNat_append, ← Nat.shiftLeft_add_eq_or_of_lt x.isLt, Nat.shiftLeft_eq, Nat.add_comm]
  rw [permN_eq _ _ _ _ hx, byte_of_sum _ (permByte_lt _ _) j hj]
  have hs : (c.extractLsb' (4 * j) 4).toNat = c.toNat / 2 ^ (4 * j) % 16 := by
    rw [BitVec.extractLsb'_toNat, Nat.shiftRight_eq_div_pow]
  simp only [permByte]
  rw [← hs]
  generalize c.extractLsb' (4 * j) 4 = s
  have hb : ((y ++ x).extractLsb' (8 * (s.toNat % 8)) 8).toNat = (y ++ x).toNat / 2 ^ (8 * (s.toNat % 8)) % 256 := by
    rw [BitVec.extractLsb'_toNat, Nat.shiftRight_eq_div_pow]
  rw [← hb]
  generalize (y ++ x).extractLsb' (8 * (s.toNat % 8)) 8 = b
  have h3 : s.getLsbD 3 = decide (s.toNat ≥ 8) := by clear hb; revert s; decide
  rw [h3]
  by_cases h8 : s.toNat ≥ 8
  · simp only [h8, if_true, decide_true]
    rw [BitVec.msb_eq_decide]
    by_cases h : b.toNat ≥ 128
    · rw [if_pos h, if_pos (by simpa using h)]
    · rw [if_neg h, if_neg (by simpa using h)]
  · simp only [h8, if_false, decide_false, Bool.false_eq_true, BitVec.ofNat_toNat, BitVec.setWidth_eq]

end Sys2Proof.Machine
end

