-- ==== Sys2Proof/Laws/Mask.lean ====
section
/-!
SUPPORT. Masks of lanes: which lanes a constructed mask has, and the lanes of a mask.
-/

namespace Sys2Proof

theorem Mask.has_zero (l : Nat) : Mask.has 0#64 l = false := by simp [Mask.has]
theorem Mask.has_lt {m : Mask} {l : Nat} (h : Mask.has m l = true) : l < 64 := by
  rcases Nat.lt_or_ge l 64 with hl | hl
  · exact hl
  · simp [Mask.has, BitVec.getLsbD_of_ge m l hl] at h
theorem Mask.has_and (a b : Mask) (l : Nat) : Mask.has (a &&& b) l = (Mask.has a l && Mask.has b l) := by simp [Mask.has]
theorem Mask.has_or (a b : Mask) (l : Nat) : Mask.has (a ||| b) l = (Mask.has a l || Mask.has b l) := by simp [Mask.has]
theorem Mask.has_not (a : Mask) (l : Nat) (h : l < 64) : Mask.has (~~~a) l = !Mask.has a l := by simp [Mask.has, h]

theorem Mask.has_put (m : Mask) (k l : Nat) (b : Bool) (hk : k < 64) :
    Mask.has (Mask.put m k b) l = if l = k then b else Mask.has m l := by
  cases b <;> simp only [Mask.put, Mask.has] <;> by_cases h : l = k <;> simp [h] <;> grind

theorem Mask.has_foldl_put (ls : List Nat) (m : Mask) (l : Nat) (hl : ∀ k ∈ ls, k < 64) :
    Mask.has (ls.foldl (fun m l => Mask.put m l true) m) l = (ls.contains l || Mask.has m l) := by
  induction ls generalizing m with
  | nil => simp
  | cons x xs ih =>
    simp only [List.foldl_cons]
    rw [ih _ (fun k hk => hl k (by simp [hk])), Mask.has_put _ _ _ _ (hl x (by simp))]
    by_cases h : l = x <;> simp [h]

theorem Mask.has_ofLanes (ls : List Nat) (l : Nat) (hl : ∀ k ∈ ls, k < 64) : Mask.has (Mask.ofLanes ls) l = ls.contains l := by
  simp [Mask.ofLanes, Mask.has_foldl_put ls _ l hl, Mask.has_zero]

theorem mem_allLanes (l : Nat) : l ∈ allLanes ↔ l < 64 := by simp [allLanes]

theorem Mask.has_ofTest (p : Nat → Bool) (l : Nat) : Mask.has (Mask.ofTest p) l = (decide (l < 64) && p l) := by
  rw [Mask.ofTest, Mask.has_ofLanes _ _ (by intro k hk; simp [allLanes] at hk; omega)]
  rw [Bool.eq_iff_iff]; simp [allLanes]

theorem Mask.mem_lanes (m : Mask) (l : Nat) : l ∈ Mask.lanes m ↔ Mask.has m l = true := by
  simp only [Mask.lanes, List.mem_filter, mem_allLanes]
  exact ⟨fun h => h.2, fun h => ⟨Mask.has_lt h, h⟩⟩

theorem Mask.ext_has {a b : Mask} (h : ∀ l, l < 64 → Mask.has a l = Mask.has b l) : a = b :=
  BitVec.eq_of_getLsbD_eq h

theorem Mask.headD_lanes {m : Mask} {l : Nat} (h : Mask.has m l = true) : Mask.has m ((Mask.lanes m).headD 0) = true := by
  have hl := (Mask.mem_lanes m l).2 h
  cases hc : Mask.lanes m with
  | nil => simp [hc] at hl
  | cons x xs => exact (Mask.mem_lanes m x).1 (by simp [hc])

end Sys2Proof
end

