-- ==== Sys2Proof/Laws/Regs.lean ====
section
/-!
SUPPORT. Registers and predicates of a group: what a read gives after a write (R17-R21, R25), and what a write leaves alone.
-/

namespace Sys2Proof.Machine

/-! ### Register lists -/

theorem findReg_putReg (l : List (Nat × Reg)) (r k : Nat) (x : Reg) :
    findReg (putReg l r x) k = if k = r then x else findReg l k := by
  induction l with
  | nil => simp only [putReg, findReg]; grind
  | cons e es ih =>
    obtain ⟨a, y⟩ := e
    simp only [putReg]
    split
    · simp only [findReg]; grind
    · split
      · simp only [findReg]; grind
      · simp only [findReg, ih]; grind

/-! ### One register -/

theorem Group.reg_wr (g : Group) (r k : Nat) (who : Mask) (val : Nat → W32) (h : Hint) (poi : Mask) :
    k ≠ r → (g.wr r who val h poi).reg k = g.reg k := by
  intro hk
  simp [Group.wr, Group.reg, findReg_putReg, hk]

theorem lane_map (l : Nat) (val : Nat → W32) (hl : l < 64) : (Shaped.g (allLanes.map val)).lane l = val l := by
  simp [Shaped.lane, allLanes, List.getD_eq_getElem?_getD, hl]

/-- A live lane reads the value written to it, and its old value where nothing was written (R20, R21). -/
theorem Group.rd_wr_same (g : Group) (r l : Nat) (who : Mask) (val : Nat → W32) (h : Hint) (poi : Mask)
    (hl : l < 64) (hlive : Mask.has g.live l = true) (hs : g.single = true → l = 0) :
    (g.wr r who val h poi).rd l r = if Mask.has who l then val l else g.rd l r := by
  simp only [Group.rd, Group.reg, Group.wr, findReg_putReg, if_true]
  by_cases hsing : g.single = true
  · rw [if_pos hsing]; have := hs hsing; subst this; simp [Shaped.lane]
  · rw [if_neg hsing]
    by_cases hall : (g.live &&& ~~~who == 0#64 && h.holds who val) = true
    · rw [if_pos hall]
      rw [Bool.and_eq_true] at hall
      have hw : Mask.has who l = true := by
        have h0 : Mask.has (g.live &&& ~~~who) l = false := by rw [beq_iff_eq.1 hall.1]; exact Mask.has_zero l
        rw [Mask.has_and, Mask.has_not _ _ hl, hlive] at h0
        simpa using h0
      rw [if_pos hw]
      have hm : l ∈ Mask.lanes who := (Mask.mem_lanes who l).2 hw
      cases h with
      | u => have := List.all_eq_true.1 hall.2 l hm; exact (beq_iff_eq.1 this).symm
      | a b s => have := List.all_eq_true.1 hall.2 l hm; exact (beq_iff_eq.1 this).symm
      | g => simp only []; rw [lane_map l _ hl]; simp [hw]
    · rw [if_neg hall, lane_map l _ hl]

theorem Group.rd_wr_other (g : Group) (r k l : Nat) (who : Mask) (val : Nat → W32) (h : Hint) (poi : Mask) (hk : k ≠ r) :
    (g.wr r who val h poi).rd l k = g.rd l k := by
  simp only [Group.rd, Group.reg_wr g r k who val h poi hk]

@[simp] theorem Group.wr_live (g : Group) (r : Nat) (who : Mask) (val : Nat → W32) (h : Hint) (poi : Mask) :
    (g.wr r who val h poi).live = g.live := rfl
@[simp] theorem Group.wr_threads (g : Group) (r : Nat) (who : Mask) (val : Nat → W32) (h : Hint) (poi : Mask) :
    (g.wr r who val h poi).threads = g.threads := rfl
@[simp] theorem Group.wr_preds (g : Group) (r : Nat) (who : Mask) (val : Nat → W32) (h : Hint) (poi : Mask) :
    (g.wr r who val h poi).preds = g.preds := rfl
@[simp] theorem Group.wr_single (g : Group) (r : Nat) (who : Mask) (val : Nat → W32) (h : Hint) (poi : Mask) :
    (g.wr r who val h poi).single = g.single := rfl

/-- The poison mark that a live lane reads after a write (R141). -/
theorem Group.poison_wr (g : Group) (r l : Nat) (who : Mask) (val : Nat → W32) (h : Hint) (poi : Mask) (hl : l < 64) :
    Mask.has ((g.wr r who val h poi).reg r).poison l = if Mask.has who l then Mask.has poi l else Mask.has (g.reg r).poison l := by
  simp only [Group.wr, Group.reg, findReg_putReg, if_true, Mask.has_or, Mask.has_and, Mask.has_not _ _ hl]
  cases Mask.has who l <;> simp

/-! ### Predicates -/

theorem getD_range7 (f : Nat → PredV) {k : Nat} (h : k < 7) : ((List.range 7).map f).getD k {} = f k := by
  simp [List.getD_eq_getElem?_getD, h]

theorem Group.pred_wrP (g : Group) (n l : Nat) (who : Mask) (val : Nat → Bool) (uni : Bool) (poi : Mask) (hl : l < 64) (hn : n < 7) :
    (g.wrP n who val uni poi).pred n l = if Mask.has who l then val l else g.pred n l := by
  have h7 : ¬ n ≥ 7 := by omega
  unfold Group.wrP
  rw [if_neg h7]
  simp only [Group.pred, h7, decide_false, Bool.false_or, getD_range7 _ hn, if_true, Mask.has_or, Mask.has_and, Mask.has_not _ _ hl,
    Mask.has_ofTest, hl, decide_true]
  cases Mask.has who l <;> simp

theorem Group.pred_wrP_other (g : Group) (n k l : Nat) (who : Mask) (val : Nat → Bool) (uni : Bool) (poi : Mask) (hk : k ≠ n) :
    (g.wrP n who val uni poi).pred k l = g.pred k l := by
  unfold Group.wrP
  split
  · rfl
  · by_cases h7 : k < 7
    · simp only [Group.pred, getD_range7 _ h7, if_neg hk]
    · simp [Group.pred, show 7 ≤ k by omega]

@[simp] theorem Group.wrP_live (g : Group) (n : Nat) (who : Mask) (val : Nat → Bool) (u : Bool) (poi : Mask) :
    (g.wrP n who val u poi).live = g.live := by unfold Group.wrP; split <;> rfl
@[simp] theorem Group.wrP_threads (g : Group) (n : Nat) (who : Mask) (val : Nat → Bool) (u : Bool) (poi : Mask) :
    (g.wrP n who val u poi).threads = g.threads := by unfold Group.wrP; split <;> rfl
@[simp] theorem Group.wrP_regs (g : Group) (n : Nat) (who : Mask) (val : Nat → Bool) (u : Bool) (poi : Mask) :
    (g.wrP n who val u poi).regs = g.regs := by unfold Group.wrP; split <;> rfl

end Sys2Proof.Machine
end

