-- ==== Sys2Proof/Laws/State.lean ====
section
/-!
SUPPORT. One lemma per field per update of the state: each named update leaves every field but its own alone.
-/

namespace Sys2Proof.Machine

variable (s : State)

/-! ### `State.modLc` -/

@[simp] theorem State.modLc_pt (n : Nat) (f : LCore → LCore) : (s.modLc n f).pt = s.pt := rfl
@[simp] theorem State.modLc_packint (n : Nat) (f : LCore → LCore) : (s.modLc n f).packint = s.packint := rfl
@[simp] theorem State.modLc_capbase (n : Nat) (f : LCore → LCore) : (s.modLc n f).capbase = s.capbase := rfl
@[simp] theorem State.modLc_admode (n : Nat) (f : LCore → LCore) : (s.modLc n f).admode = s.admode := rfl
@[simp] theorem State.modLc_finj (n : Nat) (f : LCore → LCore) : (s.modLc n f).finj = s.finj := rfl
@[simp] theorem State.modLc_finjSeen (n : Nat) (f : LCore → LCore) : (s.modLc n f).finjSeen = s.finjSeen := rfl
@[simp] theorem State.modLc_tdlim (n : Nat) (f : LCore → LCore) : (s.modLc n f).tdlim = s.tdlim := rfl
@[simp] theorem State.modLc_drainint (n : Nat) (f : LCore → LCore) : (s.modLc n f).drainint = s.drainint := rfl
@[simp] theorem State.modLc_dev (n : Nat) (f : LCore → LCore) : (s.modLc n f).dev = s.dev := rfl
@[simp] theorem State.modLc_stopped (n : Nat) (f : LCore → LCore) : (s.modLc n f).stopped = s.stopped := rfl
@[simp] theorem State.modLc_cores (n : Nat) (f : LCore → LCore) : (s.modLc n f).cores = s.cores := rfl
@[simp] theorem State.modLc_dies (n : Nat) (f : LCore → LCore) : (s.modLc n f).dies = s.dies := rfl
@[simp] theorem State.modLc_fams (n : Nat) (f : LCore → LCore) : (s.modLc n f).fams = s.fams := rfl
@[simp] theorem State.modLc_gens (n : Nat) (f : LCore → LCore) : (s.modLc n f).gens = s.gens := rfl
@[simp] theorem State.modLc_teams (n : Nat) (f : LCore → LCore) : (s.modLc n f).teams = s.teams := rfl
@[simp] theorem State.modLc_nextTid (n : Nat) (f : LCore → LCore) : (s.modLc n f).nextTid = s.nextTid := rfl
@[simp] theorem State.modLc_packs (n : Nat) (f : LCore → LCore) : (s.modLc n f).packs = s.packs := rfl
@[simp] theorem State.modLc_mem (n : Nat) (f : LCore → LCore) : (s.modLc n f).mem = s.mem := rfl
@[simp] theorem State.modLc_mpoison (n : Nat) (f : LCore → LCore) : (s.modLc n f).mpoison = s.mpoison := rfl
@[simp] theorem State.modLc_lines (n : Nat) (f : LCore → LCore) : (s.modLc n f).lines = s.lines := rfl
@[simp] theorem State.modLc_copies (n : Nat) (f : LCore → LCore) : (s.modLc n f).copies = s.copies := rfl
@[simp] theorem State.modLc_tlbs (n : Nat) (f : LCore → LCore) : (s.modLc n f).tlbs = s.tlbs := rfl
@[simp] theorem State.modLc_nleaf (n : Nat) (f : LCore → LCore) : (s.modLc n f).nleaf = s.nleaf := rfl
@[simp] theorem State.modLc_dir (n : Nat) (f : LCore → LCore) : (s.modLc n f).dir = s.dir := rfl
@[simp] theorem State.modLc_evh (n : Nat) (f : LCore → LCore) : (s.modLc n f).evh = s.evh := rfl
@[simp] theorem State.modLc_tether (n : Nat) (f : LCore → LCore) : (s.modLc n f).tether = s.tether := rfl
@[simp] theorem State.modLc_waiters (n : Nat) (f : LCore → LCore) : (s.modLc n f).waiters = s.waiters := rfl
@[simp] theorem State.modLc_ovf (n : Nat) (f : LCore → LCore) : (s.modLc n f).ovf = s.ovf := rfl
@[simp] theorem State.modLc_pend (n : Nat) (f : LCore → LCore) : (s.modLc n f).pend = s.pend := rfl
@[simp] theorem State.modLc_hwq (n : Nat) (f : LCore → LCore) : (s.modLc n f).hwq = s.hwq := rfl
@[simp] theorem State.modLc_srec (n : Nat) (f : LCore → LCore) : (s.modLc n f).srec = s.srec := rfl
@[simp] theorem State.modLc_moves (n : Nat) (f : LCore → LCore) : (s.modLc n f).moves = s.moves := rfl
@[simp] theorem State.modLc_track (n : Nat) (f : LCore → LCore) : (s.modLc n f).track = s.track := rfl
@[simp] theorem State.modLc_moved (n : Nat) (f : LCore → LCore) : (s.modLc n f).moved = s.moved := rfl
@[simp] theorem State.modLc_wstores (n : Nat) (f : LCore → LCore) : (s.modLc n f).wstores = s.wstores := rfl
@[simp] theorem State.modLc_ownStores (n : Nat) (f : LCore → LCore) : (s.modLc n f).ownStores = s.ownStores := rfl
@[simp] theorem State.modLc_storePer (n : Nat) (f : LCore → LCore) : (s.modLc n f).storePer = s.storePer := rfl
@[simp] theorem State.modLc_replicas (n : Nat) (f : LCore → LCore) : (s.modLc n f).replicas = s.replicas := rfl
@[simp] theorem State.modLc_pages (n : Nat) (f : LCore → LCore) : (s.modLc n f).pages = s.pages := rfl
@[simp] theorem State.modLc_link (n : Nat) (f : LCore → LCore) : (s.modLc n f).link = s.link := rfl
@[simp] theorem State.modLc_nets (n : Nat) (f : LCore → LCore) : (s.modLc n f).nets = s.nets := rfl
@[simp] theorem State.modLc_host (n : Nat) (f : LCore → LCore) : (s.modLc n f).host = s.host := rfl
@[simp] theorem State.modLc_errq (n : Nat) (f : LCore → LCore) : (s.modLc n f).errq = s.errq := rfl
@[simp] theorem State.modLc_folds (n : Nat) (f : LCore → LCore) : (s.modLc n f).folds = s.folds := rfl
@[simp] theorem State.modLc_frecs (n : Nat) (f : LCore → LCore) : (s.modLc n f).frecs = s.frecs := rfl
@[simp] theorem State.modLc_proofs (n : Nat) (f : LCore → LCore) : (s.modLc n f).proofs = s.proofs := rfl
@[simp] theorem State.modLc_onces (n : Nat) (f : LCore → LCore) : (s.modLc n f).onces = s.onces := rfl
@[simp] theorem State.modLc_clocks (n : Nat) (f : LCore → LCore) : (s.modLc n f).clocks = s.clocks := rfl
@[simp] theorem State.modLc_repairs (n : Nat) (f : LCore → LCore) : (s.modLc n f).repairs = s.repairs := rfl
@[simp] theorem State.modLc_segs (n : Nat) (f : LCore → LCore) : (s.modLc n f).segs = s.segs := rfl
@[simp] theorem State.modLc_drain (n : Nat) (f : LCore → LCore) : (s.modLc n f).drain = s.drain := rfl
@[simp] theorem State.modLc_outbox (n : Nat) (f : LCore → LCore) : (s.modLc n f).outbox = s.outbox := rfl
@[simp] theorem State.modLc_agenda (n : Nat) (f : LCore → LCore) : (s.modLc n f).agenda = s.agenda := rfl
@[simp] theorem State.modLc_schedule (n : Nat) (f : LCore → LCore) : (s.modLc n f).schedule = s.schedule := rfl
@[simp] theorem State.modLc_cur (n : Nat) (f : LCore → LCore) : (s.modLc n f).cur = s.cur := rfl
@[simp] theorem State.modLc_curLane (n : Nat) (f : LCore → LCore) : (s.modLc n f).curLane = s.curLane := rfl
@[simp] theorem State.modLc_cycles (n : Nat) (f : LCore → LCore) : (s.modLc n f).cycles = s.cycles := rfl
@[simp] theorem State.modLc_turn (n : Nat) (f : LCore → LCore) : (s.modLc n f).turn = s.turn := rfl
@[simp] theorem State.modLc_nsPerStep (n : Nat) (f : LCore → LCore) : (s.modLc n f).nsPerStep = s.nsPerStep := rfl
@[simp] theorem State.modLc_cycPerStep (n : Nat) (f : LCore → LCore) : (s.modLc n f).cycPerStep = s.cycPerStep := rfl
@[simp] theorem State.modLc_deferLoads (n : Nat) (f : LCore → LCore) : (s.modLc n f).deferLoads = s.deferLoads := rfl
@[simp] theorem State.modLc_deferStores (n : Nat) (f : LCore → LCore) : (s.modLc n f).deferStores = s.deferStores := rfl
@[simp] theorem State.modLc_deferAtomics (n : Nat) (f : LCore → LCore) : (s.modLc n f).deferAtomics = s.deferAtomics := rfl
@[simp] theorem State.modLc_deferReleases (n : Nat) (f : LCore → LCore) : (s.modLc n f).deferReleases = s.deferReleases := rfl
@[simp] theorem State.modLc_guardLate (n : Nat) (f : LCore → LCore) : (s.modLc n f).guardLate = s.guardLate := rfl
@[simp] theorem State.modLc_tlbOlder (n : Nat) (f : LCore → LCore) : (s.modLc n f).tlbOlder = s.tlbOlder := rfl
@[simp] theorem State.modLc_evict (n : Nat) (f : LCore → LCore) : (s.modLc n f).evict = s.evict := rfl
@[simp] theorem State.modLc_fresh (n : Nat) (f : LCore → LCore) : (s.modLc n f).fresh = s.fresh := rfl
@[simp] theorem State.modLc_absent (n : Nat) (f : LCore → LCore) : (s.modLc n f).absent = s.absent := rfl

/-! ### `State.modTeam` -/

@[simp] theorem State.modTeam_pt (t : Nat) (f : Team → Team) : (s.modTeam t f).pt = s.pt := rfl
@[simp] theorem State.modTeam_packint (t : Nat) (f : Team → Team) : (s.modTeam t f).packint = s.packint := rfl
@[simp] theorem State.modTeam_capbase (t : Nat) (f : Team → Team) : (s.modTeam t f).capbase = s.capbase := rfl
@[simp] theorem State.modTeam_admode (t : Nat) (f : Team → Team) : (s.modTeam t f).admode = s.admode := rfl
@[simp] theorem State.modTeam_finj (t : Nat) (f : Team → Team) : (s.modTeam t f).finj = s.finj := rfl
@[simp] theorem State.modTeam_finjSeen (t : Nat) (f : Team → Team) : (s.modTeam t f).finjSeen = s.finjSeen := rfl
@[simp] theorem State.modTeam_tdlim (t : Nat) (f : Team → Team) : (s.modTeam t f).tdlim = s.tdlim := rfl
@[simp] theorem State.modTeam_drainint (t : Nat) (f : Team → Team) : (s.modTeam t f).drainint = s.drainint := rfl
@[simp] theorem State.modTeam_dev (t : Nat) (f : Team → Team) : (s.modTeam t f).dev = s.dev := rfl
@[simp] theorem State.modTeam_stopped (t : Nat) (f : Team → Team) : (s.modTeam t f).stopped = s.stopped := rfl
@[simp] theorem State.modTeam_lcs (t : Nat) (f : Team → Team) : (s.modTeam t f).lcs = s.lcs := rfl
@[simp] theorem State.modTeam_cores (t : Nat) (f : Team → Team) : (s.modTeam t f).cores = s.cores := rfl
@[simp] theorem State.modTeam_dies (t : Nat) (f : Team → Team) : (s.modTeam t f).dies = s.dies := rfl
@[simp] theorem State.modTeam_fams (t : Nat) (f : Team → Team) : (s.modTeam t f).fams = s.fams := rfl
@[simp] theorem State.modTeam_gens (t : Nat) (f : Team → Team) : (s.modTeam t f).gens = s.gens := rfl
@[simp] theorem State.modTeam_nextTid (t : Nat) (f : Team → Team) : (s.modTeam t f).nextTid = s.nextTid := rfl
@[simp] theorem State.modTeam_packs (t : Nat) (f : Team → Team) : (s.modTeam t f).packs = s.packs := rfl
@[simp] theorem State.modTeam_mem (t : Nat) (f : Team → Team) : (s.modTeam t f).mem = s.mem := rfl
@[simp] theorem State.modTeam_mpoison (t : Nat) (f : Team → Team) : (s.modTeam t f).mpoison = s.mpoison := rfl
@[simp] theorem State.modTeam_lines (t : Nat) (f : Team → Team) : (s.modTeam t f).lines = s.lines := rfl
@[simp] theorem State.modTeam_copies (t : Nat) (f : Team → Team) : (s.modTeam t f).copies = s.copies := rfl
@[simp] theorem State.modTeam_tlbs (t : Nat) (f : Team → Team) : (s.modTeam t f).tlbs = s.tlbs := rfl
@[simp] theorem State.modTeam_nleaf (t : Nat) (f : Team → Team) : (s.modTeam t f).nleaf = s.nleaf := rfl
@[simp] theorem State.modTeam_dir (t : Nat) (f : Team → Team) : (s.modTeam t f).dir = s.dir := rfl
@[simp] theorem State.modTeam_evh (t : Nat) (f : Team → Team) : (s.modTeam t f).evh = s.evh := rfl
@[simp] theorem State.modTeam_tether (t : Nat) (f : Team → Team) : (s.modTeam t f).tether = s.tether := rfl
@[simp] theorem State.modTeam_waiters (t : Nat) (f : Team → Team) : (s.modTeam t f).waiters = s.waiters := rfl
@[simp] theorem State.modTeam_ovf (t : Nat) (f : Team → Team) : (s.modTeam t f).ovf = s.ovf := rfl
@[simp] theorem State.modTeam_pend (t : Nat) (f : Team → Team) : (s.modTeam t f).pend = s.pend := rfl
@[simp] theorem State.modTeam_hwq (t : Nat) (f : Team → Team) : (s.modTeam t f).hwq = s.hwq := rfl
@[simp] theorem State.modTeam_srec (t : Nat) (f : Team → Team) : (s.modTeam t f).srec = s.srec := rfl
@[simp] theorem State.modTeam_moves (t : Nat) (f : Team → Team) : (s.modTeam t f).moves = s.moves := rfl
@[simp] theorem State.modTeam_track (t : Nat) (f : Team → Team) : (s.modTeam t f).track = s.track := rfl
@[simp] theorem State.modTeam_moved (t : Nat) (f : Team → Team) : (s.modTeam t f).moved = s.moved := rfl
@[simp] theorem State.modTeam_wstores (t : Nat) (f : Team → Team) : (s.modTeam t f).wstores = s.wstores := rfl
@[simp] theorem State.modTeam_ownStores (t : Nat) (f : Team → Team) : (s.modTeam t f).ownStores = s.ownStores := rfl
@[simp] theorem State.modTeam_storePer (t : Nat) (f : Team → Team) : (s.modTeam t f).storePer = s.storePer := rfl
@[simp] theorem State.modTeam_replicas (t : Nat) (f : Team → Team) : (s.modTeam t f).replicas = s.replicas := rfl
@[simp] theorem State.modTeam_pages (t : Nat) (f : Team → Team) : (s.modTeam t f).pages = s.pages := rfl
@[simp] theorem State.modTeam_link (t : Nat) (f : Team → Team) : (s.modTeam t f).link = s.link := rfl
@[simp] theorem State.modTeam_nets (t : Nat) (f : Team → Team) : (s.modTeam t f).nets = s.nets := rfl
@[simp] theorem State.modTeam_host (t : Nat) (f : Team → Team) : (s.modTeam t f).host = s.host := rfl
@[simp] theorem State.modTeam_errq (t : Nat) (f : Team → Team) : (s.modTeam t f).errq = s.errq := rfl
@[simp] theorem State.modTeam_folds (t : Nat) (f : Team → Team) : (s.modTeam t f).folds = s.folds := rfl
@[simp] theorem State.modTeam_frecs (t : Nat) (f : Team → Team) : (s.modTeam t f).frecs = s.frecs := rfl
@[simp] theorem State.modTeam_proofs (t : Nat) (f : Team → Team) : (s.modTeam t f).proofs = s.proofs := rfl
@[simp] theorem State.modTeam_onces (t : Nat) (f : Team → Team) : (s.modTeam t f).onces = s.onces := rfl
@[simp] theorem State.modTeam_clocks (t : Nat) (f : Team → Team) : (s.modTeam t f).clocks = s.clocks := rfl
@[simp] theorem State.modTeam_repairs (t : Nat) (f : Team → Team) : (s.modTeam t f).repairs = s.repairs := rfl
@[simp] theorem State.modTeam_segs (t : Nat) (f : Team → Team) : (s.modTeam t f).segs = s.segs := rfl
@[simp] theorem State.modTeam_drain (t : Nat) (f : Team → Team) : (s.modTeam t f).drain = s.drain := rfl
@[simp] theorem State.modTeam_outbox (t : Nat) (f : Team → Team) : (s.modTeam t f).outbox = s.outbox := rfl
@[simp] theorem State.modTeam_agenda (t : Nat) (f : Team → Team) : (s.modTeam t f).agenda = s.agenda := rfl
@[simp] theorem State.modTeam_schedule (t : Nat) (f : Team → Team) : (s.modTeam t f).schedule = s.schedule := rfl
@[simp] theorem State.modTeam_cur (t : Nat) (f : Team → Team) : (s.modTeam t f).cur = s.cur := rfl
@[simp] theorem State.modTeam_curLane (t : Nat) (f : Team → Team) : (s.modTeam t f).curLane = s.curLane := rfl
@[simp] theorem State.modTeam_cycles (t : Nat) (f : Team → Team) : (s.modTeam t f).cycles = s.cycles := rfl
@[simp] theorem State.modTeam_turn (t : Nat) (f : Team → Team) : (s.modTeam t f).turn = s.turn := rfl
@[simp] theorem State.modTeam_nsPerStep (t : Nat) (f : Team → Team) : (s.modTeam t f).nsPerStep = s.nsPerStep := rfl
@[simp] theorem State.modTeam_cycPerStep (t : Nat) (f : Team → Team) : (s.modTeam t f).cycPerStep = s.cycPerStep := rfl
@[simp] theorem State.modTeam_deferLoads (t : Nat) (f : Team → Team) : (s.modTeam t f).deferLoads = s.deferLoads := rfl
@[simp] theorem State.modTeam_deferStores (t : Nat) (f : Team → Team) : (s.modTeam t f).deferStores = s.deferStores := rfl
@[simp] theorem State.modTeam_deferAtomics (t : Nat) (f : Team → Team) : (s.modTeam t f).deferAtomics = s.deferAtomics := rfl
@[simp] theorem State.modTeam_deferReleases (t : Nat) (f : Team → Team) : (s.modTeam t f).deferReleases = s.deferReleases := rfl
@[simp] theorem State.modTeam_guardLate (t : Nat) (f : Team → Team) : (s.modTeam t f).guardLate = s.guardLate := rfl
@[simp] theorem State.modTeam_tlbOlder (t : Nat) (f : Team → Team) : (s.modTeam t f).tlbOlder = s.tlbOlder := rfl
@[simp] theorem State.modTeam_evict (t : Nat) (f : Team → Team) : (s.modTeam t f).evict = s.evict := rfl
@[simp] theorem State.modTeam_fresh (t : Nat) (f : Team → Team) : (s.modTeam t f).fresh = s.fresh := rfl
@[simp] theorem State.modTeam_absent (t : Nat) (f : Team → Team) : (s.modTeam t f).absent = s.absent := rfl

/-! ### `State.modFam` -/

@[simp] theorem State.modFam_pt (i : W32) (f : Family → Family) : (s.modFam i f).pt = s.pt := rfl
@[simp] theorem State.modFam_packint (i : W32) (f : Family → Family) : (s.modFam i f).packint = s.packint := rfl
@[simp] theorem State.modFam_capbase (i : W32) (f : Family → Family) : (s.modFam i f).capbase = s.capbase := rfl
@[simp] theorem State.modFam_admode (i : W32) (f : Family → Family) : (s.modFam i f).admode = s.admode := rfl
@[simp] theorem State.modFam_finj (i : W32) (f : Family → Family) : (s.modFam i f).finj = s.finj := rfl
@[simp] theorem State.modFam_finjSeen (i : W32) (f : Family → Family) : (s.modFam i f).finjSeen = s.finjSeen := rfl
@[simp] theorem State.modFam_tdlim (i : W32) (f : Family → Family) : (s.modFam i f).tdlim = s.tdlim := rfl
@[simp] theorem State.modFam_drainint (i : W32) (f : Family → Family) : (s.modFam i f).drainint = s.drainint := rfl
@[simp] theorem State.modFam_dev (i : W32) (f : Family → Family) : (s.modFam i f).dev = s.dev := rfl
@[simp] theorem State.modFam_stopped (i : W32) (f : Family → Family) : (s.modFam i f).stopped = s.stopped := rfl
@[simp] theorem State.modFam_lcs (i : W32) (f : Family → Family) : (s.modFam i f).lcs = s.lcs := rfl
@[simp] theorem State.modFam_cores (i : W32) (f : Family → Family) : (s.modFam i f).cores = s.cores := rfl
@[simp] theorem State.modFam_dies (i : W32) (f : Family → Family) : (s.modFam i f).dies = s.dies := rfl
@[simp] theorem State.modFam_gens (i : W32) (f : Family → Family) : (s.modFam i f).gens = s.gens := rfl
@[simp] theorem State.modFam_teams (i : W32) (f : Family → Family) : (s.modFam i f).teams = s.teams := rfl
@[simp] theorem State.modFam_nextTid (i : W32) (f : Family → Family) : (s.modFam i f).nextTid = s.nextTid := rfl
@[simp] theorem State.modFam_packs (i : W32) (f : Family → Family) : (s.modFam i f).packs = s.packs := rfl
@[simp] theorem State.modFam_mem (i : W32) (f : Family → Family) : (s.modFam i f).mem = s.mem := rfl
@[simp] theorem State.modFam_mpoison (i : W32) (f : Family → Family) : (s.modFam i f).mpoison = s.mpoison := rfl
@[simp] theorem State.modFam_lines (i : W32) (f : Family → Family) : (s.modFam i f).lines = s.lines := rfl
@[simp] theorem State.modFam_copies (i : W32) (f : Family → Family) : (s.modFam i f).copies = s.copies := rfl
@[simp] theorem State.modFam_tlbs (i : W32) (f : Family → Family) : (s.modFam i f).tlbs = s.tlbs := rfl
@[simp] theorem State.modFam_nleaf (i : W32) (f : Family → Family) : (s.modFam i f).nleaf = s.nleaf := rfl
@[simp] theorem State.modFam_dir (i : W32) (f : Family → Family) : (s.modFam i f).dir = s.dir := rfl
@[simp] theorem State.modFam_evh (i : W32) (f : Family → Family) : (s.modFam i f).evh = s.evh := rfl
@[simp] theorem State.modFam_tether (i : W32) (f : Family → Family) : (s.modFam i f).tether = s.tether := rfl
@[simp] theorem State.modFam_waiters (i : W32) (f : Family → Family) : (s.modFam i f).waiters = s.waiters := rfl
@[simp] theorem State.modFam_ovf (i : W32) (f : Family → Family) : (s.modFam i f).ovf = s.ovf := rfl
@[simp] theorem State.modFam_pend (i : W32) (f : Family → Family) : (s.modFam i f).pend = s.pend := rfl
@[simp] theorem State.modFam_hwq (i : W32) (f : Family → Family) : (s.modFam i f).hwq = s.hwq := rfl
@[simp] theorem State.modFam_srec (i : W32) (f : Family → Family) : (s.modFam i f).srec = s.srec := rfl
@[simp] theorem State.modFam_moves (i : W32) (f : Family → Family) : (s.modFam i f).moves = s.moves := rfl
@[simp] theorem State.modFam_track (i : W32) (f : Family → Family) : (s.modFam i f).track = s.track := rfl
@[simp] theorem State.modFam_moved (i : W32) (f : Family → Family) : (s.modFam i f).moved = s.moved := rfl
@[simp] theorem State.modFam_wstores (i : W32) (f : Family → Family) : (s.modFam i f).wstores = s.wstores := rfl
@[simp] theorem State.modFam_ownStores (i : W32) (f : Family → Family) : (s.modFam i f).ownStores = s.ownStores := rfl
@[simp] theorem State.modFam_storePer (i : W32) (f : Family → Family) : (s.modFam i f).storePer = s.storePer := rfl
@[simp] theorem State.modFam_replicas (i : W32) (f : Family → Family) : (s.modFam i f).replicas = s.replicas := rfl
@[simp] theorem State.modFam_pages (i : W32) (f : Family → Family) : (s.modFam i f).pages = s.pages := rfl
@[simp] theorem State.modFam_link (i : W32) (f : Family → Family) : (s.modFam i f).link = s.link := rfl
@[simp] theorem State.modFam_nets (i : W32) (f : Family → Family) : (s.modFam i f).nets = s.nets := rfl
@[simp] theorem State.modFam_host (i : W32) (f : Family → Family) : (s.modFam i f).host = s.host := rfl
@[simp] theorem State.modFam_errq (i : W32) (f : Family → Family) : (s.modFam i f).errq = s.errq := rfl
@[simp] theorem State.modFam_folds (i : W32) (f : Family → Family) : (s.modFam i f).folds = s.folds := rfl
@[simp] theorem State.modFam_frecs (i : W32) (f : Family → Family) : (s.modFam i f).frecs = s.frecs := rfl
@[simp] theorem State.modFam_proofs (i : W32) (f : Family → Family) : (s.modFam i f).proofs = s.proofs := rfl
@[simp] theorem State.modFam_onces (i : W32) (f : Family → Family) : (s.modFam i f).onces = s.onces := rfl
@[simp] theorem State.modFam_clocks (i : W32) (f : Family → Family) : (s.modFam i f).clocks = s.clocks := rfl
@[simp] theorem State.modFam_repairs (i : W32) (f : Family → Family) : (s.modFam i f).repairs = s.repairs := rfl
@[simp] theorem State.modFam_segs (i : W32) (f : Family → Family) : (s.modFam i f).segs = s.segs := rfl
@[simp] theorem State.modFam_drain (i : W32) (f : Family → Family) : (s.modFam i f).drain = s.drain := rfl
@[simp] theorem State.modFam_outbox (i : W32) (f : Family → Family) : (s.modFam i f).outbox = s.outbox := rfl
@[simp] theorem State.modFam_agenda (i : W32) (f : Family → Family) : (s.modFam i f).agenda = s.agenda := rfl
@[simp] theorem State.modFam_schedule (i : W32) (f : Family → Family) : (s.modFam i f).schedule = s.schedule := rfl
@[simp] theorem State.modFam_cur (i : W32) (f : Family → Family) : (s.modFam i f).cur = s.cur := rfl
@[simp] theorem State.modFam_curLane (i : W32) (f : Family → Family) : (s.modFam i f).curLane = s.curLane := rfl
@[simp] theorem State.modFam_cycles (i : W32) (f : Family → Family) : (s.modFam i f).cycles = s.cycles := rfl
@[simp] theorem State.modFam_turn (i : W32) (f : Family → Family) : (s.modFam i f).turn = s.turn := rfl
@[simp] theorem State.modFam_nsPerStep (i : W32) (f : Family → Family) : (s.modFam i f).nsPerStep = s.nsPerStep := rfl
@[simp] theorem State.modFam_cycPerStep (i : W32) (f : Family → Family) : (s.modFam i f).cycPerStep = s.cycPerStep := rfl
@[simp] theorem State.modFam_deferLoads (i : W32) (f : Family → Family) : (s.modFam i f).deferLoads = s.deferLoads := rfl
@[simp] theorem State.modFam_deferStores (i : W32) (f : Family → Family) : (s.modFam i f).deferStores = s.deferStores := rfl
@[simp] theorem State.modFam_deferAtomics (i : W32) (f : Family → Family) : (s.modFam i f).deferAtomics = s.deferAtomics := rfl
@[simp] theorem State.modFam_deferReleases (i : W32) (f : Family → Family) : (s.modFam i f).deferReleases = s.deferReleases := rfl
@[simp] theorem State.modFam_guardLate (i : W32) (f : Family → Family) : (s.modFam i f).guardLate = s.guardLate := rfl
@[simp] theorem State.modFam_tlbOlder (i : W32) (f : Family → Family) : (s.modFam i f).tlbOlder = s.tlbOlder := rfl
@[simp] theorem State.modFam_evict (i : W32) (f : Family → Family) : (s.modFam i f).evict = s.evict := rfl
@[simp] theorem State.modFam_fresh (i : W32) (f : Family → Family) : (s.modFam i f).fresh = s.fresh := rfl
@[simp] theorem State.modFam_absent (i : W32) (f : Family → Family) : (s.modFam i f).absent = s.absent := rfl

/-! ### `State.modDie` -/

@[simp] theorem State.modDie_pt (d : Nat) (f : Die → Die) : (s.modDie d f).pt = s.pt := rfl
@[simp] theorem State.modDie_packint (d : Nat) (f : Die → Die) : (s.modDie d f).packint = s.packint := rfl
@[simp] theorem State.modDie_capbase (d : Nat) (f : Die → Die) : (s.modDie d f).capbase = s.capbase := rfl
@[simp] theorem State.modDie_admode (d : Nat) (f : Die → Die) : (s.modDie d f).admode = s.admode := rfl
@[simp] theorem State.modDie_finj (d : Nat) (f : Die → Die) : (s.modDie d f).finj = s.finj := rfl
@[simp] theorem State.modDie_finjSeen (d : Nat) (f : Die → Die) : (s.modDie d f).finjSeen = s.finjSeen := rfl
@[simp] theorem State.modDie_tdlim (d : Nat) (f : Die → Die) : (s.modDie d f).tdlim = s.tdlim := rfl
@[simp] theorem State.modDie_drainint (d : Nat) (f : Die → Die) : (s.modDie d f).drainint = s.drainint := rfl
@[simp] theorem State.modDie_dev (d : Nat) (f : Die → Die) : (s.modDie d f).dev = s.dev := rfl
@[simp] theorem State.modDie_stopped (d : Nat) (f : Die → Die) : (s.modDie d f).stopped = s.stopped := rfl
@[simp] theorem State.modDie_lcs (d : Nat) (f : Die → Die) : (s.modDie d f).lcs = s.lcs := rfl
@[simp] theorem State.modDie_cores (d : Nat) (f : Die → Die) : (s.modDie d f).cores = s.cores := rfl
@[simp] theorem State.modDie_fams (d : Nat) (f : Die → Die) : (s.modDie d f).fams = s.fams := rfl
@[simp] theorem State.modDie_gens (d : Nat) (f : Die → Die) : (s.modDie d f).gens = s.gens := rfl
@[simp] theorem State.modDie_teams (d : Nat) (f : Die → Die) : (s.modDie d f).teams = s.teams := rfl
@[simp] theorem State.modDie_nextTid (d : Nat) (f : Die → Die) : (s.modDie d f).nextTid = s.nextTid := rfl
@[simp] theorem State.modDie_packs (d : Nat) (f : Die → Die) : (s.modDie d f).packs = s.packs := rfl
@[simp] theorem State.modDie_mem (d : Nat) (f : Die → Die) : (s.modDie d f).mem = s.mem := rfl
@[simp] theorem State.modDie_mpoison (d : Nat) (f : Die → Die) : (s.modDie d f).mpoison = s.mpoison := rfl
@[simp] theorem State.modDie_lines (d : Nat) (f : Die → Die) : (s.modDie d f).lines = s.lines := rfl
@[simp] theorem State.modDie_copies (d : Nat) (f : Die → Die) : (s.modDie d f).copies = s.copies := rfl
@[simp] theorem State.modDie_tlbs (d : Nat) (f : Die → Die) : (s.modDie d f).tlbs = s.tlbs := rfl
@[simp] theorem State.modDie_nleaf (d : Nat) (f : Die → Die) : (s.modDie d f).nleaf = s.nleaf := rfl
@[simp] theorem State.modDie_dir (d : Nat) (f : Die → Die) : (s.modDie d f).dir = s.dir := rfl
@[simp] theorem State.modDie_evh (d : Nat) (f : Die → Die) : (s.modDie d f).evh = s.evh := rfl
@[simp] theorem State.modDie_tether (d : Nat) (f : Die → Die) : (s.modDie d f).tether = s.tether := rfl
@[simp] theorem State.modDie_waiters (d : Nat) (f : Die → Die) : (s.modDie d f).waiters = s.waiters := rfl
@[simp] theorem State.modDie_ovf (d : Nat) (f : Die → Die) : (s.modDie d f).ovf = s.ovf := rfl
@[simp] theorem State.modDie_pend (d : Nat) (f : Die → Die) : (s.modDie d f).pend = s.pend := rfl
@[simp] theorem State.modDie_hwq (d : Nat) (f : Die → Die) : (s.modDie d f).hwq = s.hwq := rfl
@[simp] theorem State.modDie_srec (d : Nat) (f : Die → Die) : (s.modDie d f).srec = s.srec := rfl
@[simp] theorem State.modDie_moves (d : Nat) (f : Die → Die) : (s.modDie d f).moves = s.moves := rfl
@[simp] theorem State.modDie_track (d : Nat) (f : Die → Die) : (s.modDie d f).track = s.track := rfl
@[simp] theorem State.modDie_moved (d : Nat) (f : Die → Die) : (s.modDie d f).moved = s.moved := rfl
@[simp] theorem State.modDie_wstores (d : Nat) (f : Die → Die) : (s.modDie d f).wstores = s.wstores := rfl
@[simp] theorem State.modDie_ownStores (d : Nat) (f : Die → Die) : (s.modDie d f).ownStores = s.ownStores := rfl
@[simp] theorem State.modDie_storePer (d : Nat) (f : Die → Die) : (s.modDie d f).storePer = s.storePer := rfl
@[simp] theorem State.modDie_replicas (d : Nat) (f : Die → Die) : (s.modDie d f).replicas = s.replicas := rfl
@[simp] theorem State.modDie_pages (d : Nat) (f : Die → Die) : (s.modDie d f).pages = s.pages := rfl
@[simp] theorem State.modDie_link (d : Nat) (f : Die → Die) : (s.modDie d f).link = s.link := rfl
@[simp] theorem State.modDie_nets (d : Nat) (f : Die → Die) : (s.modDie d f).nets = s.nets := rfl
@[simp] theorem State.modDie_host (d : Nat) (f : Die → Die) : (s.modDie d f).host = s.host := rfl
@[simp] theorem State.modDie_errq (d : Nat) (f : Die → Die) : (s.modDie d f).errq = s.errq := rfl
@[simp] theorem State.modDie_folds (d : Nat) (f : Die → Die) : (s.modDie d f).folds = s.folds := rfl
@[simp] theorem State.modDie_frecs (d : Nat) (f : Die → Die) : (s.modDie d f).frecs = s.frecs := rfl
@[simp] theorem State.modDie_proofs (d : Nat) (f : Die → Die) : (s.modDie d f).proofs = s.proofs := rfl
@[simp] theorem State.modDie_onces (d : Nat) (f : Die → Die) : (s.modDie d f).onces = s.onces := rfl
@[simp] theorem State.modDie_clocks (d : Nat) (f : Die → Die) : (s.modDie d f).clocks = s.clocks := rfl
@[simp] theorem State.modDie_repairs (d : Nat) (f : Die → Die) : (s.modDie d f).repairs = s.repairs := rfl
@[simp] theorem State.modDie_segs (d : Nat) (f : Die → Die) : (s.modDie d f).segs = s.segs := rfl
@[simp] theorem State.modDie_drain (d : Nat) (f : Die → Die) : (s.modDie d f).drain = s.drain := rfl
@[simp] theorem State.modDie_outbox (d : Nat) (f : Die → Die) : (s.modDie d f).outbox = s.outbox := rfl
@[simp] theorem State.modDie_agenda (d : Nat) (f : Die → Die) : (s.modDie d f).agenda = s.agenda := rfl
@[simp] theorem State.modDie_schedule (d : Nat) (f : Die → Die) : (s.modDie d f).schedule = s.schedule := rfl
@[simp] theorem State.modDie_cur (d : Nat) (f : Die → Die) : (s.modDie d f).cur = s.cur := rfl
@[simp] theorem State.modDie_curLane (d : Nat) (f : Die → Die) : (s.modDie d f).curLane = s.curLane := rfl
@[simp] theorem State.modDie_cycles (d : Nat) (f : Die → Die) : (s.modDie d f).cycles = s.cycles := rfl
@[simp] theorem State.modDie_turn (d : Nat) (f : Die → Die) : (s.modDie d f).turn = s.turn := rfl
@[simp] theorem State.modDie_nsPerStep (d : Nat) (f : Die → Die) : (s.modDie d f).nsPerStep = s.nsPerStep := rfl
@[simp] theorem State.modDie_cycPerStep (d : Nat) (f : Die → Die) : (s.modDie d f).cycPerStep = s.cycPerStep := rfl
@[simp] theorem State.modDie_deferLoads (d : Nat) (f : Die → Die) : (s.modDie d f).deferLoads = s.deferLoads := rfl
@[simp] theorem State.modDie_deferStores (d : Nat) (f : Die → Die) : (s.modDie d f).deferStores = s.deferStores := rfl
@[simp] theorem State.modDie_deferAtomics (d : Nat) (f : Die → Die) : (s.modDie d f).deferAtomics = s.deferAtomics := rfl
@[simp] theorem State.modDie_deferReleases (d : Nat) (f : Die → Die) : (s.modDie d f).deferReleases = s.deferReleases := rfl
@[simp] theorem State.modDie_guardLate (d : Nat) (f : Die → Die) : (s.modDie d f).guardLate = s.guardLate := rfl
@[simp] theorem State.modDie_tlbOlder (d : Nat) (f : Die → Die) : (s.modDie d f).tlbOlder = s.tlbOlder := rfl
@[simp] theorem State.modDie_evict (d : Nat) (f : Die → Die) : (s.modDie d f).evict = s.evict := rfl
@[simp] theorem State.modDie_fresh (d : Nat) (f : Die → Die) : (s.modDie d f).fresh = s.fresh := rfl
@[simp] theorem State.modDie_absent (d : Nat) (f : Die → Die) : (s.modDie d f).absent = s.absent := rfl

/-! ### `State.modCore` -/

@[simp] theorem State.modCore_pt (c : Nat) (f : SCore → SCore) : (s.modCore c f).pt = s.pt := rfl
@[simp] theorem State.modCore_packint (c : Nat) (f : SCore → SCore) : (s.modCore c f).packint = s.packint := rfl
@[simp] theorem State.modCore_capbase (c : Nat) (f : SCore → SCore) : (s.modCore c f).capbase = s.capbase := rfl
@[simp] theorem State.modCore_admode (c : Nat) (f : SCore → SCore) : (s.modCore c f).admode = s.admode := rfl
@[simp] theorem State.modCore_finj (c : Nat) (f : SCore → SCore) : (s.modCore c f).finj = s.finj := rfl
@[simp] theorem State.modCore_finjSeen (c : Nat) (f : SCore → SCore) : (s.modCore c f).finjSeen = s.finjSeen := rfl
@[simp] theorem State.modCore_tdlim (c : Nat) (f : SCore → SCore) : (s.modCore c f).tdlim = s.tdlim := rfl
@[simp] theorem State.modCore_drainint (c : Nat) (f : SCore → SCore) : (s.modCore c f).drainint = s.drainint := rfl
@[simp] theorem State.modCore_dev (c : Nat) (f : SCore → SCore) : (s.modCore c f).dev = s.dev := rfl
@[simp] theorem State.modCore_stopped (c : Nat) (f : SCore → SCore) : (s.modCore c f).stopped = s.stopped := rfl
@[simp] theorem State.modCore_lcs (c : Nat) (f : SCore → SCore) : (s.modCore c f).lcs = s.lcs := rfl
@[simp] theorem State.modCore_dies (c : Nat) (f : SCore → SCore) : (s.modCore c f).dies = s.dies := rfl
@[simp] theorem State.modCore_fams (c : Nat) (f : SCore → SCore) : (s.modCore c f).fams = s.fams := rfl
@[simp] theorem State.modCore_gens (c : Nat) (f : SCore → SCore) : (s.modCore c f).gens = s.gens := rfl
@[simp] theorem State.modCore_teams (c : Nat) (f : SCore → SCore) : (s.modCore c f).teams = s.teams := rfl
@[simp] theorem State.modCore_nextTid (c : Nat) (f : SCore → SCore) : (s.modCore c f).nextTid = s.nextTid := rfl
@[simp] theorem State.modCore_packs (c : Nat) (f : SCore → SCore) : (s.modCore c f).packs = s.packs := rfl
@[simp] theorem State.modCore_mem (c : Nat) (f : SCore → SCore) : (s.modCore c f).mem = s.mem := rfl
@[simp] theorem State.modCore_mpoison (c : Nat) (f : SCore → SCore) : (s.modCore c f).mpoison = s.mpoison := rfl
@[simp] theorem State.modCore_lines (c : Nat) (f : SCore → SCore) : (s.modCore c f).lines = s.lines := rfl
@[simp] theorem State.modCore_copies (c : Nat) (f : SCore → SCore) : (s.modCore c f).copies = s.copies := rfl
@[simp] theorem State.modCore_tlbs (c : Nat) (f : SCore → SCore) : (s.modCore c f).tlbs = s.tlbs := rfl
@[simp] theorem State.modCore_nleaf (c : Nat) (f : SCore → SCore) : (s.modCore c f).nleaf = s.nleaf := rfl
@[simp] theorem State.modCore_dir (c : Nat) (f : SCore → SCore) : (s.modCore c f).dir = s.dir := rfl
@[simp] theorem State.modCore_evh (c : Nat) (f : SCore → SCore) : (s.modCore c f).evh = s.evh := rfl
@[simp] theorem State.modCore_tether (c : Nat) (f : SCore → SCore) : (s.modCore c f).tether = s.tether := rfl
@[simp] theorem State.modCore_waiters (c : Nat) (f : SCore → SCore) : (s.modCore c f).waiters = s.waiters := rfl
@[simp] theorem State.modCore_ovf (c : Nat) (f : SCore → SCore) : (s.modCore c f).ovf = s.ovf := rfl
@[simp] theorem State.modCore_pend (c : Nat) (f : SCore → SCore) : (s.modCore c f).pend = s.pend := rfl
@[simp] theorem State.modCore_hwq (c : Nat) (f : SCore → SCore) : (s.modCore c f).hwq = s.hwq := rfl
@[simp] theorem State.modCore_srec (c : Nat) (f : SCore → SCore) : (s.modCore c f).srec = s.srec := rfl
@[simp] theorem State.modCore_moves (c : Nat) (f : SCore → SCore) : (s.modCore c f).moves = s.moves := rfl
@[simp] theorem State.modCore_track (c : Nat) (f : SCore → SCore) : (s.modCore c f).track = s.track := rfl
@[simp] theorem State.modCore_moved (c : Nat) (f : SCore → SCore) : (s.modCore c f).moved = s.moved := rfl
@[simp] theorem State.modCore_wstores (c : Nat) (f : SCore → SCore) : (s.modCore c f).wstores = s.wstores := rfl
@[simp] theorem State.modCore_ownStores (c : Nat) (f : SCore → SCore) : (s.modCore c f).ownStores = s.ownStores := rfl
@[simp] theorem State.modCore_storePer (c : Nat) (f : SCore → SCore) : (s.modCore c f).storePer = s.storePer := rfl
@[simp] theorem State.modCore_replicas (c : Nat) (f : SCore → SCore) : (s.modCore c f).replicas = s.replicas := rfl
@[simp] theorem State.modCore_pages (c : Nat) (f : SCore → SCore) : (s.modCore c f).pages = s.pages := rfl
@[simp] theorem State.modCore_link (c : Nat) (f : SCore → SCore) : (s.modCore c f).link = s.link := rfl
@[simp] theorem State.modCore_nets (c : Nat) (f : SCore → SCore) : (s.modCore c f).nets = s.nets := rfl
@[simp] theorem State.modCore_host (c : Nat) (f : SCore → SCore) : (s.modCore c f).host = s.host := rfl
@[simp] theorem State.modCore_errq (c : Nat) (f : SCore → SCore) : (s.modCore c f).errq = s.errq := rfl
@[simp] theorem State.modCore_folds (c : Nat) (f : SCore → SCore) : (s.modCore c f).folds = s.folds := rfl
@[simp] theorem State.modCore_frecs (c : Nat) (f : SCore → SCore) : (s.modCore c f).frecs = s.frecs := rfl
@[simp] theorem State.modCore_proofs (c : Nat) (f : SCore → SCore) : (s.modCore c f).proofs = s.proofs := rfl
@[simp] theorem State.modCore_onces (c : Nat) (f : SCore → SCore) : (s.modCore c f).onces = s.onces := rfl
@[simp] theorem State.modCore_clocks (c : Nat) (f : SCore → SCore) : (s.modCore c f).clocks = s.clocks := rfl
@[simp] theorem State.modCore_repairs (c : Nat) (f : SCore → SCore) : (s.modCore c f).repairs = s.repairs := rfl
@[simp] theorem State.modCore_segs (c : Nat) (f : SCore → SCore) : (s.modCore c f).segs = s.segs := rfl
@[simp] theorem State.modCore_drain (c : Nat) (f : SCore → SCore) : (s.modCore c f).drain = s.drain := rfl
@[simp] theorem State.modCore_outbox (c : Nat) (f : SCore → SCore) : (s.modCore c f).outbox = s.outbox := rfl
@[simp] theorem State.modCore_agenda (c : Nat) (f : SCore → SCore) : (s.modCore c f).agenda = s.agenda := rfl
@[simp] theorem State.modCore_schedule (c : Nat) (f : SCore → SCore) : (s.modCore c f).schedule = s.schedule := rfl
@[simp] theorem State.modCore_cur (c : Nat) (f : SCore → SCore) : (s.modCore c f).cur = s.cur := rfl
@[simp] theorem State.modCore_curLane (c : Nat) (f : SCore → SCore) : (s.modCore c f).curLane = s.curLane := rfl
@[simp] theorem State.modCore_cycles (c : Nat) (f : SCore → SCore) : (s.modCore c f).cycles = s.cycles := rfl
@[simp] theorem State.modCore_turn (c : Nat) (f : SCore → SCore) : (s.modCore c f).turn = s.turn := rfl
@[simp] theorem State.modCore_nsPerStep (c : Nat) (f : SCore → SCore) : (s.modCore c f).nsPerStep = s.nsPerStep := rfl
@[simp] theorem State.modCore_cycPerStep (c : Nat) (f : SCore → SCore) : (s.modCore c f).cycPerStep = s.cycPerStep := rfl
@[simp] theorem State.modCore_deferLoads (c : Nat) (f : SCore → SCore) : (s.modCore c f).deferLoads = s.deferLoads := rfl
@[simp] theorem State.modCore_deferStores (c : Nat) (f : SCore → SCore) : (s.modCore c f).deferStores = s.deferStores := rfl
@[simp] theorem State.modCore_deferAtomics (c : Nat) (f : SCore → SCore) : (s.modCore c f).deferAtomics = s.deferAtomics := rfl
@[simp] theorem State.modCore_deferReleases (c : Nat) (f : SCore → SCore) : (s.modCore c f).deferReleases = s.deferReleases := rfl
@[simp] theorem State.modCore_guardLate (c : Nat) (f : SCore → SCore) : (s.modCore c f).guardLate = s.guardLate := rfl
@[simp] theorem State.modCore_tlbOlder (c : Nat) (f : SCore → SCore) : (s.modCore c f).tlbOlder = s.tlbOlder := rfl
@[simp] theorem State.modCore_evict (c : Nat) (f : SCore → SCore) : (s.modCore c f).evict = s.evict := rfl
@[simp] theorem State.modCore_fresh (c : Nat) (f : SCore → SCore) : (s.modCore c f).fresh = s.fresh := rfl
@[simp] theorem State.modCore_absent (c : Nat) (f : SCore → SCore) : (s.modCore c f).absent = s.absent := rfl

/-! ### `State.modNet` -/

@[simp] theorem State.modNet_pt (e : Nat) (f : NetEngine → NetEngine) : (s.modNet e f).pt = s.pt := rfl
@[simp] theorem State.modNet_packint (e : Nat) (f : NetEngine → NetEngine) : (s.modNet e f).packint = s.packint := rfl
@[simp] theorem State.modNet_capbase (e : Nat) (f : NetEngine → NetEngine) : (s.modNet e f).capbase = s.capbase := rfl
@[simp] theorem State.modNet_admode (e : Nat) (f : NetEngine → NetEngine) : (s.modNet e f).admode = s.admode := rfl
@[simp] theorem State.modNet_finj (e : Nat) (f : NetEngine → NetEngine) : (s.modNet e f).finj = s.finj := rfl
@[simp] theorem State.modNet_finjSeen (e : Nat) (f : NetEngine → NetEngine) : (s.modNet e f).finjSeen = s.finjSeen := rfl
@[simp] theorem State.modNet_tdlim (e : Nat) (f : NetEngine → NetEngine) : (s.modNet e f).tdlim = s.tdlim := rfl
@[simp] theorem State.modNet_drainint (e : Nat) (f : NetEngine → NetEngine) : (s.modNet e f).drainint = s.drainint := rfl
@[simp] theorem State.modNet_dev (e : Nat) (f : NetEngine → NetEngine) : (s.modNet e f).dev = s.dev := rfl
@[simp] theorem State.modNet_stopped (e : Nat) (f : NetEngine → NetEngine) : (s.modNet e f).stopped = s.stopped := rfl
@[simp] theorem State.modNet_lcs (e : Nat) (f : NetEngine → NetEngine) : (s.modNet e f).lcs = s.lcs := rfl
@[simp] theorem State.modNet_cores (e : Nat) (f : NetEngine → NetEngine) : (s.modNet e f).cores = s.cores := rfl
@[simp] theorem State.modNet_dies (e : Nat) (f : NetEngine → NetEngine) : (s.modNet e f).dies = s.dies := rfl
@[simp] theorem State.modNet_fams (e : Nat) (f : NetEngine → NetEngine) : (s.modNet e f).fams = s.fams := rfl
@[simp] theorem State.modNet_gens (e : Nat) (f : NetEngine → NetEngine) : (s.modNet e f).gens = s.gens := rfl
@[simp] theorem State.modNet_teams (e : Nat) (f : NetEngine → NetEngine) : (s.modNet e f).teams = s.teams := rfl
@[simp] theorem State.modNet_nextTid (e : Nat) (f : NetEngine → NetEngine) : (s.modNet e f).nextTid = s.nextTid := rfl
@[simp] theorem State.modNet_packs (e : Nat) (f : NetEngine → NetEngine) : (s.modNet e f).packs = s.packs := rfl
@[simp] theorem State.modNet_mem (e : Nat) (f : NetEngine → NetEngine) : (s.modNet e f).mem = s.mem := rfl
@[simp] theorem State.modNet_mpoison (e : Nat) (f : NetEngine → NetEngine) : (s.modNet e f).mpoison = s.mpoison := rfl
@[simp] theorem State.modNet_lines (e : Nat) (f : NetEngine → NetEngine) : (s.modNet e f).lines = s.lines := rfl
@[simp] theorem State.modNet_copies (e : Nat) (f : NetEngine → NetEngine) : (s.modNet e f).copies = s.copies := rfl
@[simp] theorem State.modNet_tlbs (e : Nat) (f : NetEngine → NetEngine) : (s.modNet e f).tlbs = s.tlbs := rfl
@[simp] theorem State.modNet_nleaf (e : Nat) (f : NetEngine → NetEngine) : (s.modNet e f).nleaf = s.nleaf := rfl
@[simp] theorem State.modNet_dir (e : Nat) (f : NetEngine → NetEngine) : (s.modNet e f).dir = s.dir := rfl
@[simp] theorem State.modNet_evh (e : Nat) (f : NetEngine → NetEngine) : (s.modNet e f).evh = s.evh := rfl
@[simp] theorem State.modNet_tether (e : Nat) (f : NetEngine → NetEngine) : (s.modNet e f).tether = s.tether := rfl
@[simp] theorem State.modNet_waiters (e : Nat) (f : NetEngine → NetEngine) : (s.modNet e f).waiters = s.waiters := rfl
@[simp] theorem State.modNet_ovf (e : Nat) (f : NetEngine → NetEngine) : (s.modNet e f).ovf = s.ovf := rfl
@[simp] theorem State.modNet_pend (e : Nat) (f : NetEngine → NetEngine) : (s.modNet e f).pend = s.pend := rfl
@[simp] theorem State.modNet_hwq (e : Nat) (f : NetEngine → NetEngine) : (s.modNet e f).hwq = s.hwq := rfl
@[simp] theorem State.modNet_srec (e : Nat) (f : NetEngine → NetEngine) : (s.modNet e f).srec = s.srec := rfl
@[simp] theorem State.modNet_moves (e : Nat) (f : NetEngine → NetEngine) : (s.modNet e f).moves = s.moves := rfl
@[simp] theorem State.modNet_track (e : Nat) (f : NetEngine → NetEngine) : (s.modNet e f).track = s.track := rfl
@[simp] theorem State.modNet_moved (e : Nat) (f : NetEngine → NetEngine) : (s.modNet e f).moved = s.moved := rfl
@[simp] theorem State.modNet_wstores (e : Nat) (f : NetEngine → NetEngine) : (s.modNet e f).wstores = s.wstores := rfl
@[simp] theorem State.modNet_ownStores (e : Nat) (f : NetEngine → NetEngine) : (s.modNet e f).ownStores = s.ownStores := rfl
@[simp] theorem State.modNet_storePer (e : Nat) (f : NetEngine → NetEngine) : (s.modNet e f).storePer = s.storePer := rfl
@[simp] theorem State.modNet_replicas (e : Nat) (f : NetEngine → NetEngine) : (s.modNet e f).replicas = s.replicas := rfl
@[simp] theorem State.modNet_pages (e : Nat) (f : NetEngine → NetEngine) : (s.modNet e f).pages = s.pages := rfl
@[simp] theorem State.modNet_link (e : Nat) (f : NetEngine → NetEngine) : (s.modNet e f).link = s.link := rfl
@[simp] theorem State.modNet_host (e : Nat) (f : NetEngine → NetEngine) : (s.modNet e f).host = s.host := rfl
@[simp] theorem State.modNet_errq (e : Nat) (f : NetEngine → NetEngine) : (s.modNet e f).errq = s.errq := rfl
@[simp] theorem State.modNet_folds (e : Nat) (f : NetEngine → NetEngine) : (s.modNet e f).folds = s.folds := rfl
@[simp] theorem State.modNet_frecs (e : Nat) (f : NetEngine → NetEngine) : (s.modNet e f).frecs = s.frecs := rfl
@[simp] theorem State.modNet_proofs (e : Nat) (f : NetEngine → NetEngine) : (s.modNet e f).proofs = s.proofs := rfl
@[simp] theorem State.modNet_onces (e : Nat) (f : NetEngine → NetEngine) : (s.modNet e f).onces = s.onces := rfl
@[simp] theorem State.modNet_clocks (e : Nat) (f : NetEngine → NetEngine) : (s.modNet e f).clocks = s.clocks := rfl
@[simp] theorem State.modNet_repairs (e : Nat) (f : NetEngine → NetEngine) : (s.modNet e f).repairs = s.repairs := rfl
@[simp] theorem State.modNet_segs (e : Nat) (f : NetEngine → NetEngine) : (s.modNet e f).segs = s.segs := rfl
@[simp] theorem State.modNet_drain (e : Nat) (f : NetEngine → NetEngine) : (s.modNet e f).drain = s.drain := rfl
@[simp] theorem State.modNet_outbox (e : Nat) (f : NetEngine → NetEngine) : (s.modNet e f).outbox = s.outbox := rfl
@[simp] theorem State.modNet_agenda (e : Nat) (f : NetEngine → NetEngine) : (s.modNet e f).agenda = s.agenda := rfl
@[simp] theorem State.modNet_schedule (e : Nat) (f : NetEngine → NetEngine) : (s.modNet e f).schedule = s.schedule := rfl
@[simp] theorem State.modNet_cur (e : Nat) (f : NetEngine → NetEngine) : (s.modNet e f).cur = s.cur := rfl
@[simp] theorem State.modNet_curLane (e : Nat) (f : NetEngine → NetEngine) : (s.modNet e f).curLane = s.curLane := rfl
@[simp] theorem State.modNet_cycles (e : Nat) (f : NetEngine → NetEngine) : (s.modNet e f).cycles = s.cycles := rfl
@[simp] theorem State.modNet_turn (e : Nat) (f : NetEngine → NetEngine) : (s.modNet e f).turn = s.turn := rfl
@[simp] theorem State.modNet_nsPerStep (e : Nat) (f : NetEngine → NetEngine) : (s.modNet e f).nsPerStep = s.nsPerStep := rfl
@[simp] theorem State.modNet_cycPerStep (e : Nat) (f : NetEngine → NetEngine) : (s.modNet e f).cycPerStep = s.cycPerStep := rfl
@[simp] theorem State.modNet_deferLoads (e : Nat) (f : NetEngine → NetEngine) : (s.modNet e f).deferLoads = s.deferLoads := rfl
@[simp] theorem State.modNet_deferStores (e : Nat) (f : NetEngine → NetEngine) : (s.modNet e f).deferStores = s.deferStores := rfl
@[simp] theorem State.modNet_deferAtomics (e : Nat) (f : NetEngine → NetEngine) : (s.modNet e f).deferAtomics = s.deferAtomics := rfl
@[simp] theorem State.modNet_deferReleases (e : Nat) (f : NetEngine → NetEngine) : (s.modNet e f).deferReleases = s.deferReleases := rfl
@[simp] theorem State.modNet_guardLate (e : Nat) (f : NetEngine → NetEngine) : (s.modNet e f).guardLate = s.guardLate := rfl
@[simp] theorem State.modNet_tlbOlder (e : Nat) (f : NetEngine → NetEngine) : (s.modNet e f).tlbOlder = s.tlbOlder := rfl
@[simp] theorem State.modNet_evict (e : Nat) (f : NetEngine → NetEngine) : (s.modNet e f).evict = s.evict := rfl
@[simp] theorem State.modNet_fresh (e : Nat) (f : NetEngine → NetEngine) : (s.modNet e f).fresh = s.fresh := rfl
@[simp] theorem State.modNet_absent (e : Nat) (f : NetEngine → NetEngine) : (s.modNet e f).absent = s.absent := rfl

/-! ### `State.modLine` -/

@[simp] theorem State.modLine_pt (n : Nat) (f : LineInfo → LineInfo) : (s.modLine n f).pt = s.pt := rfl
@[simp] theorem State.modLine_packint (n : Nat) (f : LineInfo → LineInfo) : (s.modLine n f).packint = s.packint := rfl
@[simp] theorem State.modLine_capbase (n : Nat) (f : LineInfo → LineInfo) : (s.modLine n f).capbase = s.capbase := rfl
@[simp] theorem State.modLine_admode (n : Nat) (f : LineInfo → LineInfo) : (s.modLine n f).admode = s.admode := rfl
@[simp] theorem State.modLine_finj (n : Nat) (f : LineInfo → LineInfo) : (s.modLine n f).finj = s.finj := rfl
@[simp] theorem State.modLine_finjSeen (n : Nat) (f : LineInfo → LineInfo) : (s.modLine n f).finjSeen = s.finjSeen := rfl
@[simp] theorem State.modLine_tdlim (n : Nat) (f : LineInfo → LineInfo) : (s.modLine n f).tdlim = s.tdlim := rfl
@[simp] theorem State.modLine_drainint (n : Nat) (f : LineInfo → LineInfo) : (s.modLine n f).drainint = s.drainint := rfl
@[simp] theorem State.modLine_dev (n : Nat) (f : LineInfo → LineInfo) : (s.modLine n f).dev = s.dev := rfl
@[simp] theorem State.modLine_stopped (n : Nat) (f : LineInfo → LineInfo) : (s.modLine n f).stopped = s.stopped := rfl
@[simp] theorem State.modLine_lcs (n : Nat) (f : LineInfo → LineInfo) : (s.modLine n f).lcs = s.lcs := rfl
@[simp] theorem State.modLine_cores (n : Nat) (f : LineInfo → LineInfo) : (s.modLine n f).cores = s.cores := rfl
@[simp] theorem State.modLine_dies (n : Nat) (f : LineInfo → LineInfo) : (s.modLine n f).dies = s.dies := rfl
@[simp] theorem State.modLine_fams (n : Nat) (f : LineInfo → LineInfo) : (s.modLine n f).fams = s.fams := rfl
@[simp] theorem State.modLine_gens (n : Nat) (f : LineInfo → LineInfo) : (s.modLine n f).gens = s.gens := rfl
@[simp] theorem State.modLine_teams (n : Nat) (f : LineInfo → LineInfo) : (s.modLine n f).teams = s.teams := rfl
@[simp] theorem State.modLine_nextTid (n : Nat) (f : LineInfo → LineInfo) : (s.modLine n f).nextTid = s.nextTid := rfl
@[simp] theorem State.modLine_packs (n : Nat) (f : LineInfo → LineInfo) : (s.modLine n f).packs = s.packs := rfl
@[simp] theorem State.modLine_mem (n : Nat) (f : LineInfo → LineInfo) : (s.modLine n f).mem = s.mem := rfl
@[simp] theorem State.modLine_mpoison (n : Nat) (f : LineInfo → LineInfo) : (s.modLine n f).mpoison = s.mpoison := rfl
@[simp] theorem State.modLine_copies (n : Nat) (f : LineInfo → LineInfo) : (s.modLine n f).copies = s.copies := rfl
@[simp] theorem State.modLine_tlbs (n : Nat) (f : LineInfo → LineInfo) : (s.modLine n f).tlbs = s.tlbs := rfl
@[simp] theorem State.modLine_nleaf (n : Nat) (f : LineInfo → LineInfo) : (s.modLine n f).nleaf = s.nleaf := rfl
@[simp] theorem State.modLine_dir (n : Nat) (f : LineInfo → LineInfo) : (s.modLine n f).dir = s.dir := rfl
@[simp] theorem State.modLine_evh (n : Nat) (f : LineInfo → LineInfo) : (s.modLine n f).evh = s.evh := rfl
@[simp] theorem State.modLine_tether (n : Nat) (f : LineInfo → LineInfo) : (s.modLine n f).tether = s.tether := rfl
@[simp] theorem State.modLine_waiters (n : Nat) (f : LineInfo → LineInfo) : (s.modLine n f).waiters = s.waiters := rfl
@[simp] theorem State.modLine_ovf (n : Nat) (f : LineInfo → LineInfo) : (s.modLine n f).ovf = s.ovf := rfl
@[simp] theorem State.modLine_pend (n : Nat) (f : LineInfo → LineInfo) : (s.modLine n f).pend = s.pend := rfl
@[simp] theorem State.modLine_hwq (n : Nat) (f : LineInfo → LineInfo) : (s.modLine n f).hwq = s.hwq := rfl
@[simp] theorem State.modLine_srec (n : Nat) (f : LineInfo → LineInfo) : (s.modLine n f).srec = s.srec := rfl
@[simp] theorem State.modLine_moves (n : Nat) (f : LineInfo → LineInfo) : (s.modLine n f).moves = s.moves := rfl
@[simp] theorem State.modLine_track (n : Nat) (f : LineInfo → LineInfo) : (s.modLine n f).track = s.track := rfl
@[simp] theorem State.modLine_moved (n : Nat) (f : LineInfo → LineInfo) : (s.modLine n f).moved = s.moved := rfl
@[simp] theorem State.modLine_wstores (n : Nat) (f : LineInfo → LineInfo) : (s.modLine n f).wstores = s.wstores := rfl
@[simp] theorem State.modLine_ownStores (n : Nat) (f : LineInfo → LineInfo) : (s.modLine n f).ownStores = s.ownStores := rfl
@[simp] theorem State.modLine_storePer (n : Nat) (f : LineInfo → LineInfo) : (s.modLine n f).storePer = s.storePer := rfl
@[simp] theorem State.modLine_replicas (n : Nat) (f : LineInfo → LineInfo) : (s.modLine n f).replicas = s.replicas := rfl
@[simp] theorem State.modLine_pages (n : Nat) (f : LineInfo → LineInfo) : (s.modLine n f).pages = s.pages := rfl
@[simp] theorem State.modLine_link (n : Nat) (f : LineInfo → LineInfo) : (s.modLine n f).link = s.link := rfl
@[simp] theorem State.modLine_nets (n : Nat) (f : LineInfo → LineInfo) : (s.modLine n f).nets = s.nets := rfl
@[simp] theorem State.modLine_host (n : Nat) (f : LineInfo → LineInfo) : (s.modLine n f).host = s.host := rfl
@[simp] theorem State.modLine_errq (n : Nat) (f : LineInfo → LineInfo) : (s.modLine n f).errq = s.errq := rfl
@[simp] theorem State.modLine_folds (n : Nat) (f : LineInfo → LineInfo) : (s.modLine n f).folds = s.folds := rfl
@[simp] theorem State.modLine_frecs (n : Nat) (f : LineInfo → LineInfo) : (s.modLine n f).frecs = s.frecs := rfl
@[simp] theorem State.modLine_proofs (n : Nat) (f : LineInfo → LineInfo) : (s.modLine n f).proofs = s.proofs := rfl
@[simp] theorem State.modLine_onces (n : Nat) (f : LineInfo → LineInfo) : (s.modLine n f).onces = s.onces := rfl
@[simp] theorem State.modLine_clocks (n : Nat) (f : LineInfo → LineInfo) : (s.modLine n f).clocks = s.clocks := rfl
@[simp] theorem State.modLine_repairs (n : Nat) (f : LineInfo → LineInfo) : (s.modLine n f).repairs = s.repairs := rfl
@[simp] theorem State.modLine_segs (n : Nat) (f : LineInfo → LineInfo) : (s.modLine n f).segs = s.segs := rfl
@[simp] theorem State.modLine_drain (n : Nat) (f : LineInfo → LineInfo) : (s.modLine n f).drain = s.drain := rfl
@[simp] theorem State.modLine_outbox (n : Nat) (f : LineInfo → LineInfo) : (s.modLine n f).outbox = s.outbox := rfl
@[simp] theorem State.modLine_agenda (n : Nat) (f : LineInfo → LineInfo) : (s.modLine n f).agenda = s.agenda := rfl
@[simp] theorem State.modLine_schedule (n : Nat) (f : LineInfo → LineInfo) : (s.modLine n f).schedule = s.schedule := rfl
@[simp] theorem State.modLine_cur (n : Nat) (f : LineInfo → LineInfo) : (s.modLine n f).cur = s.cur := rfl
@[simp] theorem State.modLine_curLane (n : Nat) (f : LineInfo → LineInfo) : (s.modLine n f).curLane = s.curLane := rfl
@[simp] theorem State.modLine_cycles (n : Nat) (f : LineInfo → LineInfo) : (s.modLine n f).cycles = s.cycles := rfl
@[simp] theorem State.modLine_turn (n : Nat) (f : LineInfo → LineInfo) : (s.modLine n f).turn = s.turn := rfl
@[simp] theorem State.modLine_nsPerStep (n : Nat) (f : LineInfo → LineInfo) : (s.modLine n f).nsPerStep = s.nsPerStep := rfl
@[simp] theorem State.modLine_cycPerStep (n : Nat) (f : LineInfo → LineInfo) : (s.modLine n f).cycPerStep = s.cycPerStep := rfl
@[simp] theorem State.modLine_deferLoads (n : Nat) (f : LineInfo → LineInfo) : (s.modLine n f).deferLoads = s.deferLoads := rfl
@[simp] theorem State.modLine_deferStores (n : Nat) (f : LineInfo → LineInfo) : (s.modLine n f).deferStores = s.deferStores := rfl
@[simp] theorem State.modLine_deferAtomics (n : Nat) (f : LineInfo → LineInfo) : (s.modLine n f).deferAtomics = s.deferAtomics := rfl
@[simp] theorem State.modLine_deferReleases (n : Nat) (f : LineInfo → LineInfo) : (s.modLine n f).deferReleases = s.deferReleases := rfl
@[simp] theorem State.modLine_guardLate (n : Nat) (f : LineInfo → LineInfo) : (s.modLine n f).guardLate = s.guardLate := rfl
@[simp] theorem State.modLine_tlbOlder (n : Nat) (f : LineInfo → LineInfo) : (s.modLine n f).tlbOlder = s.tlbOlder := rfl
@[simp] theorem State.modLine_evict (n : Nat) (f : LineInfo → LineInfo) : (s.modLine n f).evict = s.evict := rfl
@[simp] theorem State.modLine_fresh (n : Nat) (f : LineInfo → LineInfo) : (s.modLine n f).fresh = s.fresh := rfl
@[simp] theorem State.modLine_absent (n : Nat) (f : LineInfo → LineInfo) : (s.modLine n f).absent = s.absent := rfl

/-! ### `State.setBytes` -/

@[simp] theorem State.setBytes_pt (a : Nat) (b : List Byte) : (s.setBytes a b).pt = s.pt := rfl
@[simp] theorem State.setBytes_packint (a : Nat) (b : List Byte) : (s.setBytes a b).packint = s.packint := rfl
@[simp] theorem State.setBytes_capbase (a : Nat) (b : List Byte) : (s.setBytes a b).capbase = s.capbase := rfl
@[simp] theorem State.setBytes_admode (a : Nat) (b : List Byte) : (s.setBytes a b).admode = s.admode := rfl
@[simp] theorem State.setBytes_finj (a : Nat) (b : List Byte) : (s.setBytes a b).finj = s.finj := rfl
@[simp] theorem State.setBytes_finjSeen (a : Nat) (b : List Byte) : (s.setBytes a b).finjSeen = s.finjSeen := rfl
@[simp] theorem State.setBytes_tdlim (a : Nat) (b : List Byte) : (s.setBytes a b).tdlim = s.tdlim := rfl
@[simp] theorem State.setBytes_drainint (a : Nat) (b : List Byte) : (s.setBytes a b).drainint = s.drainint := rfl
@[simp] theorem State.setBytes_dev (a : Nat) (b : List Byte) : (s.setBytes a b).dev = s.dev := rfl
@[simp] theorem State.setBytes_stopped (a : Nat) (b : List Byte) : (s.setBytes a b).stopped = s.stopped := rfl
@[simp] theorem State.setBytes_lcs (a : Nat) (b : List Byte) : (s.setBytes a b).lcs = s.lcs := rfl
@[simp] theorem State.setBytes_cores (a : Nat) (b : List Byte) : (s.setBytes a b).cores = s.cores := rfl
@[simp] theorem State.setBytes_dies (a : Nat) (b : List Byte) : (s.setBytes a b).dies = s.dies := rfl
@[simp] theorem State.setBytes_fams (a : Nat) (b : List Byte) : (s.setBytes a b).fams = s.fams := rfl
@[simp] theorem State.setBytes_gens (a : Nat) (b : List Byte) : (s.setBytes a b).gens = s.gens := rfl
@[simp] theorem State.setBytes_teams (a : Nat) (b : List Byte) : (s.setBytes a b).teams = s.teams := rfl
@[simp] theorem State.setBytes_nextTid (a : Nat) (b : List Byte) : (s.setBytes a b).nextTid = s.nextTid := rfl
@[simp] theorem State.setBytes_packs (a : Nat) (b : List Byte) : (s.setBytes a b).packs = s.packs := rfl
@[simp] theorem State.setBytes_mpoison (a : Nat) (b : List Byte) : (s.setBytes a b).mpoison = s.mpoison := rfl
@[simp] theorem State.setBytes_lines (a : Nat) (b : List Byte) : (s.setBytes a b).lines = s.lines := rfl
@[simp] theorem State.setBytes_copies (a : Nat) (b : List Byte) : (s.setBytes a b).copies = s.copies := rfl
@[simp] theorem State.setBytes_tlbs (a : Nat) (b : List Byte) : (s.setBytes a b).tlbs = s.tlbs := rfl
@[simp] theorem State.setBytes_nleaf (a : Nat) (b : List Byte) : (s.setBytes a b).nleaf = s.nleaf := rfl
@[simp] theorem State.setBytes_dir (a : Nat) (b : List Byte) : (s.setBytes a b).dir = s.dir := rfl
@[simp] theorem State.setBytes_evh (a : Nat) (b : List Byte) : (s.setBytes a b).evh = s.evh := rfl
@[simp] theorem State.setBytes_tether (a : Nat) (b : List Byte) : (s.setBytes a b).tether = s.tether := rfl
@[simp] theorem State.setBytes_waiters (a : Nat) (b : List Byte) : (s.setBytes a b).waiters = s.waiters := rfl
@[simp] theorem State.setBytes_ovf (a : Nat) (b : List Byte) : (s.setBytes a b).ovf = s.ovf := rfl
@[simp] theorem State.setBytes_pend (a : Nat) (b : List Byte) : (s.setBytes a b).pend = s.pend := rfl
@[simp] theorem State.setBytes_hwq (a : Nat) (b : List Byte) : (s.setBytes a b).hwq = s.hwq := rfl
@[simp] theorem State.setBytes_srec (a : Nat) (b : List Byte) : (s.setBytes a b).srec = s.srec := rfl
@[simp] theorem State.setBytes_moves (a : Nat) (b : List Byte) : (s.setBytes a b).moves = s.moves := rfl
@[simp] theorem State.setBytes_track (a : Nat) (b : List Byte) : (s.setBytes a b).track = s.track := rfl
@[simp] theorem State.setBytes_moved (a : Nat) (b : List Byte) : (s.setBytes a b).moved = s.moved := rfl
@[simp] theorem State.setBytes_wstores (a : Nat) (b : List Byte) : (s.setBytes a b).wstores = s.wstores := rfl
@[simp] theorem State.setBytes_ownStores (a : Nat) (b : List Byte) : (s.setBytes a b).ownStores = s.ownStores := rfl
@[simp] theorem State.setBytes_storePer (a : Nat) (b : List Byte) : (s.setBytes a b).storePer = s.storePer := rfl
@[simp] theorem State.setBytes_replicas (a : Nat) (b : List Byte) : (s.setBytes a b).replicas = s.replicas := rfl
@[simp] theorem State.setBytes_pages (a : Nat) (b : List Byte) : (s.setBytes a b).pages = s.pages := rfl
@[simp] theorem State.setBytes_link (a : Nat) (b : List Byte) : (s.setBytes a b).link = s.link := rfl
@[simp] theorem State.setBytes_nets (a : Nat) (b : List Byte) : (s.setBytes a b).nets = s.nets := rfl
@[simp] theorem State.setBytes_host (a : Nat) (b : List Byte) : (s.setBytes a b).host = s.host := rfl
@[simp] theorem State.setBytes_errq (a : Nat) (b : List Byte) : (s.setBytes a b).errq = s.errq := rfl
@[simp] theorem State.setBytes_folds (a : Nat) (b : List Byte) : (s.setBytes a b).folds = s.folds := rfl
@[simp] theorem State.setBytes_frecs (a : Nat) (b : List Byte) : (s.setBytes a b).frecs = s.frecs := rfl
@[simp] theorem State.setBytes_proofs (a : Nat) (b : List Byte) : (s.setBytes a b).proofs = s.proofs := rfl
@[simp] theorem State.setBytes_onces (a : Nat) (b : List Byte) : (s.setBytes a b).onces = s.onces := rfl
@[simp] theorem State.setBytes_clocks (a : Nat) (b : List Byte) : (s.setBytes a b).clocks = s.clocks := rfl
@[simp] theorem State.setBytes_repairs (a : Nat) (b : List Byte) : (s.setBytes a b).repairs = s.repairs := rfl
@[simp] theorem State.setBytes_segs (a : Nat) (b : List Byte) : (s.setBytes a b).segs = s.segs := rfl
@[simp] theorem State.setBytes_drain (a : Nat) (b : List Byte) : (s.setBytes a b).drain = s.drain := rfl
@[simp] theorem State.setBytes_outbox (a : Nat) (b : List Byte) : (s.setBytes a b).outbox = s.outbox := rfl
@[simp] theorem State.setBytes_agenda (a : Nat) (b : List Byte) : (s.setBytes a b).agenda = s.agenda := rfl
@[simp] theorem State.setBytes_schedule (a : Nat) (b : List Byte) : (s.setBytes a b).schedule = s.schedule := rfl
@[simp] theorem State.setBytes_cur (a : Nat) (b : List Byte) : (s.setBytes a b).cur = s.cur := rfl
@[simp] theorem State.setBytes_curLane (a : Nat) (b : List Byte) : (s.setBytes a b).curLane = s.curLane := rfl
@[simp] theorem State.setBytes_cycles (a : Nat) (b : List Byte) : (s.setBytes a b).cycles = s.cycles := rfl
@[simp] theorem State.setBytes_turn (a : Nat) (b : List Byte) : (s.setBytes a b).turn = s.turn := rfl
@[simp] theorem State.setBytes_nsPerStep (a : Nat) (b : List Byte) : (s.setBytes a b).nsPerStep = s.nsPerStep := rfl
@[simp] theorem State.setBytes_cycPerStep (a : Nat) (b : List Byte) : (s.setBytes a b).cycPerStep = s.cycPerStep := rfl
@[simp] theorem State.setBytes_deferLoads (a : Nat) (b : List Byte) : (s.setBytes a b).deferLoads = s.deferLoads := rfl
@[simp] theorem State.setBytes_deferStores (a : Nat) (b : List Byte) : (s.setBytes a b).deferStores = s.deferStores := rfl
@[simp] theorem State.setBytes_deferAtomics (a : Nat) (b : List Byte) : (s.setBytes a b).deferAtomics = s.deferAtomics := rfl
@[simp] theorem State.setBytes_deferReleases (a : Nat) (b : List Byte) : (s.setBytes a b).deferReleases = s.deferReleases := rfl
@[simp] theorem State.setBytes_guardLate (a : Nat) (b : List Byte) : (s.setBytes a b).guardLate = s.guardLate := rfl
@[simp] theorem State.setBytes_tlbOlder (a : Nat) (b : List Byte) : (s.setBytes a b).tlbOlder = s.tlbOlder := rfl
@[simp] theorem State.setBytes_evict (a : Nat) (b : List Byte) : (s.setBytes a b).evict = s.evict := rfl
@[simp] theorem State.setBytes_fresh (a : Nat) (b : List Byte) : (s.setBytes a b).fresh = s.fresh := rfl
@[simp] theorem State.setBytes_absent (a : Nat) (b : List Byte) : (s.setBytes a b).absent = s.absent := rfl

/-! ### `State.tick` -/

@[simp] theorem State.tick_pt : (s.tick).pt = s.pt := rfl
@[simp] theorem State.tick_packint : (s.tick).packint = s.packint := rfl
@[simp] theorem State.tick_capbase : (s.tick).capbase = s.capbase := rfl
@[simp] theorem State.tick_admode : (s.tick).admode = s.admode := rfl
@[simp] theorem State.tick_finj : (s.tick).finj = s.finj := rfl
@[simp] theorem State.tick_finjSeen : (s.tick).finjSeen = s.finjSeen := rfl
@[simp] theorem State.tick_tdlim : (s.tick).tdlim = s.tdlim := rfl
@[simp] theorem State.tick_drainint : (s.tick).drainint = s.drainint := rfl
@[simp] theorem State.tick_dev : (s.tick).dev = s.dev := rfl
@[simp] theorem State.tick_stopped : (s.tick).stopped = s.stopped := rfl
@[simp] theorem State.tick_lcs : (s.tick).lcs = s.lcs := rfl
@[simp] theorem State.tick_cores : (s.tick).cores = s.cores := rfl
@[simp] theorem State.tick_dies : (s.tick).dies = s.dies := rfl
@[simp] theorem State.tick_fams : (s.tick).fams = s.fams := rfl
@[simp] theorem State.tick_gens : (s.tick).gens = s.gens := rfl
@[simp] theorem State.tick_teams : (s.tick).teams = s.teams := rfl
@[simp] theorem State.tick_nextTid : (s.tick).nextTid = s.nextTid := rfl
@[simp] theorem State.tick_packs : (s.tick).packs = s.packs := rfl
@[simp] theorem State.tick_mem : (s.tick).mem = s.mem := rfl
@[simp] theorem State.tick_mpoison : (s.tick).mpoison = s.mpoison := rfl
@[simp] theorem State.tick_lines : (s.tick).lines = s.lines := rfl
@[simp] theorem State.tick_copies : (s.tick).copies = s.copies := rfl
@[simp] theorem State.tick_tlbs : (s.tick).tlbs = s.tlbs := rfl
@[simp] theorem State.tick_nleaf : (s.tick).nleaf = s.nleaf := rfl
@[simp] theorem State.tick_dir : (s.tick).dir = s.dir := rfl
@[simp] theorem State.tick_evh : (s.tick).evh = s.evh := rfl
@[simp] theorem State.tick_tether : (s.tick).tether = s.tether := rfl
@[simp] theorem State.tick_waiters : (s.tick).waiters = s.waiters := rfl
@[simp] theorem State.tick_ovf : (s.tick).ovf = s.ovf := rfl
@[simp] theorem State.tick_pend : (s.tick).pend = s.pend := rfl
@[simp] theorem State.tick_hwq : (s.tick).hwq = s.hwq := rfl
@[simp] theorem State.tick_srec : (s.tick).srec = s.srec := rfl
@[simp] theorem State.tick_moves : (s.tick).moves = s.moves := rfl
@[simp] theorem State.tick_track : (s.tick).track = s.track := rfl
@[simp] theorem State.tick_moved : (s.tick).moved = s.moved := rfl
@[simp] theorem State.tick_wstores : (s.tick).wstores = s.wstores := rfl
@[simp] theorem State.tick_ownStores : (s.tick).ownStores = s.ownStores := rfl
@[simp] theorem State.tick_storePer : (s.tick).storePer = s.storePer := rfl
@[simp] theorem State.tick_replicas : (s.tick).replicas = s.replicas := rfl
@[simp] theorem State.tick_pages : (s.tick).pages = s.pages := rfl
@[simp] theorem State.tick_link : (s.tick).link = s.link := rfl
@[simp] theorem State.tick_nets : (s.tick).nets = s.nets := rfl
@[simp] theorem State.tick_host : (s.tick).host = s.host := rfl
@[simp] theorem State.tick_errq : (s.tick).errq = s.errq := rfl
@[simp] theorem State.tick_folds : (s.tick).folds = s.folds := rfl
@[simp] theorem State.tick_frecs : (s.tick).frecs = s.frecs := rfl
@[simp] theorem State.tick_proofs : (s.tick).proofs = s.proofs := rfl
@[simp] theorem State.tick_onces : (s.tick).onces = s.onces := rfl
@[simp] theorem State.tick_clocks : (s.tick).clocks = s.clocks := rfl
@[simp] theorem State.tick_repairs : (s.tick).repairs = s.repairs := rfl
@[simp] theorem State.tick_segs : (s.tick).segs = s.segs := rfl
@[simp] theorem State.tick_drain : (s.tick).drain = s.drain := rfl
@[simp] theorem State.tick_outbox : (s.tick).outbox = s.outbox := rfl
@[simp] theorem State.tick_agenda : (s.tick).agenda = s.agenda := rfl
@[simp] theorem State.tick_schedule : (s.tick).schedule = s.schedule := rfl
@[simp] theorem State.tick_cur : (s.tick).cur = s.cur := rfl
@[simp] theorem State.tick_curLane : (s.tick).curLane = s.curLane := rfl
@[simp] theorem State.tick_cycles : (s.tick).cycles = s.cycles := rfl
@[simp] theorem State.tick_turn : (s.tick).turn = s.turn := rfl
@[simp] theorem State.tick_nsPerStep : (s.tick).nsPerStep = s.nsPerStep := rfl
@[simp] theorem State.tick_cycPerStep : (s.tick).cycPerStep = s.cycPerStep := rfl
@[simp] theorem State.tick_deferLoads : (s.tick).deferLoads = s.deferLoads := rfl
@[simp] theorem State.tick_deferStores : (s.tick).deferStores = s.deferStores := rfl
@[simp] theorem State.tick_deferAtomics : (s.tick).deferAtomics = s.deferAtomics := rfl
@[simp] theorem State.tick_deferReleases : (s.tick).deferReleases = s.deferReleases := rfl
@[simp] theorem State.tick_guardLate : (s.tick).guardLate = s.guardLate := rfl
@[simp] theorem State.tick_tlbOlder : (s.tick).tlbOlder = s.tlbOlder := rfl
@[simp] theorem State.tick_evict : (s.tick).evict = s.evict := rfl
@[simp] theorem State.tick_absent : (s.tick).absent = s.absent := rfl

/-! ### `State.modGrp` -/

@[simp] theorem State.modGrp_pt (p : Party) (f : Group → Group) : (s.modGrp p f).pt = s.pt := by cases p <;> rfl
@[simp] theorem State.modGrp_packint (p : Party) (f : Group → Group) : (s.modGrp p f).packint = s.packint := by cases p <;> rfl
@[simp] theorem State.modGrp_capbase (p : Party) (f : Group → Group) : (s.modGrp p f).capbase = s.capbase := by cases p <;> rfl
@[simp] theorem State.modGrp_admode (p : Party) (f : Group → Group) : (s.modGrp p f).admode = s.admode := by cases p <;> rfl
@[simp] theorem State.modGrp_finj (p : Party) (f : Group → Group) : (s.modGrp p f).finj = s.finj := by cases p <;> rfl
@[simp] theorem State.modGrp_finjSeen (p : Party) (f : Group → Group) : (s.modGrp p f).finjSeen = s.finjSeen := by cases p <;> rfl
@[simp] theorem State.modGrp_tdlim (p : Party) (f : Group → Group) : (s.modGrp p f).tdlim = s.tdlim := by cases p <;> rfl
@[simp] theorem State.modGrp_drainint (p : Party) (f : Group → Group) : (s.modGrp p f).drainint = s.drainint := by cases p <;> rfl
@[simp] theorem State.modGrp_dev (p : Party) (f : Group → Group) : (s.modGrp p f).dev = s.dev := by cases p <;> rfl
@[simp] theorem State.modGrp_stopped (p : Party) (f : Group → Group) : (s.modGrp p f).stopped = s.stopped := by cases p <;> rfl
@[simp] theorem State.modGrp_cores (p : Party) (f : Group → Group) : (s.modGrp p f).cores = s.cores := by cases p <;> rfl
@[simp] theorem State.modGrp_dies (p : Party) (f : Group → Group) : (s.modGrp p f).dies = s.dies := by cases p <;> rfl
@[simp] theorem State.modGrp_fams (p : Party) (f : Group → Group) : (s.modGrp p f).fams = s.fams := by cases p <;> rfl
@[simp] theorem State.modGrp_gens (p : Party) (f : Group → Group) : (s.modGrp p f).gens = s.gens := by cases p <;> rfl
@[simp] theorem State.modGrp_nextTid (p : Party) (f : Group → Group) : (s.modGrp p f).nextTid = s.nextTid := by cases p <;> rfl
@[simp] theorem State.modGrp_packs (p : Party) (f : Group → Group) : (s.modGrp p f).packs = s.packs := by cases p <;> rfl
@[simp] theorem State.modGrp_mem (p : Party) (f : Group → Group) : (s.modGrp p f).mem = s.mem := by cases p <;> rfl
@[simp] theorem State.modGrp_mpoison (p : Party) (f : Group → Group) : (s.modGrp p f).mpoison = s.mpoison := by cases p <;> rfl
@[simp] theorem State.modGrp_lines (p : Party) (f : Group → Group) : (s.modGrp p f).lines = s.lines := by cases p <;> rfl
@[simp] theorem State.modGrp_copies (p : Party) (f : Group → Group) : (s.modGrp p f).copies = s.copies := by cases p <;> rfl
@[simp] theorem State.modGrp_tlbs (p : Party) (f : Group → Group) : (s.modGrp p f).tlbs = s.tlbs := by cases p <;> rfl
@[simp] theorem State.modGrp_nleaf (p : Party) (f : Group → Group) : (s.modGrp p f).nleaf = s.nleaf := by cases p <;> rfl
@[simp] theorem State.modGrp_dir (p : Party) (f : Group → Group) : (s.modGrp p f).dir = s.dir := by cases p <;> rfl
@[simp] theorem State.modGrp_evh (p : Party) (f : Group → Group) : (s.modGrp p f).evh = s.evh := by cases p <;> rfl
@[simp] theorem State.modGrp_tether (p : Party) (f : Group → Group) : (s.modGrp p f).tether = s.tether := by cases p <;> rfl
@[simp] theorem State.modGrp_waiters (p : Party) (f : Group → Group) : (s.modGrp p f).waiters = s.waiters := by cases p <;> rfl
@[simp] theorem State.modGrp_ovf (p : Party) (f : Group → Group) : (s.modGrp p f).ovf = s.ovf := by cases p <;> rfl
@[simp] theorem State.modGrp_pend (p : Party) (f : Group → Group) : (s.modGrp p f).pend = s.pend := by cases p <;> rfl
@[simp] theorem State.modGrp_hwq (p : Party) (f : Group → Group) : (s.modGrp p f).hwq = s.hwq := by cases p <;> rfl
@[simp] theorem State.modGrp_srec (p : Party) (f : Group → Group) : (s.modGrp p f).srec = s.srec := by cases p <;> rfl
@[simp] theorem State.modGrp_moves (p : Party) (f : Group → Group) : (s.modGrp p f).moves = s.moves := by cases p <;> rfl
@[simp] theorem State.modGrp_track (p : Party) (f : Group → Group) : (s.modGrp p f).track = s.track := by cases p <;> rfl
@[simp] theorem State.modGrp_moved (p : Party) (f : Group → Group) : (s.modGrp p f).moved = s.moved := by cases p <;> rfl
@[simp] theorem State.modGrp_wstores (p : Party) (f : Group → Group) : (s.modGrp p f).wstores = s.wstores := by cases p <;> rfl
@[simp] theorem State.modGrp_ownStores (p : Party) (f : Group → Group) : (s.modGrp p f).ownStores = s.ownStores := by cases p <;> rfl
@[simp] theorem State.modGrp_storePer (p : Party) (f : Group → Group) : (s.modGrp p f).storePer = s.storePer := by cases p <;> rfl
@[simp] theorem State.modGrp_replicas (p : Party) (f : Group → Group) : (s.modGrp p f).replicas = s.replicas := by cases p <;> rfl
@[simp] theorem State.modGrp_pages (p : Party) (f : Group → Group) : (s.modGrp p f).pages = s.pages := by cases p <;> rfl
@[simp] theorem State.modGrp_link (p : Party) (f : Group → Group) : (s.modGrp p f).link = s.link := by cases p <;> rfl
@[simp] theorem State.modGrp_nets (p : Party) (f : Group → Group) : (s.modGrp p f).nets = s.nets := by cases p <;> rfl
@[simp] theorem State.modGrp_host (p : Party) (f : Group → Group) : (s.modGrp p f).host = s.host := by cases p <;> rfl
@[simp] theorem State.modGrp_errq (p : Party) (f : Group → Group) : (s.modGrp p f).errq = s.errq := by cases p <;> rfl
@[simp] theorem State.modGrp_folds (p : Party) (f : Group → Group) : (s.modGrp p f).folds = s.folds := by cases p <;> rfl
@[simp] theorem State.modGrp_frecs (p : Party) (f : Group → Group) : (s.modGrp p f).frecs = s.frecs := by cases p <;> rfl
@[simp] theorem State.modGrp_proofs (p : Party) (f : Group → Group) : (s.modGrp p f).proofs = s.proofs := by cases p <;> rfl
@[simp] theorem State.modGrp_onces (p : Party) (f : Group → Group) : (s.modGrp p f).onces = s.onces := by cases p <;> rfl
@[simp] theorem State.modGrp_clocks (p : Party) (f : Group → Group) : (s.modGrp p f).clocks = s.clocks := by cases p <;> rfl
@[simp] theorem State.modGrp_repairs (p : Party) (f : Group → Group) : (s.modGrp p f).repairs = s.repairs := by cases p <;> rfl
@[simp] theorem State.modGrp_segs (p : Party) (f : Group → Group) : (s.modGrp p f).segs = s.segs := by cases p <;> rfl
@[simp] theorem State.modGrp_drain (p : Party) (f : Group → Group) : (s.modGrp p f).drain = s.drain := by cases p <;> rfl
@[simp] theorem State.modGrp_outbox (p : Party) (f : Group → Group) : (s.modGrp p f).outbox = s.outbox := by cases p <;> rfl
@[simp] theorem State.modGrp_agenda (p : Party) (f : Group → Group) : (s.modGrp p f).agenda = s.agenda := by cases p <;> rfl
@[simp] theorem State.modGrp_schedule (p : Party) (f : Group → Group) : (s.modGrp p f).schedule = s.schedule := by cases p <;> rfl
@[simp] theorem State.modGrp_cur (p : Party) (f : Group → Group) : (s.modGrp p f).cur = s.cur := by cases p <;> rfl
@[simp] theorem State.modGrp_curLane (p : Party) (f : Group → Group) : (s.modGrp p f).curLane = s.curLane := by cases p <;> rfl
@[simp] theorem State.modGrp_cycles (p : Party) (f : Group → Group) : (s.modGrp p f).cycles = s.cycles := by cases p <;> rfl
@[simp] theorem State.modGrp_turn (p : Party) (f : Group → Group) : (s.modGrp p f).turn = s.turn := by cases p <;> rfl
@[simp] theorem State.modGrp_nsPerStep (p : Party) (f : Group → Group) : (s.modGrp p f).nsPerStep = s.nsPerStep := by cases p <;> rfl
@[simp] theorem State.modGrp_cycPerStep (p : Party) (f : Group → Group) : (s.modGrp p f).cycPerStep = s.cycPerStep := by cases p <;> rfl
@[simp] theorem State.modGrp_deferLoads (p : Party) (f : Group → Group) : (s.modGrp p f).deferLoads = s.deferLoads := by cases p <;> rfl
@[simp] theorem State.modGrp_deferStores (p : Party) (f : Group → Group) : (s.modGrp p f).deferStores = s.deferStores := by cases p <;> rfl
@[simp] theorem State.modGrp_deferAtomics (p : Party) (f : Group → Group) : (s.modGrp p f).deferAtomics = s.deferAtomics := by cases p <;> rfl
@[simp] theorem State.modGrp_deferReleases (p : Party) (f : Group → Group) : (s.modGrp p f).deferReleases = s.deferReleases := by cases p <;> rfl
@[simp] theorem State.modGrp_guardLate (p : Party) (f : Group → Group) : (s.modGrp p f).guardLate = s.guardLate := by cases p <;> rfl
@[simp] theorem State.modGrp_tlbOlder (p : Party) (f : Group → Group) : (s.modGrp p f).tlbOlder = s.tlbOlder := by cases p <;> rfl
@[simp] theorem State.modGrp_evict (p : Party) (f : Group → Group) : (s.modGrp p f).evict = s.evict := by cases p <;> rfl
@[simp] theorem State.modGrp_fresh (p : Party) (f : Group → Group) : (s.modGrp p f).fresh = s.fresh := by cases p <;> rfl
@[simp] theorem State.modGrp_absent (p : Party) (f : Group → Group) : (s.modGrp p f).absent = s.absent := by cases p <;> rfl

/-! ### `State.modThr` -/

@[simp] theorem State.modThr_pt (p : Party) (l : Nat) (f : Thread → Thread) : (s.modThr p l f).pt = s.pt := by cases p <;> rfl
@[simp] theorem State.modThr_packint (p : Party) (l : Nat) (f : Thread → Thread) : (s.modThr p l f).packint = s.packint := by cases p <;> rfl
@[simp] theorem State.modThr_capbase (p : Party) (l : Nat) (f : Thread → Thread) : (s.modThr p l f).capbase = s.capbase := by cases p <;> rfl
@[simp] theorem State.modThr_admode (p : Party) (l : Nat) (f : Thread → Thread) : (s.modThr p l f).admode = s.admode := by cases p <;> rfl
@[simp] theorem State.modThr_finj (p : Party) (l : Nat) (f : Thread → Thread) : (s.modThr p l f).finj = s.finj := by cases p <;> rfl
@[simp] theorem State.modThr_finjSeen (p : Party) (l : Nat) (f : Thread → Thread) : (s.modThr p l f).finjSeen = s.finjSeen := by cases p <;> rfl
@[simp] theorem State.modThr_tdlim (p : Party) (l : Nat) (f : Thread → Thread) : (s.modThr p l f).tdlim = s.tdlim := by cases p <;> rfl
@[simp] theorem State.modThr_drainint (p : Party) (l : Nat) (f : Thread → Thread) : (s.modThr p l f).drainint = s.drainint := by cases p <;> rfl
@[simp] theorem State.modThr_dev (p : Party) (l : Nat) (f : Thread → Thread) : (s.modThr p l f).dev = s.dev := by cases p <;> rfl
@[simp] theorem State.modThr_stopped (p : Party) (l : Nat) (f : Thread → Thread) : (s.modThr p l f).stopped = s.stopped := by cases p <;> rfl
@[simp] theorem State.modThr_cores (p : Party) (l : Nat) (f : Thread → Thread) : (s.modThr p l f).cores = s.cores := by cases p <;> rfl
@[simp] theorem State.modThr_dies (p : Party) (l : Nat) (f : Thread → Thread) : (s.modThr p l f).dies = s.dies := by cases p <;> rfl
@[simp] theorem State.modThr_fams (p : Party) (l : Nat) (f : Thread → Thread) : (s.modThr p l f).fams = s.fams := by cases p <;> rfl
@[simp] theorem State.modThr_gens (p : Party) (l : Nat) (f : Thread → Thread) : (s.modThr p l f).gens = s.gens := by cases p <;> rfl
@[simp] theorem State.modThr_nextTid (p : Party) (l : Nat) (f : Thread → Thread) : (s.modThr p l f).nextTid = s.nextTid := by cases p <;> rfl
@[simp] theorem State.modThr_packs (p : Party) (l : Nat) (f : Thread → Thread) : (s.modThr p l f).packs = s.packs := by cases p <;> rfl
@[simp] theorem State.modThr_mem (p : Party) (l : Nat) (f : Thread → Thread) : (s.modThr p l f).mem = s.mem := by cases p <;> rfl
@[simp] theorem State.modThr_mpoison (p : Party) (l : Nat) (f : Thread → Thread) : (s.modThr p l f).mpoison = s.mpoison := by cases p <;> rfl
@[simp] theorem State.modThr_lines (p : Party) (l : Nat) (f : Thread → Thread) : (s.modThr p l f).lines = s.lines := by cases p <;> rfl
@[simp] theorem State.modThr_copies (p : Party) (l : Nat) (f : Thread → Thread) : (s.modThr p l f).copies = s.copies := by cases p <;> rfl
@[simp] theorem State.modThr_tlbs (p : Party) (l : Nat) (f : Thread → Thread) : (s.modThr p l f).tlbs = s.tlbs := by cases p <;> rfl
@[simp] theorem State.modThr_nleaf (p : Party) (l : Nat) (f : Thread → Thread) : (s.modThr p l f).nleaf = s.nleaf := by cases p <;> rfl
@[simp] theorem State.modThr_dir (p : Party) (l : Nat) (f : Thread → Thread) : (s.modThr p l f).dir = s.dir := by cases p <;> rfl
@[simp] theorem State.modThr_evh (p : Party) (l : Nat) (f : Thread → Thread) : (s.modThr p l f).evh = s.evh := by cases p <;> rfl
@[simp] theorem State.modThr_tether (p : Party) (l : Nat) (f : Thread → Thread) : (s.modThr p l f).tether = s.tether := by cases p <;> rfl
@[simp] theorem State.modThr_waiters (p : Party) (l : Nat) (f : Thread → Thread) : (s.modThr p l f).waiters = s.waiters := by cases p <;> rfl
@[simp] theorem State.modThr_ovf (p : Party) (l : Nat) (f : Thread → Thread) : (s.modThr p l f).ovf = s.ovf := by cases p <;> rfl
@[simp] theorem State.modThr_pend (p : Party) (l : Nat) (f : Thread → Thread) : (s.modThr p l f).pend = s.pend := by cases p <;> rfl
@[simp] theorem State.modThr_hwq (p : Party) (l : Nat) (f : Thread → Thread) : (s.modThr p l f).hwq = s.hwq := by cases p <;> rfl
@[simp] theorem State.modThr_srec (p : Party) (l : Nat) (f : Thread → Thread) : (s.modThr p l f).srec = s.srec := by cases p <;> rfl
@[simp] theorem State.modThr_moves (p : Party) (l : Nat) (f : Thread → Thread) : (s.modThr p l f).moves = s.moves := by cases p <;> rfl
@[simp] theorem State.modThr_track (p : Party) (l : Nat) (f : Thread → Thread) : (s.modThr p l f).track = s.track := by cases p <;> rfl
@[simp] theorem State.modThr_moved (p : Party) (l : Nat) (f : Thread → Thread) : (s.modThr p l f).moved = s.moved := by cases p <;> rfl
@[simp] theorem State.modThr_wstores (p : Party) (l : Nat) (f : Thread → Thread) : (s.modThr p l f).wstores = s.wstores := by cases p <;> rfl
@[simp] theorem State.modThr_ownStores (p : Party) (l : Nat) (f : Thread → Thread) : (s.modThr p l f).ownStores = s.ownStores := by cases p <;> rfl
@[simp] theorem State.modThr_storePer (p : Party) (l : Nat) (f : Thread → Thread) : (s.modThr p l f).storePer = s.storePer := by cases p <;> rfl
@[simp] theorem State.modThr_replicas (p : Party) (l : Nat) (f : Thread → Thread) : (s.modThr p l f).replicas = s.replicas := by cases p <;> rfl
@[simp] theorem State.modThr_pages (p : Party) (l : Nat) (f : Thread → Thread) : (s.modThr p l f).pages = s.pages := by cases p <;> rfl
@[simp] theorem State.modThr_link (p : Party) (l : Nat) (f : Thread → Thread) : (s.modThr p l f).link = s.link := by cases p <;> rfl
@[simp] theorem State.modThr_nets (p : Party) (l : Nat) (f : Thread → Thread) : (s.modThr p l f).nets = s.nets := by cases p <;> rfl
@[simp] theorem State.modThr_host (p : Party) (l : Nat) (f : Thread → Thread) : (s.modThr p l f).host = s.host := by cases p <;> rfl
@[simp] theorem State.modThr_errq (p : Party) (l : Nat) (f : Thread → Thread) : (s.modThr p l f).errq = s.errq := by cases p <;> rfl
@[simp] theorem State.modThr_folds (p : Party) (l : Nat) (f : Thread → Thread) : (s.modThr p l f).folds = s.folds := by cases p <;> rfl
@[simp] theorem State.modThr_frecs (p : Party) (l : Nat) (f : Thread → Thread) : (s.modThr p l f).frecs = s.frecs := by cases p <;> rfl
@[simp] theorem State.modThr_proofs (p : Party) (l : Nat) (f : Thread → Thread) : (s.modThr p l f).proofs = s.proofs := by cases p <;> rfl
@[simp] theorem State.modThr_onces (p : Party) (l : Nat) (f : Thread → Thread) : (s.modThr p l f).onces = s.onces := by cases p <;> rfl
@[simp] theorem State.modThr_clocks (p : Party) (l : Nat) (f : Thread → Thread) : (s.modThr p l f).clocks = s.clocks := by cases p <;> rfl
@[simp] theorem State.modThr_repairs (p : Party) (l : Nat) (f : Thread → Thread) : (s.modThr p l f).repairs = s.repairs := by cases p <;> rfl
@[simp] theorem State.modThr_segs (p : Party) (l : Nat) (f : Thread → Thread) : (s.modThr p l f).segs = s.segs := by cases p <;> rfl
@[simp] theorem State.modThr_drain (p : Party) (l : Nat) (f : Thread → Thread) : (s.modThr p l f).drain = s.drain := by cases p <;> rfl
@[simp] theorem State.modThr_outbox (p : Party) (l : Nat) (f : Thread → Thread) : (s.modThr p l f).outbox = s.outbox := by cases p <;> rfl
@[simp] theorem State.modThr_agenda (p : Party) (l : Nat) (f : Thread → Thread) : (s.modThr p l f).agenda = s.agenda := by cases p <;> rfl
@[simp] theorem State.modThr_schedule (p : Party) (l : Nat) (f : Thread → Thread) : (s.modThr p l f).schedule = s.schedule := by cases p <;> rfl
@[simp] theorem State.modThr_cur (p : Party) (l : Nat) (f : Thread → Thread) : (s.modThr p l f).cur = s.cur := by cases p <;> rfl
@[simp] theorem State.modThr_curLane (p : Party) (l : Nat) (f : Thread → Thread) : (s.modThr p l f).curLane = s.curLane := by cases p <;> rfl
@[simp] theorem State.modThr_cycles (p : Party) (l : Nat) (f : Thread → Thread) : (s.modThr p l f).cycles = s.cycles := by cases p <;> rfl
@[simp] theorem State.modThr_turn (p : Party) (l : Nat) (f : Thread → Thread) : (s.modThr p l f).turn = s.turn := by cases p <;> rfl
@[simp] theorem State.modThr_nsPerStep (p : Party) (l : Nat) (f : Thread → Thread) : (s.modThr p l f).nsPerStep = s.nsPerStep := by cases p <;> rfl
@[simp] theorem State.modThr_cycPerStep (p : Party) (l : Nat) (f : Thread → Thread) : (s.modThr p l f).cycPerStep = s.cycPerStep := by cases p <;> rfl
@[simp] theorem State.modThr_deferLoads (p : Party) (l : Nat) (f : Thread → Thread) : (s.modThr p l f).deferLoads = s.deferLoads := by cases p <;> rfl
@[simp] theorem State.modThr_deferStores (p : Party) (l : Nat) (f : Thread → Thread) : (s.modThr p l f).deferStores = s.deferStores := by cases p <;> rfl
@[simp] theorem State.modThr_deferAtomics (p : Party) (l : Nat) (f : Thread → Thread) : (s.modThr p l f).deferAtomics = s.deferAtomics := by cases p <;> rfl
@[simp] theorem State.modThr_deferReleases (p : Party) (l : Nat) (f : Thread → Thread) : (s.modThr p l f).deferReleases = s.deferReleases := by cases p <;> rfl
@[simp] theorem State.modThr_guardLate (p : Party) (l : Nat) (f : Thread → Thread) : (s.modThr p l f).guardLate = s.guardLate := by cases p <;> rfl
@[simp] theorem State.modThr_tlbOlder (p : Party) (l : Nat) (f : Thread → Thread) : (s.modThr p l f).tlbOlder = s.tlbOlder := by cases p <;> rfl
@[simp] theorem State.modThr_evict (p : Party) (l : Nat) (f : Thread → Thread) : (s.modThr p l f).evict = s.evict := by cases p <;> rfl
@[simp] theorem State.modThr_fresh (p : Party) (l : Nat) (f : Thread → Thread) : (s.modThr p l f).fresh = s.fresh := by cases p <;> rfl
@[simp] theorem State.modThr_absent (p : Party) (l : Nat) (f : Thread → Thread) : (s.modThr p l f).absent = s.absent := by cases p <;> rfl

end Sys2Proof.Machine
end

