-- ==== Sys2Proof/Laws/Groups.lean ====
section
/-!
SUPPORT. Groups, threads, teams and latency cores inside the state: what a read gives after an update of the same and of another part.
-/

namespace Sys2Proof.Machine

/-! ### Lists with one entry changed -/

theorem setAt_length {α : Type} (l : List α) (k : Nat) (f : α → α) : (setAt l k f).length = l.length := by simp [setAt]

theorem getD_setAt {α : Type} (l : List α) (k j : Nat) (f : α → α) (d : α) (h : k < l.length) :
    (setAt l k f).getD j d = if j = k then f (l.getD j d) else l.getD j d := by
  simp only [setAt, List.getD_eq_getElem?_getD, List.getElem?_modify]
  by_cases hj : j = k
  · subst hj; simp [List.getElem?_eq_getElem h]
  · simp [Ne.symm hj, hj]

theorem getD_setAt_ne {α : Type} (l : List α) (k j : Nat) (f : α → α) (d : α) (h : j ≠ k) : (setAt l k f).getD j d = l.getD j d := by
  simp only [setAt, List.getD_eq_getElem?_getD, List.getElem?_modify]; simp [Ne.symm h]

theorem setAt_ge {α : Type} (l : List α) (k : Nat) (f : α → α) (h : l.length ≤ k) : setAt l k f = l := by
  simp only [setAt]; exact List.modify_eq_self h

/-! ### Latency cores -/

theorem State.lc_modLc (s : State) (n k : Nat) (f : LCore → LCore) (h : n < s.lcs.length) :
    (s.modLc n f).lc k = if k = n then f (s.lc k) else s.lc k := getD_setAt _ _ _ _ _ h
theorem State.lc_modLc_ne (s : State) (n k : Nat) (f : LCore → LCore) (h : k ≠ n) : (s.modLc n f).lc k = s.lc k :=
  getD_setAt_ne _ _ _ _ _ h
@[simp] theorem State.lcs_length_modLc (s : State) (n : Nat) (f : LCore → LCore) : (s.modLc n f).lcs.length = s.lcs.length :=
  setAt_length _ _ _
@[simp] theorem State.lc_modTeam (s : State) (t n : Nat) (f : Team → Team) : (s.modTeam t f).lc n = s.lc n := rfl
@[simp] theorem State.team?_modLc (s : State) (t n : Nat) (f : LCore → LCore) : (s.modLc n f).team? t = s.team? t := rfl
@[simp] theorem State.team_modLc (s : State) (t n : Nat) (f : LCore → LCore) : (s.modLc n f).team t = s.team t := rfl

/-! ### Teams -/

theorem find_map_key {α β : Type} [BEq β] [LawfulBEq β] (l : List α) (key : α → β) (g : α → α) (k : β) (hg : ∀ x, key (g x) = key x) :
    (l.map g).find? (fun x => key x == k) = (l.find? (fun x => key x == k)).map g := by
  induction l with
  | nil => rfl
  | cons x xs ih =>
    simp only [List.map_cons, List.find?_cons, hg, ih]
    cases key x == k <;> rfl

theorem State.team?_modTeam (s : State) (t k : Nat) (f : Team → Team) (hf : ∀ x, (f x).tid = x.tid) :
    (s.modTeam t f).team? k = (s.team? k).map fun x => if k = t then f x else x := by
  have hg : ∀ x : Team, (if x.tid == t then f x else x).tid = x.tid := by intro x; split <;> simp [hf]
  simp only [State.team?, State.modTeam]
  rw [find_map_key s.teams (·.tid) _ k hg]
  cases h : s.teams.find? (fun x => x.tid == k) with
  | none => rfl
  | some x =>
    have hx : x.tid = k := by simpa using List.find?_some h
    simp [hx]

theorem State.team_modTeam (s : State) (t k : Nat) (f : Team → Team) (hf : ∀ x, (f x).tid = x.tid) (h : (s.team? k).isSome = true) :
    (s.modTeam t f).team k = if k = t then f (s.team k) else s.team k := by
  simp only [State.team, State.team?_modTeam s t k f hf]
  cases hk : s.team? k with
  | none => simp [hk] at h
  | some x => by_cases e : k = t <;> simp [e]

theorem State.team_modTeam_ne (s : State) (t k : Nat) (f : Team → Team) (hf : ∀ x, (f x).tid = x.tid) (h : k ≠ t) :
    (s.modTeam t f).team k = s.team k := by
  simp only [State.team, State.team?_modTeam s t k f hf, if_neg h]
  cases s.team? k <;> rfl

@[simp] theorem Team.modGrp_tid (t : Team) (j : Nat) (f : Group → Group) : (t.modGrp j f).tid = t.tid := rfl

/-- The group of the list of a team, or the latency core, exists. -/
def State.has (s : State) : Party → Bool
  | .lc n => decide (n < s.lcs.length)
  | .grp tid j => ((s.team tid).groups.getD j none).isSome && (s.team? tid).isSome

theorem State.has_of_running (s : State) (p : Party) (h : s.running p = true) : s.has p = true := by
  cases p with
  | lc n => simp only [State.running, State.has] at *; simp at h ⊢; omega
  | grp tid j =>
    simp only [State.running, State.has, State.team] at *
    cases ht : s.team? tid with
    | none => simp [ht] at h
    | some t => simp only [ht, Option.any_some, Bool.and_eq_true] at h; simp only [Option.getD_some, h.1.2, Option.isSome_some, Bool.and_self]

theorem Team.grp_modGrp (t : Team) (j k : Nat) (f : Group → Group) (h : (t.groups.getD j none).isSome = true) :
    (t.modGrp j f).grp k = if k = j then f (t.grp k) else t.grp k := by
  have hj : j < t.groups.length := by
    rcases Nat.lt_or_ge j t.groups.length with hl | hl
    · exact hl
    · rw [List.getD_eq_getElem?_getD, List.getElem?_eq_none hl] at h; simp at h
  simp only [Team.grp, Team.modGrp, getD_setAt _ _ _ _ _ hj]
  by_cases e : k = j
  · subst e
    simp only [if_true]
    cases hg : t.groups.getD k none with
    | none => rw [hg] at h; simp at h
    | some g => rfl
  · simp [e]

theorem Team.grp_modGrp_ne (t : Team) (j k : Nat) (f : Group → Group) (h : k ≠ j) : (t.modGrp j f).grp k = t.grp k := by
  simp only [Team.grp, Team.modGrp, getD_setAt_ne _ _ _ _ _ h]

/-! ### Groups of the state -/

theorem State.grp_modGrp (s : State) (p : Party) (f : Group → Group) (h : s.has p = true) : (s.modGrp p f).grp p = f (s.grp p) := by
  cases p with
  | lc n => simp only [State.has, decide_eq_true_eq] at h; simp [State.modGrp, State.grp, State.lc_modLc _ _ _ _ h]
  | grp tid j =>
    simp only [State.has, Bool.and_eq_true] at h
    simp only [State.modGrp, State.grp]
    rw [State.team_modTeam _ _ _ _ (fun x => Team.modGrp_tid x j f) h.2, if_pos rfl, Team.grp_modGrp _ _ _ _ h.1, if_pos rfl]

theorem State.grp_modGrp_ne (s : State) (p q : Party) (f : Group → Group) (h : q ≠ p) : (s.modGrp p f).grp q = s.grp q := by
  cases p with
  | lc n =>
    cases q with
    | lc k => have : k ≠ n := fun e => h (by rw [e]); simp [State.modGrp, State.grp, State.lc_modLc_ne _ _ _ _ this]
    | grp t j => simp [State.modGrp, State.grp]
  | grp tid j =>
    cases q with
    | lc k => simp [State.modGrp, State.grp]
    | grp t k =>
      simp only [State.modGrp, State.grp]
      by_cases e : t = tid
      · subst e
        have hk : k ≠ j := fun e => h (by rw [e])
        cases ht : s.team? t with
        | none => simp [State.team, State.team?_modTeam _ _ _ _ (fun x => Team.modGrp_tid x j f), ht]
        | some x =>
          rw [State.team_modTeam _ _ _ _ (fun x => Team.modGrp_tid x j f) (by simp [ht]), if_pos rfl, Team.grp_modGrp_ne _ _ _ _ hk]
      · rw [State.team_modTeam_ne _ _ _ _ (fun x => Team.modGrp_tid x j f) e]

/-- A group that is not there is not changed. -/
theorem State.grp_modGrp_absent (s : State) (p : Party) (f : Group → Group) (h : s.has p = false) (q : Party) : (s.modGrp p f).grp q = s.grp q := by
  by_cases e : q = p
  · subst e
    cases q with
    | lc n =>
      simp only [State.has, decide_eq_false_iff_not, Nat.not_lt] at h
      simp [State.modGrp, State.grp, State.lc, State.modLc, setAt_ge _ _ _ h]
    | grp tid j =>
      simp only [State.modGrp, State.grp]
      cases ht : s.team? tid with
      | none => simp [State.team, State.team?_modTeam _ _ _ _ (fun x => Team.modGrp_tid x j f), ht]
      | some x =>
        rw [State.team_modTeam _ _ _ _ (fun x => Team.modGrp_tid x j f) (by simp [ht]), if_pos rfl]
        simp only [State.has, ht, Option.isSome_some, Bool.and_true] at h
        have hn : (s.team tid).groups.getD j none = none := by simpa using h
        by_cases hj : j < (s.team tid).groups.length
        · simp only [Team.grp, Team.modGrp, getD_setAt _ _ _ _ _ hj, hn, if_true, Option.map_none]
        · simp [Team.grp, Team.modGrp, setAt_ge _ _ _ (Nat.le_of_not_lt hj)]
  · exact State.grp_modGrp_ne s p q f e

theorem State.has_modGrp (s : State) (p q : Party) (f : Group → Group) : (s.modGrp p f).has q = s.has q := by
  cases p with
  | lc n => cases q <;> simp only [State.modGrp, State.has, State.lcs_length_modLc, State.team_modLc, State.team?_modLc]
  | grp tid j =>
    cases q with
    | lc k => rfl
    | grp t k =>
      simp only [State.modGrp, State.has]
      have h2 : ((s.modTeam tid (·.modGrp j f)).team? t).isSome = (s.team? t).isSome := by
        rw [State.team?_modTeam _ _ _ _ (fun x => Team.modGrp_tid x j f)]; simp
      rw [h2]
      cases ht : s.team? t with
      | none => simp
      | some x =>
        by_cases e : t = tid
        · subst e
          rw [State.team_modTeam _ _ _ _ (fun x => Team.modGrp_tid x j f) (by simp [ht]), if_pos rfl]
          by_cases hj : j < (s.team t).groups.length
          · simp only [Team.modGrp, getD_setAt _ _ _ _ _ hj]
            split <;> simp
          · simp [Team.modGrp, setAt_ge _ _ _ (Nat.le_of_not_lt hj)]
        · rw [State.team_modTeam_ne _ _ _ _ (fun x => Team.modGrp_tid x j f) e]

/-! ### Threads -/

theorem Group.thr_modThr (g : Group) (l k : Nat) (f : Thread → Thread) (h : l < g.threads.length) :
    (g.modThr l f).thr k = if k = l then f (g.thr k) else g.thr k := getD_setAt _ _ _ _ _ h
theorem Group.thr_modThr_ne (g : Group) (l k : Nat) (f : Thread → Thread) (h : k ≠ l) : (g.modThr l f).thr k = g.thr k :=
  getD_setAt_ne _ _ _ _ _ h
@[simp] theorem Group.modThr_live (g : Group) (l : Nat) (f : Thread → Thread) : (g.modThr l f).live = g.live := rfl
@[simp] theorem Group.modThr_regs (g : Group) (l : Nat) (f : Thread → Thread) : (g.modThr l f).regs = g.regs := rfl
@[simp] theorem Group.modThr_preds (g : Group) (l : Nat) (f : Thread → Thread) : (g.modThr l f).preds = g.preds := rfl
@[simp] theorem Group.modThr_gst (g : Group) (l : Nat) (f : Thread → Thread) : (g.modThr l f).gst = g.gst := rfl
@[simp] theorem Group.modThr_length (g : Group) (l : Nat) (f : Thread → Thread) : (g.modThr l f).threads.length = g.threads.length :=
  setAt_length _ _ _

end Sys2Proof.Machine
end

