-- ==== Sys2Proof/Laws/Quiet.lean ====
section
/-!
SUPPORT. What an access to memory can change at most: `Quiet s t` says once that no register, predicate, flag register or special
register, no program counter and no time differs between `s` and `t`; waiting threads may have been released, `s.rh`, `s.ackout` and
the end of the windows may have risen, reservations may be gone, and the memory system may differ.
-/

namespace Sys2Proof.Machine

/-- A thread that an access may have released from a wait, into a run or to wait for a run's entry (R14). -/
def Thread.quiet (t u : Thread) : Prop := u = { t with st := u.st, got := u.got } ∧ (u.st = t.st ∨ u.st = .ready ∨ u.st = .parked)
theorem Thread.quiet_refl (t : Thread) : t.quiet t := ⟨rfl, .inl rfl⟩
theorem Thread.quiet_trans {a b c : Thread} (h : a.quiet b) (k : b.quiet c) : a.quiet c := by
  refine ⟨by rw [k.1, h.1], ?_⟩
  rcases k.2 with e | e
  · rw [e]; exact h.2
  · exact .inr e

/-- A group whose registers an access leaves alone. -/
structure Group.quiet (g h : Group) : Prop where
  live : h.live = g.live
  regs : h.regs = g.regs
  preds : h.preds = g.preds
  gst : h.gst = g.gst
  shapeix : h.shapeix = g.shapeix
  pred : h.mpPred = g.mpPred
  miss : h.mpMiss = g.mpMiss
  points : h.points = g.points
  wlost : h.wlost = g.wlost
  skip : h.passOver = g.passOver
  last : h.lastIssue = g.lastIssue
  turn : h.turnLane = g.turnLane
  parked : h.parkedAt = g.parkedAt
  size : h.threads.length = g.threads.length
  loads : h.loads = g.loads
  thr : ∀ l, (g.thr l).quiet (h.thr l)

theorem Group.quiet_refl (g : Group) : g.quiet g := ⟨rfl, rfl, rfl, rfl, rfl, rfl, rfl, rfl, rfl, rfl, rfl, rfl, rfl, rfl, rfl, fun _ => Thread.quiet_refl _⟩
theorem Group.quiet_trans {a b c : Group} (h : a.quiet b) (k : b.quiet c) : a.quiet c :=
  ⟨k.1.trans h.1, k.2.trans h.2, k.3.trans h.3, k.4.trans h.4, k.5.trans h.5, k.6.trans h.6, k.7.trans h.7, k.8.trans h.8,
    k.9.trans h.9, k.10.trans h.10, k.11.trans h.11, k.12.trans h.12, k.13.trans h.13, k.14.trans h.14,
    k.15.trans h.15, fun l => Thread.quiet_trans (h.16 l) (k.16 l)⟩

/-- A latency core whose special registers an access leaves alone. -/
def LCore.quiet (c d : LCore) : Prop := d = { c with grp := d.grp, resv := d.resv }
theorem LCore.quiet_refl (c : LCore) : c.quiet c := rfl
theorem LCore.quiet_trans {a b c : LCore} (h : a.quiet b) (k : b.quiet c) : a.quiet c := by
  unfold LCore.quiet at *; rw [k, h]

/-- The fields that no access changes. -/
structure State.sameRegs (s t : State) : Prop where
  pt : t.pt = s.pt
  packint : t.packint = s.packint
  capbase : t.capbase = s.capbase
  admode : t.admode = s.admode
  tdlim : t.tdlim = s.tdlim
  drainint : t.drainint = s.drainint
  dev : t.dev = s.dev
  link : t.link = s.link
  cur : t.cur = s.cur
  lane : t.curLane = s.curLane
  lcs : t.lcs.length = s.lcs.length
  finj : t.finj = s.finj

theorem State.sameRegs_refl (s : State) : s.sameRegs s := ⟨rfl, rfl, rfl, rfl, rfl, rfl, rfl, rfl, rfl, rfl, rfl, rfl⟩
theorem State.sameRegs_trans {a b c : State} (h : a.sameRegs b) (k : b.sameRegs c) : a.sameRegs c :=
  ⟨k.1.trans h.1, k.2.trans h.2, k.3.trans h.3, k.4.trans h.4, k.5.trans h.5, k.6.trans h.6, k.7.trans h.7, k.8.trans h.8,
    k.9.trans h.9, k.10.trans h.10, k.11.trans h.11, k.12.trans h.12⟩

structure Quiet (s t : State) : Prop where
  has : ∀ p, t.has p = s.has p
  team : ∀ k, (t.team? k).isSome = (s.team? k).isSome
  grp : ∀ p, (s.grp p).quiet (t.grp p)
  lc : ∀ n, (s.lc n).quiet (t.lc n)
  same : s.sameRegs t
  stores : ∀ k, (t.team k).stores = (s.team k).stores

theorem Quiet.refl (s : State) : Quiet s s :=
  ⟨fun _ => rfl, fun _ => rfl, fun _ => Group.quiet_refl _, fun _ => rfl, State.sameRegs_refl s, fun _ => rfl⟩
theorem Quiet.trans {a b c : State} (h : Quiet a b) (k : Quiet b c) : Quiet a c :=
  ⟨fun p => (k.has p).trans (h.has p), fun n => (k.team n).trans (h.team n), fun p => Group.quiet_trans (h.grp p) (k.grp p),
    fun n => LCore.quiet_trans (h.lc n) (k.lc n), State.sameRegs_trans h.same k.same, fun n => (k.stores n).trans (h.stores n)⟩

/-- A state that differs in the memory system alone. -/
theorem Quiet.of_eq {s t : State} (hl : t.lcs = s.lcs) (ht : t.teams = s.teams) (h : s.sameRegs t) : Quiet s t := by
  have hg : ∀ p, t.grp p = s.grp p := by intro p; cases p <;> simp [State.grp, State.lc, State.team, State.team?, hl, ht]
  refine ⟨?_, ?_, fun p => hg p ▸ Group.quiet_refl _, ?_, h, fun k => by simp [State.team, State.team?, ht]⟩
  · intro p; cases p <;> simp [State.has, State.team, State.team?, hl, ht]
  · intro k; simp [State.team?, ht]
  · intro n; simp [State.lc, hl, LCore.quiet]

theorem Quiet.of_rfl {s t : State} (hl : t.lcs = s.lcs) (ht : t.teams = s.teams) (h1 : t.pt = s.pt) (h2 : t.packint = s.packint)
    (h3 : t.capbase = s.capbase) (h4 : t.admode = s.admode) (h5 : t.tdlim = s.tdlim) (h6 : t.drainint = s.drainint)
    (h7 : t.dev = s.dev) (h8 : t.link = s.link) (h9 : t.cur = s.cur) (h10 : t.curLane = s.curLane) (h11 : t.finj = s.finj) :
    Quiet s t := Quiet.of_eq hl ht ⟨h1, h2, h3, h4, h5, h6, h7, h8, h9, h10, by rw [hl], h11⟩

theorem Quiet.gone {s t : State} (h : Quiet s t) (p : Party) : t.gone p = s.gone p := by
  cases p with
  | lc n => rfl
  | grp tid j =>
    have := h.team tid
    simp only [State.gone]
    cases h1 : t.team? tid <;> cases h2 : s.team? tid <;> simp_all

/-! ### Updates -/

theorem team_modGrp_eq (s : State) (tid j k : Nat) (f : Group → Group) :
    (s.modTeam tid (·.modGrp j f)).team k = { s.team k with groups := ((s.modTeam tid (·.modGrp j f)).team k).groups } := by
  simp only [State.team, State.team?_modTeam _ _ _ _ (fun x => Team.modGrp_tid x j f)]
  cases s.team? k with
  | none => rfl
  | some x => simp only [Option.map_some, Option.getD_some]; split <;> rfl
theorem State.stores_modGrp (s : State) (p : Party) (f : Group → Group) (k : Nat) : ((s.modGrp p f).team k).stores = (s.team k).stores := by
  cases p with
  | lc n => rfl
  | grp t j => simp only [State.modGrp]; rw [team_modGrp_eq]; rfl

theorem Quiet.modGrp (s : State) (p : Party) (f : Group → Group) (hf : ∀ g : Group, g.quiet (f g)) : Quiet s (s.modGrp p f) := by
  refine ⟨fun q => State.has_modGrp s p q f, ?_, ?_, ?_, ?_, State.stores_modGrp s p f⟩
  · intro k; cases p with
    | lc n => rfl
    | grp t j => simp [State.modGrp, State.team?_modTeam _ _ _ _ (fun x => Team.modGrp_tid x j f)]
  · intro q
    by_cases e : q = p
    · subst e
      cases h : s.has q with
      | true => rw [State.grp_modGrp s q f h]; exact hf _
      | false => rw [State.grp_modGrp_absent s q f h]; exact Group.quiet_refl _
    · rw [State.grp_modGrp_ne s p q f e]; exact Group.quiet_refl _
  · intro k; cases p with
    | lc n =>
      by_cases hn : n < s.lcs.length
      · simp only [State.modGrp, State.lc_modLc _ _ _ _ hn]; split <;> rfl
      · simp [State.modGrp, State.modLc, State.lc, setAt_ge _ _ _ (Nat.le_of_not_lt hn), LCore.quiet]
    | grp t j => rfl
  · cases p <;> exact ⟨rfl, rfl, rfl, rfl, rfl, rfl, rfl, rfl, rfl, rfl, by first | rfl | exact setAt_length _ _ _, rfl⟩

theorem Group.quiet_modThr (g : Group) (l : Nat) (f : Thread → Thread) (hf : ∀ t : Thread, t.quiet (f t)) : g.quiet (g.modThr l f) := by
  refine ⟨rfl, rfl, rfl, rfl, rfl, rfl, rfl, rfl, rfl, rfl, rfl, rfl, rfl, setAt_length _ _ _, rfl, ?_⟩
  intro k
  by_cases hl : l < g.threads.length
  · rw [Group.thr_modThr _ _ _ _ hl]; split
    · exact hf _
    · exact Thread.quiet_refl _
  · simp only [Group.modThr, Group.thr, setAt_ge _ _ _ (Nat.le_of_not_lt hl)]; exact Thread.quiet_refl _

theorem Quiet.modThr (s : State) (p : Party) (l : Nat) (f : Thread → Thread) (hf : ∀ t : Thread, t.quiet (f t)) :
    Quiet s (s.modThr p l f) := Quiet.modGrp s p _ fun g => Group.quiet_modThr g l f hf

/-- Latency cores changed one by one, each quietly. -/
theorem Quiet.lcs (s : State) (f : Nat → LCore → LCore) (hf : ∀ n c, LCore.quiet c (f n c) ∧ (f n c).grp = c.grp) (t : State)
    (hl : t.lcs = s.lcs.mapIdx f) (ht : t.teams = s.teams) (h : t.lcs.length = s.lcs.length → s.sameRegs t) : Quiet s t := by
  have hlen : t.lcs.length = s.lcs.length := by simp [hl]
  have hlc : ∀ n, (s.lc n).quiet (t.lc n) ∧ (t.lc n).grp = (s.lc n).grp := by
    intro n
    simp only [State.lc, hl, List.getD_eq_getElem?_getD, List.getElem?_mapIdx]
    cases s.lcs[n]? with
    | none => exact ⟨rfl, rfl⟩
    | some c => exact hf n c
  refine ⟨?_, ?_, ?_, fun n => (hlc n).1, h hlen, fun k => by simp [State.team, State.team?, ht]⟩
  · intro p; cases p <;> simp [State.has, State.team, State.team?, hlen, ht]
  · intro k; simp [State.team?, ht]
  · intro p; cases p with
    | lc n => simp only [State.grp]; rw [(hlc n).2]; exact Group.quiet_refl _
    | grp t j => simp only [State.grp, State.team, State.team?, ht]; exact Group.quiet_refl _

/-- What holds for each part of a fold holds for the whole. -/
theorem Quiet.foldl {α : Type} (l : List α) (f : State → α → State) (hf : ∀ s x, Quiet s (f s x)) (s : State) : Quiet s (l.foldl f s) := by
  induction l generalizing s with
  | nil => exact Quiet.refl s
  | cons x xs ih => exact (hf s x).trans (ih _)

/-! ### The memory system (Mem.lean) -/

theorem State.quiet_touch (s : State) (a n : Nat) : Quiet s (s.touch a n) := by
  unfold State.touch; split
  · exact Quiet.of_rfl rfl rfl rfl rfl rfl rfl rfl rfl rfl rfl rfl rfl rfl
  · exact Quiet.refl s
theorem State.quiet_modLine (s : State) (n : Nat) (f : LineInfo → LineInfo) : Quiet s (s.modLine n f) :=
  Quiet.of_rfl rfl rfl rfl rfl rfl rfl rfl rfl rfl rfl rfl rfl rfl
theorem State.quiet_cancelOn (s : State) (n : Nat) (b : Option Nat) : Quiet s (s.cancelOn n b) := by
  refine Quiet.lcs s _ ?_ _ rfl rfl fun h => ⟨rfl, rfl, rfl, rfl, rfl, rfl, rfl, rfl, rfl, rfl, h, rfl⟩
  intro k c; split <;> exact ⟨rfl, rfl⟩
theorem State.quiet_recall (s : State) (n : Nat) (b : Option Nat) : Quiet s (s.recall n b) :=
  (State.quiet_cancelOn s n b).trans (Quiet.of_rfl rfl rfl rfl rfl rfl rfl rfl rfl rfl rfl rfl rfl rfl)
theorem State.quiet_markRecall (s : State) (n : Nat) : Quiet s (s.markRecall n) := by
  refine Quiet.lcs s (fun _ c => { c with resv := c.resv.map fun r => if r.line == n then { r with recalled := true } else r })
    (fun _ _ => ⟨rfl, rfl⟩) _ ?_ rfl fun h => ⟨rfl, rfl, rfl, rfl, rfl, rfl, rfl, rfl, rfl, rfl, h, rfl⟩
  exact List.ext_getElem (by simp [State.markRecall]) fun k _ _ => by simp [State.markRecall]
theorem State.quiet_enterHome (s : State) (n : Nat) (rh : Retain) : Quiet s (s.enterHome n rh) := by
  unfold State.enterHome
  extract_lets i others
  split
  · rename_i v _
    split
    · exact Quiet.of_rfl rfl rfl rfl rfl rfl rfl rfl rfl rfl rfl rfl rfl rfl
    · split
      · refine Quiet.trans ?_ (State.quiet_markRecall _ v.line)
        exact Quiet.of_rfl rfl rfl rfl rfl rfl rfl rfl rfl rfl rfl rfl rfl rfl
      · refine Quiet.trans ?_ (State.quiet_recall _ v.line none)
        exact Quiet.of_rfl rfl rfl rfl rfl rfl rfl rfl rfl rfl rfl rfl rfl rfl
  · exact Quiet.of_rfl rfl rfl rfl rfl rfl rfl rfl rfl rfl rfl rfl rfl rfl
theorem State.quiet_raiseLx (s : State) (n e : Nat) : Quiet s (s.raiseLx n e) :=
  (State.quiet_enterHome _ _ _).trans (State.quiet_modLine _ _ _)
theorem State.quiet_grant (s : State) (n lc : Nat) (w : Bool) : Quiet s (s.grant n lc w).1 := by
  unfold State.grant; split
  · exact Quiet.refl s
  · exact Quiet.of_rfl rfl rfl rfl rfl rfl rfl rfl rfl rfl rfl rfl rfl rfl
theorem State.quiet_through (s : State) (hs : List Holder) (pa lc : Nat) (rh : Retain) (w : Bool) : Quiet s (s.through hs pa lc rh w).1 := by
  have he := State.quiet_enterHome s (lineOf pa) rh
  have hg := State.quiet_grant (s.enterHome (lineOf pa) rh) (lineOf pa) lc w
  unfold State.through
  split
  · exact (State.quiet_enterHome s (lineOf pa) rh).trans (Quiet.of_rfl rfl rfl rfl rfl rfl rfl rfl rfl rfl rfl rfl rfl rfl)
  · split
    · exact Quiet.of_rfl rfl rfl rfl rfl rfl rfl rfl rfl rfl rfl rfl rfl rfl
    · split <;> rename_i h <;> rw [h] at hg
      · exact he.trans hg
      · exact he.trans (hg.trans (Quiet.of_rfl rfl rfl rfl rfl rfl rfl rfl rfl rfl rfl rfl rfl rfl))
theorem State.quiet_storeLine (s : State) (n : Nat) (rh : Retain) : Quiet s (s.storeLine n rh) := by
  unfold State.storeLine
  exact (State.quiet_enterHome s n rh).trans (State.quiet_modLine _ n _)
theorem State.quiet_holdLine (s : State) (n : Nat) : Quiet s (s.holdLine n) := Quiet.of_rfl rfl rfl rfl rfl rfl rfl rfl rfl rfl rfl rfl rfl rfl
theorem State.quiet_renewLine (s : State) (n : Nat) : Quiet s (s.renewLine n) := by
  unfold State.renewLine; split
  · exact State.quiet_holdLine _ _
  · exact Quiet.refl s
theorem State.quiet_setDir (s : State) (n k : Nat) (x : Moesi) (rh : Retain) : Quiet s (s.setDir n k x rh) :=
  Quiet.of_rfl rfl rfl rfl rfl rfl rfl rfl rfl rfl rfl rfl rfl rfl
theorem State.quiet_dropDir (s : State) (n k : Nat) : Quiet s (s.dropDir n k) := Quiet.of_rfl rfl rfl rfl rfl rfl rfl rfl rfl rfl rfl rfl rfl rfl
theorem State.quiet_downgrade (s : State) (n : Nat) (b : Option Nat) : Quiet s (s.downgrade n b) := by
  refine Quiet.lcs s _ ?_ _ rfl rfl fun h => ⟨rfl, rfl, rfl, rfl, rfl, rfl, rfl, rfl, rfl, rfl, h, rfl⟩
  intro k c; split <;> exact ⟨rfl, rfl⟩
theorem State.quiet_press (s : State) (a n : Nat) (w : Option Party) : Quiet s (s.press a n w) := by
  refine Quiet.lcs s _ ?_ _ rfl rfl fun h => ⟨rfl, rfl, rfl, rfl, rfl, rfl, rfl, rfl, rfl, rfl, h, rfl⟩
  intro k c; split <;> exact ⟨rfl, rfl⟩
theorem State.quiet_dropLine (s : State) (p : Party) (pa : Nat) : Quiet s (s.dropLine p pa) := by
  unfold State.dropLine; split
  · exact Quiet.refl s
  · exact Quiet.of_rfl rfl rfl rfl rfl rfl rfl rfl rfl rfl rfl rfl rfl rfl
theorem Group.quiet_rh (g : Group) (w : Nat) : g.quiet { g with rh := w } :=
  ⟨rfl, rfl, rfl, rfl, rfl, rfl, rfl, rfl, rfl, rfl, rfl, rfl, rfl, rfl, rfl, fun _ => Thread.quiet_refl _⟩
theorem Group.quiet_ackout (g : Group) (w : Nat) : g.quiet { g with ackout := w } :=
  ⟨rfl, rfl, rfl, rfl, rfl, rfl, rfl, rfl, rfl, rfl, rfl, rfl, rfl, rfl, rfl, fun _ => Thread.quiet_refl _⟩
theorem Group.quiet_wuntil (g : Group) (w : Nat) : g.quiet { g with wuntil := w } :=
  ⟨rfl, rfl, rfl, rfl, rfl, rfl, rfl, rfl, rfl, rfl, rfl, rfl, rfl, rfl, rfl, fun _ => Thread.quiet_refl _⟩
theorem State.quiet_learn (s : State) (p : Party) (n : Nat) : Quiet s (s.learn p n) := by
  unfold State.learn; extract_lets; split
  · exact Quiet.modGrp _ _ _ fun g => Group.quiet_rh g _
  · exact Quiet.refl s
/-- A thread released into its group waits for a run's entry at most (R14). -/
theorem Group.quiet_limitRuns (g : Group) (ls : List Nat) : g.quiet (g.limitRuns ls) := by
  unfold Group.limitRuns
  extract_lets ready others
  suffices h : ∀ (ls : List Nat) (acc : Group × List W64), g.quiet acc.1 → g.quiet (ls.foldl (fun (acc : Group × List W64) l =>
      if !ready l then acc
      else
        let pc := (g.thr l).pc
        if acc.2.contains pc then acc
        else if acc.2.length < 16 then (acc.1, pc :: acc.2)
        else (acc.1.modThr l fun t => { t with st := .parked }, acc.2)) acc).1 from h ls _ (Group.quiet_refl g)
  intro ls
  induction ls with
  | nil => exact fun _ h => h
  | cons l ls ih =>
    intro acc h
    refine ih _ ?_
    dsimp only
    split
    · exact h
    · split
      · exact h
      · split
        · exact h
        · exact Group.quiet_trans h (Group.quiet_modThr _ _ _ fun _ => ⟨rfl, .inr (.inr rfl)⟩)
/-- A thread that is woken with the value it waited for. -/
theorem State.quiet_wake (s : State) (p : Party) (l : Nat) (v : Option (Nat × Bool)) : Quiet s (s.wake p l fun t => { t with got := v }) :=
  Quiet.modGrp _ _ _ fun g => Group.quiet_trans (Group.quiet_modThr g l _ fun _ => ⟨rfl, .inr (.inl rfl)⟩) (Group.quiet_limitRuns _ _)
theorem State.quiet_release1 (s : State) (w : Waiter) : Quiet s (s.release1 w) := by
  have h0 : Quiet s { s with waiters := s.waiters.filter fun x => !(x.party == w.party && x.lane == w.lane) } :=
    Quiet.of_rfl rfl rfl rfl rfl rfl rfl rfl rfl rfl rfl rfl rfl rfl
  unfold State.release1
  split
  · split
    · exact h0.trans (Quiet.of_rfl rfl rfl rfl rfl rfl rfl rfl rfl rfl rfl rfl rfl rfl)
    · exact h0.trans ((State.quiet_learn _ _ _).trans (State.quiet_wake _ _ _ _))
  · split
    · exact h0.trans ((State.quiet_learn _ _ _).trans ((State.quiet_dropLine _ _ _).trans (State.quiet_wake _ _ _ _)))
    · exact h0.trans (Quiet.of_rfl rfl rfl rfl rfl rfl rfl rfl rfl rfl rfl rfl rfl rfl)
theorem State.quiet_reeval (s : State) (a n : Nat) : Quiet s (s.reeval a n) := Quiet.foldl _ _ State.quiet_release1 _
theorem State.quiet_sample (s : State) (pa r : Nat) (fam : Option W32) : Quiet s (s.sample pa r fam) := by
  unfold State.sample
  extract_lets
  split
  · exact Quiet.refl s
  · split
    · exact Quiet.of_rfl rfl rfl rfl rfl rfl rfl rfl rfl rfl rfl rfl rfl rfl
    · split
      · split <;> exact Quiet.of_rfl rfl rfl rfl rfl rfl rfl rfl rfl rfl rfl rfl rfl rfl
      · exact Quiet.of_rfl rfl rfl rfl rfl rfl rfl rfl rfl rfl rfl rfl rfl rfl
theorem State.quiet_record (s : State) (page : Nat) (on : Bool) : Quiet s (s.record page on) := by
  unfold State.record
  split <;> exact Quiet.of_rfl rfl rfl rfl rfl rfl rfl rfl rfl rfl rfl rfl rfl rfl
theorem State.quiet_setBytes (s : State) (a : Nat) (d : List Byte) : Quiet s (s.setBytes a d) := Quiet.of_rfl rfl rfl rfl rfl rfl rfl rfl rfl rfl rfl rfl rfl rfl
theorem State.quiet_handForward (s : State) (pa : Nat) (d : List Byte) : Quiet s (s.handForward pa d) := by
  unfold State.handForward
  extract_lets s1
  have h : Quiet s s1 := State.quiet_setBytes _ _ _
  repeat' split
  all_goals first | exact h | exact h.trans (Quiet.of_rfl rfl rfl rfl rfl rfl rfl rfl rfl rfl rfl rfl rfl rfl)
theorem State.quiet_homeStore (s : State) (pa : Nat) (d : List Byte) (w : Option Party) (rh : Retain) (rq : Option Nat) :
    Quiet s (s.homeStore pa d w rh rq).1 := by
  unfold State.homeStore
  extract_lets pa n s0 w0 own but s1 s2 src s3
  have h0 : Quiet s s0 := State.quiet_touch _ _ _
  have h1 : Quiet s0 s1 := Quiet.of_rfl rfl rfl rfl rfl rfl rfl rfl rfl rfl rfl rfl rfl rfl
  have h2 : Quiet s1 s2 := State.quiet_recall _ _ _
  have h3 : Quiet s2 s3 := by
    refine Quiet.trans ?_ (State.quiet_record _ (pageOf pa) true)
    exact (State.quiet_handForward s2 pa d).trans (Quiet.of_rfl rfl rfl rfl rfl rfl rfl rfl rfl rfl rfl rfl rfl rfl)
  refine Quiet.trans (h0.trans (h1.trans (h2.trans h3))) ?_
  clear_value s3
  refine Quiet.trans (State.quiet_storeLine _ (lineOf pa) rh) ?_
  refine Quiet.trans (State.quiet_renewLine _ (lineOf pa)) ?_
  refine Quiet.trans (State.quiet_reeval _ pa n) ?_
  exact State.quiet_sample _ _ _ _
theorem State.quiet_countStore (s : State) (pa : Nat) : Quiet s (s.countStore pa) :=
  Quiet.of_rfl rfl rfl rfl rfl rfl rfl rfl rfl rfl rfl rfl rfl rfl
theorem State.quiet_storeBy (s : State) (p : Party) (pa : Nat) (d : List Byte) (rh : Retain) : Quiet s (s.storeBy p pa d rh) := by
  unfold State.storeBy
  have h : Quiet s (if (pkgOf? p).isSome then s else s.countStore pa) := by
    split
    · exact Quiet.refl s
    · exact State.quiet_countStore s pa
  exact (h.trans (State.quiet_homeStore _ pa d (some p) rh none)).trans (Quiet.modGrp _ p _ fun g => Group.quiet_rh g _)
theorem State.quiet_openWindow (s : State) (w : Option Party) (pa : Nat) (d : List Byte) (a : Bool) : Quiet s (s.openWindow w pa d a) :=
  Quiet.of_rfl rfl rfl rfl rfl rfl rfl rfl rfl rfl rfl rfl rfl rfl
theorem State.quiet_openFor (s : State) (pa : Nat) (d : List Byte) : Quiet s (s.openFor pa d) := by
  unfold State.openFor; split
  · exact State.quiet_openWindow _ _ _ _ _
  · exact Quiet.refl s
theorem State.quiet_hwNow (s : State) (x : HwStore) : Quiet s (s.hwNow x) := by
  unfold State.hwNow
  extract_lets pa data s0 s1
  have h0 : Quiet s s0 := by
    show Quiet s (if _ then _ else _)
    split
    · exact (State.quiet_enterHome _ _ _).trans ((State.quiet_recall _ _ _).trans (State.quiet_holdLine _ _))
    · exact Quiet.refl s
  have h1 : Quiet s0 s1 :=
    (State.quiet_countStore _ _).trans ((State.quiet_homeStore _ _ _ _ _ _).trans (State.quiet_openFor _ _ _))
  exact h0.trans (h1.trans (Quiet.of_rfl rfl rfl rfl rfl rfl rfl rfl rfl rfl rfl rfl rfl rfl))
theorem State.quiet_hwDrain (s : State) (l : List HwStore) : Quiet s (s.hwDrain l) := by
  induction l generalizing s with
  | nil => exact Quiet.of_rfl rfl rfl rfl rfl rfl rfl rfl rfl rfl rfl rfl rfl rfl
  | cons x xs ih =>
    unfold State.hwDrain; split
    · exact (State.quiet_hwNow s x).trans (ih _)
    · exact (State.quiet_press s _ x.data.length none).trans (Quiet.of_rfl rfl rfl rfl rfl rfl rfl rfl rfl rfl rfl rfl rfl rfl)
theorem State.quiet_hwStore (s : State) (x : HwStore) : Quiet s (s.hwStore x) := State.quiet_hwDrain _ _
theorem State.quiet_storeHw (s : State) (pa : Nat) (d : List Byte) : Quiet s (s.storeHw pa d) := State.quiet_hwStore _ _

/-! ### Translation and accesses (Translate.lean) -/

theorem State.quiet_walkRead (s : State) (ra x d : Nat) : Quiet s (s.walkRead ra x d) :=
  (State.quiet_touch _ _ _).trans ((State.quiet_downgrade _ _ _).trans ((State.quiet_raiseLx _ _ _).trans (State.quiet_sample _ _ _ _)))
theorem quiet_walkFrom (s : State) (va : W64) (base : Nat) (e : Option (Nat × Nat)) (ls : List Nat) : Quiet s (walkFrom s va base e ls).1 := by
  induction ls generalizing s base with
  | nil => exact Quiet.refl s
  | cons level rest ih =>
    unfold walkFrom
    extract_lets ea s1 pte
    have h1 : Quiet s s1 := by
      cases e with
      | none => exact Quiet.refl s
      | some x => exact State.quiet_walkRead _ _ _ _
    repeat' split
    all_goals first | exact Quiet.refl s | exact h1 | exact h1.trans (ih _ _)
theorem State.quiet_orEntry (s : State) (ea b : Nat) (d : Option Nat) : Quiet s (s.orEntry ea b d) := State.quiet_hwStore _ _
theorem State.quiet_install (s : State) (hs : List Holder) (t : Tlb) : Quiet s (s.install hs t) :=
  Quiet.of_rfl rfl rfl rfl rfl rfl rfl rfl rfl rfl rfl rfl rfl rfl
theorem State.quiet_walkCached (s : State) (hs : List Holder) (sp : Space) (va : W64) : Quiet s (s.walkCached hs sp va).1 := by
  unfold State.walkCached
  extract_lets start e
  have hw := quiet_walkFrom s va start.1 (some (e, walkerDie hs)) start.2.2
  split <;> rename_i h <;> rw [h] at hw
  · exact hw
  · exact hw.trans (Quiet.of_rfl rfl rfl rfl rfl rfl rfl rfl rfl rfl rfl rfl rfl rfl)
theorem State.quiet_fill (s : State) (hs : List Holder) (sp : Space) (va : W64) (k : AccKind) : Quiet s (s.fill hs sp va k).1 := by
  unfold State.fill
  have hw := State.quiet_walkCached s hs sp va
  split <;> rename_i h <;> rw [h] at hw
  · exact hw
  · extract_lets
    split
    · exact hw.trans (State.quiet_install _ _ _)
    · split
      · exact hw.trans (State.quiet_press _ _ _ _)
      · exact hw.trans ((State.quiet_orEntry _ _ _ _).trans (State.quiet_install _ _ _))
theorem State.quiet_lookup (s : State) (hs : List Holder) (sp : Space) (va : W64) (k : AccKind) : Quiet s (s.lookup hs sp va k).1 := by
  unfold State.lookup
  split
  · split
    · exact State.quiet_fill _ _ _ _ _
    · exact State.quiet_install _ _ _
  · exact State.quiet_fill _ _ _ _ _
theorem State.quiet_translate (s : State) (hs : List Holder) (sp : Space) (va : W64) (k : AccKind) : Quiet s (s.translate hs sp va k).1 := by
  unfold State.translate
  have hl := State.quiet_lookup s hs sp va k
  split
  · split
    · extract_lets; split <;> exact Quiet.refl s
    · exact Quiet.refl s
  · split <;> rename_i h <;> rw [h] at hl
    · exact hl
    · extract_lets; repeat' split
      all_goals exact hl
theorem State.quiet_access (s : State) (p : Party) (l : Nat) (va : W64) (n : Nat) (k : AccKind) (a d : Bool) :
    Quiet s (s.access p l va n k a d).1 := by
  unfold State.access
  extract_lets fault sp lease
  have ht := State.quiet_translate s (s.tlbPath p) sp va k
  generalize s.translate (s.tlbPath p) sp va k = r at *
  obtain ⟨s1, r⟩ := r
  cases r
  all_goals dsimp only
  all_goals repeat' split
  all_goals first | exact Quiet.refl s | exact ht
theorem State.quiet_agenda (s : State) (a : List Instr) : Quiet s { s with agenda := a } :=
  Quiet.of_rfl rfl rfl rfl rfl rfl rfl rfl rfl rfl rfl rfl rfl rfl
theorem State.quiet_replaceOther (s : State) (p : Party) (v : Via) (pa : Nat) (b : Bool) : Quiet s (s.replaceOther p v pa b) := by
  unfold State.replaceOther; extract_lets; split
  · exact Quiet.refl s
  · exact Quiet.of_rfl rfl rfl rfl rfl rfl rfl rfl rfl rfl rfl rfl rfl rfl
theorem State.quiet_askReplica (s : State) (pa : Nat) : Quiet s (s.askReplica pa) := State.quiet_agenda _ _
theorem State.quiet_fillHome (s : State) (p : Party) (k pa : Nat) (rh : Retain) : Quiet s (s.fillHome p k pa rh) := by
  unfold State.fillHome
  extract_lets line
  split
  · split
    · exact Quiet.refl s
    · exact State.quiet_setDir _ _ _ _ _
  · rename_i s1 s2 _ _
    have h1 : Quiet s s1 := (State.quiet_downgrade _ _ _).trans (State.quiet_enterHome _ _ _)
    have h2 : Quiet s1 s2 := by
      show Quiet s1 (if _ then _ else _)
      split
      · exact Quiet.refl _
      · exact State.quiet_setDir _ _ _ _ _
    exact h1.trans (h2.trans (State.quiet_sample _ _ _ _))
theorem State.quiet_readHome (s : State) (p : Party) (k pa : Nat) (rh : Retain) : Quiet s (s.readHome p k pa rh) :=
  (State.quiet_fillHome _ _ _ _ _).trans (State.quiet_learn _ _ _)
theorem State.quiet_fillLeased (s : State) (p : Party) (hs : List Holder) (pa lc : Nat) (rh : Retain) (w : Bool) :
    Quiet s (s.fillLeased p hs pa lc rh w).1 := by
  unfold State.fillLeased
  have ht := State.quiet_through s hs pa lc rh w
  generalize s.through hs pa lc rh w = r at *
  obtain ⟨s1, stale, home⟩ := r
  refine ht.trans ?_
  dsimp only
  split
  · exact (State.quiet_downgrade _ _ _).trans (State.quiet_sample _ _ _ _)
  · exact Quiet.refl _
theorem State.quiet_readLeased (s : State) (p : Party) (hs : List Holder) (pa n lc : Nat) (rh : Retain) (w : Bool) :
    Quiet s (s.readLeased p hs pa n lc rh w).1 := by
  unfold State.readLeased
  have ht := State.quiet_fillLeased s p hs pa lc rh w
  generalize s.fillLeased p hs pa lc rh w = r at *
  obtain ⟨s1, stale⟩ := r
  refine ht.trans ?_
  dsimp only
  split
  · exact Quiet.refl _
  · exact State.quiet_learn _ _ _
theorem State.quiet_read1 (s : State) (p : Party) (x : Xl) (n : Nat) (v : Via) (rh0 : Retain) : Quiet s (s.read1 p x n v rh0).1 := by
  unfold State.read1
  extract_lets pa rh s0
  have h0 : Quiet s s0 := State.quiet_touch _ _ _
  split
  · split
    · split
      · exact h0
      · extract_lets s1
        have h1 : Quiet s s1 := by
          refine h0.trans ?_
          show Quiet s0 (if _ then _ else _)
          split
          · exact State.quiet_askReplica _ _
          · exact Quiet.refl _
        split
        · refine h1.trans ?_
          show Quiet s1 (if _ then _ else _)
          split
          · exact Quiet.refl _
          · exact State.quiet_setDir _ _ _ _ _
        · exact h1.trans ((State.quiet_replaceOther s1 _ v pa _).trans (State.quiet_through _ _ pa x.lc _ true))
    · exact h0.trans (State.quiet_askReplica _ _)
  · split
    · exact h0
    · split
      · exact h0.trans (State.quiet_readHome _ _ _ _ _)
      · exact h0.trans ((State.quiet_replaceOther s0 _ v pa _).trans (State.quiet_readLeased _ _ _ _ _ _ _ _))

/-- What holds for both parts of a sequence holds for the whole. -/
theorem Quiet.bind {α β : Type} {s : State} {x : Eff α} {k : State → α → Eff β} (h : Quiet s x.1) (hk : ∀ t a, Quiet t (k t a).1) :
    Quiet s (x.bind k).1 := by
  unfold Eff.bind
  obtain ⟨s1, r⟩ := x
  cases r with
  | ok a => exact h.trans (hk _ _)
  | error e => exact h

theorem State.quiet_read (s : State) (p : Party) (x : Xl) (n : Nat) (v : Via) (rh : Retain) : Quiet s (s.read p x n v rh).1 := by
  unfold State.read; split
  · exact Quiet.bind (State.quiet_read1 _ _ _ _ _ _) fun _ _ => Quiet.bind (State.quiet_read1 _ _ _ _ _ _) fun _ _ => Quiet.refl _
  · exact State.quiet_read1 _ _ _ _ _ _
theorem State.quiet_sendWindowed (s : State) (p : Party) (pa : Nat) (d : List Byte) (a : Bool) : Quiet s (s.sendWindowed p pa d a) :=
  (State.quiet_openWindow _ _ _ _ _).trans (Quiet.modGrp _ _ _ fun g => Group.quiet_wuntil g _)
theorem State.quiet_acks (s : State) (h : HostIf) : Quiet s { s with host := h } :=
  Quiet.of_rfl rfl rfl rfl rfl rfl rfl rfl rfl rfl rfl rfl rfl rfl
theorem State.quiet_awaitAck (s : State) (p : Party) (pa : Nat) (r : Bool) : Quiet s (s.awaitAck p pa r) := by
  unfold State.awaitAck; split
  · exact (State.quiet_acks s _).trans (Quiet.modGrp _ _ _ fun g => Group.quiet_ackout g _)
  · exact Quiet.refl s
theorem State.quiet_sendReplicated (s : State) (p : Party) (pa : Nat) (d : List Byte) : Quiet s (s.sendReplicated p pa d) := by
  unfold State.sendReplicated; split
  · exact State.quiet_sendWindowed _ _ _ _ _
  · exact Quiet.refl s
theorem State.quiet_storeCaches (s : State) (p : Party) (pa : Nat) (rh : Retain) : Quiet s (s.storeCaches p pa rh) := by
  unfold State.storeCaches
  repeat' split
  all_goals first
    | exact Quiet.refl s
    | exact State.quiet_dropDir _ _ _
    | exact State.quiet_setDir _ _ _ _ _
    | exact Quiet.of_rfl rfl rfl rfl rfl rfl rfl rfl rfl rfl rfl rfl rfl rfl
theorem State.quiet_putNow (s : State) (p : Party) (pa : Nat) (d : List Byte) (rh : Retain) : Quiet s (s.putNow p pa d rh).1 := by
  unfold State.putNow
  extract_lets pa'
  repeat' split
  · exact Quiet.refl s
  · exact State.quiet_sendWindowed _ _ _ _ _
  · exact Quiet.refl s
  · exact State.quiet_press _ _ _ _
  · exact (State.quiet_storeBy _ _ _ _ _).trans ((State.quiet_storeCaches _ _ _ _).trans ((State.quiet_sendReplicated _ _ _ _).trans
      (State.quiet_awaitAck _ _ _ _)))

/-- A fold of effects. -/
theorem Quiet.foldEff {α β : Type} (l : List α) (f : Eff β → α → Eff β) (hf : ∀ e x, Quiet e.1 (f e x).1) (e : Eff β) :
    Quiet e.1 (l.foldl f e).1 := by
  induction l generalizing e with
  | nil => exact Quiet.refl _
  | cons x xs ih => exact (hf e x).trans (ih _)

theorem State.quiet_pend (s : State) (l : List Pend) : Quiet s { s with pend := l } :=
  Quiet.of_rfl rfl rfl rfl rfl rfl rfl rfl rfl rfl rfl rfl rfl rfl
theorem State.quiet_flush (s : State) (sel : Pend → Bool) : Quiet s (s.flush sel).1 := by
  unfold State.flush
  refine Quiet.foldEff _ _ (fun e x => ?_) (Eff.ok s ())
  refine Quiet.bind (Quiet.refl _) fun t _ => ?_
  split
  · exact Quiet.bind (State.quiet_putNow _ _ _ _ _) fun u _ => State.quiet_pend _ _
  · exact Quiet.refl _
theorem State.quiet_settleOver (s : State) (p : Party) (a n : Nat) : Quiet s (s.settleOver p a n).1 := State.quiet_flush _ _
theorem State.quiet_put (s : State) (p : Party) (l : Nat) (va : W64) (x : Xl) (d : List Byte) (rh : Retain) : Quiet s (s.put p l va x d rh).1 := by
  unfold State.put
  extract_lets r k later
  split
  · exact State.quiet_pend _ _
  · have h : Quiet s ((s.settleOver p x.pa d.length).bind fun s1 _ =>
        if x.mt = 1 && d.length = 16 then (s1.putNow p x.pa (d.take 8) r).bind fun s2 _ => s2.putNow p (x.pa + 8) (d.drop 8) r
        else s1.putNow p x.pa d r).1 := by
      refine Quiet.bind (State.quiet_settleOver _ _ _ _) fun _ _ => ?_
      split
      · exact Quiet.bind (State.quiet_putNow _ _ _ _ _) fun _ _ => State.quiet_putNow _ _ _ _ _
      · exact State.quiet_putNow _ _ _ _ _
    split <;> rename_i e <;> rw [e] at h
    · exact h
    · split
      · exact h.trans (State.quiet_pend _ _)
      · exact h
theorem State.quiet_copies (s : State) (l : List Copy) : Quiet s { s with copies := l } :=
  Quiet.of_rfl rfl rfl rfl rfl rfl rfl rfl rfl rfl rfl rfl rfl rfl
theorem State.quiet_tether (s : State) (l : List (Nat × Nat)) : Quiet s { s with tether := l } :=
  Quiet.of_rfl rfl rfl rfl rfl rfl rfl rfl rfl rfl rfl rfl rfl rfl
theorem State.quiet_rmw (s : State) (p : Party) (pa n : Nat) (f : Nat → Option Nat) : Quiet s (s.rmw p pa n f).1 := by
  unfold State.rmw
  extract_lets pa'
  refine Quiet.bind (State.quiet_settleOver _ _ _ _) fun s0 _ => ?_
  split
  · exact Quiet.refl _
  · split
    · exact State.quiet_press _ _ _ _
    · extract_lets s1 m s2
      have h1 : Quiet s0 s1 := (State.quiet_touch _ _ _).trans ((State.quiet_enterHome _ _ _).trans
        ((State.quiet_recall _ _ _).trans (State.quiet_holdLine _ _)))
      split
      · exact h1.trans ((State.quiet_learn _ _ _).trans (State.quiet_sample _ _ _ _))
      · split
        · have h2 : Quiet s1 s2 := by
            show Quiet s1 (if _ then _ else _)
            split
            · exact Quiet.modGrp _ _ _ fun g => Group.quiet_wuntil g _
            · exact Quiet.refl _
          exact h1.trans (h2.trans ((State.quiet_dropLine _ _ _).trans (State.quiet_sample _ _ _ _)))
        · extract_lets s2
          exact h1.trans ((State.quiet_learn _ _ _).trans ((State.quiet_storeBy _ _ _ _ _).trans ((State.quiet_sendReplicated _ _ _ _).trans
            ((State.quiet_awaitAck _ _ _ _).trans (State.quiet_dropLine _ _ _)))))
theorem State.quiet_release (s : State) (p : Party) (sc : Nat) : Quiet s (s.release p sc).1 := by
  unfold State.release
  by_cases h : sc < if p.isLc then 2 else 4
  · rw [if_pos h]; exact State.quiet_pend _ _
  · rw [if_neg h]
    extract_lets mine
    refine Quiet.bind (State.quiet_flush _ _) fun t _ => ?_
    extract_lets owed s2 s3
    have h3 : Quiet t s3 := (Quiet.modGrp _ _ _ fun g => Group.quiet_rh g _).trans (State.quiet_pend _ _)
    repeat' split
    all_goals exact h3
theorem State.quiet_acquire (s : State) (p : Party) (sc : Nat) : Quiet s (s.acquire p sc) := by
  unfold State.acquire
  extract_lets e s1
  have h1 : Quiet s s1 := by
    show Quiet s (if _ then _ else _)
    split
    · exact Quiet.modGrp _ _ _ fun g => Group.quiet_rh g _
    · exact Quiet.refl s
  split
  · exact h1
  · split
    · exact h1
    · exact h1.trans (State.quiet_copies _ _)
theorem State.quiet_fetch (s : State) (p : Party) (l : Nat) (pc : W64) : Quiet s (s.fetch p l pc).1 := by
  unfold State.fetch
  refine Quiet.bind (State.quiet_access _ _ _ _ _ _ _ _) fun t _ => Quiet.bind (State.quiet_read _ _ _ _ _ _) fun u r => ?_
  obtain ⟨bs, poi⟩ := r
  simp only []
  split <;> exact Quiet.refl _
/-- Entering a block reads its header. -/
theorem State.quiet_header (s : State) (p : Party) (l : Nat) (pc : W64) : Quiet s (s.header p l pc).1 := by
  unfold State.header
  have hf := State.quiet_fetch s p l pc
  split <;> rename_i h <;> rw [h] at hf
  · exact hf
  · exact hf
  · split
    · exact hf
    · split <;> exact hf

/-! ### The constant-window operand (Issue.lean) -/

theorem State.quiet_readWindow (s : State) (p : Party) (l w o n : Nat) : Quiet s (s.readWindow p l w o n).1 := by
  unfold State.readWindow
  extract_lets
  split
  · exact Quiet.refl s
  · exact Quiet.bind (State.quiet_access _ _ _ _ _ _ _ _) fun _ _ => Quiet.bind (State.quiet_settleOver _ _ _ _) fun _ _ =>
      Quiet.bind (State.quiet_read _ _ _ _ _ _) fun _ _ => Quiet.refl _
theorem quiet_eachLane {α : Type} (s : State) (ls : List Nat) (f : State → Nat → Eff α) (hf : ∀ s l, Quiet s (f s l).1) :
    Quiet s (eachLane s ls f).1 := by
  have h : ∀ (ls : List Nat) (acc : State × List (Nat × Except Stop α)), Quiet acc.1 (ls.foldl (fun acc l =>
      let (s1, r) := f acc.1 l
      (s1, acc.2 ++ [(l, r)])) acc).1 := by
    intro ls
    induction ls with
    | nil => exact fun acc => Quiet.refl _
      | cons x xs ih => intro acc; exact Quiet.trans (hf acc.1 x) (ih ((f acc.1 x).1, acc.2 ++ [(x, (f acc.1 x).2)]))
  exact h ls (s, [])
theorem State.quiet_kOperand (s : State) (p : Party) (x : Sig) (act : Mask) : Quiet s (s.kOperand p x act).1 := by
  unfold State.kOperand
  split
  · exact Quiet.refl s
  · exact quiet_eachLane _ _ _ fun s l => State.quiet_readWindow _ _ _ _ _ _

end Sys2Proof.Machine
end

