-- ==== Sys2Proof/Laws/Issue.lean ====
section
/-!
SUPPORT. What `issue` does with an instruction that is ready: one equation, and what the lanes that leave at the following word change.
Proofs about instructions cite these lemmas and do not unfold `issue`.
-/

namespace Sys2Proof.Machine

/-! ### The run -/

theorem State.runWith_has (s : State) (p : Party) (l0 : Nat) (h : s.runWith p l0 ≠ []) : s.has p = true := by
  apply State.has_of_running
  unfold State.runWith at h
  simp only [] at h
  split at h
  · exact absurd rfl h
  · rename_i hc
    simp only [Bool.or_eq_true, not_or, Bool.not_eq_true] at hc
    simpa using hc.1.1.1

theorem State.mem_runWith {s : State} {p : Party} {l0 l : Nat} (h : l ∈ s.runWith p l0) :
    Mask.has (s.grp p).live l = true ∧ l < (s.grp p).threads.length ∧ (s.thr p l).st = .ready := by
  unfold State.runWith at h
  simp only [] at h
  split at h
  · simp at h
  · rename_i hc
    simp only [List.mem_filter, Bool.not_eq_true'] at h
    obtain ⟨h, -⟩ := h
    have key : ∀ {q : Nat → Bool}, l ∈ ((s.grp p).lanes (s.grp p).live).filter q →
        Mask.has (s.grp p).live l = true ∧ l < (s.grp p).threads.length ∧ q l = true := by
      intro q hq
      simp only [Group.lanes, List.mem_filter, List.mem_range] at hq
      exact ⟨hq.1.2, hq.1.1, hq.2⟩
    split at h
    · split at h
      · rename_i hall
        have hr : ∀ k ∈ (s.grp p).lanes (s.grp p).live, ((s.grp p).thr k).st = .ready := by
          intro k hk
          have := List.all_eq_true.1 hall k hk
          simp only [Bool.and_eq_true, beq_iff_eq] at this
          exact this.1
        have hm : ∀ {q : Nat → Bool}, l ∈ ((s.grp p).lanes (s.grp p).live).filter q → (s.thr p l).st = .ready :=
          fun hq => hr l (List.mem_filter.1 hq).1
        split at h
        · split at h
          · exact ⟨(key h).1, (key h).2.1, hm h⟩
          · simp at h
        · exact ⟨(key h).1, (key h).2.1, hm h⟩
      · simp at h
    · split at h
      · simp at h
      · obtain ⟨h1, h2, h3⟩ := key h
        simp only [Bool.and_eq_true, beq_iff_eq] at h3
        exact ⟨h1, h2, h3.1.1.1⟩
    · obtain ⟨h1, h2, h3⟩ := key h
      simp only [Bool.and_eq_true, beq_iff_eq] at h3
      exact ⟨h1, h2, h3.1.1.1⟩

theorem nodup_lanes (g : Group) (m : Mask) : (g.lanes m).Nodup := List.Pairwise.filter _ List.nodup_range
theorem State.nodup_runWith (s : State) (p : Party) (l0 : Nat) : (s.runWith p l0).Nodup := by
  unfold State.runWith
  simp only []
  split
  · exact List.nodup_nil
  · refine List.Pairwise.filter _ ?_
    repeat' split
    all_goals first | exact List.nodup_nil | exact List.Pairwise.filter _ (nodup_lanes _ _)

/-! ### The equation of `issue` -/

theorem filterMap_none {α β : Type} (l : List α) (f : α → Option β) (h : ∀ x ∈ l, f x = none) : l.filterMap f = [] := by
  simpa using h

theorem issue_of_issues {s : State} {i : Instr} (h : s.issues i) (body : State → Ctx → State × List (Nat × LaneEnd)) :
    issue i s body =
      (let (s3, kop, kends) := s.windowed i
       let act' := s.acting i &&& ~~~(Mask.ofLanes (kends.map (·.1)))
       let (s4, ends) := if act' == 0#64 && !isTransfer i then (s3, [])
         else body s3 { p := s.cur, ok := Mask.ofLanes s.runLanes, act := act', k := kop }
       finish (s4.endAll s.cur i (sig i) (s.runLanes.map fun l => (l, (assoc l ends).getD ((assoc l kends).getD .next))))) := by
  obtain ⟨b, hb, hc⟩ := h.block
  have hbad : (s.runLanes.filterMap fun l => (laneCause s s.cur (sig i) b.live l).map fun c => (l, c)) = [] :=
    filterMap_none _ _ fun l hl => by simp [hc l hl]
  have hok : (s.runLanes.filter fun l => (laneCause s s.cur (sig i) b.live l).isNone) = s.runLanes := by
    rw [List.filter_eq_self]; intro l hl; simp [hc l hl]
  have hrun : s.runLanes.isEmpty = false := by
    cases hr : s.runLanes with
    | nil => exact absurd hr h.run
    | cons x xs => rfl
  have hp := h.power
  simp only [State.acting] at hp
  unfold issue
  simp only [hb, hbad, hok, hrun, h.free, h.spec, hp, List.isEmpty_nil, Bool.not_true, Bool.or_self,
    Bool.false_eq_true, if_false]
  rfl

/-- A ready instruction: its body runs in the lanes whose guard is true, and every lane of the run leaves the word. -/
theorem issue_of_ready {s : State} {i : Instr} (h : s.ready i) (body : State → Ctx → State × List (Nat × LaneEnd)) :
    issue i s body =
      (let c : Ctx := { p := s.cur, ok := Mask.ofLanes s.runLanes, act := s.acting i, k := (s.windowed i).2.1 }
       let r := if s.acting i == 0#64 && !isTransfer i then (s.opened i, []) else body (s.opened i) c
       finish (r.1.endAll s.cur i (sig i) (s.runLanes.map fun l => (l, (assoc l r.2).getD .next)))) := by
  rw [issue_of_issues h.issues]
  have hz : Mask.ofLanes ([] : List Nat) = 0#64 := rfl
  simp only [h.words, List.map_nil, hz, BitVec.not_zero, BitVec.and_allOnes, State.opened]
  rfl

/-! ### Leaving at the following word -/

/-- The thread at the following word, and its windows one word on. -/
def Thread.stepped (x : Sig) (t : Thread) : Thread := Thread.advance { t with wins := stepWins t.wins x.newWin }

/-- What the lanes of a run change that leave an instruction. -/
structure Left (s t : State) (p : Party) : Prop where
  rest : t = { s with lcs := t.lcs, teams := t.teams }
  size : t.lcs.length = s.lcs.length
  has : ∀ q, t.has q = s.has q
  team : ∀ k, (t.team? k).isSome = (s.team? k).isSome
  others : ∀ q, q ≠ p → t.grp q = s.grp q
  own : t.grp p = { s.grp p with threads := (t.grp p).threads }
  lc : ∀ n, t.lc n = { s.lc n with grp := (t.lc n).grp, inside := (t.lc n).inside }
  teams : ∀ k, t.team k = { s.team k with groups := (t.team k).groups }
  count : (t.grp p).threads.length = (s.grp p).threads.length

theorem Left.refl (s : State) (p : Party) : Left s s p := ⟨rfl, rfl, fun _ => rfl, fun _ => rfl, fun _ _ => rfl, rfl, fun _ => rfl, fun _ => rfl, rfl⟩
theorem Left.trans {a b c : State} {p : Party} (h : Left a b p) (k : Left b c p) : Left a c p := by
  refine ⟨?_, k.size.trans h.size, fun q => (k.has q).trans (h.has q), fun n => (k.team n).trans (h.team n),
    fun q hq => (k.others q hq).trans (h.others q hq), ?_, ?_, ?_, k.count.trans h.count⟩
  · rw [k.rest, h.rest]
  · rw [k.own, h.own]
  · intro n; rw [k.lc, h.lc]
  · intro n; rw [k.teams, h.teams]

theorem State.team?_modGrp (s : State) (p : Party) (f : Group → Group) (k : Nat) :
    ((s.modGrp p f).team? k).isSome = (s.team? k).isSome := by
  cases p with
  | lc n => rfl
  | grp t j => simp [State.modGrp, State.team?_modTeam _ _ _ _ (fun x => Team.modGrp_tid x j f)]

/-- A change of the threads of one group. -/
theorem Left.modGrp (s : State) (p : Party) (f : Group → Group) (hf : ∀ g : Group, f g = { g with threads := (f g).threads })
    (hn : ∀ g : Group, (f g).threads.length = g.threads.length) : Left s (s.modGrp p f) p := by
  have hp : (s.modGrp p f).grp p = { s.grp p with threads := ((s.modGrp p f).grp p).threads } ∧
      ((s.modGrp p f).grp p).threads.length = (s.grp p).threads.length := by
    cases h : s.has p with
    | true => rw [State.grp_modGrp s p f h]; exact ⟨hf _, hn _⟩
    | false => rw [State.grp_modGrp_absent s p f h]; exact ⟨rfl, rfl⟩
  refine ⟨?_, ?_, fun q => State.has_modGrp s p q f, State.team?_modGrp s p f, fun q hq => State.grp_modGrp_ne s p q f hq, hp.1, ?_, ?_, hp.2⟩
  · cases p <;> rfl
  · cases p with
    | lc n => exact setAt_length _ _ _
    | grp t j => rfl
  · intro n; cases p with
    | lc k =>
      by_cases hk : k < s.lcs.length
      · simp only [State.modGrp, State.lc_modLc _ _ _ _ hk]; split <;> rfl
      · simp [State.modGrp, State.modLc, State.lc, setAt_ge _ _ _ (Nat.le_of_not_lt hk)]
    | grp t j => rfl
  · intro k; cases p with
    | lc n => rfl
    | grp t j => exact team_modGrp_eq s t j k f

theorem Left.modThr (s : State) (p : Party) (l : Nat) (f : Thread → Thread) : Left s (s.modThr p l f) p :=
  Left.modGrp s p _ (fun _ => rfl) fun g => Group.modThr_length g l f

theorem State.thr_modThr {s : State} {p : Party} {l k : Nat} (f : Thread → Thread) (h : s.has p = true) (hl : l < (s.grp p).threads.length) :
    (s.modThr p l f).thr p k = if k = l then f (s.thr p k) else s.thr p k := by
  simp only [State.thr, State.modThr, State.grp_modGrp s p _ h, Group.thr_modThr _ _ _ _ hl]

theorem not_gone {s : State} {p : Party} (h : s.has p = true) : s.gone p = false := by
  cases p with
  | lc n => rfl
  | grp t j =>
    simp only [State.has, Bool.and_eq_true] at h
    simp only [State.gone]
    cases ht : s.team? t <;> simp_all

theorem endLane_next {s : State} {p : Party} (x : Sig) (l : Nat) (h : s.has p = true) (hl : l < (s.grp p).threads.length) :
    Left s (s.endLane p x l .next) p ∧
      ∀ k, (s.endLane p x l .next).thr p k = if k = l then (s.thr p k).stepped x else s.thr p k := by
  have h1 := Left.modThr s p l fun t => { t with wins := stepWins t.wins x.newWin }
  have e : s.endLane p x l .next = (s.modThr p l fun t => { t with wins := stepWins t.wins x.newWin }).modThr p l Thread.advance := by
    simp only [State.endLane, not_gone h, Bool.false_eq_true, if_false, LaneEnd.counts, State.noBlock, Bool.not_false, Bool.and_self, if_true]
  rw [e]
  refine ⟨h1.trans (Left.modThr _ p l _), fun k => ?_⟩
  rw [State.thr_modThr _ ((h1.has p).trans h) (by rw [h1.count]; exact hl), State.thr_modThr _ h hl]
  by_cases hk : k = l <;> simp [hk, Thread.stepped]

theorem foldl_endLane_next (x : Sig) (p : Party) (ls : List Nat) (hn : ls.Nodup) (s : State) (h : s.has p = true)
    (hl : ∀ l ∈ ls, l < (s.grp p).threads.length) :
    Left s ((ls.map fun l => (l, LaneEnd.next)).foldl (fun st e => st.endLane p x e.1 e.2) s) p ∧
      ∀ k, ((ls.map fun l => (l, LaneEnd.next)).foldl (fun st e => st.endLane p x e.1 e.2) s).thr p k =
        if k ∈ ls then (s.thr p k).stepped x else s.thr p k := by
  induction ls generalizing s with
  | nil => exact ⟨Left.refl s p, fun k => by simp⟩
  | cons a as ih =>
    simp only [List.map_cons, List.foldl_cons]
    obtain ⟨h1, h2⟩ := endLane_next x a h (hl a (by simp))
    have ha := (List.nodup_cons.1 hn)
    obtain ⟨h3, h4⟩ := ih ha.2 (s.endLane p x a .next) ((h1.has p).trans h)
      (fun l hl' => by rw [h1.count]; exact hl l (by simp [hl']))
    refine ⟨h1.trans h3, fun k => ?_⟩
    rw [h4, h2]
    by_cases hk : k = a
    · subst hk; simp [ha.1]
    · simp [hk]

theorem Left.inside (s : State) (n : Nat) (b : Bool) : Left s (s.modLc n fun c => { c with inside := b }) (.lc n) := by
  by_cases hn : n < s.lcs.length
  · refine ⟨rfl, by simp, ?_, fun _ => rfl, ?_, ?_, ?_, fun _ => rfl, ?_⟩
    · intro q; cases q <;> simp [State.has]
    · intro q hq; cases q with
      | lc k => have : k ≠ n := fun e => hq (by rw [e]); simp [State.grp, State.lc_modLc_ne _ _ _ _ this]
      | grp t j => rfl
    · simp [State.grp, State.lc_modLc _ _ _ _ hn]
    · intro k; rw [State.lc_modLc _ _ _ _ hn]; split <;> rfl
    · simp [State.grp, State.lc_modLc _ _ _ _ hn]
  · have : (s.modLc n fun c => { c with inside := b }) = s := by
      simp only [State.modLc, setAt_ge _ _ _ (Nat.le_of_not_lt hn)]
    rw [this]; exact Left.refl s _

/-- Parking the lanes beyond the sixteenth run changes thread states alone. -/
theorem limitRuns_spec (g : Group) (run : List Nat) :
    g.limitRuns run = { g with threads := (g.limitRuns run).threads } ∧ (g.limitRuns run).threads.length = g.threads.length ∧
      ∀ k, (g.limitRuns run).thr k = g.thr k ∨ (g.limitRuns run).thr k = { g.thr k with st := .parked } := by
  unfold Group.limitRuns
  extract_lets ready others
  generalize others = ps
  suffices H : ∀ (ls : List Nat) (acc : Group × List W64),
      acc.1 = { g with threads := acc.1.threads } → acc.1.threads.length = g.threads.length →
      (∀ k, acc.1.thr k = g.thr k ∨ acc.1.thr k = { g.thr k with st := .parked }) →
      (let r := (ls.foldl (fun (acc : Group × List W64) l =>
        if !ready l then acc
        else
          let pc := (g.thr l).pc
          if acc.2.contains pc then acc
          else if acc.2.length < 16 then (acc.1, pc :: acc.2)
          else (acc.1.modThr l fun t => { t with st := .parked }, acc.2)) acc).1
       r = { g with threads := r.threads } ∧ r.threads.length = g.threads.length ∧
        ∀ k, r.thr k = g.thr k ∨ r.thr k = { g.thr k with st := .parked }) by
    exact H run (g, ps) rfl rfl (fun k => .inl rfl)
  intro ls
  induction ls with
  | nil => intro acc h1 h2 h3; exact ⟨h1, h2, h3⟩
  | cons a as ih =>
    intro acc h1 h2 h3
    simp only [List.foldl_cons]
    apply ih
    · repeat' split
      all_goals first | exact h1 | (rw [h1]; rfl)
    · repeat' split
      all_goals first | exact h2 | (simp only [Group.modThr_length]; exact h2)
    · intro k
      repeat' split
      all_goals first
        | exact h3 k
        | (by_cases ha : a < acc.1.threads.length
           · rw [Group.thr_modThr _ _ _ _ ha]
             split
             · rcases h3 k with e | e <;> rw [e] <;> exact .inr rfl
             · exact h3 k
           · simp only [Group.modThr, Group.thr, setAt_ge _ _ _ (Nat.le_of_not_lt ha)]; exact h3 k)

/-- Every lane of the run leaves at the following word. -/
theorem endAll_next (i : Instr) (x : Sig) (p : Party) (ls : List Nat) (hn : ls.Nodup) (s : State) (h : s.has p = true)
    (hl : ∀ l ∈ ls, l < (s.grp p).threads.length) :
    Left s (s.endAll p i x (ls.map fun l => (l, LaneEnd.next))) p ∧
      ∀ k, ∃ st, (s.endAll p i x (ls.map fun l => (l, LaneEnd.next))).thr p k =
          { (if k ∈ ls then (s.thr p k).stepped x else s.thr p k) with st := st } ∧ (st = (s.thr p k).st ∨ st = .parked) := by
  obtain ⟨h1, h2⟩ := foldl_endLane_next x p ls hn s h hl
  unfold State.endAll
  extract_lets first s1
  have e1 : s1 = (ls.map fun l => (l, LaneEnd.next)).foldl (fun st e => st.endLane p x e.1 e.2) s := by
    simp only [s1, List.foldl_map]
  clear_value s1
  subst e1
  generalize (ls.map fun l => (l, LaneEnd.next)).foldl (fun st e => st.endLane p x e.1 e.2) s = s1 at h1 h2 ⊢
  have hst : ∀ k, (s1.thr p k).st = (s.thr p k).st := by intro k; rw [h2 k]; split <;> rfl
  cases p with
  | lc n =>
    simp only []
    have hn' : n < s1.lcs.length := by
      have := (h1.has (.lc n)).trans h
      simpa [State.has] using this
    refine ⟨h1.trans (Left.inside s1 n _), ?_⟩
    · intro k
      refine ⟨(s1.thr (.lc n) k).st, ?_, .inl (hst k)⟩
      rw [← h2 k]
      simp only [State.thr, State.grp, State.lc_modLc _ _ _ _ hn', if_true]
  | grp t j =>
    simp only []
    have hs := limitRuns_spec
    refine ⟨h1.trans (Left.modGrp _ _ _ (fun g => (hs g _).1) fun g => (hs g _).2.1), ?_⟩
    intro k
    have hh := (h1.has (.grp t j)).trans h
    simp only [State.thr, State.grp_modGrp s1 _ _ hh]
    rcases (hs (s1.grp (.grp t j)) ((ls.map fun l => (l, LaneEnd.next)).map (·.1))).2.2 k with e | e
    · refine ⟨(s1.thr (.grp t j) k).st, ?_, .inl (hst k)⟩
      rw [e]; have := h2 k; simp only [State.thr] at this ⊢; rw [← this]
    · refine ⟨.parked, ?_, .inr rfl⟩
      rw [e]; have := h2 k; simp only [State.thr] at this ⊢; rw [← this]

end Sys2Proof.Machine
end

