-- ==== Sys2Proof/Laws/Results.lean ====
section
/-!
SUPPORT. What an instruction leaves behind that changes its own group alone: results in registers and predicates, and one lemma for every instruction that `issueG` issues.
-/

namespace Sys2Proof.Machine

/-! ### Results in registers -/

theorem assoc_mem {α β : Type} [BEq α] [LawfulBEq α] {k : α} {l : List (α × β)} {v : β} (h : assoc k l = some v) : (k, v) ∈ l := by
  unfold assoc at h
  cases hf : l.find? (·.1 == k) with
  | none => rw [hf] at h; cases h
  | some e =>
    rw [hf] at h
    have h1 := List.mem_of_find?_eq_some hf
    have h2 := List.find?_some hf
    simp only [beq_iff_eq] at h2
    simp only [Option.map_some, Option.some.injEq] at h
    cases e; simp_all


theorem Group.rd64_wr2 (g : Group) (r l : Nat) (who : Mask) (v w : Nat → W32) (h : Hint) (poi : Mask) (hl : l < 64) (hlive : Mask.has g.live l = true) (hs : g.single = true → l = 0) (ha : Mask.has who l = true) :
    ((g.wr r who v h poi).wr (r + 1) who w h poi).rd64 l r = pair64 (w l) (v l) := by
  simp only [Group.rd64]
  rw [Group.rd_wr_same (g.wr r who v h poi) (r + 1) l who w h poi hl hlive hs, if_pos ha,
    Group.rd_wr_other _ (r + 1) r l who w h poi (by omega), Group.rd_wr_same _ r l who v h poi hl hlive hs, if_pos ha]

theorem pair_lo_hi (x : W64) : pair64 (hi32 x) (lo32 x) = x := by
  unfold pair64 hi32 lo32
  apply BitVec.eq_of_getLsbD_eq
  intro i hi
  simp only [BitVec.getLsbD_append, BitVec.truncate_eq_setWidth, BitVec.getLsbD_setWidth, BitVec.getLsbD_ushiftRight]
  by_cases h : i < 32
  · simp [h]
  · simp [h]; rw [show 32 + (i - 32) = i by omega]; simp; omega

/-- A lane that performed the instruction reads the result that was put there. -/
theorem Group.dest_put {g : Group} {n l : Nat} {d : BitVec 10} {act : Mask} {val : Nat → W64} {h : Hint} (poi : Mask)
    (hn : n = 1 ∨ n = 2) (hd : inReg d = true) (hl : Mask.has g.live l = true)
    (hs : g.single = true → l = 0) (ha : Mask.has act l = true) :
    (if n = 2 then (g.put n d act val h poi).rd64 l d.toNat else ((g.put n d act val h poi).rd l d.toNat).setWidth 64) =
      if n = 2 then val l else (lo32 (val l)).setWidth 64 := by
  rcases hn with rfl | rfl
  · simp only [Group.put, Group.wrD, hd, if_true, show ¬ (1 = 2) by decide, if_false]
    rw [Group.rd_wr_same g d.toNat l act _ h poi (Mask.has_lt hl) hl hs, if_pos ha]
    rfl
  · simp only [Group.put, Group.wrD64, hd, if_true]
    rw [Group.rd64_wr2 g d.toNat l act _ _ h poi (Mask.has_lt hl) hl hs ha, pair_lo_hi]

theorem Group.put_reg {g : Group} {n r : Nat} {d : BitVec 10} (act : Mask) (val : Nat → W64) (h : Hint) (poi : Mask) (hn : n = 1 ∨ n = 2)
    (hr : r ∉ destRegs n d) : (g.put n d act val h poi).reg r = g.reg r := by
  unfold Group.put Group.wrD Group.wrD64
  rcases hn with rfl | rfl
  · simp only [destRegs] at hr
    split
    · omega
    · split
      · rename_i hd; rw [if_pos hd] at hr; simp at hr
        exact Group.reg_wr _ _ _ _ _ _ _ (by omega)
      · rfl
  · simp only [destRegs] at hr
    simp only [if_true]
    split
    · rename_i hd
      rw [if_pos hd] at hr
      simp [List.range_succ] at hr
      rw [Group.reg_wr _ _ _ _ _ _ _ (by omega), Group.reg_wr _ _ _ _ _ _ _ (by omega)]
    · rfl

theorem Group.put_same (g : Group) (n : Nat) (d : BitVec 10) (act : Mask) (val : Nat → W64) (h : Hint) (poi : Mask) :
    g.put n d act val h poi = { g with regs := (g.put n d act val h poi).regs } := by
  unfold Group.put Group.wrD Group.wrD64
  repeat' split
  all_goals rfl

/-! ### One lemma for the instructions of one group -/

/-- A change of a team beside its groups. -/
theorem Quiet.modTeam (s : State) (tid : Nat) (f : Team → Team) (hm : ∀ x, (f x).tid = x.tid) (hg : ∀ x, (f x).groups = x.groups)
    (hs : ∀ x, (f x).stores = x.stores) :
    Quiet s (s.modTeam tid f) := by
  have ht : ∀ k, ((s.modTeam tid f).team k).groups = (s.team k).groups := by
    intro k
    simp only [State.team, State.team?_modTeam _ _ _ _ hm]
    cases s.team? k with
    | none => rfl
    | some x => simp only [Option.map_some, Option.getD_some]; split <;> simp [hg]
  have hst : ∀ k, ((s.modTeam tid f).team k).stores = (s.team k).stores := by
    intro k
    simp only [State.team, State.team?_modTeam _ _ _ _ hm]
    cases s.team? k with
    | none => rfl
    | some x => simp only [Option.map_some, Option.getD_some]; split <;> simp [hs]
  have hi : ∀ k, ((s.modTeam tid f).team? k).isSome = (s.team? k).isSome := by
    intro k; simp only [State.team?_modTeam _ _ _ _ hm, Option.isSome_map]
  refine ⟨?_, hi, ?_, fun _ => rfl, ⟨rfl, rfl, rfl, rfl, rfl, rfl, rfl, rfl, rfl, rfl, rfl, rfl⟩, hst⟩
  · intro q; cases q with
    | lc n => rfl
    | grp a b => simp only [State.has, ht, hi]
  · intro q; cases q with
    | lc n => exact Group.quiet_refl _
    | grp a b => simp only [State.grp, Team.grp, ht]; exact Group.quiet_refl _

theorem State.quiet_begun (s : State) (i : Instr) : Quiet s (s.begun i) := by
  unfold State.begun
  have hd : Quiet s (s.debit s.cur (sig i) (s.acting i)) := by
    unfold State.debit
    split
    · exact Quiet.refl s
    · extract_lets r s1
      have h1 : Quiet s s1 := by
        show Quiet s (List.foldl _ s _)
        refine Quiet.foldl _ _ ?_ _
        intro st id
        exact Quiet.of_rfl rfl rfl rfl rfl rfl rfl rfl rfl rfl rfl rfl rfl rfl
      exact h1.trans (Quiet.of_rfl rfl rfl rfl rfl rfl rfl rfl rfl rfl rfl rfl rfl rfl)
  refine hd.trans ?_
  unfold State.specCount
  split
  · exact Quiet.refl _
  · exact Quiet.modTeam _ _ _ (fun _ => rfl) (fun _ => rfl) fun _ => rfl

theorem State.quiet_opened (s : State) (i : Instr) : Quiet s (s.opened i) :=
  (State.quiet_begun s i).trans (State.quiet_kOperand _ _ _ _)

theorem State.acting_mem {s : State} {i : Instr} {l : Nat} (h : Mask.has (s.acting i) l = true) :
    l ∈ s.runLanes ∧ guardIn (s.grp s.cur) (sig i) l = true := by
  have hlt : ∀ k ∈ s.runLanes.filter (guardIn (s.grp s.cur) (sig i)), k < 64 := by
    intro k hk
    exact Mask.has_lt (State.mem_runWith (List.mem_filter.1 hk).1).1
  rw [State.acting, Mask.has_ofLanes _ _ hlt] at h
  simpa using h

/-- The facts about a lane that performs an instruction which reads and writes of its registers need. -/
theorem State.acting_lane {s : State} {i : Instr} {l : Nat} (h : Mask.has (s.acting i) l = true) :
    Mask.has (s.grp s.cur).live l = true ∧ ((s.grp s.cur).single = true → l = 0) := by
  obtain ⟨h1, h2, -⟩ := State.mem_runWith (State.acting_mem h).1
  refine ⟨h1, fun hs => ?_⟩
  simp only [Group.single, beq_iff_eq] at hs
  omega

theorem Quiet.specials {s t : State} (h : Quiet s t) (n : Nat) : (t.lc n).specials = (s.lc n).specials := by
  rw [h.lc n]; rfl

theorem assoc_nexts {m : Mask} {l : Nat} {e : LaneEnd} (h : assoc l (nexts m) = some e) : e = .next := by
  have := assoc_mem h
  simp only [nexts, List.mem_map] at this
  obtain ⟨k, -, hk⟩ := this
  exact (Prod.mk.inj hk).2.symm

/-- An instruction that changes registers, predicates and float environments of its own group alone: it completes, its group is what the
body makes of it, and the rest is kept. -/
theorem issueG_ready {s : State} {i : Instr} (h : s.ready i) (ht : isTransfer i = false) (f : Ctx → Group → Group)
    (hf : ∀ c g, f c g = { g with regs := (f c g).regs, preds := (f c g).preds, threads := (f c g).threads })
    (hn : ∀ c g, (f c g).threads.length = g.threads.length)
    (hth : ∀ c g l, (f c g).thr l = { g.thr l with fcsr := ((f c g).thr l).fcsr }) :
    ∃ t g, issueG i s f = .next t ∧ (s.grp s.cur).quiet g ∧
      (let g' := if s.acting i = 0#64 then g else
          f { p := s.cur, ok := Mask.ofLanes s.runLanes, act := s.acting i, k := (s.windowed i).2.1 } g
       (t.grp s.cur).regs = g'.regs ∧ (t.grp s.cur).preds = g'.preds ∧ ∀ l, (t.thr s.cur l).fcsr = (g'.thr l).fcsr) ∧
      s.movedOn t ∧ (∀ l, (t.thr s.cur l).ftret = (s.thr s.cur l).ftret) ∧ (t.grp s.cur).shapeix = (s.grp s.cur).shapeix ∧
      (∀ q, q ≠ s.cur → (t.grp q).regs = (s.grp q).regs ∧ (t.grp q).preds = (s.grp q).preds ∧
        ∀ l, (t.thr q l).fcsr = (s.thr q l).fcsr ∧ (t.thr q l).pc = (s.thr q l).pc) ∧
      (∀ n, (t.lc n).specials = (s.lc n).specials) ∧ t.packageRegs = s.packageRegs ∧
      t.mem = (s.opened i).mem ∧ t.mpoison = (s.opened i).mpoison ∧ ∀ k, (t.team k).stores = (s.team k).stores := by
  have hrun := State.runWith_has s s.cur s.curLane h.issues.run
  have hq := State.quiet_opened s i
  have hhas : (s.opened i).has s.cur = true := (hq.has _).trans hrun
  let c : Ctx := { p := s.cur, ok := Mask.ofLanes s.runLanes, act := s.acting i, k := (s.windowed i).2.1 }
  let g := (s.opened i).grp s.cur
  let F : Group → Group := fun g => if s.acting i = 0#64 then g else f c g
  let u := (s.opened i).modGrp s.cur F
  have hu : u.grp s.cur = F g := State.grp_modGrp _ _ _ hhas
  have huh : u.has s.cur = true := (State.has_modGrp _ _ _ _).trans hhas
  have hFlen : (F g).threads.length = (s.grp s.cur).threads.length := by
    show (if _ then _ else _ : Group).threads.length = _
    split
    · exact (hq.grp s.cur).size
    · rw [hn]; exact (hq.grp s.cur).size
  have hlen : ∀ l ∈ s.runLanes, l < (u.grp s.cur).threads.length := by
    intro l hl; rw [hu, hFlen]; exact (State.mem_runWith hl).2.1
  obtain ⟨hL, hT⟩ := endAll_next i (sig i) s.cur s.runLanes (State.nodup_runWith _ _ _) u huh hlen
  let t := u.endAll s.cur i (sig i) (s.runLanes.map fun l => (l, LaneEnd.next))
  have hFthr : ∀ l, ((F g).thr l) = { g.thr l with fcsr := ((F g).thr l).fcsr } := by
    intro l
    show (if _ then _ else _ : Group).thr l = _
    split
    · rename_i e; simp only [F, e, if_true]
    · rename_i e; simp only [F, e, if_false]; exact hth c g l
  have hu_eq : u = { s.opened i with lcs := u.lcs, teams := u.teams } := by
    have : ∀ (x : State) (p : Party), x.modGrp p F = { x with lcs := (x.modGrp p F).lcs, teams := (x.modGrp p F).teams } := by
      intro x p; cases p <;> rfl
    exact this _ _
  have hcalc : issueG i s f = .next t := by
    unfold issueG
    rw [issue_of_ready h]
    simp only [ht, Bool.not_false, Bool.and_true]
    have hmap : ∀ r : List (Nat × LaneEnd), (∀ l e, assoc l r = some e → e = .next) →
        (s.runLanes.map fun l => (l, (assoc l r).getD LaneEnd.next)) = s.runLanes.map fun l => (l, LaneEnd.next) := by
      intro r hr; apply List.map_congr_left; intro l _
      cases e : assoc l r with
      | none => rfl
      | some v => rw [hr l v e]; rfl
    have hend : (if (s.acting i == 0#64) = true then (s.opened i, ([] : List (Nat × LaneEnd)))
        else ((s.opened i).modGrp s.cur (f c), nexts (s.acting i))) =
        (u, if (s.acting i == 0#64) = true then [] else nexts (s.acting i)) := by
      by_cases e : s.acting i = 0#64
      · simp only [e, beq_self_eq_true, if_true]
        have : u = s.opened i := by
          have hFid : F = id := by funext g; simp [F, e]
          show (s.opened i).modGrp s.cur F = _
          rw [hFid]
          cases hc : s.cur with
          | lc n =>
            have : (fun c : LCore => { c with grp := id c.grp }) = id := rfl
            simp only [State.modGrp, State.modLc, this, setAt, List.modify_id]
          | grp t j =>
            have h1 : ∀ x : Option Group, x.map id = x := fun x => by cases x <;> rfl
            have h2 : ∀ x : Team, x.modGrp j id = x := by
              intro x
              have : (fun x : Option Group => x.map id) = id := funext h1
              simp only [Team.modGrp, setAt, this, List.modify_id]
            simp only [State.modGrp, State.modTeam, h2, ite_self, List.map_id']
        rw [this]
      · have hFf : F = f c := by funext g; simp [F, e]
        have hb : (s.acting i == 0#64) = false := by simp [e]
        rw [if_neg (by simp [hb]), if_neg (by simp [hb])]
        show (_, _) = ((s.opened i).modGrp s.cur F, _)
        rw [hFf]
    rw [hend]
    rw [hmap _ (by
      intro l e
      split
      · intro h; cases h
      · exact assoc_nexts)]
    unfold finish
    have hab : t.absent = none := by
      have e : t.absent = u.absent := by rw [show t = _ from hL.rest]
      rw [e, hu_eq]
      exact h.there
    show (match t.absent with | some pa => _ | none => _) = _
    rw [hab]
  have hgq : ∀ l, (g.thr l) = { (s.thr s.cur l) with st := (g.thr l).st, got := (g.thr l).got } := fun l => ((hq.grp s.cur).thr l).1
  have hthr : ∀ l, ∃ st, t.thr s.cur l = { (if l ∈ s.runLanes then ((F g).thr l).stepped (sig i) else (F g).thr l) with st := st } ∧
      (st = ((F g).thr l).st ∨ st = .parked) := by
    intro l
    have := hT l
    simp only [State.thr, hu] at this
    exact this
  refine ⟨t, g, hcalc, hq.grp s.cur, ⟨?_, ?_, ?_⟩, ?_, ?_, ?_, ?_, ?_, ?_, ?_, ?_, ?_⟩
  · rw [hL.own, hu]
  · rw [hL.own, hu]
  · intro l
    obtain ⟨st, e, -⟩ := hthr l
    rw [e]; split <;> rfl
  · intro l hl
    obtain ⟨st, e, hst⟩ := hthr l
    rw [e, if_pos hl]
    constructor
    · show ((F g).thr l).pc + 8#64 = _
      rw [hFthr l]; rw [hgq l]
    · rcases hst with rfl | rfl
      · show ((F g).thr l).st = _ ∨ ((F g).thr l).st = _
        rw [hFthr l]
        rcases ((hq.grp s.cur).thr l).2 with e' | e' | e'
        · exact .inl (e'.trans (State.mem_runWith hl).2.2)
        · exact .inl e'
        · exact .inr e'
      · exact .inr rfl
  · intro l
    obtain ⟨st, e, -⟩ := hthr l
    rw [e]
    have : ((F g).thr l).ftret = (s.thr s.cur l).ftret := by rw [hFthr l, hgq l]
    split
    · exact this
    · exact this
  · rw [hL.own, hu]
    show (F g).shapeix = _
    have : (F g).shapeix = g.shapeix := by
      show (if _ then _ else _ : Group).shapeix = _
      split
      · rfl
      · rw [hf c g]
    rw [this]; exact (hq.grp s.cur).shapeix
  · intro q hne
    have e1 : t.grp q = (s.opened i).grp q := (hL.others q hne).trans (State.grp_modGrp_ne _ _ _ _ hne)
    have hqq := hq.grp q
    rw [e1]
    refine ⟨hqq.regs, hqq.preds, fun l => ?_⟩
    simp only [State.thr, e1]
    rw [(hqq.thr l).1]
    exact ⟨rfl, rfl⟩
  · intro n
    rw [hL.lc n]
    show (u.lc n).specials = _
    have : (u.lc n).specials = ((s.opened i).lc n).specials := by
      show (((s.opened i).modGrp s.cur F).lc n).specials = _
      cases hc : s.cur with
      | lc k =>
        have hk : k < (s.opened i).lcs.length := by
          have := hhas; rw [hc] at this; simpa [State.has] using this
        simp only [State.modGrp, State.lc_modLc _ _ _ _ hk]
        split <;> rfl
      | grp a b => rfl
    rw [this, hq.specials n]
  · have e : t.packageRegs = u.packageRegs := by rw [show t = _ from hL.rest]; rfl
    rw [e, hu_eq]
    simp only [State.packageRegs, hq.same.packint, hq.same.capbase, hq.same.admode, hq.same.tdlim, hq.same.drainint, hq.same.finj]
  · have e : t.mem = u.mem := by rw [show t = _ from hL.rest]
    rw [e, hu_eq]
  · have e : t.mpoison = u.mpoison := by rw [show t = _ from hL.rest]
    rw [e, hu_eq]
  · intro k
    rw [hL.teams k]
    exact (State.stores_modGrp (s.opened i) s.cur F k).trans (hq.stores k)

/-! ### Shapes of results -/

theorem Group.src_congr {g h : Group} (e : g.regs = h.regs) (k : OKind) (n : Nat) (c : BitVec 10) : g.src k n c = h.src k n c := by
  simp only [Group.src, Group.rd64, Group.rd, Group.reg, Group.hintOf, Group.poi, e]; rfl
theorem Group.pred_congr {g h : Group} (e : g.preds = h.preds) (n l : Nat) : g.pred n l = h.pred n l := by simp only [Group.pred, e]
/-- The context of the body of a ready instruction. -/
def State.ctx (s : State) (i : Instr) : Ctx :=
  { p := s.cur, ok := Mask.ofLanes s.runLanes, act := s.acting i, k := (s.windowed i).2.1 }

theorem byte_congr {s t : State} (h : t.mem = s.mem) (a : Nat) : t.byte a = s.byte a := by simp only [State.byte, h]

@[simp] theorem orFlags_zero (x : W32) : orFlags x 0#32 = x := by simp [orFlags]

/-- An instruction that changes registers and predicates of its own group: it completes with what its body makes of them. -/
theorem issueG_completes {s : State} {i : Instr} (h : s.ready i) (ht : isTransfer i = false) (f : Ctx → Group → Group) (rs ps : List Nat)
    (hf : ∀ c g, f c g = { g with regs := (f c g).regs, preds := (f c g).preds })
    (hr : ∀ g r, r ∉ rs → (f (s.ctx i) g).reg r = g.reg r) (hp : ∀ g n l, n ∉ ps → (f (s.ctx i) g).pred n l = g.pred n l)
    (results : State → Prop)
    (hres : ∀ (t : State) (g : Group), (s.grp s.cur).quiet g → s.acting i ≠ 0#64 → (t.grp s.cur).regs = (f (s.ctx i) g).regs →
      (t.grp s.cur).preds = (f (s.ctx i) g).preds → results t)
    (hnone : s.acting i = 0#64 → ∀ t, results t) :
    completesAs (issueG i s f) i s rs ps results := by
  obtain ⟨t, g, e, hg, ⟨h1, h3, h4⟩, hm, hft, hsx, ho, hc, hp', hmem, hpo, hts⟩ :=
    issueG_ready h ht f (fun c g => by rw [hf]) (fun c g => by rw [hf]) (fun c g l => by rw [hf]; rfl)
  have hth : ∀ l, ((f (s.ctx i) g).thr l).fcsr = (g.thr l).fcsr := by intro l; rw [hf]; rfl
  refine ⟨t, e, ?_, hm, ⟨?_, ?_, ?_, hft, hsx, ho, hc, hp', fun a => byte_congr hmem a, hpo⟩, fun _ => hts⟩
  · by_cases he : s.acting i = 0#64
    · exact hnone he t
    · simp only [if_neg he] at h1 h3
      exact hres t g hg he h1 h3
  · intro r hrr
    have : (t.grp s.cur).reg r = g.reg r := by
      simp only [Group.reg, h1]
      split
      · rfl
      · exact hr g r hrr
    rw [this]; simp only [Group.reg, hg.regs]
  · intro n l hn
    have : (t.grp s.cur).pred n l = g.pred n l := by
      refine (Group.pred_congr h3 n l).trans ?_
      split
      · rfl
      · exact hp g n l hn
    rw [this]; exact Group.pred_congr hg.preds n l
  · intro l
    rw [h4 l, orFlags_zero]
    have hq : (g.thr l).fcsr = ((s.grp s.cur).thr l).fcsr := by rw [(hg.thr l).1]
    split
    · exact hq
    · exact (hth l).trans hq

theorem not_mem_destPred {d : BitVec 10} {n : Nat} (h : n ∉ destPred d) : n ≠ d.toNat ∨ 7 ≤ d.toNat := by
  unfold destPred at h; split at h
  · left; simpa using h
  · right; omega

theorem Group.pred_putP_other (g : Group) (d : BitVec 10) (act : Mask) (val : Nat → Bool) (h : Hint) (poi : Mask) {n : Nat} (l : Nat)
    (hn : n ∉ destPred d) : (g.putP d act val h poi).pred n l = g.pred n l := by
  unfold Group.putP
  split
  · rcases not_mem_destPred hn with hne | h7
    · exact Group.pred_wrP_other g d.toNat n l act val _ poi hne
    · unfold Group.wrP; rw [if_pos h7]
  · rfl

/-- An instruction whose result is one predicate. -/
theorem issueG_putP {s : State} {i : Instr} (h : s.ready i) (ht : isTransfer i = false) (d : BitVec 10) (V : Ctx → Group → Nat → Bool)
    (H : Ctx → Group → Hint) (P : Ctx → Group → Mask) (v : Nat → Bool)
    (hv : ∀ g : Group, (s.grp s.cur).quiet g → ∀ l, Mask.has (s.acting i) l = true → V (s.ctx i) g l = v l) :
    s.decidesAs (issueG i s fun c g => g.putP d c.act (V c g) (H c g) (P c g)) i d v := by
  refine issueG_completes h ht (fun c g => g.putP d c.act (V c g) (H c g) (P c g)) [] (destPred d) (fun c g => ?_) (fun g r _ => ?_)
    (fun g n l hn => Group.pred_putP_other _ _ _ _ _ _ _ hn) (fun t => d.toNat < 7 → ∀ l, Mask.has (s.acting i) l = true →
      (t.grp s.cur).pred d.toNat l = v l) (fun t g hg _ h1 h2 hd l hl => ?_) (fun h0 t hd l hl => ?_)
  · unfold Group.putP Group.wrP; repeat' split
    all_goals rfl
  · unfold Group.putP Group.wrP; repeat' split
    all_goals rfl
  · rw [Group.pred_congr h2, Group.putP, if_pos (by omega)]
    have hl' : Mask.has (s.ctx i).act l = true := hl
    rw [Group.pred_wrP _ _ _ _ _ _ _ (Mask.has_lt hl) hd, if_pos hl']
    exact hv g hg l hl
  · rw [h0, Mask.has_zero] at hl; cases hl

/-- Two bodies that agree where a ready instruction runs them. -/
theorem issue_congr {s : State} {i : Instr} (h : s.ready i) (f g : State → Ctx → State × List (Nat × LaneEnd))
    (e : f (s.opened i) (s.ctx i) = g (s.opened i) (s.ctx i)) : issue i s f = issue i s g := by
  rw [issue_of_ready h, issue_of_ready h]
  have : ({ p := s.cur, ok := Mask.ofLanes s.runLanes, act := s.acting i, k := (s.windowed i).2.1 } : Ctx) = s.ctx i := rfl
  simp only [this, e]

/-- An instruction whose result is one value of one or two registers. -/
theorem issueG_put {s : State} {i : Instr} (h : s.ready i) (ht : isTransfer i = false) {n : Nat} (hn : n = 1 ∨ n = 2) (d : BitVec 10)
    (V : Ctx → Group → Nat → W64) (H : Ctx → Group → Hint) (P : Ctx → Group → Mask)
    (R : Nat → W64 → Prop)
    (hR : ∀ g : Group, (s.grp s.cur).quiet g → ∀ l, Mask.has (s.acting i) l = true →
      R l (if n = 2 then V (s.ctx i) g l else (lo32 (V (s.ctx i) g l)).setWidth 64)) :
    s.putsAs (issueG i s fun c g => g.put n d c.act (V c g) (H c g) (P c g)) i n d R := by
  refine issueG_completes h ht (fun c g => g.put n d c.act (V c g) (H c g) (P c g)) (destRegs n d) [] (fun c g => by rw [Group.put_same])
    (fun g r hr => Group.put_reg _ _ _ _ hn hr) (fun g k l _ => by rw [Group.put_same]; rfl)
    (fun t => inReg d = true → ∀ l, Mask.has (s.acting i) l = true → R l (t.dest s.cur n d l))
    (fun t g hg _ h1 _ hin l hl => ?_) (fun h0 t _ l hl => by rw [h0, Mask.has_zero] at hl; cases hl)
  have hdest : t.dest s.cur n d l = if n = 2 then (g.put n d (s.acting i) (V (s.ctx i) g) (H (s.ctx i) g) (P (s.ctx i) g)).rd64 l d.toNat
      else ((g.put n d (s.acting i) (V (s.ctx i) g) (H (s.ctx i) g) (P (s.ctx i) g)).rd l d.toNat).setWidth 64 := by
    simp only [State.dest, Group.rd64, Group.rd, Group.reg, h1]
    rfl
  rw [hdest, Group.dest_put _ hn hin (by rw [hg.live]; exact (State.acting_lane hl).1)
    (by simp only [Group.single, hg.size]; exact (State.acting_lane hl).2) hl]
  exact hR g hg l hl

end Sys2Proof.Machine
end

