-- ==== Sys2Proof/Laws/Integer.lean ====
section
/-!
SUPPORT. The shapes of the integer instructions: each gives in every element of its destination the operation on the elements of its
sources.
-/

namespace Sys2Proof.Machine

/-! ### Elements -/

theorem el_eq (z : ISize) (k : Nat) (x : W64) : el z.width k x = (elem z k x).toNat := by
  simp only [el, elem, BitVec.extractLsb'_toNat, Nat.shiftRight_eq_div_pow]

/-- The elements of a result of one or two registers. -/
theorem elem_unEl (z : ISize) (f : Nat → Nat) (k : Nat) (hk : k < z.count) :
    elem z k (if z.n = 2 then unEl z.width ((List.range z.count).map f) else (lo32 (unEl z.width ((List.range z.count).map f))).setWidth 64) =
      BitVec.ofNat z.width (f k) := by
  apply BitVec.eq_of_toNat_eq
  simp only [elem, BitVec.extractLsb'_toNat, BitVec.toNat_ofNat, Nat.shiftRight_eq_div_pow, lo32, BitVec.truncate_eq_setWidth]
  cases z with
  | w => have : k = 0 := by simp [ISize.count] at hk; omega
         subst this
         simp [ISize.width, ISize.n, ISize.count, unEl]
  | d => have : k = 0 := by simp [ISize.count] at hk; omega
         subst this
         simp [ISize.width, ISize.n, ISize.count, unEl]
  | h2 =>
    have : k = 0 ∨ k = 1 := by simp [ISize.count] at hk; omega
    rcases this with rfl | rfl <;> simp [ISize.width, ISize.n, ISize.count, unEl, List.range_succ] <;> omega
  | b4 =>
    have : k = 0 ∨ k = 1 ∨ k = 2 ∨ k = 3 := by simp [ISize.count] at hk; omega
    rcases this with rfl | rfl | rfl | rfl <;> simp [ISize.width, ISize.n, ISize.count, unEl, List.range_succ] <;> omega

theorem elem_map1 (z : ISize) (f : Nat → Nat) (a : W64) (k : Nat) (hk : k < z.count) :
    elem z k (if z.n = 2 then map1 z f a else (lo32 (map1 z f a)).setWidth 64) = BitVec.ofNat z.width (f (elem z k a).toNat) := by
  unfold map1; rw [elem_unEl z _ k hk, el_eq]
theorem elem_map2 (z : ISize) (f : Nat → Nat → Nat) (a b : W64) (k : Nat) (hk : k < z.count) :
    elem z k (if z.n = 2 then map2 z f a b else (lo32 (map2 z f a b)).setWidth 64) =
      BitVec.ofNat z.width (f (elem z k a).toNat (elem z k b).toNat) := by
  unfold map2; rw [elem_unEl z _ k hk, el_eq, el_eq]
theorem elem_map3 (z : ISize) (f : Nat → Nat → Nat → Nat) (a b c : W64) (k : Nat) (hk : k < z.count) :
    elem z k (if z.n = 2 then map3 z f a b c else (lo32 (map3 z f a b c)).setWidth 64) =
      BitVec.ofNat z.width (f (elem z k a).toNat (elem z k b).toNat (elem z k c).toNat) := by
  unfold map3; rw [elem_unEl z _ k hk, el_eq, el_eq, el_eq]

theorem ISize.n_cases (z : ISize) : z.n = 1 ∨ z.n = 2 := by cases z <;> simp [ISize.n]
theorem DSize.n_cases (z : DSize) : z.n = 1 ∨ z.n = 2 := by cases z <;> simp [DSize.n]
@[simp] theorem DSize.isize_n (z : DSize) : z.isize.n = z.n := by cases z <;> rfl
@[simp] theorem DSize.isize_kind (z : DSize) : z.isize.kind = .int := by cases z <;> rfl

/-! ### The shapes -/

/-- A result of elements. -/
theorem issueG_elems {s : State} {i : Instr} (h : s.ready i) (ht : isTransfer i = false) (z : ISize) (d : BitVec 10)
    (V : Ctx → Group → Nat → W64) (H : Ctx → Group → Hint) (P : Ctx → Group → Mask)
    (R : (l k : Nat) → BitVec z.width → Prop)
    (hR : ∀ g : Group, (s.grp s.cur).quiet g → ∀ l, Mask.has (s.acting i) l = true → ∀ k, k < z.count →
      R l k (elem z k (if z.n = 2 then V (s.ctx i) g l else (lo32 (V (s.ctx i) g l)).setWidth 64))) :
    s.givesAs (issueG i s fun c g => g.put z.n d c.act (V c g) (H c g) (P c g)) i z d R := by
  obtain ⟨t, e, hr, hm, hk⟩ := issueG_put h ht (ISize.n_cases z) d V H P (fun l x => ∀ k, k < z.count → R l k (elem z k x))
    (fun g hg l hl k hk => hR g hg l hl k hk)
  exact ⟨t, e, hr, hm, hk⟩

theorem quiet_src {s : State} {g : Group} (hg : (s.grp s.cur).quiet g) (k : OKind) (n : Nat) (c : BitVec 10) :
    g.src k n c = (s.grp s.cur).src k n c := Group.src_congr hg.regs k n c

/-- B of a ready instruction. -/
theorem srcB_val {s : State} {g : Group} (i : Instr) (hg : (s.grp s.cur).quiet g) (k : OKind) (n : Nat) (w : BaseW) (l : Nat) :
    (g.srcB k n w (s.windowed i).2.1).val l = s.opndB i k n w l := by
  unfold Group.srcB State.opndB State.opnd; split
  · rfl
  · rw [quiet_src hg]

theorem intAB_gives {s : State} {i : Instr} (h : s.ready i) (ht : isTransfer i = false) (z : ISize) (w : BaseW) (tag : Src → Src → Hint)
    (f : Nat → Nat → Nat)
    {R : (l k : Nat) → BitVec z.width → Prop}
    (hR : ∀ l k, R l k (BitVec.ofNat z.width (f (s.elA z w.a l k).toNat (s.elB i z w l k).toNat))) :
    s.givesAs (intAB i z w s tag f) i z w.d R := by
  refine issueG_elems h ht z w.d
    (fun c g l => map2 z f ((g.src z.kind z.n w.a).val l) ((g.srcB z.kind z.n w c.k).val l))
    (fun c g => tag (g.src z.kind z.n w.a) (g.srcB z.kind z.n w c.k))
    (fun c g => poiOf [g.src z.kind z.n w.a, g.srcB z.kind z.n w c.k]) _ ?_
  · intro g hg l _ k hk
    rw [elem_map2 z f _ _ k hk, show (s.ctx i).k = (s.windowed i).2.1 from rfl, srcB_val i hg, quiet_src hg]
    exact hR l k

/-- The count operand of a size (R137): one register, whole in every size but the packed ones. -/
def countOf (z : ISize) (x : W64) : W64 := if z = .d then x &&& 0xFFFFFFFF#64 else x
theorem countOf_eq (s : State) (i : Instr) (z : ISize) (w : BaseW) (l k : Nat) (hk : k < z.count) :
    (elem z k (countOf z (s.opndB i z.kind 1 w l))).toNat = s.countB i z w l k := by
  unfold State.countB
  cases z with
  | w =>
    have : k = 0 := by simp [ISize.count] at hk; omega
    subst this
    simp [countOf, elem, ISize.width]
  | d =>
    have : k = 0 := by simp [ISize.count] at hk; omega
    subst this
    have e : (0xFFFFFFFF : Nat) = 2 ^ 32 - 1 := rfl
    simp [countOf, elem, ISize.width, BitVec.toNat_and]
    rw [e, Nat.and_two_pow_sub_one_eq_mod]
  | h2 => rfl
  | b4 => rfl

theorem intCount_gives {s : State} {i : Instr} (h : s.ready i) (ht : isTransfer i = false) (z : ISize) (w : BaseW) (tag : Src → Src → Hint)
    (f : Nat → Nat → Nat)
    {R : (l k : Nat) → BitVec z.width → Prop}
    (hR : ∀ l k, R l k (BitVec.ofNat z.width (f (s.elA z w.a l k).toNat (s.countB i z w l k)))) :
    s.givesAs (intCount i z w s tag f) i z w.d R := by
  refine issueG_elems h ht z w.d
    (fun c g l => map2 z f ((g.src z.kind z.n w.a).val l) (countOf z ((g.srcB z.kind 1 w c.k).val l)))
    (fun c g => tag (g.src z.kind z.n w.a) (g.srcB z.kind 1 w c.k))
    (fun c g => poiOf [g.src z.kind z.n w.a, g.srcB z.kind 1 w c.k]) _ ?_
  · intro g hg l _ k hk
    rw [elem_map2 z f _ _ k hk, show (s.ctx i).k = (s.windowed i).2.1 from rfl, srcB_val i hg, quiet_src hg, countOf_eq _ _ _ _ _ _ hk]
    exact hR l k

theorem intImm_gives {s : State} {i : Instr} (h : s.ready i) (ht : isTransfer i = false) (z : DSize) (w : ImmW) (tag : Src → Src → Hint)
    (f : Nat → Nat → Nat)
    {R : (l k : Nat) → BitVec z.isize.width → Prop}
    (hR : ∀ l k, R l k (BitVec.ofNat z.isize.width (f (s.elA z.isize w.a l k).toNat (elem z.isize k (w.imm.signExtend 64)).toNat))) :
    s.givesAs (intImm i z w s tag f) i (z.isize) w.d R := by
  have := issueG_elems h ht z.isize w.d (fun c g l => map2 z.isize f ((g.src .int z.n w.a).val l) ((immSrc w.imm).val l))
    (fun c g => tag (g.src .int z.n w.a) (immSrc w.imm)) (fun c g => poiOf [g.src .int z.n w.a, immSrc w.imm])
    R (by
      intro g hg l _ k hk
      rw [elem_map2 z.isize f _ _ k hk, quiet_src hg]
      have := hR l k
      simp only [State.elA, DSize.isize_n, DSize.isize_kind] at this
      exact this)
  simpa only [DSize.isize_n, intImm] using this

theorem intA_gives {s : State} {i : Instr} (h : s.ready i) (ht : isTransfer i = false) (z : ISize) (w : BaseW) (f : Nat → Nat)
    {R : (l k : Nat) → BitVec z.width → Prop} (hR : ∀ l k, R l k (BitVec.ofNat z.width (f (s.elA z w.a l k).toNat))) :
    s.givesAs (intA i z w s f) i z w.d R := by
  refine issueG_elems h ht z w.d (fun c g l => map1 z f ((g.src z.kind z.n w.a).val l))
    (fun c g => tagOf [g.src z.kind z.n w.a]) (fun c g => poiOf [g.src z.kind z.n w.a]) _ ?_
  · intro g hg l _ k hk
    rw [elem_map1 z f _ k hk, quiet_src hg]
    exact hR l k

/-- The third operand of `intABC`. -/
def thirdOf (z : ISize) (nc : Nat) (v : W64) : W64 := if nc = 1 && z = .d then v &&& 0xFFFFFFFF#64 else v

/-- The one element of a word. -/
theorem elem_w (v : W64) {k : Nat} (hk : k < ISize.w.count) : elem .w k v = v.setWidth 32 := by
  have : k = 0 := by simp [ISize.count] at hk; omega
  subst this
  apply BitVec.eq_of_toNat_eq; simp [elem, ISize.width]
/-- A third operand of one register is that register's 32 bits. -/
theorem elem_third (z : DSize) (v : W64) {k : Nat} (hk : k < z.isize.count) :
    (elem z.isize k (thirdOf z.isize 1 v)).toNat = (v.setWidth 32).toNat := by
  cases z with
  | w => exact congrArg BitVec.toNat (elem_w v hk)
  | d =>
    have : k = 0 := by simp [DSize.isize, ISize.count] at hk; omega
    subst this
    have e : (0xFFFFFFFF : Nat) = 2 ^ 32 - 1 := rfl
    simp [thirdOf, elem, DSize.isize, ISize.width, BitVec.toNat_and]
    rw [e, Nat.and_two_pow_sub_one_eq_mod]

theorem intABC_gives {s : State} {i : Instr} (h : s.ready i) (ht : isTransfer i = false) (z : ISize) (w : BaseW) (nc : Nat)
    (f : Nat → Nat → Nat → Nat) {R : (l k : Nat) → BitVec z.width → Prop}
    (hR : ∀ l k, k < z.count → R l k (BitVec.ofNat z.width (f (s.elA z w.a l k).toNat (s.elA z w.b l k).toNat
      (elem z k (thirdOf z nc (s.opnd z.kind nc w.c l))).toNat))) :
    s.givesAs (intABC i z w s nc f) i z w.d R := by
  refine issueG_elems h ht z w.d
    (fun c g l => map3 z f ((g.src z.kind z.n w.a).val l) ((g.src z.kind z.n w.b).val l) (thirdOf z nc ((g.src z.kind nc w.c).val l)))
    (fun c g => tagOf [g.src z.kind z.n w.a, g.src z.kind z.n w.b, g.src z.kind nc w.c])
    (fun c g => poiOf [g.src z.kind z.n w.a, g.src z.kind z.n w.b, g.src z.kind nc w.c]) _ ?_
  · intro g hg l _ k hk
    rw [elem_map3 z f _ _ _ k hk, quiet_src hg, quiet_src hg, quiet_src hg]
    exact hR l k hk

end Sys2Proof.Machine
end

