-- ==== Sys2Proof/Laws/Float.lean ====
section
/-!
SUPPORT. The shape of the float instructions (R104, R156): results in registers or predicates, raised flags ORed into `s.fcsr`.
-/

namespace Sys2Proof.Machine

theorem poiOf_has (ss : List Src) (l : Nat) : Mask.has (poiOf ss) l = ss.any fun x => Mask.has x.poi l := by
  suffices H : ∀ m : Mask, Mask.has (ss.foldl (fun m s => m ||| s.poi) m) l = (Mask.has m l || ss.any fun x => Mask.has x.poi l) by
    rw [poiOf, H, Mask.has_zero, Bool.false_or]
  induction ss with
  | nil => intro m; simp
  | cons a as ih => intro m; rw [List.foldl_cons, ih, Mask.has_or, List.any_cons, Bool.or_assoc]

theorem assoc_map_lanes {β : Type} (f : Nat → β) (ls : List Nat) (l : Nat) :
    assoc l (ls.map fun k => (k, f k)) = if l ∈ ls then some (f l) else none := by
  induction ls with
  | nil => rfl
  | cons a as ih =>
    unfold assoc at *
    simp only [List.map_cons, List.find?_cons]
    by_cases e : a = l
    · subst e; simp
    · have : (a == l) = false := by simpa using e
      simp only [this, ih, List.mem_cons]
      simp [Ne.symm e]

/-- No lane raises an enabled flag: the instruction changes its group as `floatGroup` says, and the run moves on. -/
theorem floatOp_eq {s : State} {i : Instr} (h : s.ready i) (rm : Nat) (srcs : Ctx → Group → List Src)
    (f : Group → Nat → Nat → Bool → List W64 → FOut) (wr : Group → Mask → (Nat → List W32) → Hint → Mask → Group)
    (hn : floatTraps rm (srcs (s.ctx i) ((s.opened i).grp s.cur)) f (s.acting i) ((s.opened i).grp s.cur) = []) :
    floatOp i s rm srcs f wr = issueG i s fun c g => floatGroup rm (srcs c g) f wr c.act g := by
  unfold floatOp issueG
  refine issue_congr h _ _ ?_
  simp only [show (s.ctx i).p = s.cur from rfl, show (s.ctx i).act = s.acting i from rfl, hn]
  rfl

/-- A float instruction completes with what `wr` makes of its group, and its flags are ORed in. -/
theorem floatOp_completes {s : State} {i : Instr} (h : s.ready i) (ht : isTransfer i = false) (rm : Nat) (srcs : Ctx → Group → List Src)
    (f : Group → Nat → Nat → Bool → List W64 → FOut) (wr : Group → Mask → (Nat → List W32) → Hint → Mask → Group) (S : List Src)
    (hS : ∀ g : Group, (s.grp s.cur).quiet g → srcs (s.ctx i) g = S) (F : Nat → FOut)
    (hF : ∀ g : Group, (s.grp s.cur).quiet g → ∀ l, Mask.has (s.acting i) l = true →
      f g l (rmIn (s.thr s.cur l).fcsr rm) (fzIn (s.thr s.cur l).fcsr) (S.map fun x => x.val l) = F l)
    (fl : Nat → Flags) (hfl : ∀ l, fl l = (F l).2) (rs ps : List Nat)
    (hwr : ∀ g who v hh poi, wr g who v hh poi = { g with regs := (wr g who v hh poi).regs, preds := (wr g who v hh poi).preds })
    (hr : ∀ g who v hh poi r, r ∉ rs → (wr g who v hh poi).reg r = g.reg r)
    (hp : ∀ g who v hh poi n l, n ∉ ps → (wr g who v hh poi).pred n l = g.pred n l) (results : State → Prop)
    (hres : ∀ (t : State) (g : Group) (v : Nat → List W32), g.live = (s.grp s.cur).live → g.single = (s.grp s.cur).single →
      (∀ l, Mask.has (s.acting i) l = true → v l = (F l).1) →
      (t.grp s.cur).regs = (wr g (s.acting i) v (tagOf S) (poiOf S)).regs →
      (t.grp s.cur).preds = (wr g (s.acting i) v (tagOf S) (poiOf S)).preds → results t)
    (hnone : s.acting i = 0#64 → ∀ t, results t) :
    s.floatsAs (floatOp i s rm srcs f wr) i S fl rs ps results := by
  intro hen
  have hlane : ∀ g : Group, (s.grp s.cur).quiet g → ∀ l, Mask.has (s.acting i) l = true →
      floatLane rm S f g l = ((F l).1, s.raised i S fl l) := by
    intro g hg l hl
    have e : (g.thr l).fcsr = (s.thr s.cur l).fcsr := by rw [(hg.thr l).1]; rfl
    simp only [floatLane, e, hF g hg l hl, poiOf_has, State.raised, hl, Bool.true_and, hfl]
    cases hb : S.any fun x => Mask.has x.poi l <;> simp
  have htr : ∀ g : Group, (s.grp s.cur).quiet g → floatTraps rm (srcs (s.ctx i) g) f (s.acting i) g = [] := by
    intro g hg
    have e : ∀ l, (g.thr l).fcsr = (s.thr s.cur l).fcsr := fun l => by rw [(hg.thr l).1]; rfl
    rw [hS g hg, floatTraps, List.filter_eq_nil_iff]
    intro l hl
    have hl' := (Mask.mem_lanes _ _).1 hl
    rw [hlane g hg l hl', e, hen l hl']
    simp
  rw [floatOp_eq h rm srcs f wr (htr _ ((State.quiet_opened s i).grp s.cur))]
  have hwho : ∀ g : Group, (s.grp s.cur).quiet g →
      s.acting i &&& ~~~(Mask.ofLanes (floatTraps rm (srcs (s.ctx i) g) f (s.acting i) g)) = s.acting i := by
    intro g hg; rw [htr g hg]; show s.acting i &&& ~~~0#64 = s.acting i; rw [show (~~~0#64 : BitVec 64) = BitVec.allOnes 64 from rfl, BitVec.and_allOnes]
  have hsame : ∀ c g, floatGroup rm (srcs c g) f wr c.act g =
      { g with regs := (floatGroup rm (srcs c g) f wr c.act g).regs, preds := (floatGroup rm (srcs c g) f wr c.act g).preds,
               threads := (floatGroup rm (srcs c g) f wr c.act g).threads } := by
    intro c g; unfold floatGroup; simp only []; split
    · rfl
    · rw [hwr]
  have hthr : ∀ (c : Ctx) (g : Group), (floatGroup rm (srcs c g) f wr c.act g).threads =
      g.threads.mapIdx fun l t => if Mask.has c.act l then
        { t with fcsr := orFlags t.fcsr ((assoc l ((Mask.lanes c.act).map fun l => (l, floatLane rm (srcs c g) f g l))).getD ([], 0#32)).2 } else t := by
    intro c g; unfold floatGroup; simp only []; split
    · rfl
    · rw [hwr]
  have hthr1 : ∀ (c : Ctx) (g : Group) l, (floatGroup rm (srcs c g) f wr c.act g).thr l =
      { g.thr l with fcsr := ((floatGroup rm (srcs c g) f wr c.act g).thr l).fcsr } := by
    intro c g l
    simp only [Group.thr, hthr, List.getD_eq_getElem?_getD, List.getElem?_mapIdx]
    cases g.threads[l]? with
    | none => rfl
    | some x => simp only [Option.map_some, Option.getD_some]; split <;> rfl
  have hthrA : ∀ g : Group, (floatGroup rm (srcs (s.ctx i) g) f wr (s.acting i) g).threads = g.threads.mapIdx fun l t =>
      if Mask.has (s.acting i) l then { t with fcsr := orFlags t.fcsr ((assoc l ((Mask.lanes (s.acting i)).map fun l =>
        (l, floatLane rm (srcs (s.ctx i) g) f g l))).getD ([], 0#32)).2 } else t := fun g => hthr (s.ctx i) g
  obtain ⟨t, g, e, hg, ⟨h1, h3, h4⟩, hm, hft, hsx, ho, hc, hpk, hmem, hpo, hts⟩ :=
    issueG_ready h ht (fun c g => floatGroup rm (srcs c g) f wr c.act g) hsame (fun c g => by rw [hthr, List.length_mapIdx]) hthr1
  have hctx : ({ p := s.cur, ok := Mask.ofLanes s.runLanes, act := s.acting i, k := (s.windowed i).2.1 } : Ctx) = s.ctx i := rfl
  simp only [hctx] at h1 h3 h4
  have hgrp : s.acting i ≠ 0#64 → ∃ (g1 : Group) (v : Nat → List W32), g1.live = g.live ∧ g1.single = g.single ∧ g1.regs = g.regs ∧
      g1.preds = g.preds ∧ (∀ l, Mask.has (s.acting i) l = true → v l = (F l).1) ∧
      floatGroup rm (srcs (s.ctx i) g) f wr (s.acting i) g = wr g1 (s.acting i) v (tagOf S) (poiOf S) := by
    intro hne
    refine ⟨{ g with threads := (floatGroup rm (srcs (s.ctx i) g) f wr (s.acting i) g).threads },
      fun l => ((assoc l ((Mask.lanes (s.acting i)).map fun l => (l, floatLane rm S f g l))).getD ([], 0#32)).1, rfl, ?_, rfl, rfl, ?_, ?_⟩
    · simp only [Group.single, hthrA, List.length_mapIdx]
    · intro l hl
      simp only [assoc_map_lanes, if_pos ((Mask.mem_lanes _ _).2 hl), Option.getD_some, hlane g hg l hl]
    · have hw := hwho g hg
      rw [hthrA]
      unfold floatGroup
      simp only []
      rw [hw, if_neg (by simpa using hne), hS g hg]
  have hnext : s.acting i = 0#64 → (t.grp s.cur).regs = g.regs ∧ (t.grp s.cur).preds = g.preds := by
    intro e0; rw [if_pos e0] at h1 h3; exact ⟨h1, h3⟩
  refine ⟨t, e, ?_, hm, ⟨?_, ?_, ?_, hft, hsx, ho, hc, hpk, fun a => byte_congr hmem a, hpo⟩, fun _ => hts⟩
  · by_cases he : s.acting i = 0#64
    · exact hnone he t
    · obtain ⟨g1, v, e1, e2, -, -, e3, e4⟩ := hgrp he
      rw [if_neg he, e4] at h1 h3
      exact hres t g1 v (e1.trans hg.live) (e2.trans (by simp only [Group.single, hg.size])) e3 h1 h3
  · intro r hrr
    have : (t.grp s.cur).reg r = g.reg r := by
      by_cases he : s.acting i = 0#64
      · simp only [Group.reg, (hnext he).1]
      · obtain ⟨g1, v, -, -, er, -, -, e4⟩ := hgrp he
        rw [if_neg he, e4] at h1
        have := hr g1 (s.acting i) v (tagOf S) (poiOf S) r hrr
        simp only [Group.reg] at this ⊢
        rw [h1, this, er]
    rw [this]; simp only [Group.reg, hg.regs]
  · intro n l hn
    have : (t.grp s.cur).pred n l = g.pred n l := by
      by_cases he : s.acting i = 0#64
      · exact Group.pred_congr (hnext he).2 n l
      · obtain ⟨g1, v, -, -, -, er, -, e4⟩ := hgrp he
        rw [if_neg he, e4] at h3
        rw [Group.pred_congr h3, hp _ _ _ _ _ _ _ hn, Group.pred_congr er]
    rw [this]; exact Group.pred_congr hg.preds n l
  · intro l
    rw [h4 l]
    have hq : (g.thr l).fcsr = (s.thr s.cur l).fcsr := by rw [(hg.thr l).1]; rfl
    by_cases he : s.acting i = 0#64
    · rw [if_pos he, hq]
      have : s.raised i S fl l = 0#32 := by unfold State.raised; rw [he, Mask.has_zero]; rfl
      rw [this, orFlags_zero]
    · rw [if_neg he]
      simp only [Group.thr, hthrA, List.getD_eq_getElem?_getD, List.getElem?_mapIdx]
      cases hx : g.threads[l]? with
      | none =>
        have hnl : Mask.has (s.acting i) l = false := by
          by_cases hl : Mask.has (s.acting i) l = true
          · have h1 := (State.mem_runWith (State.acting_mem hl).1).2.1
            rw [List.getElem?_eq_none_iff, hg.size] at hx
            omega
          · simpa using hl
        have hr0 : s.raised i S fl l = 0#32 := by unfold State.raised; rw [hnl]; rfl
        rw [hr0, orFlags_zero, ← hq]
        simp [Group.thr, List.getD_eq_getElem?_getD, hx]
      | some x =>
        have hx' : (g.thr l).fcsr = x.fcsr := by simp [Group.thr, List.getD_eq_getElem?_getD, hx]
        simp only [Option.map_some, Option.getD_some]
        by_cases hl : Mask.has (s.acting i) l = true
        · rw [if_pos hl, assoc_map_lanes, if_pos ((Mask.mem_lanes _ _).2 hl), Option.getD_some, hS g hg, hlane g hg l hl]
          simp only [← hx', hq]
        · have hr0 : s.raised i S fl l = 0#32 := by unfold State.raised; simp [hl]
          rw [if_neg hl, hr0, orFlags_zero, ← hx', hq]

/-! ### Results in registers -/

theorem wrRegs_same (d : BitVec 10) (n : Nat) (g : Group) (who : Mask) (v : Nat → List W32) (h : Hint) (poi : Mask) :
    wrRegs d n g who v h poi = { g with regs := (wrRegs d n g who v h poi).regs, preds := (wrRegs d n g who v h poi).preds } := by
  unfold wrRegs
  split
  · suffices H : ∀ (ls : List Nat) (k : Group), (k = { g with regs := k.regs, preds := k.preds }) →
        (ls.foldl (fun g k => g.wr (d.toNat + k) who (fun l => (v l).getD k 0#32) h poi) k =
          { g with regs := (ls.foldl (fun g k => g.wr (d.toNat + k) who (fun l => (v l).getD k 0#32) h poi) k).regs,
                   preds := (ls.foldl (fun g k => g.wr (d.toNat + k) who (fun l => (v l).getD k 0#32) h poi) k).preds }) from
      H _ g rfl
    intro ls
    induction ls with
    | nil => intro k hk; exact hk
    | cons a as ih => intro k hk; rw [List.foldl_cons]; exact ih _ (by unfold Group.wr; simp only []; rw [hk])
  · rfl

theorem wrRegs_reg (d : BitVec 10) (n : Nat) (g : Group) (who : Mask) (v : Nat → List W32) (h : Hint) (poi : Mask) (r : Nat)
    (hr : r ∉ destRegs n d) : (wrRegs d n g who v h poi).reg r = g.reg r := by
  unfold wrRegs
  split
  · rename_i hd
    rw [destRegs, if_pos hd] at hr
    suffices H : ∀ (ls : List Nat) (k : Group), (∀ a ∈ ls, r ≠ d.toNat + a) →
        (ls.foldl (fun g k => g.wr (d.toNat + k) who (fun l => (v l).getD k 0#32) h poi) k).reg r = k.reg r from
      H _ g fun a ha e => hr (by simp only [List.mem_map]; exact ⟨a, ha, e.symm⟩)
    intro ls
    induction ls with
    | nil => intro k _; rfl
    | cons a as ih =>
      intro k hk
      rw [List.foldl_cons, ih _ fun b hb => hk b (List.mem_cons_of_mem _ hb), Group.reg_wr _ _ _ _ _ _ _ (hk a List.mem_cons_self)]
  · rfl

theorem wrRegs_preds (d : BitVec 10) (n : Nat) (g : Group) (who : Mask) (v : Nat → List W32) (h : Hint) (poi : Mask) :
    (wrRegs d n g who v h poi).preds = g.preds := by
  unfold wrRegs
  split
  · generalize List.range n = ls
    induction ls generalizing g with
    | nil => rfl
    | cons a as ih => rw [List.foldl_cons, ih]; rfl
  · rfl

/-- The value of one register that `wrRegs` wrote. -/
theorem wrRegs_rd (d : BitVec 10) (n : Nat) (g : Group) (who : Mask) (v : Nat → List W32) (h : Hint) (poi : Mask) (k l : Nat) (hk : k < n)
    (hd : inReg d = true) (hlive : Mask.has g.live l = true) (hs : g.single = true → l = 0) (hw : Mask.has who l = true) :
    (wrRegs d n g who v h poi).rd l (d.toNat + k) = (v l).getD k 0#32 := by
  unfold wrRegs
  rw [if_pos hd]
  induction n generalizing k with
  | zero => omega
  | succ n ih =>
    rw [List.range_succ, List.foldl_append, List.foldl_cons, List.foldl_nil]
    have hlv : ∀ (ls : List Nat) (x : Group), (ls.foldl (fun g k => g.wr (d.toNat + k) who (fun l => (v l).getD k 0#32) h poi) x).live = x.live ∧
        (ls.foldl (fun g k => g.wr (d.toNat + k) who (fun l => (v l).getD k 0#32) h poi) x).single = x.single := by
      intro ls
      induction ls with
      | nil => intro x; exact ⟨rfl, rfl⟩
      | cons a as ih => intro x; rw [List.foldl_cons]; exact ih _
    by_cases e : k = n
    · subst e
      rw [Group.rd_wr_same _ _ _ _ _ _ _ (Mask.has_lt hw) (by rw [(hlv _ _).1]; exact hlive) (by rw [(hlv _ _).2]; exact hs), if_pos hw]
    · rw [Group.rd_wr_other _ _ _ _ _ _ _ _ (by omega)]
      exact ih k (by omega)

theorem FFmt.n_cases (f : FFmt) : f.n = 1 ∨ f.n = 2 := by cases f <;> simp [FFmt.n]

/-- What the words of a number of one or two registers hold. -/
theorem dest_words {s t : State} {n : Nat} (hn : n = 1 ∨ n = 2) (d : BitVec 10) (l v : Nat)
    (h : ∀ k, k < n → (t.grp s.cur).rd l (d.toNat + k) = (wordsOf n v).getD k 0#32) : (t.dest s.cur n d l).toNat = v % 2 ^ (32 * n) := by
  rcases hn with rfl | rfl
  · have h0 := h 0 (by omega)
    simp only [State.dest, show ¬ (1 = 2) by decide, if_false, Nat.add_zero, wordsOf, List.range_succ] at h0 ⊢
    rw [h0]; simp; omega
  · have h0 := h 0 (by omega)
    have h1 := h 1 (by omega)
    simp only [State.dest, if_true, Group.rd64, Nat.add_zero] at h0 h1 ⊢
    rw [h0, h1]
    simp only [wordsOf, List.range_succ, pair64, BitVec.toNat_append]
    simp
    rw [← Nat.shiftLeft_add_eq_or_of_lt (by omega)]
    simp only [Nat.shiftLeft_eq]
    omega

/-- Packed results, read element by element. -/
theorem el_unEl (w : Nat) (rs : List Nat) (k : Nat) (hk : k < rs.length) (hw : w * rs.length ≤ 64) :
    el w k (unEl w rs) = rs.getD k 0 % 2 ^ w := by
  unfold el unEl
  rw [BitVec.toNat_ofNat]
  have hlt : ∀ l : List Nat, (l.foldr (fun x acc => x % 2 ^ w + 2 ^ w * acc) 0) < 2 ^ (w * l.length) := by
    intro l
    induction l with
    | nil => simp
    | cons a as ih =>
      rw [List.foldr_cons, List.length_cons, Nat.mul_succ, Nat.pow_add]
      have h1 : a % 2 ^ w < 2 ^ w := Nat.mod_lt _ (Nat.two_pow_pos w)
      have h2 : 2 ^ w * (as.foldr (fun x acc => x % 2 ^ w + 2 ^ w * acc) 0 + 1) ≤ 2 ^ w * 2 ^ (w * as.length) := Nat.mul_le_mul_left _ ih
      rw [Nat.mul_add, Nat.mul_one] at h2
      rw [Nat.mul_comm (2 ^ (w * as.length))]
      omega
  rw [Nat.mod_eq_of_lt (Nat.lt_of_lt_of_le (hlt rs) (Nat.pow_le_pow_right (by omega) hw))]
  clear hw
  induction rs generalizing k with
  | nil => simp at hk
  | cons a as ih =>
    rw [List.foldr_cons]
    cases k with
    | zero => simp
    | succ k =>
      rw [Nat.mul_succ, Nat.add_comm (w * k), Nat.pow_add, ← Nat.div_div_eq_div_mul]
      have h1 : (a % 2 ^ w + 2 ^ w * as.foldr (fun x acc => x % 2 ^ w + 2 ^ w * acc) 0) / 2 ^ w =
          as.foldr (fun x acc => x % 2 ^ w + 2 ^ w * acc) 0 := by
        rw [Nat.add_mul_div_left _ _ (Nat.two_pow_pos w), Nat.div_eq_of_lt (Nat.mod_lt _ (Nat.two_pow_pos w)), Nat.zero_add]
      rw [h1, ih k (by simpa using hk)]
      simp

theorem List.getD_map_range {α : Type} (f : Nat → α) (n k : Nat) (x : α) (hk : k < n) : ((List.range n).map f).getD k x = f k := by
  simp [List.getD_eq_getElem?_getD, hk]

/-- A float instruction whose result has elements. -/
theorem floatOp_elems {s : State} {i : Instr} (h : s.ready i) (ht : isTransfer i = false) (rm : Nat) (srcs : Ctx → Group → List Src)
    (fn : Group → Nat → Nat → Bool → List W64 → FOut) (z n cnt : Nat) (hn : n = 1 ∨ n = 2) (hwid : z * cnt ≤ 32 * n) (d : BitVec 10)
    (S : List Src) (hS : ∀ g : Group, (s.grp s.cur).quiet g → srcs (s.ctx i) g = S) (r : (l k : Nat) → Nat × Flags)
    (hF : ∀ g : Group, (s.grp s.cur).quiet g → ∀ l, Mask.has (s.acting i) l = true →
      fn g l (rmIn (s.thr s.cur l).fcsr rm) (fzIn (s.thr s.cur l).fcsr) (S.map fun x => x.val l) =
        packOut z n ((List.range cnt).map (r l))) :
    s.floatsElAs (floatOp i s rm srcs fn (wrRegs d n)) i z n cnt d S r := by
  refine floatOp_completes h ht rm srcs fn _ S hS (fun l => packOut z n ((List.range cnt).map (r l))) hF _ (fun l => ?_) _ _
    (wrRegs_same d n) (wrRegs_reg d n) (fun g who v hh poi n l _ => Group.pred_congr (wrRegs_preds ..) n l) _ ?_ ?_
  · simp only [packOut, List.foldl_map]
  · intro t g v hlv hsg hv h1 _ hd l hl k hk
    have hlive := (State.acting_lane hl)
    have hw : ∀ j, j < n → (t.grp s.cur).rd l (d.toNat + j) = (wordsOf n (unEl z ((List.range cnt).map fun k => (r l k).1)).toNat).getD j 0#32 := by
      intro j hj
      have := wrRegs_rd d n g (s.acting i) v (tagOf S) (poiOf S) j l hj hd (by rw [hlv]; exact hlive.1) (by rw [hsg]; exact hlive.2) hl
      simp only [Group.rd, Group.reg] at this ⊢
      rw [h1, this, hv l hl]
      simp only [packOut, List.map_map]
      rfl
    have hdest := dest_words (s := s) (t := t) hn d l _ hw
    have hn' : 32 * n ≤ 64 := by omega
    have key := el_unEl z ((List.range cnt).map fun k => (r l k).1) k (by simpa using hk) (by simp; omega)
    rw [List.getD_map_range _ _ _ _ hk] at key
    rw [← key]
    simp only [el, hdest]
    have hk2 : z * k + z ≤ 32 * n := by
      have : z * (k + 1) ≤ z * cnt := Nat.mul_le_mul_left _ hk
      rw [Nat.mul_succ] at this; omega
    generalize (unEl z ((List.range cnt).map fun k => (r l k).1)).toNat = x
    apply Nat.eq_of_testBit_eq
    intro j
    simp only [Nat.testBit_mod_two_pow, Nat.testBit_div_two_pow]
    by_cases hj : j < z
    · simp only [hj, decide_true, Bool.true_and]
      rw [decide_eq_true (by omega : j + z * k < 32 * n)]; rfl
    · simp [hj]
  · intro h0 t _ l hl
    rw [h0, Mask.has_zero] at hl; cases hl

end Sys2Proof.Machine
end

