-- ==== Sys2Proof/Laws/Lanes.lean ====
section
/-!
SUPPORT. Instructions whose lanes act one after another on the whole machine (loads, stores, engines): what their bodies leave behind,
and how the run moves on from it.
-/

namespace Sys2Proof.Machine

/-! ### From a body to a completed instruction -/

/-- What the body of an instruction may have changed when its lanes leave: the results in `rs` and `ps`, the flags `fl`, memory as `m`. -/
structure Work (s m u : State) (rs ps : List Nat) (fl : Nat → Flags) : Prop where
  has : u.has s.cur = true
  size : (u.grp s.cur).threads.length = (s.grp s.cur).threads.length
  keeps : KeepsF s m u rs ps fl
  pc : ∀ l ∈ s.runLanes, (u.thr s.cur l).pc = (s.thr s.cur l).pc
  st : ∀ l ∈ s.runLanes, (u.thr s.cur l).st = .ready ∨ (u.thr s.cur l).st = .parked
  absent : u.absent = none
  stores : ∀ k, (u.team k).stores = (s.team k).stores

/-- Leaving an instruction keeps what its body kept. -/
theorem KeepsF.left {s m u t : State} {rs ps : List Nat} {fl : Nat → Flags} {x : Sig} (h : KeepsF s m u rs ps fl) (hL : Left u t s.cur)
    (hT : ∀ k, ∃ st, t.thr s.cur k = { (if k ∈ s.runLanes then (u.thr s.cur k).stepped x else u.thr s.cur k) with st := st }) :
    KeepsF s m t rs ps fl := by
  have hmem : t.mem = u.mem := by rw [hL.rest]
  refine ⟨?_, ?_, ?_, ?_, ?_, ?_, ?_, ?_, ?_, ?_⟩
  · intro r hr; rw [← h.regs r hr, hL.own]; rfl
  · intro n l hn; rw [← h.preds n l hn]; exact Group.pred_congr (by rw [hL.own]) n l
  · intro l; rw [← h.fcsr l]; obtain ⟨st, e⟩ := hT l; rw [e]; split <;> rfl
  · intro l; rw [← h.ftret l]; obtain ⟨st, e⟩ := hT l; rw [e]; split <;> rfl
  · rw [← h.shapeix, hL.own]
  · intro q hq
    obtain ⟨h1, h2, h3⟩ := h.others q hq
    have e := hL.others q hq
    refine ⟨by rw [e]; exact h1, by rw [e]; exact h2, fun l => ?_⟩
    have e' : t.thr q l = u.thr q l := by simp only [State.thr, e]
    rw [e']; exact h3 l
  · intro n
    rw [← h.cores n, hL.lc n]; rfl
  · rw [← h.package, hL.rest]; rfl
  · intro a; rw [← h.mem a]; exact byte_congr hmem a
  · rw [← h.poison, hL.rest]

/-- The lanes of a ready instruction do their work, and the run moves on. -/
theorem issue_work {s : State} {i : Instr} (h : s.ready i) (ht : isTransfer i = false) (hact : s.acting i ≠ 0#64)
    (body : State → Ctx → State × List (Nat × LaneEnd)) {m u : State} {ends : List (Nat × LaneEnd)} {rs ps : List Nat} {fl : Nat → Flags}
    (hb : body (s.opened i) (s.ctx i) = (u, ends)) (hends : ∀ l e, assoc l ends = some e → e = .next) (hw : Work s m u rs ps fl)
    (results : State → Prop) (hres : ∀ t, Left u t s.cur → results t) :
    ∃ t, issue i s body = .next t ∧ results t ∧ s.movedOn t ∧ KeepsF s m t rs ps fl ∧ s.keepsTeams t i := by
  have hlen : ∀ l ∈ s.runLanes, l < (u.grp s.cur).threads.length := by
    intro l hl; rw [hw.size]; exact (State.mem_runWith hl).2.1
  obtain ⟨hL, hT⟩ := endAll_next i (sig i) s.cur s.runLanes (State.nodup_runWith _ _ _) u hw.has hlen
  have hmap : (s.runLanes.map fun l => (l, (assoc l ends).getD LaneEnd.next)) = s.runLanes.map fun l => (l, LaneEnd.next) := by
    apply List.map_congr_left; intro l _
    cases e : assoc l ends with
    | none => rfl
    | some v => rw [hends l v e]; rfl
  have hctx : ({ p := s.cur, ok := Mask.ofLanes s.runLanes, act := s.acting i, k := (s.windowed i).2.1 } : Ctx) = s.ctx i := rfl
  have hz : (s.acting i == 0#64) = false := by simpa using hact
  refine ⟨u.endAll s.cur i (sig i) (s.runLanes.map fun l => (l, LaneEnd.next)), ?_, hres _ hL, ?_, hw.keeps.left (x := sig i) hL fun k => ?_,
    fun _ k => by rw [hL.teams k]; exact hw.stores k⟩
  · rw [issue_of_ready h]
    simp only [hctx, ht, hz, Bool.not_false, Bool.and_true, Bool.false_eq_true, if_false, hb, hmap]
    unfold finish
    have e : (u.endAll s.cur i (sig i) (s.runLanes.map fun l => (l, LaneEnd.next))).absent = none := by
      rw [hL.rest]; exact hw.absent
    rw [e]
  · intro l hl
    obtain ⟨st, e, hst⟩ := hT l
    rw [e, if_pos hl]
    refine ⟨?_, ?_⟩
    · show (u.thr s.cur l).pc + 8#64 = _
      rw [hw.pc l hl]
    · rcases hst with rfl | rfl
      · exact hw.st l hl
      · exact .inr rfl
  · obtain ⟨st, e, -⟩ := hT k
    exact ⟨st, e⟩

/-! ### Quiet bodies -/

theorem Quiet.keeps {s m u : State} (h : Quiet s u) (hm : ∀ a, u.byte a = m.byte a) (hp : u.mpoison = m.mpoison) :
    KeepsF s m u [] [] fun _ => 0#32 := by
  refine ⟨?_, ?_, ?_, ?_, (h.grp _).shapeix, ?_, h.specials, ?_, hm, hp⟩
  · intro r _; simp only [Group.reg, (h.grp s.cur).regs]
  · intro n l _; exact Group.pred_congr (h.grp s.cur).preds n l
  · intro l; rw [orFlags_zero]; have := ((h.grp s.cur).thr l).1; simp only [State.thr]; rw [this]
  · intro l; have := ((h.grp s.cur).thr l).1; simp only [State.thr]; rw [this]
  · intro q _
    refine ⟨(h.grp q).regs, (h.grp q).preds, fun l => ?_⟩
    have := ((h.grp q).thr l).1
    simp only [State.thr]; rw [this]; exact ⟨rfl, rfl⟩
  · simp only [State.packageRegs, h.same.packint, h.same.capbase, h.same.admode, h.same.tdlim, h.same.drainint, h.same.finj]

/-- A body that changes no register: memory as it leaves it. -/
theorem Quiet.work {s u : State} (h : Quiet s u) (hrun : s.runLanes ≠ []) (habs : u.absent = none) (m : State)
    (hm : ∀ a, u.byte a = m.byte a) (hp : u.mpoison = m.mpoison) : Work s m u [] [] fun _ => 0#32 := by
  refine ⟨(h.has _).trans (State.runWith_has s s.cur s.curLane hrun), (h.grp _).size, h.keeps hm hp, ?_, ?_, habs, h.stores⟩
  · intro l _; have := ((h.grp s.cur).thr l).1; simp only [State.thr]; rw [this]
  · intro l hl
    rcases ((h.grp s.cur).thr l).2 with e | e
    · exact .inl (e.trans (State.mem_runWith hl).2.2)
    · exact e

/-- A body that writes registers of its own group at its end. -/
theorem Work.regs {s m u : State} {rs ps : List Nat} {fl : Nat → Flags} (h : Work s m u [] ps fl) (f : Group → Group)
    (hf : ∀ g, f g = { g with regs := (f g).regs }) (hr : ∀ g r, r ∉ rs → (f g).reg r = g.reg r) : Work s m (u.modGrp s.cur f) rs ps fl := by
  have hg := State.grp_modGrp u s.cur f h.has
  have ht : ∀ l, (u.modGrp s.cur f).thr s.cur l = u.thr s.cur l := by intro l; simp only [State.thr, hg]; rw [hf]; rfl
  have hmem : (u.modGrp s.cur f).mem = u.mem := by cases s.cur <;> rfl
  refine ⟨(State.has_modGrp _ _ _ _).trans h.has, ?_, ⟨?_, ?_, ?_, ?_, ?_, ?_, ?_, ?_, ?_, ?_⟩, ?_, ?_, ?_,
    fun k => (State.stores_modGrp u s.cur f k).trans (h.stores k)⟩
  · rw [hg, hf]; exact h.size
  · intro r hr'; rw [hg, hr _ r hr']; exact h.keeps.regs r (by simp)
  · intro n l hn; rw [hg]; exact (Group.pred_congr (by rw [hf]) n l).trans (h.keeps.preds n l hn)
  · intro l; rw [ht]; exact h.keeps.fcsr l
  · intro l; rw [ht]; exact h.keeps.ftret l
  · rw [hg, hf]; exact h.keeps.shapeix
  · intro q hq
    have e := State.grp_modGrp_ne u s.cur q f hq
    have e' : ∀ l, (u.modGrp s.cur f).thr q l = u.thr q l := fun l => by simp only [State.thr, e]
    obtain ⟨h1, h2, h3⟩ := h.keeps.others q hq
    exact ⟨by rw [e]; exact h1, by rw [e]; exact h2, fun l => by rw [e']; exact h3 l⟩
  · intro n
    rw [← h.keeps.cores n]
    cases hc : s.cur with
    | lc k =>
      by_cases hk : k < u.lcs.length
      · simp only [State.modGrp, State.lc_modLc _ _ _ _ hk]; split <;> rfl
      · simp only [State.modGrp, State.modLc, State.lc, setAt_ge _ _ _ (Nat.le_of_not_lt hk)]
    | grp t j => rfl
  · rw [← h.keeps.package]; cases s.cur <;> rfl
  · intro a; rw [← h.keeps.mem a]; exact byte_congr hmem a
  · rw [← h.keeps.poison]; cases s.cur <;> rfl
  · intro l hl; rw [ht]; exact h.pc l hl
  · intro l hl; rw [ht]; exact h.st l hl
  · rw [← h.absent]; cases s.cur <;> rfl

/-! ### Lanes one after another -/

theorem eachLane_map {α : Type} (s : State) (ls : List Nat) (f : State → Nat → Eff α) : ((eachLane s ls f).2.map (·.1)) = ls := by
  unfold eachLane
  suffices H : ∀ (ls : List Nat) (acc : State × List (Nat × Except Stop α)),
      ((ls.foldl (fun (acc : State × List (Nat × Except Stop α)) l => let r := f acc.1 l; (r.1, acc.2 ++ [(l, r.2)])) acc).2.map (·.1)) =
        acc.2.map (·.1) ++ ls from by simpa using H ls (s, [])
  intro ls
  induction ls with
  | nil => intro acc; simp
  | cons a as ih => intro acc; rw [List.foldl_cons, ih]; simp

/-- Every lane has a value: every lane leaves at the following word. -/
theorem endsOf_ok {α : Type} {rs : List (Nat × Except Stop α)} (h : ∀ r ∈ rs, ∃ a, r.2 = .ok a) :
    ∀ l e, assoc l (endsOf rs) = some e → e = .next := by
  intro l e he
  have := assoc_mem he
  simp only [endsOf, List.mem_map] at this
  obtain ⟨r, hr, hr'⟩ := this
  obtain ⟨a, ha⟩ := h r hr
  rw [ha] at hr'
  exact ((Prod.mk.inj hr').2).symm

end Sys2Proof.Machine
end

