-- ==== Sys2Proof/Laws/Memory.lean ====
section
/-!
SUPPORT. Memory: its canonical form is kept by every write, a read after a write gives what was written, every other byte is left alone;
and what the stores of threads and of the hardware do to it.
-/

namespace Sys2Proof.Machine

/-! ### One cell -/

/-- Every address of the list is above `a`. -/
def above (a : Nat) (m : List Host.Cell) : Prop := ∀ c ∈ m, a < c.1
/-- The canonical form, in a shape for induction. -/
def canon : List Host.Cell → Prop
  | [] => True
  | (a, v) :: rest => v ≠ initByte a ∧ above a rest ∧ canon rest

theorem wf_canon (m : List Host.Cell) : Memory.wf m = true ↔ canon m := by
  induction m with
  | nil => exact ⟨fun _ => trivial, fun _ => rfl⟩
  | cons c rest ih =>
    obtain ⟨a, v⟩ := c
    cases rest with
    | nil => simp [Memory.wf, canon, above]
    | cons d rest =>
      obtain ⟨b, w⟩ := d
      simp only [Memory.wf, Bool.and_eq_true, decide_eq_true_eq, bne_iff_ne, ih]
      constructor
      · rintro ⟨⟨h1, h2⟩, h3⟩
        refine ⟨h2, ?_, h3⟩
        intro x hx
        rcases List.mem_cons.1 hx with rfl | hx
        · exact h1
        · exact Nat.lt_trans h1 (h3.2.1 x hx)
      · rintro ⟨h1, h2, h3⟩
        exact ⟨⟨h2 _ List.mem_cons_self, h1⟩, h3⟩

theorem findCell_above {m : List Host.Cell} {a : Nat} (h : above a m) {b : Nat} (hb : b ≤ a) : findCell m b = none := by
  induction m with
  | nil => rfl
  | cons c rest ih =>
    obtain ⟨k, v⟩ := c
    have hk := h (k, v) List.mem_cons_self
    simp only at hk
    rw [findCell, if_neg (by omega)]
    exact ih fun x hx => h x (List.mem_cons_of_mem _ hx)

theorem putCell_above {m : List Host.Cell} {k a : Nat} {v : Byte} (h : above k m) (ha : k < a) : above k (putCell m a v) := by
  induction m with
  | nil => unfold putCell; split
           · exact h
           · intro c hc; simp at hc; subst hc; exact ha
  | cons c rest ih =>
    obtain ⟨j, x⟩ := c
    have hj := h (j, x) List.mem_cons_self
    have hr : above k rest := fun y hy => h y (List.mem_cons_of_mem _ hy)
    unfold putCell
    repeat' split
    · exact h
    · intro c hc; rcases List.mem_cons.1 hc with rfl | hc
      · exact ha
      · exact h c hc
    · exact hr
    · intro c hc; rcases List.mem_cons.1 hc with rfl | hc
      · exact ha
      · exact hr c hc
    · intro c hc; rcases List.mem_cons.1 hc with rfl | hc
      · exact hj
      · exact ih hr c hc

/-- A write keeps the canonical form. -/
theorem canon_putCell {m : List Host.Cell} (h : canon m) (a : Nat) (v : Byte) : canon (putCell m a v) := by
  induction m with
  | nil => unfold putCell; split
           · trivial
           · rename_i hv; exact ⟨hv, fun c hc => by simp at hc, trivial⟩
  | cons c rest ih =>
    obtain ⟨j, x⟩ := c
    obtain ⟨h1, h2, h3⟩ := h
    unfold putCell
    split
    · rename_i hlt
      split
      · exact ⟨h1, h2, h3⟩
      · rename_i hv
        refine ⟨hv, ?_, h1, h2, h3⟩
        intro c hc; rcases List.mem_cons.1 hc with rfl | hc
        · exact hlt
        · exact Nat.lt_trans hlt (h2 c hc)
    · split
      · rename_i heq
        subst heq
        split
        · exact h3
        · rename_i hv; exact ⟨hv, h2, h3⟩
      · exact ⟨h1, putCell_above h2 (by omega), ih h3⟩

/-- What every address reads as after a write of one byte. -/
theorem find_putCell {m : List Host.Cell} (h : canon m) (a b : Nat) (v : Byte) :
    (findCell (putCell m a v) b).getD (initByte b) = if b = a then v else (findCell m b).getD (initByte b) := by
  induction m with
  | nil =>
    unfold putCell
    split
    · rename_i hv; simp only [findCell, Option.getD_none]; split
      · rename_i e; rw [e, hv]
      · rfl
    · simp only [findCell]
      by_cases e : a = b
      · simp [e]
      · rw [if_neg e, if_neg (Ne.symm e)]
  | cons c rest ih =>
    obtain ⟨j, x⟩ := c
    obtain ⟨h1, h2, h3⟩ := h
    unfold putCell
    by_cases hlt : a < j
    · rw [if_pos hlt]
      have hn : findCell ((j, x) :: rest) a = none := by
        rw [findCell, if_neg (by omega)]; exact findCell_above h2 (by omega)
      by_cases hv : v = initByte a
      · rw [if_pos hv]
        split
        · rename_i e; subst e; rw [hn, hv]; rfl
        · rfl
      · rw [if_neg hv]
        by_cases e : b = a
        · subst e; simp [findCell]
        · rw [if_neg e, findCell, if_neg (Ne.symm e)]
    · rw [if_neg hlt]
      by_cases heq : a = j
      · subst heq
        rw [if_pos rfl]
        by_cases hv : v = initByte a
        · rw [if_pos hv]
          by_cases e : b = a
          · subst e; rw [if_pos rfl, findCell_above h2 (Nat.le_refl _), hv]; rfl
          · rw [if_neg e, findCell, if_neg (Ne.symm e)]
        · rw [if_neg hv]
          by_cases e : b = a
          · subst e; simp [findCell]
          · rw [if_neg e, findCell, if_neg (Ne.symm e), findCell, if_neg (Ne.symm e)]
      · rw [if_neg heq]
        by_cases ej : j = b
        · subst ej; rw [findCell, if_pos rfl, if_neg (Ne.symm heq), findCell, if_pos rfl]
        · rw [findCell, if_neg ej, ih h3]
          split
          · rfl
          · rw [findCell, if_neg ej]

/-! ### Bytes in a row -/

theorem canon_putCells {m : List Host.Cell} (h : canon m) (a : Nat) (bs : List Byte) : canon (putCells m a bs) := by
  induction bs generalizing m a with
  | nil => exact h
  | cons b bs ih => exact ih (canon_putCell h a b) (a + 1)

theorem find_putCells {m : List Host.Cell} (h : canon m) (a b : Nat) (bs : List Byte) :
    (findCell (putCells m a bs) b).getD (initByte b) =
      if a ≤ b ∧ b < a + bs.length then bs.getD (b - a) 0#8 else (findCell m b).getD (initByte b) := by
  induction bs generalizing m a with
  | nil => simp only [putCells, List.length_nil, Nat.add_zero]; rw [if_neg (by omega)]
  | cons x bs ih =>
    rw [putCells, ih (canon_putCell h a x), find_putCell h]
    simp only [List.length_cons]
    by_cases e : b = a
    · subst e
      rw [if_neg (by omega), if_pos rfl, if_pos (by omega)]; simp
    · by_cases hin : a + 1 ≤ b ∧ b < a + 1 + bs.length
      · rw [if_pos hin, if_pos (by omega), show b - a = (b - (a + 1)) + 1 by omega]; rfl
      · rw [if_neg hin, if_neg e, if_neg (by omega)]

/-! ### The state -/

/-- Writing bytes keeps the canonical form. -/
theorem State.memOk_setBytes {s : State} (h : s.memOk) (a : Nat) (bs : List Byte) : (s.setBytes a bs).memOk :=
  (wf_canon _).2 (canon_putCells ((wf_canon _).1 h) a bs)
/-- What every byte reads as after a write: the written bytes, and the old ones elsewhere. -/
theorem State.byte_setBytes {s : State} (h : s.memOk) (a b : Nat) (bs : List Byte) :
    (s.setBytes a bs).byte b = if a ≤ b ∧ b < a + bs.length then bs.getD (b - a) 0#8 else s.byte b :=
  find_putCells ((wf_canon _).1 h) a b bs

end Sys2Proof.Machine
end

