-- ==== Sys2Proof/Laws/Tags.lean ====
section
/-!
SUPPORT. Shape tags (R19, R20): the tag of a source describes its values, and the tag that an instruction gives its result describes the
result.
-/

namespace Sys2Proof.Machine

/-! ### Sources and tags (R19, R20, R48) -/

/-- The tag of a source describes its values. -/
def Src.fits (a : Src) : Prop :=
  match a.tag with
  | .u => ∀ l k, a.val l = a.val k
  | .a b s => ∀ l, a.val l = (b + s * BitVec.ofNat 32 l).setWidth 64
  | .g => True

theorem Group.src_fits (g : Group) (k : OKind) (n : Nat) (c : BitVec 10) (hn : n = 1 ∨ n = 2) : (g.src k n c).fits := by
  unfold Group.src
  split
  · rcases hn with rfl | rfl
    · simp only [Src.fits, Group.hintOf, if_true, Group.rd, show ¬ (1 = 2) by decide, if_false]
      cases h : (g.reg c.toNat).sh <;> simp [Shaped.hint, Shaped.lane]
    · simp only [Src.fits, Group.hintOf, show ¬ (2 = 1) by decide, if_false, if_true]
      split
      · rename_i h
        split at h
        · rename_i hall
          simp only [List.all_eq_true, List.mem_range, beq_iff_eq] at hall
          have h0 := hall 0 (by omega)
          have h1 := hall 1 (by omega)
          simp only [Nat.add_zero] at h0
          intro l k
          simp only [Group.rd64, Group.rd]
          cases e0 : (g.reg c.toNat).sh with
          | u v => cases e1 : (g.reg (c.toNat + 1)).sh with
            | u w => rfl
            | a b s => simp [e1, Shaped.code] at h1
            | g vs => simp [e1, Shaped.code] at h1
          | a b s => simp [e0, Shaped.code] at h0
          | g vs => simp [e0, Shaped.code] at h0
        · cases h
      · rename_i h; split at h <;> cases h
      · trivial
  · exact fun _ _ => rfl

theorem immSrc_fits (i : BitVec 20) : (immSrc i).fits := fun _ _ => rfl
theorem Src.none_fits : Src.none.fits := fun _ _ => rfl

theorem State.windowed_fits (s : State) (i : Instr) : (s.windowed i).2.1.fits := by
  unfold State.windowed State.kOperand
  split
  · exact Src.none_fits
  · simp only []
    generalize (List.map _ _ : List (Nat × W64)) = vs
    simp only [Src.fits]
    split
    · rename_i h
      split at h
      · rename_i hall
        have hc : ∀ l, (assoc l vs).getD ((vs.map (·.2)).headD 0#64) = (vs.map (·.2)).headD 0#64 := by
          intro l
          cases ha : assoc l vs with
          | none => rfl
          | some v =>
            have := List.all_eq_true.1 hall _ (assoc_mem ha)
            simpa using this
        intro l k; rw [hc, hc]
      · cases h
    · rename_i h; split at h <;> cases h
    · trivial

theorem Hint.join_u {a b : Hint} (h : a.join b = .u) : a = .u ∧ b = .u := by
  unfold Hint.join at h; split at h
  · rename_i hc; simpa using hc
  · cases h
theorem Hint.join_ne {a b : Hint} (x t : W32) : a.join b ≠ .a x t := by
  unfold Hint.join; split <;> simp

/-- A joined tag is U only when every source is. -/
theorem tagOf_cases (l : List Src) : (tagOf l = .u ∧ ∀ a ∈ l, a.tag = .u) ∨ tagOf l = .g := by
  suffices H : ∀ (l : List Src) (h : Hint), h = .u ∨ h = .g →
      ((l.foldl (fun h s => h.join s.tag) h = .u ∧ h = .u ∧ ∀ a ∈ l, a.tag = .u) ∨ l.foldl (fun h s => h.join s.tag) h = .g) by
    rcases H l .u (.inl rfl) with h | h
    · exact .inl ⟨h.1, h.2.2⟩
    · exact .inr h
  intro l
  induction l with
  | nil => intro h hh; rcases hh with rfl | rfl <;> simp
  | cons a as ih =>
    intro h hh
    simp only [List.foldl_cons]
    have hj : h.join a.tag = .u ∨ h.join a.tag = .g := by unfold Hint.join; split <;> simp
    rcases ih _ hj with ⟨h1, h2, h3⟩ | h1
    · obtain ⟨e1, e2⟩ := Hint.join_u h2
      exact .inl ⟨h1, e1, by intro x hx; rcases List.mem_cons.1 hx with rfl | hx; exact e2; exact h3 x hx⟩
    · exact .inr h1

theorem Src.const {a : Src} (h : a.fits) (hu : a.tag = .u) (l k : Nat) : a.val l = a.val k := by
  unfold Src.fits at h; rw [hu] at h; exact h l k

/-- The tag that a result may carry beside its values (R20). -/
def Hint.describes (h : Hint) (val : Nat → W64) : Prop :=
  match h with
  | .u => ∀ l k, val l = val k
  | .a b s => ∀ l, (val l).setWidth 32 = b + s * BitVec.ofNat 32 l
  | .g => True

theorem Hint.describes_join {l : List Src} (hl : ∀ a ∈ l, a.fits) (F : Nat → W64)
    (hF : (∀ a ∈ l, ∀ i j, a.val i = a.val j) → ∀ i j, F i = F j) : (tagOf l).describes F := by
  rcases tagOf_cases l with ⟨h, hu⟩ | h <;> rw [h]
  · exact hF fun a ha i j => Src.const (hl a ha) (hu a ha) i j
  · trivial

theorem tagOf_ne (l : List Src) (b t : W32) : tagOf l ≠ .a b t := by
  rcases tagOf_cases l with ⟨h, -⟩ | h <;> rw [h] <;> simp

/-- The join of the tags of two sources describes every function of their values. -/
theorem Hint.describes_ab {a b : Src} (ha : a.fits) (hb : b.fits) (f : W64 → W64 → W64) :
    (tagOf [a, b]).describes fun l => f (a.val l) (b.val l) :=
  Hint.describes_join (by simp [ha, hb]) _ fun h i j => by rw [h a (by simp) i j, h b (by simp) i j]
theorem Hint.describes_a {a : Src} (ha : a.fits) (f : W64 → W64) : (tagOf [a]).describes fun l => f (a.val l) :=
  Hint.describes_join (by simp [ha]) _ fun h i j => by rw [h a (by simp) i j]
theorem Hint.describes_abc {a b c : Src} (ha : a.fits) (hb : b.fits) (hc : c.fits) (f : W64 → W64 → W64 → W64) :
    (tagOf [a, b, c]).describes fun l => f (a.val l) (b.val l) (c.val l) :=
  Hint.describes_join (by simp [ha, hb, hc]) _ fun h i j => by rw [h a (by simp) i j, h b (by simp) i j, h c (by simp) i j]

/-- B of a ready instruction. -/
theorem srcB_fits (g : Group) (s : State) (i : Instr) (k : OKind) (n : Nat) (hn : n = 1 ∨ n = 2) (w : BaseW) :
    (g.srcB k n w (s.windowed i).2.1).fits := by
  unfold Group.srcB; split
  · exact State.windowed_fits s i
  · exact Group.src_fits g k n _ hn
theorem tagJoin_ne (a b : Src) (x t : W32) : tagJoin a b ≠ .a x t := by
  unfold tagJoin
  rcases tagOf_cases [a, b] with ⟨h, -⟩ | h <;> rw [h] <;> simp

theorem describes_tagJoin (z : ISize) (f : Nat → Nat → Nat) (a b : Src) (ha : a.fits) (hb : b.fits) :
    (tagJoin a b).describes fun l => map2 z f (a.val l) (b.val l) := Hint.describes_ab ha hb fun x y => map2 z f x y

/-! ### Tags of linear results (R20) -/

theorem low_map2 (f : Nat → Nat → Nat) (a b : W64) :
    (map2 .w f a b).setWidth 32 = BitVec.ofNat 32 (f (a.setWidth 32).toNat (b.setWidth 32).toNat) := by
  apply BitVec.eq_of_toNat_eq
  simp [map2, unEl, ISize.width, ISize.count, el, List.range_succ]

theorem Src.low_u {a : Src} (h : a.fits) (hu : a.tag = .u) (l : Nat) : a.val l = a.val 0 := Src.const h hu l 0
theorem Src.low_a {a : Src} (h : a.fits) {b s : W32} (hu : a.tag = .a b s) (l : Nat) : (a.val l).setWidth 32 = b + s * BitVec.ofNat 32 l := by
  unfold Src.fits at h; rw [hu] at h; rw [h l]
  apply BitVec.eq_of_toNat_eq; simp

/-- The tags of `ADD.w` and `SUB.w` describe the sum and the difference. -/
theorem describes_linear (sub : Bool) (a b : Src) (ha : a.fits) (hb : b.fits) (F : W64 → W64 → W64)
    (hF : ∀ x y, (F x y).setWidth 32 = if sub then (x.setWidth 32 : W32) - y.setWidth 32 else x.setWidth 32 + y.setWidth 32) :
    (tagLinear sub a b).describes fun l => F (a.val l) (b.val l) := by
  unfold tagLinear
  cases ea : a.tag with
  | u => cases eb : b.tag with
    | u => intro l k; simp only; rw [Src.const ha ea l k, Src.const hb eb l k]
    | a y t => intro l; simp only [hF, Src.low_u ha ea l, Src.low_a hb eb l]; cases sub <;> simp <;> grind
    | g => trivial
  | a x t => cases eb : b.tag with
    | u => intro l; simp only [hF, Src.low_u hb eb l, Src.low_a ha ea l]; cases sub <;> simp <;> grind
    | a y t' => intro l; simp only [hF, Src.low_a hb eb l, Src.low_a ha ea l]; cases sub <;> simp <;> grind
    | g => trivial
  | g => cases b.tag <;> trivial

/-- The tag of `MUL.w` describes the product. -/
theorem describes_mul (a b : Src) (ha : a.fits) (hb : b.fits) (F : W64 → W64 → W64)
    (hF : ∀ x y, (F x y).setWidth 32 = (x.setWidth 32 : W32) * y.setWidth 32) :
    (tagMul a b).describes fun l => F (a.val l) (b.val l) := by
  unfold tagMul
  cases ea : a.tag with
  | u => cases eb : b.tag with
    | u => intro l k; simp only; rw [Src.const ha ea l k, Src.const hb eb l k]
    | a y t => intro l; simp only [hF, Src.low_u ha ea l, Src.low_a hb eb l]; grind
    | g => trivial
  | a x t => cases eb : b.tag with
    | u => intro l; simp only [hF, Src.low_u hb eb l, Src.low_a ha ea l]; grind
    | a y t' => trivial
    | g => trivial
  | g => cases b.tag <;> trivial

/-- The tag of `SHL.w` describes the shifted value. -/
theorem describes_shl (a b : Src) (ha : a.fits) (hb : b.fits) (F : W64 → W64 → W64)
    (hF : ∀ x y, (F x y).setWidth 32 = (x.setWidth 32 : W32) <<< (y.toNat % 32)) :
    (tagShl a b).describes fun l => F (a.val l) (b.val l) := by
  unfold tagShl
  cases ea : a.tag with
  | u => cases eb : b.tag with
    | u => intro l k; simp only; rw [Src.const ha ea l k, Src.const hb eb l k]
    | a y t => trivial
    | g => trivial
  | a x t => cases eb : b.tag with
    | u =>
      intro l
      simp only [hF, Src.low_u hb eb l, Src.low_a ha ea l]
      generalize (b.val 0).toNat % 32 = n
      simp only [BitVec.shiftLeft_eq_mul_twoPow]
      grind
    | a y t' => trivial
    | g => trivial
  | g => cases b.tag <;> trivial

theorem tagLinear_d (a b : Src) : tagW .d (tagLinear false) a b = tagJoin a b := rfl

/-- The tags of an operation that keeps the A shape in `.w` alone. -/
theorem tagW_ne (z : ISize) (k : Src → Src → Hint) (h : z.n = 2) (a b : Src) (x t : W32) : tagW z k a b ≠ .a x t := by
  cases z with
  | d => exact tagJoin_ne a b x t
  | _ => cases h
theorem describes_tagW (z : ISize) (k : Src → Src → Hint) (f : Nat → Nat → Nat) (m : W64 → W64) (a b : Src) (ha : a.fits) (hb : b.fits)
    (hk : z = .w → (k a b).describes fun l => map2 .w f (a.val l) (m (b.val l))) :
    (tagW z k a b).describes fun l => map2 z f (a.val l) (m (b.val l)) := by
  unfold tagW
  split
  · rename_i e; subst e; exact hk rfl
  · exact Hint.describes_ab ha hb fun x y => map2 z f x (m y)

theorem low_add (x y : W64) : (map2 .w (· + ·) x y).setWidth 32 = (x.setWidth 32 : W32) + y.setWidth 32 := by
  rw [low_map2, BitVec.ofNat_add, BitVec.ofNat_toNat, BitVec.ofNat_toNat, BitVec.setWidth_eq, BitVec.setWidth_eq]
theorem low_mul (x y : W64) : (map2 .w (· * ·) x y).setWidth 32 = (x.setWidth 32 : W32) * y.setWidth 32 := by
  rw [low_map2, BitVec.ofNat_mul, BitVec.ofNat_toNat, BitVec.ofNat_toNat, BitVec.setWidth_eq, BitVec.setWidth_eq]
theorem describes_add (z : ISize) (a b : Src) (ha : a.fits) (hb : b.fits) :
    (tagW z (tagLinear false) a b).describes fun l => map2 z (· + ·) (a.val l) (b.val l) :=
  describes_tagW z _ _ id a b ha hb fun _ => describes_linear false a b ha hb (map2 .w (· + ·)) low_add
theorem describes_product (z : ISize) (a b : Src) (ha : a.fits) (hb : b.fits) :
    (tagW z tagMul a b).describes fun l => map2 z (· * ·) (a.val l) (b.val l) :=
  describes_tagW z _ _ id a b ha hb fun _ => describes_mul a b ha hb (map2 .w (· * ·)) low_mul

end Sys2Proof.Machine
end

