-- ==== Sys2Proof/Machine/Image.lean ====
section
/-!
DEFINITION. Which image of a code object runs on a device (R93, R425, R426): the choice that its KV.VERSION notes, the hardware level and the
effective capability bits decide.
-/

namespace Sys2Proof.Machine

/-- A KV.VERSION note (R93): type 1 or 2, the section of its image and whether it is in the object, the minimum level, the field-set level, the
required capability words. -/
structure KvNote where
  type : Nat
  section_ : Nat
  present : Bool := true
  minhl : Nat := 0
  fields : Nat := 0
  caps : List W64 := []
  deriving DecidableEq, Repr

/-- What is loaded: a native section, the translation of a Camord section, or nothing. -/
inductive ImageChoice where
  | native (sec : Nat)
  | translated (sec : Nat)
  | refused
  deriving DecidableEq, Repr

/-- Hardware level of the device: LEVEL (R421). -/
def Dev.level (_d : Dev) : Nat := 1
/-- The capability bits that a note requires: bit i of word j is bit 64j + i (R93). -/
def KvNote.bits (n : KvNote) : Nat := (n.caps.mapIdx fun j w => w.toNat * 2 ^ (64 * j)).sum
/-- The required bits are among the effective ones. -/
def KvNote.within (n : KvNote) (caps : Nat) : Bool := n.bits &&& caps == n.bits
/-- Of two notes the one of the higher minimum level, the lower section index on a tie. -/
def betterNote (best : Option KvNote) (n : KvNote) : Option KvNote :=
  match best with
  | none => some n
  | some b => if n.minhl > b.minhl || (n.minhl == b.minhl && n.section_ < b.section_) then some n else some b

/-- Otwick's choice (R425): a native image of the device's own level, else the one of the highest lower level, else the translation of the
Camord section, else a refusal. -/
def selectImage (notes : List KvNote) (h caps : Nat) : ImageChoice :=
  let fits (n : KvNote) : Bool := n.fields ≤ h && n.within caps
  let native := notes.filter fun n => n.type == 1 && 1 ≤ n.minhl && n.present && n.minhl ≤ h && fits n
  match native.foldl betterNote none with
  | some n => .native n.section_
  | none => match notes.find? fun n => n.type == 2 && n.within caps with
    | some c => .translated c.section_
    | none => .refused
/-- The image that runs on a device; a forced load names a section and passes the choice by (R426). -/
def Dev.image (d : Dev) (notes : List KvNote) (forced : Option Nat) : ImageChoice :=
  match forced with
  | some k => .native k
  | none => selectImage notes d.level d.caps.toNat

end Sys2Proof.Machine
end

