-- ==== Sys2Proof/Tests/Slice0.lean ====
section
/-!
SUPPORT. Tests of the model's own: words of the manual and what they decode to, ill-formed words, one step of small programs with results
from the manual's rules and examples, and for every statement of `Obligations.lean` a state and operands that meet its hypotheses.
-/

set_option maxRecDepth 100000

namespace Sys2Proof.Tests

open Sys2Proof Sys2Proof.Machine

/-! ### Words of the manual (the expected fields are read off the assembly text beside each word) -/

/-- R131. -/
theorem test_decode_exit_yield_nop :
    decodeTableWord 64 0x0670FFC000000000 = some (.exit ⟨7#4, 0#4, 1023#10, 0#10, 0#10, 0#10, 0#8⟩) ∧
    decodeTableWord 64 0x0970FFC000000000 = some (.yield ⟨7#4, 0#4, 1023#10, 0#10, 0#10, 0#10, 0#8⟩) ∧
    decodeTableWord 64 0x0E70FFC000000000 = some (.nop ⟨7#4, 0#4, 1023#10, 0#10, 0#10, 0#10, 0#8⟩) := by decide
/-- R149: `LI v10, 0x1234_5678`. -/
theorem test_decode_li : decodeTableWord 64 0x407002848D159E00 = some (.li ⟨7#4, 0#4, 10#10, 0x12345678#32, 0#6⟩) := by decide
/-- R150: `ADDC.w v4, v0, v2, p1, p1`: CIE bit 14, R = 1 in 13:11, Q = 1 in 10:8. -/
theorem test_decode_addc : decodeTableWord 64 0x4470010000084900 = some (.addc .w ⟨7#4, 4#10, 0#10, 2#10, 0x49#10, 0#8⟩) := by decide
/-- R151: `CMP.w.s p2, v8, v9, lt` and `SEL.w v12, v10, v11, p2`. -/
theorem test_decode_cmp_sel :
    decodeTableWord 64 0x3D70008080240200 = some (.cmp .w .s ⟨7#4, 2#10, 8#10, 9#10, 2#10, 0#8⟩) ∧
    decodeTableWord 64 0x3C700300A02C0200 = some (.sel .w ⟨7#4, 12#10, 10#10, 11#10, 2#10, 0#8⟩) := by decide
/-- R153: `PAND p3, p1, p2`. -/
theorem test_decode_pand : decodeTableWord 64 0x507000C010080000 = some (.pand ⟨7#4, 0#4, 3#10, 1#10, 2#10, 0#10, 0#8⟩) := by decide
/-- R230, R233: `MMA.bf16.n256 v2, v12, v32 !ec=3` and `MDRAIN.bf16.n256 v12 !ec=2`. -/
theorem test_decode_platen :
    decodeTableWord 64 0xD0700080C083000C = some (.mma .bf16 ⟨7#4, 2#10, 12#10, 32#10, 0x300#10, 12#8⟩) ∧
    (∃ w, decodeTableWord 64 0xD470FFC0C0030008 = some (.mdrain .bf16 w) ∧ w.a = 12#10) := by
  refine ⟨by decide, ⟨⟨7#4, 1023#10, 12#10, 0#10, 0x300#10, 8#8⟩, by decide, rfl⟩⟩
/-- R240: a copy with D = v4, source pair v20, forme destination v30 and the block at v40, on queue 0. -/
theorem test_decode_cpy : decodeTableWord 64 0xE074010140782808 = some (.cpy 0#2 .gf ⟨7#4, 4#10, 20#10, 30#10, 40#10, 8#8⟩) := by decide
/-- R246: `HASH.mix v6, v8, v10` and `HASH.comb v6, v8, v10, v12`. -/
theorem test_decode_hash :
    decodeTableWord 64 0xE870018080280000 = some (.hash false ⟨7#4, 6#10, 8#10, 10#10, 0#10, 0#8⟩) ∧
    decodeTableWord 64 0xE871018080280C00 = some (.hash true ⟨7#4, 6#10, 8#10, 10#10, 12#10, 0#8⟩) := by decide
/-- R249: `NPOST v2, v32 !ec=1`. -/
theorem test_decode_npost : decodeTableWord 64 0xEC70008200000004 = some (.npost ⟨7#4, 2#10, 32#10, 0#10, 0#10, 4#8⟩) := by decide
/-- R258, R260, R262: `MIGR.OUT v6, v3, v4`, `MIGR.OUT.solo v2, v4`, `MIGR.IN.add v6, v6`, the solo `MIGR.IN`. -/
theorem test_decode_migration :
    decodeTableWord 64 0x0770018030100000 = some (.migrOut ⟨7#4, 6#10, 3#10, 4#10, 0#10, 0#8⟩) ∧
    decodeTableWord 64 0x0771008000100000 = some (.migrOutSolo ⟨7#4, 2#10, 0#10, 4#10, 0#10, 0#8⟩) ∧
    decodeTableWord 64 0x0871018060000000 = some (.migrIn .add ⟨7#4, 6#10, 6#10, 0#10, 0#10, 0#8⟩) ∧
    decodeTableWord 64 0x0870FFC000000000 = some (.migrInSolo ⟨7#4, 1023#10, 0#10, 0#10, 0#10, 0#8⟩) := by decide
/-- R272, R274: `SRR v5, s.tindex`, `SRR v6:v7, s.pt`, `SRW s.fcsr, v9`, `SRCLR v7, s.fcsr, v9` (the number in bits 27:16), `TIME v4`. -/
theorem test_decode_system :
    decodeTableWord 64 0x1070014000100000 = some (.srr ⟨7#4, 0#4, 5#10, 0#10, 4#10, 0#10, 0#8⟩) ∧
    decodeTableWord 64 0x1070018000000000 = some (.srr ⟨7#4, 0#4, 6#10, 0#10, 0#10, 0#10, 0#8⟩) ∧
    decodeTableWord 64 0x1170FFC090020000 = some (.fcsrWrite ⟨7#4, 0#4, 1023#10, 9#10, 0#10, 0x200#10, 0#8⟩) ∧
    decodeTableWord 64 0x137001C090020000 = some (.srclr ⟨7#4, 0#4, 7#10, 9#10, 0#10, 0x200#10, 0#8⟩) ∧
    decodeTableWord 64 0x0F70010000000000 = some (.time ⟨7#4, 0#4, 4#10, 0#10, 0#10, 0#10, 0#8⟩) := by decide
/-- R276, R277, R270, R271, R285, R342, R286. -/
theorem test_decode_supervisor :
    decodeTableWord 64 0x0B70FFF450000000 = some (.trap ⟨7#4, 0#4, 1023#10, 837#10, 0#10, 0#10, 0#8⟩) ∧
    decodeTableWord 64 0x0C70FFC080000000 = some (.sys ⟨7#4, 0#4, 1023#10, 8#10, 0#10, 0#10, 0#8⟩) ∧
    decodeTableWord 64 0x0D70FFC000000000 = some (.brk ⟨7#4, 0#4, 1023#10, 0#10, 0#10, 0#10, 0#8⟩) ∧
    decodeTableWord 64 0x1470FFC000000000 = some (.proof ⟨7#4, 0#4, 1023#10, 0#10, 0#10, 0#10, 0#8⟩) ∧
    decodeTableWord 64 0x1570FFC000000000 = some (.eret ⟨7#4, 0#4, 1023#10, 0#10, 0#10, 0#10, 0#8⟩) ∧
    decodeTableWord 64 0x1670FFC000000000 = some (.wfi ⟨7#4, 0#4, 1023#10, 0#10, 0#10, 0#10, 0#8⟩) ∧
    decodeTableWord 64 0x1770FFC000000000 = some (.tlbsync ⟨7#4, 0#4, 1023#10, 0#10, 0#10, 0#10, 0#8⟩) ∧
    decodeTableWord 64 0x1870FFC0A0300000 = some (.tlbkill ⟨7#4, 0#4, 1023#10, 10#10, 12#10, 0#10, 0#8⟩) ∧
    decodeTableWord 64 0x19700100A0300000 = some (.harvest ⟨7#4, 0#4, 4#10, 10#10, 12#10, 0#10, 0#8⟩) ∧
    decodeTableWord 64 0x1A7001006D040000 = some (.fstopStop ⟨7#4, 0#4, 4#10, 6#10, 833#10, 0#10, 0#8⟩) ∧
    decodeTableWord 64 0x1B7001006D080800 = some (.fresumeRestart ⟨7#4, 0#4, 4#10, 6#10, 834#10, 8#10, 0#8⟩) := by decide
/-- R157, R181, R196, R205, R170: `FFMA.f32 v10, v11, v12, v13`, a load and a store, fences, an atomic, `GRPON`. -/
theorem test_decode_others :
    decodeTableWord 64 0x63700280B0300D00 = some (.ffma .f32 ⟨7#4, 10#10, 11#10, 12#10, 13#10, 0#8⟩) ∧
    (∃ w, decodeTableWord 64 0xA0720200A0004030 = some (.ld .w w) ∧ w.d = 8#10 ∧ w.a = 10#10) ∧
    (∃ w, decodeTableWord 64 0xA1720200A0004000 = some (.st .w w) ∧ w.d = 8#10 ∧ w.a = 10#10) ∧
    (∃ w, decodeTableWord 64 0xAB70FFC000026000 = some (.fence w) ∧ cOrder w.c = 3 ∧ cScope w.c = 4) ∧
    (∃ w, decodeTableWord 64 0xC07107828D058000 = some (.amo .add w)) ∧
    decodeTableWord 64 0x9070FFC000000000 = some (.grpon ⟨7#4, 0#4, 1023#10, 0#10, 0#10, 0#10, 0#8⟩) := by
  refine ⟨by decide, ⟨⟨7#4, 8#10, 10#10, 0x40#20, 0x30#8⟩, by decide⟩, ⟨⟨7#4, 8#10, 10#10, 0x40#20, 0#8⟩, by decide⟩,
    ⟨⟨7#4, 1023#10, 0#10, 0#10, 0x260#10, 0#8⟩, by decide⟩, ⟨⟨7#4, 30#10, 40#10, 833#10, 0x180#10, 0#8⟩, by decide⟩, by decide⟩
/-- The words of the memory chapter's table: `LDF.w v8, f[v7 + 0]`, `LDA.w.acq.pkg v6, [v20]`, `STR.d.rel.sys v6, [v20]`, `LDK.d v4, c2[16]`,
`ACAS.w.ar.sys v12, [v40], v14`, `WAITV.geu.d.acq.sys v12, [v40], v14`, `BARA.rel.team v9, f[v16], 1`, `BARW.acq.team v10, f[v16], v9`;
orders acq 1, rel 2, ar 3; scopes team 1, pkg 4, sys 5. -/
theorem test_decode_memory_words :
    decodeTableWord 64 0xA472020070000000 = some (.ldf .w ⟨7#4, 8#10, 7#10, 0#20, 0#8⟩) ∧
    (decodeTableWord 64 0xA272018140022000).any (fun i => match i with
      | .lda .w w => w.d == 6#10 && w.a == 20#10 && cOrder w.c == 1 && cScope w.c == 4 | _ => false) = true ∧
    (decodeTableWord 64 0xA37301814002C000).any (fun i => match i with
      | .str .d w => w.d == 6#10 && w.a == 20#10 && cOrder w.c == 2 && cScope w.c == 5 | _ => false) = true ∧
    decodeTableWord 64 0xA873010020001000 = some (.ldk .d ⟨7#4, 4#10, 2#10, 16#20, 0#8⟩) ∧
    (decodeTableWord 64 0xC1700302803AE000).any (fun i => match i with
      | .acas w => w.d == 12#10 && w.a == 40#10 && w.b == 14#10 && cOrder w.c == 3 && cScope w.c == 5 && cSz w.c == 1 | _ => false) = true ∧
    (decodeTableWord 64 0xC4730302803AA100).any (fun i => match i with
      | .waitv .geu w => w.d == 12#10 && w.a == 40#10 && w.b == 14#10 && cOrder w.c == 1 && cScope w.c == 5 && cSz w.c == 2 | _ => false) = true ∧
    (decodeTableWord 64 0xC77102410D04C000).any (fun i => match i with
      | .bara .forme w => w.d == 9#10 && w.a == 16#10 && w.b == 833#10 && cOrder w.c == 2 && cScope w.c == 1 | _ => false) = true ∧
    (decodeTableWord 64 0xC87102810024A000).any (fun i => match i with
      | .barw .forme w => w.d == 10#10 && w.a == 16#10 && w.b == 9#10 && cOrder w.c == 1 && cScope w.c == 1 | _ => false) = true := by decide
/-- Why a word is no instruction. -/
def refused (w : W64) : Option Reject := match decode w with | .error e => some e | .ok _ => none
/-- R66: the all-zeros and the all-ones words, and a header inside a block, are no instruction; neither is FN 4 of `FADD`. -/
theorem test_decode_refuses :
    refused 0#64 = some (.reservedOp 0) ∧ refused 0xFFFFFFFFFFFFFFFF#64 = some (.reservedOp 0xFF) ∧
    refused 0xFE00000000000000#64 = some .header ∧ refused 0x6074028000000000#64 = some (.undefinedFn 0x60 4) := by decide

/-! ### Ill-formed words: one for each check that the word alone decides -/

/-- `bw d a b c`, `cw`, `iw`: fields with the guard p7 and an empty tail. -/
def bw (d a b c : Nat) : BaseW := ⟨7#4, BitVec.ofNat 10 d, BitVec.ofNat 10 a, BitVec.ofNat 10 b, BitVec.ofNat 10 c, 0#8⟩
def cw (d a b c : Nat) : CtlW := ⟨7#4, 0#4, BitVec.ofNat 10 d, BitVec.ofNat 10 a, BitVec.ofNat 10 b, BitVec.ofNat 10 c, 0#8⟩
def iw (d a imm : Nat) : ImmW := ⟨7#4, BitVec.ofNat 10 d, BitVec.ofNat 10 a, BitVec.ofNat 20 imm, 0#8⟩
def jw (link off : Nat) : JumpW := ⟨7#4, 0#4, BitVec.ofNat 10 link, BitVec.ofNat 30 off, 0#8⟩

/-- R50: a must-be-zero field (cause 0x02): B of `MOV`. -/
theorem test_ill_formed_unused_field : (Instr.mov .w (bw 8 2 1 0)).wellFormed = false ∧ (Instr.mov .w (bw 8 2 0 0)).wellFormed = true := by decide
/-- R57: a control word with a tail; a nonzero FN where none is used. -/
theorem test_ill_formed_tail : (Instr.nop { cw 1023 0 0 0 with tail := 1#8 }).wellFormed = false ∧
    (Instr.nop { cw 1023 0 0 0 with fn := 1#4 }).wellFormed = false ∧ (Instr.nop (cw 1023 0 0 0)).wellFormed = true := by decide
/-- R46, R47: a guard `!p7` and a destination code that names no register (cause 0x03). -/
theorem test_ill_formed_code : (Instr.add .w { bw 8 2 4 0 with g := 15#4 }).wellFormed = false ∧ (Instr.add .w (bw 800 2 4 0)).wellFormed = false := by
  decide
/-- R62, R66: a register at or above LIVE (cause 0x07): with LIVE 768, the pair v767:v768. -/
theorem test_ill_formed_live : (Instr.add .d (bw 767 2 4 0)).wellFormed = false := by decide
/-- R48: an odd pair (cause 0x04). -/
theorem test_ill_formed_odd_pair : (Instr.add .d (bw 8 3 4 0)).wellFormed = false ∧ (Instr.add .d (bw 8 2 4 0)).wellFormed = true := by decide
/-- R56: a class below the opcode's minimum (cause 0x09): `MMA` needs class 3. -/
theorem test_ill_formed_class : (Instr.mma .bf16 (bw 2 12 32 0x300)).wellFormed = false ∧
    (Instr.mma .bf16 { bw 2 12 32 0x300 with tail := 12#8 }).wellFormed = true := by decide
/-- R76: a `CFENCE` that joins no queue; a step that is no instruction. -/
theorem test_ill_formed_other : (Instr.cfence 0#4 (bw 1023 0 0 0)).wellFormed = false ∧ Instr.leaseExpiry.wellFormed = false := by decide

/-! ### States of the tests -/

/-- `State.ready`, as a computation. -/
def readyB (s : State) (i : Instr) : Bool :=
  s.runLanes != [] &&
  (match (s.thr s.cur s.curLane).blk with | some b => s.runLanes.all fun l => (laneCause s s.cur (sig i) b.live l).isNone | none => false) &&
  !s.interlocked s.cur i (sig i) && s.specAllows s.cur i (sig i) s.runLanes true && s.powered s.cur (sig i) (s.acting i) &&
  (s.windowed i).2.2.isEmpty && (s.opened i).absent.isNone
theorem ready_of {s : State} {i : Instr} (h : readyB s i = true) : s.ready i := by
  unfold readyB at h
  simp only [Bool.and_eq_true, bne_iff_ne, Bool.not_eq_true'] at h
  obtain ⟨⟨⟨⟨⟨⟨h1, h2⟩, h3⟩, h4⟩, h5⟩, h6⟩, h7⟩ := h
  refine ⟨⟨h1, ?_, h3, h4, h5⟩, List.isEmpty_iff.1 h6, Option.isNone_iff_eq_none.1 h7⟩
  split at h2
  · next b hb => exact ⟨b, hb, fun l hl => Option.isNone_iff_eq_none.1 (List.all_eq_true.1 h2 l hl)⟩
  · exact absurd h2 (by decide)
/-- Every instruction of a list is ready, and some lane performs it. -/
def readies (s : State) (is : List Instr) : Bool := is.all fun i => readyB s i && s.acting i != 0#64
theorem ready_all {s : State} {is : List Instr} (h : readies s is = true) : ∀ i ∈ is, s.ready i := fun i hi =>
  ready_of (Bool.and_eq_true _ _ ▸ List.all_eq_true.1 h i hi).1

/-- A header of 1,023 words whose LIVE is 768 (R61). -/
def wideHdr : Nat := 0xFEFFF00000000000
def blkAt (a : Nat) : Blk := { addr := BitVec.ofNat 64 a, word := BitVec.ofNat 64 wideHdr }
def regsOf (rs : List (Nat × Nat)) : List (Nat × Reg) := rs.map fun r => (r.1, { sh := .u (BitVec.ofNat 32 r.2) })
/-- Latency core 0 at the word behind a header, in supervisor mode, with values in registers. -/
def core0 (rs : List (Nat × Nat)) : LCore :=
  { grp := { live := 1#64, threads := [{ pc := 0x300000010008#64, blk := some (blkAt 0x300000010000) }], regs := regsOf rs }, held := false }
def onCore (rs : List (Nat × Nat)) : State := { State.reset with lcs := core0 rs :: List.replicate 95 {} }
/-- Core 0 with 5 in v2, 7 in v4, and a supervisor address in v10:v11. -/
def s0 : State := onCore [(2, 5), (4, 7), (10, 0x20000), (11, 0x3000)]
/-- The same in user mode. -/
def s0u : State := { s0 with lcs := { core0 [(2, 5), (4, 7), (10, 0x20000), (11, 0x3000)] with status := 0#32 } :: List.replicate 95 {} }

/-- A family of four groups (dw0: regs 64, a cluster of one core), one team of it on SIMT core 0, and the group that runs. -/
def famT : Family :=
  { famid := 1#32, n := 256, desc := [0x4001010004#64, 0x100001000#64, 0#64, 0#64, 0#64, 0#64, 0#64, 0#64], ptbr := 0#64, cws := List.replicate 8 0#64,
    parent := { live := 1#64, threads := [{}] }, d := 4, origin := 0, outPc := 0x300000010000#64, teams := 1, nextInst := 1,
    ballast := 1000000, rate := 1000, cap := 1048576, state := .running }
def thrT (l : Nat) : Thread := { fam := 1#32, tix := l, pc := 0x300000010008#64, blk := some { addr := 0x300000010000#64, word := 0xFEFFC40000000000#64 } }
def grpT (live : Mask) (gst : GState) (rs : List (Nat × Nat)) : Group :=
  { live := live, threads := (List.range 64).map thrT, gst := gst, regs := regsOf rs }
def teamT (g : Group) : Team := { tid := 0, fam := 1#32, st := .resident, fsize := 65536, groups := [some g, some {}, some {}, some {}] }
def onGrp (g : Group) : State := { State.reset with fams := [famT], teams := [teamT g], nextTid := 1, cur := .grp 0 0 }
/-- Lanes 0 and 1 of a group inside a region. -/
def sg : State := onGrp (grpT 3#64 .region [(2, 5), (4, 7)])
/-- Lane 0 alone, outside a region. -/
def s1 : State := onGrp (grpT 1#64 .opened [(2, 5), (4, 7)])

/-! ### The hypotheses of the statements can be met -/

theorem witness_IntegerArithmetic : ∀ i ∈ [Instr.add .w (bw 8 2 4 0), .add .d (bw 8 2 4 0), .add .h2 (bw 8 2 4 0), .add .b4 (bw 1023 2 4 0),
    .addI .w (iw 8 2 3), .addI .d (iw 8 2 0xFFFFF), .sub .w (bw 8 2 4 0), .neg .b4 (bw 8 2 0 0), .abs .h2 (bw 8 2 0 0),
    .addsat .w .u (bw 8 2 4 0), .addsat .h2 .s (bw 8 2 4 0), .subsat .w .u (bw 8 2 4 0), .subsat .d .s (bw 8 2 4 0),
    .mul .w (bw 8 2 4 0), .mulI .w (iw 8 2 3), .mulh .w .u (bw 8 2 4 0), .mulh .d .s (bw 8 2 4 0), .mad .w (bw 8 2 4 4),
    .madw .s (bw 8 2 4 4), .madw .u (bw 8 2 4 4), .div .w .u (bw 8 2 4 0), .div .w .s (bw 8 2 6 0), .rem .d .u (bw 8 2 4 0), .rem .w .s (bw 8 2 4 0),
    .addc .w (bw 8 2 4 0x49), .addc .d (bw 8 2 4 0x38), .subb .w (bw 8 2 4 0x71)], s0.ready i := ready_all (by decide)
theorem witness_IntegerLogicAndShifts : ∀ i ∈ [Instr.and .w (bw 8 2 4 0), .or .d (bw 8 2 4 0), .xor .h2 (bw 8 2 4 0), .andn .b4 (bw 8 2 4 0),
    .andI .w (iw 8 2 3), .orI .d (iw 8 2 3), .xorI .w (iw 8 2 0xFFFFF), .shl .w (bw 8 2 4 0), .shr .w .l (bw 8 2 4 0), .shr .h2 .a (bw 8 2 4 0),
    .rot .w .l (bw 8 2 4 0), .rot .d .r (bw 8 2 5 0), .fshf .l (bw 8 2 4 5), .fshf .r (bw 8 2 4 6)], s0.ready i := ready_all (by decide)
theorem witness_IntegerSelectionAndFields : ∀ i ∈ [Instr.min .w .u (bw 8 2 4 0), .min .d .s (bw 8 2 4 0), .max .h2 .u (bw 8 2 4 0), .max .b4 .s (bw 8 2 4 0),
    .clz .w (bw 8 2 0 0), .ctz .d (bw 8 6 0 0), .popc .h2 (bw 8 2 0 0), .brev .w (bw 8 2 0 0), .bext .w (bw 8 2 4 0), .bins .d (bw 8 2 4 7),
    .ext .w .u (bw 8 2 4 0), .ext .d .s (bw 8 2 5 0), .perm (bw 8 2 4 6)], s0.ready i := ready_all (by decide)
theorem witness_MovesOperandsPoison : (∀ i ∈ [Instr.sel .d (bw 8 2 4 1), .sel .h2 (bw 8 2 4 7), .mov .w (bw 8 2 0 0), .mov .d (bw 8 895 0 0),
    .li ⟨7#4, 0#4, 8#10, 1#32, 0#6⟩, .lih ⟨7#4, 0#4, 8#10, 1#32, 0#6⟩, .lea .w (bw 8 2 4 7), .lea .d (bw 8 2 5 0), .leaI .d (iw 8 2 3),
    .add .w (bw 8 2 4 0)], s0.ready i) ∧ ISize.h2 ≠ ISize.d ∧ (767#10).toNat < 768 ∧ 768 ≤ (768#10).toNat ∧ (895#10).toNat < 896 :=
  ⟨ready_all (by decide), by decide⟩
theorem witness_ComparesAndPredicates : ∀ i ∈ [Instr.cmp .w .u (bw 1 2 4 5), .cmp .d .s (bw 1023 2 4 0x322), .cmp .w .s (bw 6 2 4 0x121), .pand (cw 3 1 2 0),
    .por (cw 6 0 7 0), .pxor (cw 1023 1 2 0), .pandn (cw 3 1 2 0), .pset (cw 3 2 4 0), .pget (cw 8 0 0 0)], s0.ready i := ready_all (by decide)
/-- With no trap enabled no flag is an enabled one. -/
theorem nothing_enabled (fl : Flags) : enabledIn 0#32 fl = false := by simp [enabledIn]
theorem witness_FloatArithmetic : (∀ i ∈ [Instr.fadd .f32 (bw 8 2 4 0), .fsub .f64 (bw 8 2 4 0), .fmul .h2 (bw 8 2 4 0), .fdiv .b2 (bw 8 2 4 0),
    .ffma .f32 (bw 8 2 4 6), .ffms .f64 (bw 8 2 4 6), .fnma .h2 (bw 8 2 4 6), .fsqrt .f32 (bw 8 2 0 0), .frnd .f32 (bw 8 2 0 0), .fscale .h2 (bw 8 2 4 0),
    .fscale .f64 (bw 8 2 5 0), .fmin .f32 (bw 8 2 4 0), .fmax .b2 (bw 8 2 4 0), .fsgn .f32 (bw 8 2 4 2), .fdot2 (bw 8 2 4 6)], s0.ready i) ∧
    ∀ fl, enabledIn (s0.thr s0.cur 0).fcsr fl = false := ⟨ready_all (by decide), nothing_enabled⟩
theorem witness_FloatComparesAndConversions : (∀ i ∈ [Instr.fcmp .f32 (bw 1 2 4 5), .fcmp .h2 (bw 6 2 4 0x139), .fclass .h2 (bw 8 2 0 0),
    .frcp .f32 (bw 8 2 0 0), .frsq .h2 (bw 8 2 0 0), .fexp2 .b2 (bw 8 2 0 0), .flog2 .f32 (bw 8 2 0 0), .fsin .f32 (bw 8 2 0 0), .fcos .f32 (bw 8 2 0 0),
    .ftanh .h2 (bw 8 2 0 0), .cvtff .f32f64 (bw 8 2 0 0), .cvtff .f64f32 (bw 8 2 0 0), .cvtff .h2f32 (bw 8 2 4 0), .cvtff .b2f32 (bw 8 2 4 0),
    .cvtff .f32h2 (bw 8 2 0 0), .cvtff .f32b2 (bw 8 2 0 0), .cvtff .h2b2 (bw 8 2 0 0), .cvtff .b2h2 (bw 8 2 0 0), .cvtfi .s32 .f32 (bw 8 2 0 0),
    .cvtfi .u64 .f64 (bw 8 2 0 0), .cvtif .s32 .f32 (bw 8 2 0 0), .cvtif .u64 .f64 (bw 8 2 0 0), .qpack .e4m3 (bw 8 2 4 1), .qpack .e5m2 (bw 8 2 4 0),
    .qpack .mx8e4 (bw 64 32 0 0), .qpack .mx8e5 (bw 64 32 0 0), .qpack .mx4 (bw 64 32 0 0), .qunpk .e4m3 (bw 8 2 0 0), .qunpk .mx8e4 (bw 64 32 4 0),
    .qunpk .mx4 (bw 64 32 4 0)], s0.ready i) ∧ ∀ fl, enabledIn (s0.thr s0.cur 0).fcsr fl = false := ⟨ready_all (by decide), nothing_enabled⟩
/-- binary32: a signalling NaN, a quiet one, both infinities, zeros, one. -/
theorem witness_FloatRounding : (F32.decZ false 0x7F800001).isSnan = true ∧ (F32.decZ false 0x7FC00000).isNan = true ∧
    (F32.decZ false 0x7FC00000).isSnan = false ∧ F32.decZ false 0x7F800000 = .inf false ∧ F32.decZ false 0xFF800000 = .inf true ∧
    (F32.decZ false 0x80000000).isZero = true ∧ F32.decZ false 0x3F800000 = .fin false (2 ^ 23) (-23) ∧ (F32.decZ false 0xBF800000).neg = true ∧
    (0 : Nat) < 1 := by decide
/-- Zeros of the same and of opposite sign, and 1 - 1. -/
theorem witness_ZeroSums : F32.decZ false 0 = .fin false 0 (-149) ∧ F32.decZ false 0x80000000 = .fin true 0 (-149) ∧
    F32.decZ false 0x3F800000 = .fin false (2 ^ 23) (-23) ∧ F32.decZ false 0xBF800000 = .fin true (2 ^ 23) (-23) := by decide
/-- A guard p0, false in every lane. -/
theorem witness_GuardFalse : (Instr.add .w { bw 8 2 4 0 with g := 0#4 }).isWord = true ∧ isTransfer (.add .w { bw 8 2 4 0 with g := 0#4 }) = false ∧
    s0.ready (.add .w { bw 8 2 4 0 with g := 0#4 }) ∧ s0.acting (.add .w { bw 8 2 4 0 with g := 0#4 }) = 0#64 :=
  ⟨rfl, rfl, ready_of (by decide), by decide⟩
theorem witness_NopHasNoEffect : s0.ready (.nop (cw 1023 0 0 0)) ∧ sg.ready (.nop (cw 1023 0 0 0)) := ⟨ready_of (by decide), ready_of (by decide)⟩

theorem witness_GroupOperations : (∀ i ∈ [Instr.vote .all (bw 1 2 0 0), .vote .any (bw 1 2 0 0), .vote .uni (bw 1 2 0 0), .vote .ballot (bw 8 2 0 0),
    .shfl .w .idx (bw 8 2 4 0), .shfl .d .up (bw 8 2 4 0), .shfl .w .down (bw 8 2 4 0), .shfl .w .xor (bw 8 2 4 0), .gmatch .w (bw 8 2 0 0),
    .gelect .lo (bw 1 0 0 0), .gelect .hi (bw 1 0 0 0), .gmask .act (bw 8 0 0 0), .gmask .live (bw 8 0 0 0), .gred .w (bw 8 2 0 0), .gred .d (bw 8 2 0 7),
    .gscan .d (bw 8 2 0 15), .gred .f32 (bw 8 2 0 0), .gscan .f64 (bw 8 2 0 8)], sg.ready i) ∧ GType.isFloat .w = false ∧ GType.isFloat .f64 = true ∧
    (∀ l ∈ List.range 64, (sg.thr sg.cur l).fcsr = 0#32) ∧ sg.acting (.gred .f32 (bw 8 2 0 0)) ≠ 0#64 ∧ sg.acting (.gscan .f64 (bw 8 2 0 8)) ≠ 0#64 :=
  ⟨ready_all (by decide), by decide⟩
/-- Beyond the 64 lanes a thread has the default `s.fcsr`, so that no lane has a trap enabled. -/
theorem witness_GroupOperations_enables : ∀ l fl, enabledIn (sg.thr sg.cur l).fcsr fl = false := by
  intro l fl
  have h : (sg.thr sg.cur l).fcsr = 0#32 := by
    have h1 : (sg.thr sg.cur l) = ((List.range 64).map thrT).getD l {} := rfl
    rw [h1, List.getD_eq_getElem?_getD, List.getElem?_map]
    cases (List.range 64)[l]? <;> rfl
  rw [h]; exact nothing_enabled fl

/-! Regions and quads. -/

/-- Two lanes that have arrived together, before a region and in it; one lane while another still runs elsewhere. -/
def sgo : State := onGrp (grpT 3#64 .opened [])
def sgw : State := onGrp { grpT 3#64 .opened [] with threads := (List.range 64).map fun l => { thrT l with pc := if l = 0 then 0x300000010008#64 else 0x300000010010#64 } }
def quadTeam (g : Group) (quad : Bool) (q : List (Option (Nat × Nat))) : Team := { teamT g with quad := quad, qmem := q }
def onQuad (g : Group) (quad : Bool) (q : List (Option (Nat × Nat))) : State := { onGrp g with teams := [quadTeam g quad q] }
def members : List (Option (Nat × Nat)) := [some (0, 0), some (1, 0), some (2, 0), some (3, 0)]
def sq : State := onQuad (grpT 1#64 .region [(40, 3)]) true members
def sqn : State := onQuad (grpT 1#64 .region []) false [none, none, none, none]
theorem witness_RegionsAndQuads :
    (sg.ready (.grpon (cw 1023 0 0 0)) ∧ (sg.grp sg.cur).gst = .region) ∧
    (sgo.ready (.grpon (cw 1023 0 0 0)) ∧ (sgo.grp sgo.cur).gst = .opened ∧ sgo.acting (.grpon (cw 1023 0 0 0)) = (sgo.grp sgo.cur).live ∧
      sgo.runLanes = [0, 1]) ∧
    (sgw.ready (.grpon (cw 1023 0 0 0)) ∧ sgw.acting (.grpon (cw 1023 0 0 0)) = 1#64 ∧ Mask.has (sgw.grp sgw.cur).live 1 = true ∧
      ((sgw.grp sgw.cur).thr 1).st ≠ .arrived) ∧
    (sg.ready (.grpoff (cw 1023 0 0 0)) ∧ sg.acting (.grpoff (cw 1023 0 0 0)) ≠ 0#64) ∧
    (sq.ready (.qbind (cw 1023 0 0 0)) ∧ (sq.team 0).quad = true ∧ (sq.team 0).member 0 = true ∧ 4 ≤ (sq.team 0).groups.length) ∧
    (sqn.ready (.qbind (cw 1023 0 0 0)) ∧ (sqn.team 0).quad = false ∧ (sqn.team 0).qmem.getD 0 none = none) ∧
    (sq.ready (.qfree (cw 1023 0 0 0)) ∧ ((sq.team 0).quad && (sq.team 0).member 0) = true ∧ (sq.team 0).plq = []) ∧
    (sqn.ready (.qfree (cw 1023 0 0 0)) ∧ ((sqn.team 0).quad && (sqn.team 0).member 0) = false) :=
  ⟨⟨ready_of (by decide), by decide⟩, ⟨ready_of (by decide), by decide⟩, ⟨ready_of (by decide), by decide⟩, ⟨ready_of (by decide), by decide⟩,
    ⟨ready_of (by decide), by decide⟩, ⟨ready_of (by decide), by decide⟩, ⟨ready_of (by decide), by decide⟩, ready_of (by decide), by decide⟩
/-- The four members have come, and no quad holds the tiles. -/
def sqf : State := onQuad (grpT 1#64 .region []) false members
theorem witness_RegionsAndQuads_forming : (sqf.teams.filter fun t => t.core == 0 && (t.st == .resident || t.st == .saving)) = [sqf.team 0] ∧
    (sqf.team 0).st = .resident ∧ sqf.team? 0 = some (sqf.team 0) ∧ (sqf.team 0).quad = false ∧ (sqf.team 0).qmem.all (·.isSome) = true :=
  ⟨rfl, rfl, rfl, by decide⟩

/-! ### Transfers, exceptions, system registers -/

/-- `State.plain` and `State.headerAt`, as computations. -/
def plainB (s : State) (pa n : Nat) : Bool :=
  paPkg pa == s.link.pkg && s.link.domain.getLsbD s.link.pkg && decide (paDie pa < 28) && decide (paOff pa + n ≤ Config.dieBytes (paDie pa)) &&
  (assoc (pageOf pa) s.moved).isNone && (s.pages.all fun r => !r.isFor (pageOf pa)) && !s.windowedOver pa n
theorem plain_of {s : State} {pa n : Nat} (h : plainB s pa n = true) : s.plain pa n := by
  simp only [plainB, Bool.and_eq_true, beq_iff_eq, decide_eq_true_eq, Option.isNone_iff_eq_none, List.all_eq_true, Bool.not_eq_true'] at h
  obtain ⟨⟨⟨⟨⟨⟨h1, h2⟩, h3⟩, h4⟩, h5⟩, h6⟩, h7⟩ := h
  exact ⟨⟨h1, h2, h3, h4, h5, h6⟩, h7⟩
def homedB (s : State) (pa n : Nat) : Bool := plainB { s with wstores := [] } pa n
theorem homed_of {s : State} {pa n : Nat} (h : homedB s pa n = true) : s.homed pa n :=
  have e := (plain_of h).tohomed
  ⟨e.1, e.2, e.3, e.4, e.5, e.6⟩
def headerB (s : State) (n : Nat) (a w : W64) : Bool :=
  !(s.lc n).ptbr.getLsbD 0 && canonical a && plainB s (a.toNat % 2 ^ 52) 8 && !s.poisoned (a.toNat % 2 ^ 52) 8 &&
  w == BitVec.ofNat 64 (s.rdN (a.toNat % 2 ^ 52) 8) && isHeader w && (headerCause w 768).isNone
theorem header_of {s : State} {n : Nat} {a w : W64} (h : headerB s n a w = true) : s.headerAt n a w := by
  simp only [headerB, Bool.and_eq_true, beq_iff_eq, Bool.not_eq_true', Option.isNone_iff_eq_none] at h
  obtain ⟨⟨⟨⟨⟨⟨h1, h2⟩, h3⟩, h4⟩, h5⟩, h6⟩, h7⟩ := h
  exact ⟨h2, ⟨_, .inl ⟨h1, rfl⟩, plain_of h3, h4, h5⟩, h6, h7⟩
theorem alone_of {s : State} (h1 : s.cur = .lc 0) (h2 : s.curLane = 0) (h3 : s.runLanes = [0])
    (h4 : (s.thr (.lc 0) 0).rej = [] ∧ (s.thr (.lc 0) 0).handler = none) : s.alone 0 := ⟨h1, h2, h3, h4⟩

def hdrW : W64 := BitVec.ofNat 64 wideHdr
/-- Memory with a header at the trap vector 0x3000_0002_0000 and at 0x3000_0001_0048. -/
def hdrMem : List Host.Cell := putCells (putCells [] 0x300000010048 (bytesOfWord hdrW)) 0x300000020000 (bytesOfWord hdrW)
def trapCore (c : LCore) : LCore := { c with tvec := 0x300000020000#64 }
def onTrap (rs : List (Nat × Nat)) (f : LCore → LCore) : State :=
  { State.reset with lcs := f (trapCore (core0 rs)) :: List.replicate 95 {}, mem := hdrMem }
def st : State := onTrap [(2, 5), (4, 7), (10, 0x20000), (11, 0x3000), (12, 0x20004), (13, 0x3000)] id
/-- The same in user mode; with poison in v2 and v10; with p0-guarded words. -/
def stu : State := onTrap [(2, 5), (10, 0x20000), (11, 0x3000)] fun c => { c with status := 0#32 }
def stp : State := onTrap [] fun c => { c with grp := { c.grp with regs := [(2, { poison := 1#64 }), (10, { poison := 1#64 })] } }

theorem witness_ControlTransfers : st.alone 0 ∧ (st.lc 0).sup = true ∧
    (st.ready (.br (jw 1023 8)) ∧ st.ready (.call (jw 8 8)) ∧ (st.thr (.lc 0) 0).pc + BitVec.ofInt 64 (8 * (BitVec.ofNat 30 8).toInt) = 0x300000010048#64) ∧
    st.headerAt 0 0x300000010048#64 hdrW ∧
    (st.ready (.brx (cw 8 10 0 0)) ∧ st.ready (.callx (cw 8 10 0 0)) ∧ st.ready (.ret (cw 1023 10 0 0)) ∧
      (st.grp (.lc 0)).poi 0 10 2 = false ∧ (st.grp (.lc 0)).rd64 0 10 = 0x300000020000#64 ∧ st.headerAt 0 0x300000020000#64 hdrW) ∧
    (st.ready (.br { jw 1023 8 with g := 0#4 }) ∧ Mask.has (st.acting (.br { jw 1023 8 with g := 0#4 })) 0 = false) :=
  ⟨alone_of rfl rfl (by decide) (by decide), by decide, ⟨ready_of (by decide), ready_of (by decide), by decide⟩, header_of (by decide),
    ⟨ready_of (by decide), ready_of (by decide), ready_of (by decide), by decide, by decide, header_of (by decide)⟩, ready_of (by decide), by decide⟩
theorem witness_ControlTransfers_traps : stp.alone 0 ∧ stp.headerAt 0 (stp.lc 0).tvec hdrW ∧ (stp.lc 0).tvec.toNat % 8 = 0 ∧
    (stp.ready (.brx (cw 8 10 0 0)) ∧ (stp.grp (.lc 0)).poi 0 10 2 = true ∧ Mask.has (stp.acting (.brx (cw 8 10 0 0))) 0 = true) ∧
    (st.headerAt 0 (st.lc 0).tvec hdrW ∧ st.ready (.callx (cw 8 12 0 0)) ∧ ((st.grp (.lc 0)).rd64 0 12).toNat % 8 ≠ 0) ∧
    (st.ready (.br (jw 1023 16)) ∧ st.plain 0x300000010088 8 ∧ st.poisoned 0x300000010088 8 = false ∧
      isHeader (BitVec.ofNat 64 (st.rdN 0x300000010088 8)) = false) :=
  ⟨alone_of rfl rfl (by decide) (by decide), header_of (by decide), by decide, ⟨ready_of (by decide), by decide⟩,
    ⟨header_of (by decide), ready_of (by decide), by decide⟩, ready_of (by decide), plain_of (by decide), by decide⟩
/-- An interrupt is pending at core 0, whose IE is set. -/
def sti : State := onTrap [] fun c => { c with status := 7#32, pend := [{ num := 16, tval := 0#64 }, { num := 1, tval := 9#64 }, { num := 1, tval := 3#64 }] }
theorem witness_Exceptions : (st.headerAt 0 (st.lc 0).tvec hdrW ∧ (st.lc 0).tvec.toNat % 8 = 0 ∧ 0 < st.lcs.length ∧ (st.lc 0).grp.threads.length = 1) ∧
    (∀ i ∈ [Instr.trap (cw 1023 2 0 0), .sys (cw 1023 2 0 0), .brk (cw 1023 0 0 0), .exit (cw 1023 0 0 0)], st.ready i) ∧
    (stp.ready (.trap (cw 1023 2 0 0)) ∧ Mask.has ((stp.grp (.lc 0)).src .int 1 2#10).poi 0 = true) ∧
    (sti.running (.lc 0) = true ∧ (sti.lc 0).status.getLsbD 2 = true ∧ (sti.lc 0).inside = false ∧ (sti.lc 0).pend = [{ num := 16, tval := 0#64 }] ++ ({ num := 1, tval := 9#64 } : Irq) :: [{ num := 1, tval := 3#64 }] ∧
      (∀ r ∈ [({ num := 16, tval := 0#64 } : Irq)], 1 < r.num) ∧ (∀ r ∈ [({ num := 1, tval := 3#64 } : Irq)], 1 ≤ r.num) ∧ sti.absent = none ∧ sti.headerAt 0 (sti.lc 0).tvec hdrW) :=
  ⟨⟨header_of (by decide), by decide⟩, ready_all (by decide), ⟨ready_of (by decide), by decide⟩, by decide, by decide, by decide, by decide, by decide,
    by decide, by decide, header_of (by decide)⟩
/-- Inside a handler: PMODE and PIE set, the word at `s.epc` is the one behind the header at the vector, or the header itself. -/
def ste (hoff : Nat) : State := onTrap [] fun c => { c with status := BitVec.ofNat 32 (hoff * 2 ^ 10 + 11), epc := BitVec.ofNat 64 (0x300000020000 + 8 * hoff) }
theorem witness_ExceptionReturns : ∀ h ∈ [0, 1], (ste h).alone 0 ∧ (ste h).ready (.eret (cw 1023 0 0 0)) ∧
    Mask.has ((ste h).acting (.eret (cw 1023 0 0 0))) 0 = true ∧ ((ste h).lc 0).status.getLsbD 1 = true ∧ ((ste h).lc 0).epc.toNat % 8 = 0 ∧
    ((ste h).lc 0).status.toNat / 2 ^ 10 % 1024 = h ∧ (ste h).headerAt 0 0x300000020000#64 hdrW := by
  intro h hh
  simp only [List.mem_cons, List.not_mem_nil, or_false] at hh
  rcases hh with rfl | rfl
  · exact ⟨alone_of rfl rfl (by decide) (by decide), ready_of (by decide), by decide, by decide, by decide, by decide, header_of (by decide)⟩
  · exact ⟨alone_of rfl rfl (by decide) (by decide), ready_of (by decide), by decide, by decide, by decide, by decide, header_of (by decide)⟩
/-- RES is set, and the family that `s.famsel` names has ended with its record complete. -/
def endedFam : Family :=
  { famT with state := .ended, completed := some { pc := 0x300000010010#64, result := some 42#64, flags := 0#32, exitMark := false } }
def str : State := { onTrap [] fun c => { c with status := 0x80000003#32, famsel := 1#32 } with fams := [endedFam] }
theorem witness_ExceptionReturns_family : str.alone 0 ∧ str.ready (.eretResumeFamily (cw 1023 0 0 0)) ∧
    Mask.has (str.acting (.eretResumeFamily (cw 1023 0 0 0))) 0 = true ∧ str.fam? (str.lc 0).famsel = some endedFam ∧ endedFam.state = .ended ∧
    (endedFam.completed.any fun x => !x.exitMark) = true ∧ endedFam.d < 768 ∧ endedFam.parent.threads.length = 1 ∧ Mask.has endedFam.parent.live 0 = true :=
  ⟨alone_of rfl rfl (by decide) (by decide), ready_of (by decide), by decide, rfl, by decide⟩
/-- The word that names system register `num` with operand A and destination D: the number stands in bits 27:16. -/
def sw (d a num : Nat) : CtlW := cw d a (num / 4) (num % 4 * 256)
theorem witness_SystemRegisterReads : (∀ i ∈ [Instr.srr (sw 8 0 0x000), .srr (sw 8 0 0x002), .srr (sw 8 0 0x050), .srr (sw 8 0 0x058)], st.ready i) ∧
    (∀ n ∈ [0x000, 0x002, 0x050, 0x058], sysCause n st.cur.isLc (st.sup st.cur) true false = none ∧ (sw 8 0 n).num = n) ∧ st.proofed st.cur 0 = false ∧
    (st.thr st.cur 0).lastPt ≤ st.pt ∧ (sg.ready (.srr (sw 8 0 0x010)) ∧ sg.famOf sg.cur 0 = some famT ∧ sg.proofed sg.cur 0 = false) :=
  ⟨ready_all (by decide), by decide, by decide, by decide, ready_of (by decide), rfl, by decide⟩
/-- Core 0 with `s.famsel` naming a family that runs. -/
def stf : State := { onTrap [(2, 5)] fun c => { c with famsel := 1#32 } with fams := [famT] }
theorem witness_SystemRegisterWrites : stf.alone 0 ∧ (stf.lc 0).sup = true ∧
    (∀ i ∈ [Instr.srw (sw 1023 2 0x020), .srw (sw 1023 2 0x027), .srw (sw 1023 2 0x031), .srw (sw 1023 2 0x033), .srw (sw 1023 2 0x034),
      .srw (sw 1023 2 0x043), .srw (sw 1023 2 0x050), .srw (sw 1023 2 0x053), .srw (sw 1023 2 0x057), .shapeixWrite (sw 1023 2 0x006), .fcsrWrite (sw 1023 2 0x002),
      .ballastCapWrite (sw 1023 2 0x032), .finjWrite (sw 1023 2 0x042), .admodeWrite (sw 1023 2 0x041), .ptbrWrite (sw 1023 2 0x056),
      .drainintWrite (sw 1023 2 0x058)], stf.ready i) ∧
    Mask.has (stf.acting (.srw (sw 1023 2 0x020))) 0 = true ∧ Mask.has ((stf.grp stf.cur).src .int 2 2#10).poi 0 = false ∧
    stf.dev.caps.getLsbD 8 = true ∧ ({ stf with dev := { stf.dev with caps := 0#9 } } : State).dev.caps.getLsbD 8 = false ∧
    stf.fam? (stf.lc 0).famsel = some famT ∧ famT.state ≠ .ended ∧ (5 : Nat) < 768 ∧
    stf.ready (.srset (sw 8 2 0x043)) ∧ stf.ready (.srclr (sw 8 2 0x050)) ∧ sysCause 0x043 true (stf.lc 0).sup true true = none :=
  ⟨alone_of rfl rfl (by decide) (by decide), by decide, ready_all (by decide), by decide, by decide, by decide, by decide, rfl, by decide, by decide,
    ready_of (by decide), ready_of (by decide), by decide⟩
/-- `State.stands`, as a computation. -/
def standsB (s : State) (i : Instr) : Bool :=
  (s.thr s.cur s.curLane).blk.isSome && (s.runLanes.all fun l => !(s.thr s.cur l).pendPoison) && !s.interlocked s.cur i (sig i) && s.absent.isNone
theorem stands_all {s : State} {is : List Instr} (h : is.all (standsB s) = true) : ∀ i ∈ is, s.stands i := by
  intro i hi
  have e := List.all_eq_true.1 h i hi
  simp only [standsB, Bool.and_eq_true, List.all_eq_true, Bool.not_eq_true', Option.isNone_iff_eq_none] at e
  exact ⟨e.1.1.1, e.1.1.2, e.1.2, e.2⟩
theorem witness_SystemTraps : (stu.alone 0 ∧ stu.headerAt 0 (stu.lc 0).tvec hdrW ∧ (stu.lc 0).sup = false ∧
      (∀ i ∈ [Instr.srr (sw 8 0 0x050), .srw (sw 1023 2 0x058), .srset (sw 8 2 0x033), .srclr (sw 8 2 0x041), .srr (sw 8 0 0x030), .srw (sw 1023 2 0x043),
        .drainintWrite (sw 1023 2 0x058), .srr (sw 8 0 0x003), .srw (sw 1023 2 0x034)], stu.stands i)) ∧
    (∀ i ∈ [Instr.srr (sw 8 0 0x003), .srw (sw 1023 2 0x003), .srclr (sw 8 2 0x003)], st.stands i) ∧
    (∀ i ∈ [Instr.srr (sw 8 0 0x059), .srw (sw 1023 2 0xFFF), .srr (sw 8 0 0x00A), .srw (sw 1023 2 0x01F), .srset (sw 8 2 0x028), .srclr (sw 8 2 0x035),
      .srr (sw 8 0 0x04F), .srw (sw 1023 2 0x000), .srset (sw 8 2 0x004), .srw (sw 1023 2 0x040), .srw (sw 1023 2 0x009), .srclr (sw 8 2 0x018),
      .srw (sw 1023 2 0x030)], st.ready i ∧ Mask.has (st.acting i) 0 = true) ∧ st.headerAt 0 (st.lc 0).tvec hdrW ∧
    (let t := onTrap [(2, 768)] id
     t.alone 0 ∧ t.ready (.srw (sw 1023 2 0x006)) ∧ (t.lc 0).sup = true ∧ 768 ≤ (((t.grp t.cur).src .int 1 2#10).val 0).toNat % 2 ^ 32) :=
  ⟨⟨alone_of rfl rfl (by decide) (by decide), header_of (by decide), by decide, stands_all (by decide)⟩, stands_all (by decide),
    fun i hi => ⟨ready_all (by decide) i hi, (by decide : ∀ i ∈ [Instr.srr (sw 8 0 0x059), .srw (sw 1023 2 0xFFF), .srr (sw 8 0 0x00A), .srw (sw 1023 2 0x01F),
      .srset (sw 8 2 0x028), .srclr (sw 8 2 0x035), .srr (sw 8 0 0x04F), .srw (sw 1023 2 0x000), .srset (sw 8 2 0x004), .srw (sw 1023 2 0x040), .srw (sw 1023 2 0x009),
      .srclr (sw 8 2 0x018), .srw (sw 1023 2 0x030)], Mask.has (st.acting i) 0 = true) i hi⟩, header_of (by decide),
    alone_of rfl rfl (by decide) (by decide), ready_of (by decide), by decide, by decide⟩
/-- `SRR.d` and `SRW.d` (P64 = 1) too, and a user thread. -/
def swd (d a num : Nat) : CtlW := { sw d a num with c := BitVec.ofNat 10 (num % 4 * 256 + 1) }
theorem witness_CauseRegister : st.alone 0 ∧ (st.lc 0).sup = true ∧
    (∀ i ∈ [Instr.srr (sw 8 0 0x053), .srw (sw 1023 2 0x053), .srr (swd 8 0 0x053), .srw (swd 1023 2 0x053)], st.ready i) ∧
    (sw 8 0 0x053).num = 0x053 ∧ (swd 8 0 0x053).num = 0x053 ∧ (swd 8 0 0x053).p64 = true ∧
    Mask.has ((st.grp st.cur).src .int 2 2#10).poi 0 = false ∧ Mask.has (st.acting (.srw (swd 1023 2 0x053))) 0 = true ∧
    (∀ i ∈ [Instr.srr (sw 8 0 0x053), .srw (sw 1023 2 0x053), .srset (sw 8 2 0x053), .srclr (swd 8 2 0x053)], stu.stands i) ∧
    (st.takeTrap 0 false 0x0A 0#64 0#64 0).absent = none ∧ 0 < st.lcs.length :=
  ⟨alone_of rfl rfl (by decide) (by decide), by decide, ready_all (by decide), by decide, by decide, by decide, by decide, by decide, stands_all (by decide),
    by decide⟩

/-! ### A user thread under translation, and its `MIGR.OUT` -/

def putDw (m : List Host.Cell) (a v : Nat) : List Host.Cell := putCells m a (bytesOfWord (BitVec.ofNat 64 v))
/-- A page table at 0x3000_0040_0000: user pages 0 (code), 2 (data), 8 and 9 (save area); behind it a descriptor at page 2, its fault queue
with SIZE 4, and headers behind the `MIGR.OUT` and at the trap vector. -/
def userMem : List Host.Cell :=
  [(0x300000400000, 0x300000410001), (0x300000410000, 0x300000420001), (0x300000420000, 0x30000000005B), (0x300000420010, 0x3000000400D7),
   (0x300000420040, 0x3000001000D7), (0x300000420048, 0x3000001200D7),
   (0x300000040000, 0x404001010001), (0x300000040008, 0x100001000), (0x300000040010, 1000), (0x300000040028, 0x100000), (0x300000040038, 0x40100),
   (0x300000040110, 4), (0x300000010010, 0xFEFFC40000000000), (0x300000020000, wideHdr)].foldl (fun m x => putDw m x.1 x.2) []
def userTlb (h : Holder) : Tlb := { holder := h, asid := 0, vpage := 0x7FC000000001, level := 3, leaf := 0x300000020049#64, ea := 0, expiry := 1000000 }
def userCore (rs : List (Nat × Nat)) : LCore :=
  { grp := { live := 1#64, threads := [{ pc := 0x10008#64, blk := some (blkAt 0x10000) }], regs := regsOf rs }, held := false, status := 0#32,
    ptbr := 0x300000400001#64, tvec := 0xFF80000000020000#64 }
def onUser (rs : List (Nat × Nat)) : State :=
  { State.reset with lcs := userCore rs :: List.replicate 95 {}, mem := userMem, pt := 100, tlbs := [userTlb (.lc 0), userTlb (.hdie 24)] }
/-- N = 64 in v2 and the descriptor's address in v4:v5. -/
def su : State := onUser [(2, 64), (4, 0x40000)]
def outR (s : State) : State × Except Stop OutEnd :=
  ((s.opened (.migrOut (bw 6 2 4 0))).outStart (.lc 0) false).bind fun s1 _ => s1.outChecks 0 6 64 0x40000#64
theorem user_header {s : State} (h : (s.lc 0).ptbr.getLsbD 0 = true ∧ s.tlbFind (s.tlbPath (.lc 0)) (spaceOfPtbr (s.lc 0).ptbr true) 0xFF80000000020000#64 =
    some (userTlb (.lc 0)) ∧ plainB s 0x300000020000 8 = true ∧ s.poisoned 0x300000020000 8 = false ∧ hdrW = BitVec.ofNat 64 (s.rdN 0x300000020000 8)) :
    s.headerAt 0 0xFF80000000020000#64 hdrW :=
  ⟨by decide, ⟨0x300000020000, .inr ⟨h.1, _, h.2.1, by decide, by decide⟩, plain_of h.2.2.1, h.2.2.2.1, h.2.2.2.2⟩, by decide, by decide⟩
def isFamily (r : State × Except Stop OutEnd) : Bool := match r.2 with | .ok (.family f) => !f.leased | _ => false
def isStatus (k : Int) (r : State × Except Stop OutEnd) : Bool := match r.2 with | .ok (.status j) => j == k | _ => false
/-- `MIGR.OUT` in user mode with the family accepted; refused for want of threads (-7) and for a bad descriptor (-2). -/
theorem witness_MigrationOut : su.alone 0 ∧ su.ready (.migrOut (bw 6 2 4 0)) ∧ Mask.has (su.acting (.migrOut (bw 6 2 4 0))) 0 = true ∧
    isFamily (outR su) = true ∧ (outR su).1.absent = none ∧ (outR su).1.released (.lc 0) 5 ∧ (outR su).1.headerAt 0 ((outR su).1.lc 0).tvec hdrW ∧
    ((outR su).1.lc 0).tvec.toNat % 8 = 0 :=
  ⟨alone_of rfl rfl (by decide) (by decide), ready_of (by decide), by decide, by decide, by decide,
    ⟨by decide, by decide, by decide, by decide⟩, user_header (by decide), by decide⟩
/-- N = 0; dw7 = 0; the solo form. -/
def su0 : State := onUser [(4, 0x40000)]
def suBad : State := { su with mem := putDw userMem 0x300000040038 0 }
def outS (s : State) : State × Except Stop Unit := (s.opened (.migrOutSolo (bw 6 0 4 0))).outStart (.lc 0) false
theorem witness_MigrationOut_statuses : (su0.ready (.migrOut (bw 6 2 4 0)) ∧ (su0.opnd .int 1 2#10 0).toNat % 2 ^ 32 = 0 ∧
      isStatus (-7) (((su0.opened (.migrOut (bw 6 2 4 0))).outStart (.lc 0) false).bind fun s1 _ => s1.outChecks 0 6 0 0x40000#64) = true) ∧
    (suBad.ready (.migrOut (bw 6 2 4 0)) ∧ isStatus (-2) (outR suBad) = true ∧ (outR suBad).1.absent = none) :=
  ⟨⟨ready_of (by decide), by decide, by decide⟩, ready_of (by decide), by decide, by decide⟩
theorem witness_MigrationOut_solo : su.ready (.migrOutSolo (bw 6 0 4 0)) ∧ (outS su).2.isOk = true ∧ (outS su).1.absent = none ∧
    (su.fams.filter fun f => f.solo).length < Config.soloThreads ∧ (outS su).1.released (.lc 0) 5 ∧
    (outS su).1.headerAt 0 ((outS su).1.lc 0).tvec hdrW ∧ ((outS su).1.lc 0).tvec.toNat % 8 = 0 :=
  ⟨ready_of (by decide), by decide, by decide, by decide, ⟨by decide, by decide, by decide, by decide⟩, user_header (by decide), by decide⟩

/-! ### Waiting -/

/-- At PT 20,000: v2:v3 hold 19,996, v6:v7 hold 19,997. -/
def onLate (f : LCore → LCore) : State := { onTrap [(2, 19996), (6, 19997), (10, 0x20000), (11, 0x3000), (12, 1)] f with pt := 20000 }
def sl : State := onLate id
def slWait (w : LWait) : State := onLate fun c => { c with wait := w }
theorem witness_Waiting : sl.ready (.nop (cw 1023 0 0 0)) ∧ (sl.ready (.yield (cw 1023 0 0 0)) ∧ sl.acting (.yield (cw 1023 0 0 0)) ≠ 0#64) ∧
    (sl.ready (.sleep (cw 1023 2 0 0)) ∧ Mask.has ((sl.grp sl.cur).src .int 2 2#10).poi 0 = false ∧ (sl.opnd .int 2 2#10 0).toNat + 4 ≤ sl.pt) ∧
    (sl.ready (.sleep (cw 1023 6 0 0)) ∧ sl.pt < (sl.opnd .int 2 6#10 0).toNat + 4) ∧
    (let s := onLate fun c => { c with grp := { c.grp with threads := [{ st := .sleep 19996#64 }] } }
     s.running (.lc 0) = true ∧ (s.thr (.lc 0) 0).st = .sleep 19996#64 ∧ (19996#64 : W64).toNat + 4 ≤ s.pt) ∧
    (sl.ready (.time (cw 8 0 0 0)) ∧ sl.pend = [] ∧ sl.homesDone sl.cur = true ∧ (sl.thr sl.cur 0).lastPt ≤ sl.pt ∧
      sl.proofed sl.cur 0 = false) ∧ sl.ready (.proof (cw 1023 0 0 0)) :=
  ⟨ready_of (by decide), ⟨ready_of (by decide), by decide⟩, ⟨ready_of (by decide), by decide⟩, ⟨ready_of (by decide), by decide⟩, by decide,
    ⟨ready_of (by decide), by decide⟩, ready_of (by decide)⟩
/-- A family in replication 2 (dw1 bits 33:32). -/
def fam2 : Family := { famT with desc := famT.desc.set 1 0x200001000#64 }
def sg2 : State := { onGrp (grpT 1#64 .opened []) with fams := [fam2] }
theorem witness_Waiting_proof : sg2.ready (.proof (cw 1023 0 0 0)) ∧ Mask.lanes (sg2.acting (.proof (cw 1023 0 0 0))) = [0] ∧
    sg2.proofed sg2.cur 0 = true ∧ (sg2.thr sg2.cur 0).passed = false := ⟨ready_of (by decide), by decide⟩
theorem witness_Waiting_supervisor :
    (let s := onLate fun c => { c with pend := [{ num := 1, tval := 0#64 }] }
     s.alone 0 ∧ s.ready (.wfi (cw 1023 0 0 0)) ∧ (s.lc 0).pend ≠ []) ∧
    (sl.alone 0 ∧ sl.ready (.wfi (cw 1023 0 0 0)) ∧ (sl.lc 0).pend = []) ∧
    (sl.ready (.tlbsync (cw 1023 0 0 0)) ∧ (sl.lc 0).wait = .none ∧ (sl.thr (.lc 0) 0).since = none ∧ sl.pend = [] ∧ (sl.grp (.lc 0)).rh + 4 ≤ sl.pt) ∧
    ((slWait (.tlbsync 3996)).ready (.tlbsync (cw 1023 0 0 0)) ∧ ((slWait (.tlbsync 3996)).lc 0).wait = .tlbsync 3996 ∧ 3996 + 16004 ≤ (slWait (.tlbsync 3996)).pt) ∧
    (sl.ready (.tlbkill (cw 1023 10 12 0)) ∧ ((sl.grp sl.cur).src .int 1 12#10).val 0 = 1#64) ∧
    (sl.ready (.tlbkill (cw 1023 10 832 0)) ∧ ((sl.grp sl.cur).src .int 1 832#10).val 0 = 0#64 ∧ canonical (((sl.grp sl.cur).src .int 2 10#10).val 0) = true) ∧
    (sl.ready (.tlbkill (cw 1023 10 834 0)) ∧ sl.homesDone sl.cur = true) :=
  ⟨⟨alone_of rfl rfl (by decide) (by decide), ready_of (by decide), by decide⟩, ⟨alone_of rfl rfl (by decide) (by decide), ready_of (by decide), by decide⟩,
    ⟨ready_of (by decide), by decide⟩, ⟨ready_of (by decide), by decide⟩, ⟨ready_of (by decide), by decide⟩, ⟨ready_of (by decide), by decide⟩,
    ready_of (by decide), by decide⟩
/-- A range of one page, and a mapped page whose store record is set. -/
def sh : State := { su with lcs := { userCore [(2, 1), (10, 0x40000), (11, 0)] with status := 3#32 } :: List.replicate 95 {}, srec := [pageOf 0x300000040000] }
theorem witness_StoreRecords : sh.alone 0 ∧ sh.ready (.harvest (cw 8 10 2 0)) ∧ Mask.has (sh.acting (.harvest (cw 8 10 2 0))) 0 = true ∧
    (((sh.grp sh.cur).src .int 1 2#10).val 0).toNat % 2 ^ 32 = 1 ∧ ((sh.grp sh.cur).src .int 2 10#10).val 0 = 0x40000#64 ∧
    (sh.harvestPages (sh.spaceOf (.lc 0) 0).root 24 0x40000#64 1).1.absent = none ∧ sh.pend = [] ∧ sh.homesDone sh.cur = true ∧
    sh.harvestHeld (sh.spaceOf (.lc 0) 0).root 0x40000#64 1 = [] ∧
    (sh.walkQuiet 0x300000400000 0x40000#64).toOption = some (0x3000000400D7#64, 0x300000420010, 3) ∧
    sh.recorded (pageOf (sh.redirect 0x300000040000)) = true ∧ sh.plain 0x300000420010 8 ∧ sh.hwq = [] ∧ sh.mayStore 0x300000420010 8 none = true ∧
    sh.recordAt (pageOf 0x300000040000) = none ∧ sh.srec.Nodup ∧ pageOf 0x300000420010 ≠ pageOf 0x300000040000 :=
  ⟨alone_of rfl rfl (by decide) (by decide), ready_of (by decide), by decide, by decide, by decide, by decide, by decide, by decide, by decide, by decide, by decide,
    plain_of (by decide), rfl, by decide, by decide, by decide, by decide⟩
/-- A page of host memory has its store record in the bitmap (R341). -/
theorem witness_StoreRecords_host : (sh.record (pageOf 0x3E0000040000) true).recorded (pageOf 0x3E0000040000) = true ∧
    (sh.recordAt (pageOf 0x3E0000040000)) = some (Config.storeRec, 2) := by decide
theorem memOk_tests : sh.memOk ∧ su.memOk ∧ st.memOk ∧ s0.memOk := by decide

/-! ### Memory -/

def xl (pa : Nat) : Xl := { pa := pa, mt := 0, lc := 0 }
theorem place_of {s : State} {i : Instr} {a : BitVec 10} {off : W64} {n : Nat} {k : AccKind} {x : Xl} (h1 : readyB s i = true)
    (h2 : Mask.lanes (s.acting i) = [0]) (h3 : Mask.has ((s.grp s.cur).src .int 2 a).poi 0 = false)
    (h4 : (s.opened i).access s.cur 0 (s.opnd .int 2 a 0 + off) n k true true = (s.opened i, .ok x)) (h5 : plainB (s.opened i) x.pa n = true)
    (h6 : (s.opened i).pend = []) (h7 : (s.opened i).proofed s.cur 0 = false) (h8 : ((s.opened i).thr s.cur 0).got = none) :
    s.atPlace i 0 a off n k x :=
  ⟨ready_of h1, h2, h3, ⟨h4, plain_of h5, fun y hy => by simp [h6] at hy, h7, h8⟩⟩
/-- v10:v11 hold 0x3000_0002_0000; v12 holds 1; v4:v5 hold 2 and 1. -/
def sm : State := { onLate fun c => { c with grp := { c.grp with regs := regsOf [(4, 2), (5, 1), (10, 0x20000), (11, 0x3000), (12, 1)] } } with pt := 20000 }
def pm : Nat := 0x300000020000
theorem witness_LoadsAndStores :
    sm.atPlace (.ld .w (iw 8 10 0x40)) 0 10#10 (offOf 0x40#20) 4 .load (xl (pm + 0x40)) ∧
    sm.atPlace (.ld .q (iw 8 10 0xFFFF0)) 0 10#10 (offOf 0xFFFF0#20) 16 .load (xl (pm - 16)) ∧
    sm.atPlace (.ld .sb (iw 8 10 3)) 0 10#10 (offOf 3#20) 1 .load (xl (pm + 3)) ∧
    sm.atPlace (.lda .d (bw 8 10 0 0x220)) 0 10#10 0#64 8 .load (xl pm) ∧
    sm.atPlace (.ldres .d (iw 8 10 0)) 0 10#10 (offOf 0#20) 8 .load (xl pm) ∧
    sm.atPlace (.st .w (iw 4 10 0)) 0 10#10 (offOf 0#20) 4 .store (xl pm) ∧
    sm.atPlace (.str .d (bw 4 10 0 0x2C0)) 0 10#10 0#64 8 .store (xl pm) ∧
    (sm.opened (.ld .w (iw 8 10 0x40))).uncached pm ∧ sm.deferLoads = false ∧ sm.deferStores = false ∧ (xl pm).mt ≠ 1 ∧
    (sm.grp sm.cur).poi 0 4 2 = false ∧ (sm.opened (.st .w (iw 4 10 0))).homeBusy pm 4 (some sm.cur) = false ∧
    (sm.opened (.str .d (bw 4 10 0 0x2C0))).homeBusy pm 8 (some sm.cur) = false ∧ cOrder 0x2C0#10 = 2 ∧
    (sm.opened (.str .d (bw 4 10 0 0x2C0))).released sm.cur 5 :=
  ⟨place_of (by decide) (by decide) (by decide) rfl (by decide) rfl (by decide) (by decide),
   place_of (by decide) (by decide) (by decide) rfl (by decide) rfl (by decide) (by decide),
   place_of (by decide) (by decide) (by decide) rfl (by decide) rfl (by decide) (by decide),
   place_of (by decide) (by decide) (by decide) rfl (by decide) rfl (by decide) (by decide),
   place_of (by decide) (by decide) (by decide) rfl (by decide) rfl (by decide) (by decide),
   place_of (by decide) (by decide) (by decide) rfl (by decide) rfl (by decide) (by decide),
   place_of (by decide) (by decide) (by decide) rfl (by decide) rfl (by decide) (by decide),
   by intro c hc; exact absurd hc (by simp [show (sm.opened (.ld .w (iw 8 10 0x40))).copies = [] from rfl]), by decide, by decide, by decide, by decide,
   by decide, by decide, by decide, ⟨by decide, by decide, by decide, by decide⟩⟩
/-- A constant window at 0x3000_0002_0000 of 1,024 bytes: `s.cw0`, enabled. -/
def swn : State := onLate fun c => { c with cws := (0x300000020001#64 : W64) :: List.replicate 7 0#64 }
theorem witness_LoadsAndStores_window : swn.ready (.ldk .w (iw 8 0 4)) ∧ Mask.lanes (swn.acting (.ldk .w (iw 8 0 4))) = [0] ∧
    ((swn.opened (.ldk .w (iw 8 0 4))).window swn.cur 0 0).getLsbD 0 = true ∧
    (swn.opened (.ldk .w (iw 8 0 4))).reaches swn.cur 0 (windowAddr ((swn.opened (.ldk .w (iw 8 0 4))).window swn.cur 0 0) 4) 4 .load true false
      (xl (pm + 16)) ∧ (swn.opened (.ldk .w (iw 8 0 4))).uncached (pm + 16) :=
  ⟨ready_of (by decide), by decide, by decide,
   ⟨rfl, plain_of (by decide), fun y hy => by simp [show (swn.opened (.ldk .w (iw 8 0 4))).pend = [] from rfl] at hy, by decide, by decide⟩,
   by intro c hc; exact absurd hc (by simp [show (swn.opened (.ldk .w (iw 8 0 4))).copies = [] from rfl])⟩
/-- A reservation of the line that holds, one that has been recalled and run out, and none. -/
def smr (r : Option Resv) : State := { sm with lcs := { core0 [] with resv := r, grp := (sm.lc 0).grp } :: List.replicate 95 {} }
def scPlace (r : Option Resv) : Prop := (smr r).atPlace (.stcond .w (iw 4 10 0)) 0 10#10 (offOf 0#20) 4 .store (xl pm)
theorem witness_Reservations :
    (scPlace (some { line := lineOf pm, deferEnd := 20128, recalled := false }) ∧ (smr (some { line := lineOf pm, deferEnd := 20128, recalled := false })).homeBusy pm 4
      (some (.lc 0)) = false) ∧
    scPlace (some { line := lineOf pm, deferEnd := 20000, recalled := true }) ∧ scPlace none ∧
    ((smr none).grp (smr none).cur).poi 0 4 1 = false ∧ (xl pm).mt ≠ 1 :=
  ⟨⟨place_of (by decide) (by decide) (by decide) rfl (by decide) rfl (by decide) (by decide), by decide⟩,
   place_of (by decide) (by decide) (by decide) rfl (by decide) rfl (by decide) (by decide),
   place_of (by decide) (by decide) (by decide) rfl (by decide) rfl (by decide) (by decide), by decide, by decide⟩
theorem witness_Atomics : (∀ i ∈ [Instr.amo .add (bw 8 10 4 0x2E0), .amo .smin (bw 1023 10 833 1), .acas (bw 8 10 4 0), .aaddt (bw 8 10 4 1),
      .afadd .h2 (bw 8 10 4 0), .afadd .f64 (bw 8 10 4 0)], sm.ready i) ∧
    sm.atPlace (.amo .add (bw 8 10 4 0x2E0)) 0 10#10 0#64 4 .rmw (xl pm) ∧ sm.atPlace (.amo .smin (bw 1023 10 833 1)) 0 10#10 0#64 8 .rmw (xl pm) ∧
    sm.atPlace (.acas (bw 8 10 4 0)) 0 10#10 0#64 4 .rmw (xl pm) ∧ sm.atPlace (.aaddt (bw 8 10 4 1)) 0 10#10 0#64 8 .rmw (xl pm) ∧
    sm.atPlace (.afadd .h2 (bw 8 10 4 0)) 0 10#10 0#64 4 .rmw (xl pm) ∧
    sm.deferAtomics = false ∧ (sm.opened (.amo .add (bw 8 10 4 0x2E0))).homeBusy pm 4 none = false ∧
    (sm.opened (.amo .add (bw 8 10 4 0x2E0))).poisoned pm 4 = false ∧ cOrder 0x2E0#10 = 3 ∧
    (sm.opened (.amo .add (bw 8 10 4 0x2E0))).released sm.cur (cScope 0x2E0#10) ∧ Mask.has ((sm.grp sm.cur).src .int 1 4#10).poi 0 = false :=
  ⟨ready_all (by decide), place_of (by decide) (by decide) (by decide) rfl (by decide) rfl (by decide) (by decide),
   place_of (by decide) (by decide) (by decide) rfl (by decide) rfl (by decide) (by decide),
   place_of (by decide) (by decide) (by decide) rfl (by decide) rfl (by decide) (by decide),
   place_of (by decide) (by decide) (by decide) rfl (by decide) rfl (by decide) (by decide),
   place_of (by decide) (by decide) (by decide) rfl (by decide) rfl (by decide) (by decide), by decide, by decide, by decide, by decide,
   ⟨by decide, by decide, by decide, by decide⟩, by decide⟩
/-- Memory holds 0 at the place: `WAITV.eq` with 0 holds, with 2 it does not. -/
theorem witness_WaitAndWake : sm.atPlace (.waitv .eq (bw 8 10 832 0x220)) 0 10#10 0#64 4 .load (xl pm) ∧
    sm.atPlace (.waitv .eq (bw 8 10 4 0x220)) 0 10#10 0#64 4 .load (xl pm) ∧ (WCond.cond .eq 0#64).holds 4 0 = true ∧ (WCond.cond .eq 2#64).holds 4 0 = false ∧
    (sm.opened (.waitv .eq (bw 8 10 4 0x220))).rdN pm 4 % 2 ^ 32 = (sm.opened (.waitv .eq (bw 8 10 832 0x220))).rdN pm 4 % 2 ^ 32 ∧
    (sm.opened (.waitv .eq (bw 8 10 4 0x220))).regRoom (homeDie pm) = true ∧ (sm.opened (.waitv .eq (bw 8 10 4 0x220))).poisoned pm 4 = false ∧
    sm.atPlace (.wake (bw 8 10 12 0)) 0 10#10 0#64 4 .load (xl pm) ∧ Mask.has ((sm.grp sm.cur).src .int 1 12#10).poi 0 = false :=
  ⟨place_of (by decide) (by decide) (by decide) rfl (by decide) rfl (by decide) (by decide),
   place_of (by decide) (by decide) (by decide) rfl (by decide) rfl (by decide) (by decide), by decide, by decide, by decide, by decide, by decide,
   place_of (by decide) (by decide) (by decide) rfl (by decide) rfl (by decide) (by decide), by decide⟩
theorem witness_FencesAndLines : sm.ready (.fence (bw 1023 0 0 0x2E0)) ∧ sm.proofed sm.cur 0 = false ∧ sm.awaited sm.cur = false ∧
    (sm.opened (.fence (bw 1023 0 0 0x2E0))).released sm.cur (cScope 0x2E0#10) ∧ (∀ i ∈ [Instr.pref .l1 (iw 1023 10 0), .pref .wr (iw 1023 10 5),
      .cline .wb (iw 1023 10 0), .cline .drop (iw 1023 10 0)], sm.ready i) ∧
    (sm.opened (.pref .l1 (iw 1023 10 0))).reaches sm.cur 0 (sm.opnd .int 2 10#10 0 + offOf 0#20) 1 .load false true (xl pm) ∧
    (sm.opened (.cline .drop (iw 1023 10 0))).reaches sm.cur 0 (sm.opnd .int 2 10#10 0 + offOf 0#20) 1 .load false true (xl pm) ∧ sm.pend = [] :=
  ⟨ready_of (by decide), by decide, by decide, ⟨by decide, by decide, by decide, by decide⟩, ready_all (by decide),
   ⟨rfl, plain_of (by decide), fun y hy => by simp [show (sm.opened (.pref .l1 (iw 1023 10 0))).pend = [] from rfl] at hy, by decide, by decide⟩,
   ⟨rfl, plain_of (by decide), fun y hy => by simp [show (sm.opened (.cline .drop (iw 1023 10 0))).pend = [] from rfl] at hy, by decide, by decide⟩, by decide⟩
/-- A store, a load and an `AMO.add` issued and not yet performed; the thread of the last two waits. -/
def pendOf (k : PKind) : Pend := { party := .lc 0, lane := 0, va := 0#64, pa := pm, n := 4, kind := k }
def sd (k : PKind) : State :=
  { onLate (fun c => { c with grp := { c.grp with threads := [{ st := .engineWait }] } }) with pend := [pendOf k] }
theorem witness_DelayedAccesses : (∀ k ∈ [PKind.store [1#8, 2#8, 3#8, 4#8] .dflt, .load 0 0 .dflt, .rmw (.amo .add (bw 8 10 4 0)) 5#64 0#64],
    (sd k).absent = none ∧ (sd k).memOk ∧ (sd k).pend[0]? = some (pendOf k) ∧ (sd k).plain pm 4 ∧ (sd k).running (.lc 0) = true ∧
    (sd k).pend.Nodup ∧ (sd k).homeBusy pm 4 none = false ∧ (sd k).poisoned pm 4 = false ∧ ((sd k).thr (.lc 0) 0).st = .engineWait ∧ (sd k).copies = [] ∧
    (pendOf k).lane < 64 ∧ ∀ y ∈ (sd k).pend, y = pendOf k) ∧
    (let e := pendOf (.load 0 0 .dflt); (sd e.kind).sameLoad e = [e] ∧ (sd e.kind).uncached e.pa) ∧
    (let e := pendOf (.rmw (.amo .add (bw 8 10 4 0)) 5#64 0#64); (sd e.kind).sameAtomic e = [e] ∧ e.n = 4 * cSz (bw 8 10 4 0).c) := by
  refine ⟨fun k hk => ?_, ⟨by decide, fun c hc => absurd hc (by simp [show (sd (pendOf (.load 0 0 .dflt)).kind).copies = [] from rfl])⟩, by decide⟩
  simp only [List.mem_cons, List.not_mem_nil, or_false] at hk
  rcases hk with rfl | rfl | rfl <;> exact ⟨rfl, by decide, rfl, plain_of (by decide), by decide, by decide, by decide, by decide, rfl, rfl, (by decide), by decide⟩
theorem witness_DelayedAccesses_release :
    (let s := onLate fun c => { c with grp := { c.grp with threads := [{ st := .engineWait, rel := some 5 }] } }
     (s.thr (.lc 0) 0).rel = some 5 ∧ s.running (.lc 0) = true ∧ s.released (.lc 0) 5) ∧
    (let y : Waiter := { party := .lc 0, lane := 0, fam := 0#32, va := 0#64, pa := pm, n := 4, cond := .cond .eq 2#64, registered := false, forme := none }
     let s := { sl with waiters := [y] }
     s.waiters[0]? = some y ∧ s.regRoom (homeDie pm) = true ∧ y.cond.holds 4 0 = false) :=
  ⟨⟨rfl, by decide, ⟨by decide, by decide, by decide, by decide⟩⟩, ⟨rfl, by decide, by decide⟩⟩

/-! ### Forme, barriers, hashes, strings -/

theorem forme_of {s : State} {i : Instr} {a : BitVec 10} {add : W64} {n off : Nat} (h0 : s.cur = .grp 0 0) (h1 : readyB s i = true)
    (h2 : Mask.lanes (s.acting i) = [0]) (h3 : Mask.has ((s.grp s.cur).src .int 1 a).poi 0 = false)
    (h4 : off = (s.opnd .int 1 a 0 + add).toNat % 2 ^ 32) (h5 : off % n = 0) (h6 : off + n ≤ (s.team 0).fsize) : s.atForme i 0 0 0 a add n off :=
  ⟨h0, ready_of h1, h2, h3, h4, h5, h6⟩
/-- v2 holds 16, v3 the offset of the last word, v4:v5 data, v6 and v7 cluster positions 0 and 1; a second team stands at position 1 in `sc`. -/
def sf : State := { onGrp (grpT 1#64 .opened [(2, 16), (3, 65532), (4, 2), (5, 1), (6, 0), (7, 1), (8, 3)]) with pt := 100 }
def famC : Family := { famT with desc := famT.desc.set 0 0x4001020004#64 }
def scl : State :=
  { sf with fams := [famC], teams := [teamT (grpT 1#64 .opened [(2, 16), (4, 2), (6, 0), (7, 1)]), { teamT (grpT 1#64 .opened []) with tid := 1, cip := 1, num := 1 }] }
def sclAlone : State := { scl with teams := [teamT (grpT 1#64 .opened [(2, 16), (4, 2), (6, 0), (7, 1)])] }
theorem witness_Forme :
    sf.atForme (.ldf .w (iw 8 3 0)) 0 0 0 3#10 (offOf 0#20) 4 65532 ∧ sf.atForme (.stf .d (iw 4 2 0xFFFF8)) 0 0 0 2#10 (offOf 0xFFFF8#20) 8 8 ∧
    (sf.grp sf.cur).poi 0 4 2 = false ∧
    scl.atForme (.ldfc .w (bw 8 2 7 0)) 0 0 0 2#10 0#64 4 16 ∧ scl.atForme (.stfc .w (bw 4 2 7 0)) 0 0 0 2#10 0#64 4 16 ∧
    scl.teamAt (scl.team 0) 1 = some (scl.team 1) ∧ 1 ≠ (scl.team 0).cip ∧ (scl.opnd .int 1 7#10 0).toNat % 2 ^ 32 = 1 ∧
    1 < ((scl.fam? (scl.team 0).fam).map Family.cluster).getD 1 ∧
    scl.atForme (.ldfc .w (bw 8 2 6 0)) 0 0 0 2#10 0#64 4 16 ∧ (scl.opnd .int 1 6#10 0).toNat % 2 ^ 32 = (scl.team 0).cip ∧
    sclAlone.atForme (.ldfc .w (bw 8 2 7 0)) 0 0 0 2#10 0#64 4 16 ∧ sclAlone.teamAt (sclAlone.team 0) 1 = none :=
  ⟨forme_of rfl (by decide) (by decide) (by decide) (by decide) (by decide) (by decide), forme_of rfl (by decide) (by decide) (by decide) (by decide) (by decide) (by decide),
   by decide, forme_of rfl (by decide) (by decide) (by decide) (by decide) (by decide) (by decide),
   forme_of rfl (by decide) (by decide) (by decide) (by decide) (by decide) (by decide), rfl, by decide, by decide, by decide,
   forme_of rfl (by decide) (by decide) (by decide) (by decide) (by decide) (by decide), by decide,
   forme_of rfl (by decide) (by decide) (by decide) (by decide) (by decide) (by decide), by decide⟩
theorem barrier_of {s : State} {i : Instr} {w : BaseW} {b : Nat} (h1 : Mask.has ((s.grp s.cur).src .int 1 w.b).poi 0 = false)
    (h2 : b = (s.opnd .int 1 w.b 0).toNat % 2 ^ 16)
    (h3 : (s.thr s.cur 0).barTok = none ∧ (s.thr s.cur 0).got = none ∧ s.awaited s.cur = false ∧ s.waiters = [])
    (h4 : cOrder w.c = 0) : s.atBarrier i 0 w b :=
  ⟨h1, h2, h3.1, h3.2.1, h3.2.2.1, fun y hy => by simp [h3.2.2.2] at hy, fun h => by omega⟩
/-- The object at `pm` expects 2 and stands in phase 5; at `pm + 8` one expects 1. v4 holds 2, v12 holds 1, v14 holds 5. -/
def sb : State :=
  { onLate (fun c => { c with grp := { c.grp with regs := regsOf [(4, 2), (10, 0x20000), (11, 0x3000), (12, 1), (14, 5), (16, 4)] } }) with
    mem := putDw hdrMem pm 0x500000002 }
def barMem (i : Instr) (w : BaseW) (k : AccKind) (b : Nat) : Prop := sb.atPlace i 0 10#10 0#64 8 k (xl pm) ∧ sb.atBarrier i 0 w b
theorem witness_Barriers : (0 < 2 ^ 64 ∧ 2 ^ 16 - 1 < 2 ^ 16) ∧
    barMem (.bari .mem (bw 1023 10 4 0)) (bw 1023 10 4 0) .store 2 ∧ barMem (.bara .mem (bw 8 10 12 0)) (bw 8 10 12 0) .rmw 1 ∧
    barMem (.barw .mem (bw 8 10 16 0)) (bw 8 10 16 0) .load 4 ∧ barMem (.barw .mem (bw 8 10 14 0)) (bw 8 10 14 0) .load 5 ∧
    barMem (.bart .mem (bw 8 10 14 0)) (bw 8 10 14 0) .load 5 ∧ barMem (.barx .mem (bw 8 10 4 0)) (bw 8 10 4 0) .rmw 2 ∧
    barMem (.barx .mem (bw 8 10 12 0)) (bw 8 10 12 0) .rmw 1 ∧
    (xl pm).mt ≠ 1 ∧ (sb.opened (.barw .mem (bw 8 10 16 0))).memOk ∧ (sb.opened (.barw .mem (bw 8 10 16 0))).poisoned pm 8 = false ∧
    (sb.opened (.barw .mem (bw 8 10 16 0))).homeBusy pm 8 none = false ∧ (sb.opened (.barw .mem (bw 8 10 16 0))).regRoom (homeDie pm) = true ∧
    sb.rdN pm 8 = 0x500000002 ∧ (objPhase 0x500000002 + 2 ^ 16 - 4) % 2 ^ 16 = 1 ∧ (objPhase 0x500000002 + 2 ^ 16 - 5) % 2 ^ 16 = 0 ∧
    objExpected 0x500000002 = 2 ∧ objArrived 0x500000002 = 0 :=
  ⟨by decide, ⟨place_of (by decide) (by decide) (by decide) rfl (by decide) rfl (by decide) (by decide), barrier_of (by decide) (by decide) (by decide) (by decide)⟩,
   ⟨place_of (by decide) (by decide) (by decide) rfl (by decide) rfl (by decide) (by decide), barrier_of (by decide) (by decide) (by decide) (by decide)⟩,
   ⟨place_of (by decide) (by decide) (by decide) rfl (by decide) rfl (by decide) (by decide), barrier_of (by decide) (by decide) (by decide) (by decide)⟩,
   ⟨place_of (by decide) (by decide) (by decide) rfl (by decide) rfl (by decide) (by decide), barrier_of (by decide) (by decide) (by decide) (by decide)⟩,
   ⟨place_of (by decide) (by decide) (by decide) rfl (by decide) rfl (by decide) (by decide), barrier_of (by decide) (by decide) (by decide) (by decide)⟩,
   ⟨place_of (by decide) (by decide) (by decide) rfl (by decide) rfl (by decide) (by decide), barrier_of (by decide) (by decide) (by decide) (by decide)⟩,
   ⟨place_of (by decide) (by decide) (by decide) rfl (by decide) rfl (by decide) (by decide), barrier_of (by decide) (by decide) (by decide) (by decide)⟩,
   by decide, by decide, by decide, by decide, by decide, by decide, by decide, by decide, by decide, by decide⟩
/-- In the forme at 16 an object in phase 3 expects 2: v4 holds 2, v5 holds 1 (an arrival too few), v8 the token 3. -/
def sfb : State :=
  { sf with teams := [{ teamT (grpT 1#64 .opened [(2, 16), (4, 2), (5, 1), (8, 3)]) with forme := (List.range 8).map fun k => (16 + k, BitVec.ofNat 8 (0x300000002 / 2 ^ (8 * k))) }] }
def barF (i : Instr) (w : BaseW) (b : Nat) : Prop := sfb.atForme i 0 0 0 2#10 0#64 8 16 ∧ sfb.atBarrier i 0 w b
theorem witness_Barriers_forme : (sfb.team 0).fpoi 16 8 = false ∧ leNat ((sfb.team 0).fbytes 16 8) = 0x300000002 ∧
    barF (.bari .forme (bw 1023 2 4 0)) (bw 1023 2 4 0) 2 ∧ barF (.bara .forme (bw 8 2 5 0)) (bw 8 2 5 0) 1 ∧ barF (.barw .forme (bw 8 2 5 0)) (bw 8 2 5 0) 1 ∧
    barF (.barw .forme (bw 8 2 8 0)) (bw 8 2 8 0) 3 ∧ barF (.bart .forme (bw 8 2 8 0)) (bw 8 2 8 0) 3 ∧ barF (.barx .forme (bw 8 2 4 0)) (bw 8 2 4 0) 2 ∧
    (sfb.team 0).late 16 sfb.pt = false :=
  ⟨by decide, by decide, ⟨forme_of rfl (by decide) (by decide) (by decide) (by decide) (by decide) (by decide), barrier_of (by decide) (by decide) (by decide) (by decide)⟩,
   ⟨forme_of rfl (by decide) (by decide) (by decide) (by decide) (by decide) (by decide), barrier_of (by decide) (by decide) (by decide) (by decide)⟩,
   ⟨forme_of rfl (by decide) (by decide) (by decide) (by decide) (by decide) (by decide), barrier_of (by decide) (by decide) (by decide) (by decide)⟩,
   ⟨forme_of rfl (by decide) (by decide) (by decide) (by decide) (by decide) (by decide), barrier_of (by decide) (by decide) (by decide) (by decide)⟩,
   ⟨forme_of rfl (by decide) (by decide) (by decide) (by decide) (by decide) (by decide), barrier_of (by decide) (by decide) (by decide) (by decide)⟩,
   ⟨forme_of rfl (by decide) (by decide) (by decide) (by decide) (by decide) (by decide), barrier_of (by decide) (by decide) (by decide) (by decide)⟩, by decide⟩
theorem string_of {s : State} {va : W64} {len : Nat} (h : (s.lc 0).sup = true ∧ (s.lc 0).ptbr.getLsbD 0 = false ∧ s.pend = [] ∧ (s.thr (.lc 0) 0).held = [])
    (h2 : (List.range len).all (fun k => canonical (va + BitVec.ofNat 64 k) && plainB s ((va + BitVec.ofNat 64 k).toNat % 2 ^ 52) 1 &&
      !s.poisoned ((va + BitVec.ofNat 64 k).toNat % 2 ^ 52) 1) = true) : s.stringAt 0 va len := by
  have hk : ∀ k, k < len → canonical (va + BitVec.ofNat 64 k) = true ∧ plainB s ((va + BitVec.ofNat 64 k).toNat % 2 ^ 52) 1 = true ∧
      s.poisoned ((va + BitVec.ofNat 64 k).toNat % 2 ^ 52) 1 = false := by
    intro k h
    have := List.all_eq_true.1 h2 k (List.mem_range.2 h)
    simp only [Bool.and_eq_true, Bool.not_eq_true'] at this
    exact ⟨this.1.1, this.1.2, this.2⟩
  exact ⟨h.1, h.2.1, fun y hy => by simp [h.2.2.1] at hy, h.2.2.2, fun k h => (hk k h).1, fun k h => plain_of (hk k h).2.1, fun k h => (hk k h).2.2⟩
def ec1 (w : BaseW) : BaseW := { w with tail := 4#8 }
/-- v4:v5 are the lengths 2 and 1; v16 holds 9. -/
def ss : State := onLate fun c => { c with grp := { c.grp with regs := regsOf [(4, 2), (5, 1), (10, 0x20000), (11, 0x3000), (16, 9)] } }
theorem witness_HashesAndStrings : (∀ i ∈ [Instr.hash false (bw 8 2 4 0), .hash true (bw 8 2 4 833)], s0.ready i) ∧ ss.alone 0 ∧
    ([0#8, 1#8, 2#8, 3#8, 4#8, 5#8, 6#8, 7#8] : List Byte).length = 8 ∧
    (ss.ready (.shash (ec1 (bw 8 10 4 2))) ∧ ss.stringAt 0 (ss.opnd .int 2 10#10 0) 2) ∧
    (ss.ready (.scmp (ec1 (bw 8 10 10 4))) ∧ ss.stringAt 0 (ss.opnd .int 2 10#10 0) 1 ∧ (ss.grp ss.cur).poi 0 4 2 = false) ∧
    (ss.ready (.spfx (ec1 (bw 8 10 16 0))) ∧ ss.stringAt 0 (ss.opnd .int 2 10#10 0) 8 ∧ (ss.opnd .int 1 16#10 0).toNat % 2 ^ 32 = 9) :=
  ⟨ready_all (by decide), alone_of rfl rfl (by decide) (by decide), by decide, ⟨ready_of (by decide), string_of (by decide) (by decide)⟩,
   ⟨ready_of (by decide), string_of (by decide) (by decide), by decide⟩, ready_of (by decide), string_of (by decide) (by decide), by decide⟩

/-! ### Platen and spool -/

/-- A quad of groups 0 to 3, and group 0 with one lane in a region; v16..v19 is a control block whose rows lie 256 bytes apart, without a
barrier object; v32.. is B. -/
def grpQ : Group := grpT 1#64 .region [(2, 3), (16, 0x1000000), (17, 0xFFFFF)]
def teamQ (pl : List PlOp) (c : Nat) : Team :=
  { teamT grpQ with tid := c, cip := c, num := c, quad := true, qmem := [some (0, 0), some (1, 0), some (2, 0), some (3, 0)], plq := pl,
                    groups := [some grpQ, some grpQ, some grpQ, some grpQ] }
/-- A family whose clusters have height 4 and width 1, and the column of four teams. -/
def famQ : Family := { famT with desc := famT.desc.set 0 0x4004010004#64, teams := 4, nextInst := 4 }
def spl (pl : List PlOp) : State :=
  { State.reset with fams := [famQ], teams := (List.range 4).map (teamQ pl), nextTid := 4, cur := .grp 0 0, pt := 100 }
/-- An operation that only this quarter, or only quarter 1, has issued. -/
def memQ (kind : PlKind) (q : Nat) : PlMember :=
  { quarter := q, kind := kind, ctl := [0x1000000#32, 0xFFFFF#32, 0#32, 0#32], breg := 32, c := 0#10, act := 1#64, promise := 500 }
def bq (t b c : Nat) : BaseW := { bw 8 16 b c with tail := BitVec.ofNat 8 t }
def bqd : BaseW := { bq 8 0 0 with d := 1023#10 }
theorem witness_PlatenIssue : ∀ pl ∈ [([] : List PlOp), [{ members := [memQ .mzero 1] }], [{ members := [memQ .mzero 0] }, { members := [memQ .mzero 2] }]],
    (∀ i ∈ [Instr.mma .bf16 (bq 12 32 0), .mma .mx4 (bq 12 32 0x300), .mmac .int8 (bq 12 32 1), .mzero (bq 4 0 0), .mload (bq 8 0 0)], (spl pl).ready i ∧ (spl pl).acting i = 1#64) ∧
    ((spl pl).team 0).quad = true ∧ ((spl pl).team 0).member 0 = true ∧
    ((((spl pl).opened (.mmac .int8 (bq 12 32 1))).columnOf (((spl pl).opened (.mmac .int8 (bq 12 32 1))).team 0)).isSome = true) ∧
    ((spl pl).grp (spl pl).cur).poi 0 16 4 = false ∧
    (∀ e ∈ [mmaEnds .bf16, mmaEnds .mx4, mmaEnds .int8, fun c => [rowArea c.data (16 * c.pitch) 128 256]],
      ctlCheck (ctlOf ((List.range 4).map fun n => ((spl pl).grp (spl pl).cur).rd 0 (16 + n))) ((spl pl).team 0).fsize true true false
        (e (ctlOf ((List.range 4).map fun n => ((spl pl).grp (spl pl).cur).rd 0 (16 + n)))) = none) := by
  intro pl hp
  simp only [List.mem_cons, List.not_mem_nil, or_false] at hp
  rcases hp with rfl | rfl | rfl <;>
    refine ⟨fun i hi => ?_, by decide, by decide, by decide, by decide, by decide⟩ <;>
    (simp only [List.mem_cons, List.not_mem_nil, or_false] at hi; rcases hi with rfl | rfl | rfl | rfl | rfl <;> exact ⟨ready_of (by decide), by decide⟩)
/-- An operation of the four quarters, of one kind, before its start or after its first K block; in `opBad` one member differs. -/
def opQ (kind : PlKind) (st : Bool) : PlOp :=
  { members := (List.range 4).map (memQ kind), started := st, next := if st then 1 else 0, marks := if st then [1#4, 0#4, 2#4, 0#4] else [] }
def opBad : PlOp := { members := memQ .mload 0 :: (List.range 3).map fun q => memQ .mzero (q + 1) }
theorem witness_PlatenOperations : (∀ o ∈ [opQ .mzero false, opQ .mload false, opQ (.mma .int8) false, opQ (.mma .mx4) false, opBad, opQ .mzero true, opQ (.mma .int8) true],
      (spl [o]).team? 0 = some (teamQ [o] 0) ∧ (teamQ [o] 0).st = .resident ∧ (spl [o]).repairs = [] ∧ (spl [o]).absent = none ∧ ∃ m ms, o.members = m :: ms) ∧
    (teamQ [] 0).tiles.length = 4 ∧ (teamQ [] 0).packed = false ∧
    (∀ k ∈ [PlKind.mzero, .mload, .mma .int8, .mma .mx4], (opQ k false).started = false ∧ (opQ k false).next = 0 ∧ (opQ k false).marks = [] ∧
      (opQ k false).formed = true ∧ (opQ k false).agrees = true) ∧
    (opBad.started = false ∧ opBad.next = 0 ∧ opBad.marks = [] ∧ opBad.formed = true ∧ opBad.agrees = false ∧ opBad.isMmac = false) ∧
    ((opQ (.mma .int8) true).started = true ∧ (opQ (.mma .int8) true).next < (opQ (.mma .int8) true).blocks true) ∧
    ((opQ .mzero true).started = true ∧ (opQ .mzero true).blocks true ≤ (opQ .mzero true).next) ∧ (opQ .mzero true).bar = none ∧ (teamQ [opQ .mzero true] 0).groups[0]? = some (some grpQ) ∧ grpQ.live ≠ 0#64 ∧ (opQ .mzero true).marks.length = 4 := by
  refine ⟨fun o ho => ?_, by decide, rfl, by decide, by decide, by decide, by decide, by decide, rfl, by decide, by decide⟩
  simp only [List.mem_cons, List.not_mem_nil, or_false] at ho
  rcases ho with rfl | rfl | rfl | rfl | rfl | rfl | rfl <;> exact ⟨rfl, rfl, rfl, rfl, _, _, rfl⟩
theorem witness_PlatenDrains : (spl []).ready (.mdrain .bf16 bqd) ∧ (spl []).acting (.mdrain .bf16 bqd) ≠ 0#64 ∧
    (PType.bf16).mx = false ∧ (PType.bf16).outRow 64 ≤ 16 * 16 ∧
    (let cb := ctlOf ((List.range 4).map fun k => ((spl []).grp (spl []).cur).rd 0 (16 + k))
     ctlCheck cb ((spl []).team 0).fsize true false false [rowArea cb.data (16 * cb.pitch) 32 ((PType.bf16).outRow 64)] = none) ∧
    (spl []).ready (.mdrainv .i32 (bq 8 0 0)) ∧ (spl []).acting (.mdrainv .i32 (bq 8 0 0)) ≠ 0#64 ∧
    (spl []).ready (.mstat { bq 4 0 2 with a := 0#10 }) ∧ (spl []).acting (.mstat { bq 4 0 2 with a := 0#10 }) ≠ 0#64 ∧
    0 < ((spl []).team 0).tiles.length :=
  ⟨ready_of (by decide), by decide, by decide, by decide, by decide, ready_of (by decide), by decide, ready_of (by decide), by decide, by decide⟩
/-- v4:v5 is 0x400, v6:v7 is 0x800, v24.. a parameter block: LEN 16, no object, CNT 2, then 8, 32, 64, 0, 0. -/
def grpS : Group := grpT 1#64 .opened [(4, 0x400), (6, 0x800), (24, 16), (25, 0xFFFFF), (26, 2), (27, 8), (28, 32), (29, 64)]
def sps (qs : List SpQueue) : State := { onGrp grpS with pt := 100, teams := [{ teamT grpS with spq := qs }] }
def bs (t : Nat) : BaseW := { bw 8 4 6 24 with tail := BitVec.ofNat 8 t }
def s4 : List SpQueue := List.replicate 4 {}
def spOpOf (k : SpKind) (sg dg : Bool) : SpOp :=
  { kind := k, srcG := sg, dstG := dg, grp := 0, lane := 0, pc := 0x300000010008#64, a := 0x400#64, b := 0x800#64,
    par := [16#32, 0xFFFFF#32, 2#32, 8#32, 32#32, 64#32, 0#32, 0#32], promise := 0 }
def spI : List Instr := [.cpy 0 .gg (bs 8), .cpyt 1 .gf (bs 8), .cgath 3 .fg (bs 8), .cscat 2 .ff (bs 8), .cpart 0 .ff (bs 8), .cfill 3 .gf (bs 8)]
def fence4 : BaseW := { bw 1023 0 0 0 with tail := 4#8 }
/-- Queue 0 holds 63 operations, so one more has room. -/
def s63 : List SpQueue := { items := List.replicate 63 (.op (spOpOf .cpy true true)), lastp := 900 } :: List.replicate 3 {}
theorem witness_SpoolQueuing : (∀ i ∈ spI, (sps s63).ready i) ∧ (∀ i ∈ spI, Mask.lanes ((sps s63).acting i) = [0]) ∧
    (∀ o ∈ [spOpOf .cpy true true, spOpOf .cpyt true false, spOpOf .cgath false true, spOpOf .cscat false false, spOpOf .cpart false false,
      spOpOf .cfill false false], (sps s63).spoolCheck (.grp 0 0) 0 65536 o = none) ∧
    (sps s63).proofed (sps s63).cur 0 = false ∧ (sps s63).released (sps s63).cur 1 ∧
    (s63.getD 0 {}).pending = 63 ∧ s63.length = 4 ∧
    ((sps s63).ready (.cfence 0xF fence4) ∧ (sps s63).acting (.cfence 0xF fence4) ≠ 0#64) ∧
    ((sps s63).ready (.cstat 0 { fence4 with d := 8#10 }) ∧ (s63.getD 0 {}).lastp < 2 ^ 64 ∧ (s63.getD 0 {}).pending < 2 ^ 16) :=
  ⟨ready_all (by decide), by decide, by decide, by decide, ⟨by decide, by decide, by decide, by decide⟩, by decide, by decide, ⟨ready_of (by decide), by decide⟩,
    ready_of (by decide), by decide⟩
/-- One operation stands in queue 3 of the team: a fill of the forme up to its last byte, a gather whose first index (in the forme at 8) is
beyond the forme, a copy that has moved all its bytes. -/
def sq3 (o : SpOp) : List SpQueue := [{}, {}, {}, { items := [.op o], done := 2 ^ 32 - 1 }]
def spo (o : SpOp) : State := { sps (sq3 o) with
  teams := [{ teamT grpS with spq := sq3 o, forme := [(8, 0xFF#8), (9, 0xFF#8), (10, 0xFF#8), (11, 0xFF#8)] }] }
def fillO : SpOp := { spOpOf .cfill false false with b := 0xFFF0#64 }
def gathO : SpOp := spOpOf .cgath false false
def doneO : SpOp := { spOpOf .cpy true true with next := 16, started := true }
theorem witness_SpoolOperations : (∀ o ∈ [fillO, gathO, doneO], ∃ tm, (spo o).team? 0 = some tm ∧ tm.tid = 0 ∧ tm.st = .resident ∧ tm.spq.length = 4 ∧
      (tm.queue 3).items = .op o :: [] ∧ o.parked = none ∧ o.part = none ∧ (spo o).repairs = [] ∧ (spo o).absent = none ∧ (spo o).segs = []) ∧
    (fillO.kind = .cfill ∧ fillO.dstG = false ∧ fillO.next = 0 ∧ fillO.b.toNat % 2 ^ 32 + fillO.len = 65536) ∧
    (gathO.next < gathO.total ∧ gathO.w 3 + 4 * gathO.next + 4 ≤ 65536 ∧ ((spo gathO).team 0).fpoi (gathO.w 3 + 4 * gathO.next) 4 = false ∧
      65536 < gathO.a.toNat % 2 ^ 32 + leNat (((spo gathO).team 0).fbytes (gathO.w 3 + 4 * gathO.next) 4) * gathO.w 4 + gathO.len ∧
      ((spo gathO).spPark { p := .grp 0 gathO.grp, lane := gathO.lane, tid := 0, qn := 3 } gathO { cause := 0x14 }).absent = none) ∧
    (doneO.total ≤ doneO.next ∧ doneO.bar = none ∧ ((spo doneO).team 0).groups[0]? = some (some grpS) ∧ grpS.live ≠ 0#64 ∧ ((spo doneO).team 0).packed = false) := by
  refine ⟨fun o ho => ?_, by decide, ⟨by decide, by decide, by decide, by decide, by decide⟩, by decide, by decide, rfl, by decide, by decide⟩
  simp only [List.mem_cons, List.not_mem_nil, or_false] at ho
  rcases ho with rfl | rfl | rfl <;> exact ⟨_, rfl, rfl, rfl, rfl, rfl, rfl, rfl, rfl, rfl, rfl⟩

/-! ### The ends of threads, family control -/

/-- Lane 0 of a group of one lane: v4:v5 the contribution; a family that reduces, one that has closed with this `MIGR.IN`, one of a solo
thread. -/
def sme (f : Family) : State := { onGrp (grpT 1#64 .opened [(4, 2), (5, 1)]) with fams := [f], pt := 100 }
def famSolo : Family := { famT with solo := true, n := 1 }
def famClosed : Family := { famT with closed := some (1, 0x300000010010#64), redAny := true, redval := 7#64, redIdx := some 0, ended := 255 }
def inW (d : Nat) : BaseW := bw d 4 0 0
def actsB (s : State) (i : Instr) : Prop := s.ready i ∧ Mask.lanes (s.acting i) = [0] ∧ s.proofed s.cur 0 = false ∧ s.released s.cur 5
theorem acts_of {s : State} {i : Instr} (h : readyB s i = true) (h2 : Mask.lanes (s.acting i) = [0]) (h3 : s.proofed s.cur 0 = false)
    (h4 : s.deferReleases = false) (h5 : s.pend = []) (h6 : s.relReady s.cur 5 = true) (h7 : (s.grp s.cur).wlost ≤ s.pt) : actsB s i :=
  ⟨ready_of h, h2, h3, h4, fun y hy => by simp [h5] at hy, h6, h7⟩
theorem witness_MigrationIn : (∀ f ∈ [famT, famClosed], (sme f).famOf (sme f).cur 0 = some f ∧ ((sme f).grp (sme f).cur).gst ≠ .arriving ∧ (sme f).frecs = [] ∧
      (∀ d ∈ [4, 1023], ∀ op ∈ [RedOp.add, .first], actsB (sme f) (.migrIn op (inW d))) ∧ ((sme f).team 0).packed = false ∧ f.solo = false ∧
      Mask.has (((sme f).grp (sme f).cur).src .int 2 4#10).poi 0 = false ∧ (∀ d ∈ [4, 1023], d = 1023 ∨ d = f.d)) ∧
    (famT.closed = none ∧ famClosed.closed = some ((RedOp.add).code, ((sme famClosed).thr (sme famClosed).cur 0).pc + 8#64)) ∧
    (actsB (sme famSolo) (.migrInSolo (bw 1023 0 0 0)) ∧ famSolo.solo = true ∧ (sme famSolo).famOf (sme famSolo).cur 0 = some famSolo) ∧
    (∀ f ∈ [famT, famSolo], actsB (sme f) (.exit (cw 1023 0 0 0))) ∧ ((sme famT).team 0).rid = 0 := by
  refine ⟨fun f hf => ?_, by decide, ⟨acts_of (by decide) (by decide) (by decide) (by decide) (by decide) (by decide) (by decide), rfl, rfl⟩, fun f hf => ?_, by decide⟩ <;>
    simp only [List.mem_cons, List.not_mem_nil, or_false] at hf
  · rcases hf with rfl | rfl <;> refine ⟨rfl, by decide, rfl, fun d hd op ho => ?_, by decide, by decide, by decide, by decide⟩ <;>
      (simp only [List.mem_cons, List.not_mem_nil, or_false] at hd ho; rcases hd with rfl | rfl <;> rcases ho with rfl | rfl <;>
        exact acts_of (by decide) (by decide) (by decide) (by decide) (by decide) (by decide) (by decide))
  · rcases hf with rfl | rfl <;> exact acts_of (by decide) (by decide) (by decide) (by decide) (by decide) (by decide) (by decide)
/-- Core 0 with the family identifier 1 in v4, a selector in v6, a thread index 0 in v5; families and teams. -/
def sfc (sel : Nat) (fs : List Family) (ts : List Team) : State := { onCore [(4, 1), (6, sel)] with fams := fs, teams := ts, nextTid := 1, pt := 100 }
def famIn (st : FState) : Family := { famT with state := st, solo := st != .stopped }
def ctl : CtlW := cw 8 4 6 5
def ctlF : CtlW := cw 8 4 6 0
def famI : List Instr := [.fstopStop ctlF, .fstopEnd ctlF, .fresumeRestart ctl, .fresumeResume ctl, .fresumeSkip ctl, .fresumeKill ctl]
/-- A team whose thread 0 stands in a fault. -/
def teamF : Team := teamT { grpT 1#64 .opened [] with threads := { thrT 0 with st := .faulted } :: (List.range 63).map fun l => thrT (l + 1) }
def okAll (s : State) : Bool := readies s famI && (famI.all fun i => Mask.has (s.acting i) 0) &&
  ([4, 6, 5, 0].all fun r => !Mask.has ((s.grp (.lc 0)).src .int 1 (BitVec.ofNat 10 r)).poi 0)
/-- What every clause asks: the thread alone, every form ready, its operands free of poison. -/
def okFam (s : State) : Prop := s.alone 0 ∧ (∀ i ∈ famI, s.ready i ∧ Mask.has (s.acting i) 0 = true) ∧
  ∀ r ∈ [4, 6, 5, 0], Mask.has ((s.grp (.lc 0)).src .int 1 (BitVec.ofNat 10 r)).poi 0 = false
theorem okFam_of {s : State} (h1 : s.cur = .lc 0) (h2 : s.curLane = 0) (h3 : s.runLanes = [0]) (h : (s.thr (.lc 0) 0).rej = [] ∧ (s.thr (.lc 0) 0).handler = none)
    (h4 : okAll s = true) : okFam s := by
  simp only [okAll, Bool.and_eq_true, List.all_eq_true, Bool.not_eq_true'] at h4
  exact ⟨alone_of h1 h2 h3 h, fun i hi => ⟨ready_all h4.1.1 i hi, h4.1.2 i hi⟩, h4.2⟩
theorem witness_FamilyControl :
    (∀ fs ∈ [[], [famIn .ended]], okFam (sfc 0 fs []) ∧ (((sfc 0 fs []).fam? 1#32).all fun f => f.state == .ended) = true) ∧
    (∀ sel ∈ [2, 4], okFam (sfc sel [famT] []) ∧ ((sfc sel [famT] []).word 6#10 0).toNat = sel ∧ famT.state ≠ .ended) ∧
    (∀ st ∈ [FState.ready, .walking, .stopped], okFam (sfc 0 [famIn st] []) ∧ ((sfc 0 [famIn st] []).word 6#10 0).toNat = 0 ∧
      (sfc 0 [famIn st] []).fam? ((sfc 0 [famIn st] []).word 4#10 0) = some (famIn st) ∧ (((sfc 0 [famIn st] []).grp (.lc 0)).thr 0).since = none ∧
      (st = .stopped ∧ (famIn st).solo = false ∨ (((sfc 0 [famIn st] []).modFam 1#32 fun y => { y with fromWalking := st == .walking }).enterStopped 1#32).absent = none)) ∧
    (okFam (sfc 0 [famT] [teamF]) ∧ famT.state = .running ∧ famT.solo = false ∧ (sfc 0 [famT] [teamF]).faultedAt 1#32 0 = [(0, 0, 0)] ∧
      (sfc 0 [famT] [teamF]).parkedOps 1#32 0 = [] ∧ ((sfc 0 [famT] [teamF]).team 0).st = .resident ∧
      ((sfc 0 [famT] [teamF]).thr (.grp 0 0) 0).st = .faulted ∧ ((sfc 0 [famT] [teamF]).grp (.grp 0 0)).gst ≠ .arriving ∧
      (((sfc 0 [famT] [teamF]).word 5#10 0).toNat = 0 ∧ ((sfc 0 [famT] [teamF]).word 0#10 0).toNat = 0) ∧
      (match ((sfc 0 [famT] [teamF]).opened (.fresumeSkip ctl)).fetch (.grp 0 0) 0 0x300000010008#64 with
        | (_, .ok v) => v.toNat / 2 ^ 56 != 0x08
        | _ => true) = true) ∧
    (okFam (sfc 0 [famT] []) ∧ (sfc 0 [famT] []).faultedAt 1#32 0 = [] ∧ (sfc 0 [famT] []).parkedOps 1#32 0 = []) := by
  refine ⟨fun fs hf => ?_, fun sel hs => ?_, fun st hs => ?_, ⟨okFam_of rfl rfl (by decide) (by decide) (by decide), rfl, rfl, by decide, by decide, rfl, by decide, by decide, by decide, by decide⟩, okFam_of rfl rfl (by decide) (by decide) (by decide), by decide, by decide⟩
  · simp only [List.mem_cons, List.not_mem_nil, or_false] at hf
    rcases hf with rfl | rfl <;> exact ⟨okFam_of rfl rfl (by decide) (by decide) (by decide), by decide⟩
  · simp only [List.mem_cons, List.not_mem_nil, or_false] at hs
    rcases hs with rfl | rfl <;> exact ⟨okFam_of rfl rfl (by decide) (by decide) (by decide), by decide, by decide⟩
  · simp only [List.mem_cons, List.not_mem_nil, or_false] at hs
    rcases hs with rfl | rfl | rfl <;>
      refine ⟨okFam_of rfl rfl (by decide) (by decide) (by decide), by decide, rfl, by decide, ?_⟩
    · exact .inr (by decide)
    · exact .inr (by decide)
    · exact .inl (by decide)

/-! ### What saving a team takes: no store of it leaves memory that exists -/

/-- No page has moved, nobody waits, no die samples, the package is package 0; nothing makes a store of the hardware's own wait. -/
structure calm (fs : List Family) (s : State) : Prop where
  moved : s.moved = []
  waiters : s.waiters = []
  mode : ∀ d, (s.die d).mode = 0
  pkg : s.link.pkg = 0
  absent : s.absent = none
  fams : s.fams = fs
  hwq : s.hwq = []
  resv : ∀ c ∈ s.lcs, c.resv = none
  halves : s.host.halves = []
  pages : s.pages = []
  wstores : s.wstores = []
theorem calm_sample {fs : List Family} {s : State} (h : calm fs s) (pa req : Nat) (fam : Option W32) : s.sample pa req fam = s := by
  simp [State.sample, h.mode]
theorem calm_touch {s : State} {pa n : Nat} (hp : pa + n ≤ 2 ^ 36) : s.touch pa n = s := by
  have h1 : paOff pa = pa := Nat.mod_eq_of_lt (by omega)
  have h2 : paDie pa = 0 := by unfold paDie; omega
  have h3 : Config.dieBytes 0 = 2 ^ 36 := rfl
  rw [State.touch, if_neg]
  rw [h1, h2, h3]; simp; intro; omega
theorem calm_recall {fs : List Family} {s : State} (h : calm fs s) (line : Nat) (but : Option Nat) : calm fs (s.recall line but) := by
  refine ⟨h.moved, h.waiters, h.mode, h.pkg, h.absent, h.fams, h.hwq, fun c hc => ?_, h.halves, h.pages, h.wstores⟩
  obtain ⟨k, hk, rfl⟩ := List.mem_mapIdx.1 hc
  split
  · rfl
  · exact h.resv _ (List.getElem_mem hk)
theorem calm_markRecall {fs : List Family} {s : State} (h : calm fs s) (line : Nat) : calm fs (s.markRecall line) := by
  refine ⟨h.moved, h.waiters, h.mode, h.pkg, h.absent, h.fams, h.hwq, fun c hc => ?_, h.halves, h.pages, h.wstores⟩
  obtain ⟨x, hx, rfl⟩ := List.mem_map.1 hc
  simp [h.resv x hx]
theorem calm_enterHome {fs : List Family} {s : State} (h : calm fs s) (line : Nat) (rh : Retain) : calm fs (s.enterHome line rh) := by
  unfold State.enterHome
  extract_lets i others
  split
  · split
    · exact ⟨h.moved, h.waiters, h.mode, h.pkg, h.absent, h.fams, h.hwq, h.resv, h.halves, h.pages, h.wstores⟩
    · split
      · refine calm_markRecall ?_ _
        exact ⟨h.moved, h.waiters, h.mode, h.pkg, h.absent, h.fams, h.hwq, h.resv, h.halves, h.pages, h.wstores⟩
      · refine calm_recall ?_ _ _
        exact ⟨h.moved, h.waiters, h.mode, h.pkg, h.absent, h.fams, h.hwq, h.resv, h.halves, h.pages, h.wstores⟩
  · exact ⟨h.moved, h.waiters, h.mode, h.pkg, h.absent, h.fams, h.hwq, h.resv, h.halves, h.pages, h.wstores⟩
theorem calm_storeLine {fs : List Family} {s : State} (h : calm fs s) (line : Nat) (rh : Retain) : calm fs (s.storeLine line rh) := by
  have c := calm_enterHome h line rh
  exact ⟨c.moved, c.waiters, c.mode, c.pkg, c.absent, c.fams, c.hwq, c.resv, c.halves, c.pages, c.wstores⟩
theorem calm_renewLine {fs : List Family} {s : State} (h : calm fs s) (line : Nat) : calm fs (s.renewLine line) := by
  unfold State.renewLine
  split
  · exact ⟨h.moved, h.waiters, h.mode, h.pkg, h.absent, h.fams, h.hwq, h.resv, h.halves, h.pages, h.wstores⟩
  · exact h
theorem calm_free {fs : List Family} {s : State} (h : calm fs s) (pa n : Nat) : s.homeBusy pa n none = false := by
  have e : s.hostHalves pa n = [] := by simp [State.hostHalves, h.halves]
  simp only [State.homeBusy, e, List.isEmpty_nil, Bool.not_true, Bool.or_false]
  refine List.any_eq_false.2 fun x hx => ?_
  obtain ⟨k, hk, rfl⟩ := List.mem_mapIdx.1 hx
  simp [h.resv _ (List.getElem_mem hk)]
theorem calm_record {fs : List Family} {s : State} (h : calm fs s) (page : Nat) (on : Bool) : calm fs (s.record page on) := by
  unfold State.record
  split <;> exact ⟨h.moved, h.waiters, h.mode, h.pkg, h.absent, h.fams, h.hwq, h.resv, h.halves, h.pages, h.wstores⟩
theorem calm_travels {fs : List Family} {s : State} (h : calm fs s) {pa : Nat} (hp : pa ≤ 2 ^ 36) : s.travels pa = false := by
  have e : paPkg pa = 0 := by unfold paPkg; omega
  simp [State.travels, State.windowPeers, State.remote, State.writerOf, h.pages, h.pkg, e]
theorem calm_storeHw {fs : List Family} {s : State} (h : calm fs s) {pa : Nat} {d : List Byte} (hp : pa + d.length ≤ 2 ^ 36) : calm fs (s.storeHw pa d) := by
  have hr (u : State) (hu : calm fs u) : u.redirect pa = pa := by simp [State.redirect, hu.moved, assoc]
  have hc : calm fs (s.countStore pa) := ⟨h.moved, h.waiters, h.mode, h.pkg, h.absent, h.fams, h.hwq, h.resv, h.halves, h.pages, h.wstores⟩
  have key : calm fs ((s.countStore pa).homeStore pa d none).1 := by
    generalize s.countStore pa = u at hc
    unfold State.homeStore
    simp only [hr u hc, calm_touch hp]
    generalize hv : (State.renewLine _ _) = v
    have c : calm fs v := by
      rw [← hv]
      have r := calm_recall (s := { u with copies := ageCopies u [] pa d })
        ⟨hc.moved, hc.waiters, hc.mode, hc.pkg, hc.absent, hc.fams, hc.hwq, hc.resv, hc.halves, hc.pages, hc.wstores⟩ (lineOf pa) none
      refine calm_renewLine (calm_storeLine (calm_record ?_ _ _) _ _) _
      generalize State.recall _ _ _ = x at r
      have e : x.handForward pa d = x.setBytes pa d := by simp [State.handForward, r.pages]
      rw [e]
      exact ⟨r.moved, r.waiters, r.mode, r.pkg, r.absent, r.fams, r.hwq, r.resv, r.halves, r.pages, r.wstores⟩
    rw [show v.reeval pa d.length = v by simp [State.reeval, c.waiters], calm_sample c]
    exact c
  have hm : s.mayStore pa d.length none = true := by
    simp [State.mayStore, calm_free h, State.barred, calm_travels h (by omega : pa ≤ 2 ^ 36), State.windowedOver, h.wstores]
  simp only [State.storeHw, State.hwStore, h.hwq, List.nil_append, State.hwDrain, hr s h, hm, if_true, State.hwNow, Bool.false_eq_true, if_false,
    State.openFor, calm_travels key (by omega : pa ≤ 2 ^ 36)]
  exact ⟨key.moved, key.waiters, key.mode, key.pkg, key.absent, key.fams, rfl, key.resv, key.halves, key.pages, key.wstores⟩

/-- A family whose page-table base lies outside the package's memory, so that its save area lies where its address says, at 1 MB. -/
def famS : Family := { famT with ptbr := 0x3E0000000000#64, desc := famT.desc.set 5 0x100000#64, teams := 1 }
theorem savePa_famS {fs : List Family} {s : State} (h : calm fs s) {f : Family} (h1 : f.solo = false) (h2 : f.ptbr = famS.ptbr) (h3 : f.dw 5 = 0x100000) {off : Nat}
    (ho : off < 2 ^ 32) : s.savePa f off = 0x100000 + off := by
  have hw : s.walkQuiet (spaceOfPtbr f.ptbr false).root (BitVec.ofNat 64 (f.dw 5 + off)) = .error 0x13 := by
    have ht : s.tableOk ((spaceOfPtbr f.ptbr false).root + 8 * vaIndex (BitVec.ofNat 64 (f.dw 5 + off)) 1) = false := by
      have hv : vaIndex (BitVec.ofNat 64 (f.dw 5 + off)) 1 = 0 := by
        rw [h3, vaIndex, BitVec.toNat_ofNat]; omega
      rw [hv, h2]
      simp [State.tableOk, h.pkg]; decide
    simp only [State.walkQuiet, walkFrom, ht]; rfl
  rw [h3] at hw
  unfold State.savePa
  simp only [h1, Bool.false_eq_true, if_false, h3, hw, BitVec.toNat_ofNat]
  omega
theorem calm_foldl {fs : List Family} {α : Type} (g : State → α → State) (l : List α) (h : ∀ s x, x ∈ l → calm fs s → calm fs (g s x)) {s : State} (hs : calm fs s) : calm fs (l.foldl g s) := by
  induction l generalizing s with
  | nil => exact hs
  | cons a l ih => exact ih (fun s x hx => h s x (List.mem_cons_of_mem _ hx)) (h s a List.mem_cons_self hs)
theorem calm_saveStore {fs : List Family} {s : State} (h : calm fs s) {f : Family} (h1 : f.solo = false) (h2 : f.ptbr = famS.ptbr) (h3 : f.dw 5 = 0x100000) {off : Nat}
    {bs : List Byte} (ho : off + bs.length < 2 ^ 31) : calm fs (s.saveStore f off bs) := by
  refine calm_foldl _ _ (fun u k hk hu => ?_) h
  have hk' := List.mem_range.1 hk
  refine calm_storeHw hu ?_
  rw [savePa_famS hu h1 h2 h3 (by omega)]
  simp only [List.length_take, List.length_drop]
  omega
theorem natLe_length (n v : Nat) : (natLe n v).length = n := by simp [natLe]
theorem flatMap_length {α β : Type} (l : List α) (g : α → List β) (n : Nat) (h : ∀ x ∈ l, (g x).length = n) : (l.flatMap g).length = l.length * n := by
  induction l with
  | nil => simp
  | cons a l ih =>
    simp only [List.flatMap_cons, List.length_append, List.length_cons, h a List.mem_cons_self, ih fun x hx => h x (List.mem_cons_of_mem _ hx)]
    rw [Nat.add_mul, Nat.one_mul, Nat.add_comm]
theorem allLanes_length : allLanes.length = 64 := by decide
theorem saveBytes_length (r : Reg) : r.saveBytes.length ≤ 256 := by
  unfold Reg.saveBytes
  split
  · exact Nat.le_of_eq (by rw [flatMap_length _ _ 4 fun _ _ => natLe_length _ _, allLanes_length])
  · split
    · rw [natLe_length]; omega
    · rw [List.length_append, natLe_length, natLe_length]; omega
    · exact Nat.le_of_eq (by rw [flatMap_length _ _ 4 fun _ _ => natLe_length _ _, allLanes_length])
theorem tagBytes_length (l : List Nat) (n : Nat) : (tagBytes l n).length = n := by simp [tagBytes]
theorem pieces_length (g : Group) (j n seed : Nat) (q : Bool) (hn : n ≤ 1024) : ∀ x ∈ g.pieces j n seed q, x.1 + x.2.length ≤ 2 ^ 20 := by
  intro x hx
  have h8 {α : Type} (l : List α) (k : Nat) (v : α → Nat) : (l.flatMap fun y => natLe k (v y)).length = l.length * k :=
    flatMap_length _ _ k fun _ _ => natLe_length _ _
  simp only [Group.pieces, List.mem_append, List.mem_cons, List.not_mem_nil, or_false, List.mem_map, List.mem_range] at hx
  rcases hx with (rfl | rfl | rfl | rfl | rfl | rfl | rfl | rfl) | ⟨r, hr, rfl⟩ <;>
    simp only [Group.ghdr, Group.pcBytes, List.length_append, natLe_length, h8, tagBytes_length, allLanes_length, List.length_range, formatPart, List.length_map]
  all_goals first | omega | skip
  have := saveBytes_length (g.reg r)
  omega
theorem calm_tick {fs : List Family} {s : State} (h : calm fs s) : calm fs s.tick :=
  ⟨h.moved, h.waiters, h.mode, h.pkg, h.absent, h.fams, h.hwq, h.resv, h.halves, h.pages, h.wstores⟩
theorem calm_writeTeam {fs : List Family} {s : State} (h : calm fs s) {t : Team} (ht : t.rid = 0 ∧ t.num = 0 ∧ t.groups.length ≤ 32 ∧ t.spq.length ≤ 4) :
    calm fs (s.writeTeam famS t) := by
  have hb : famS.recordAt t.rid t.num = 4096 := by rw [ht.1, ht.2.1]; rfl
  have hn : famS.nregs = 64 := by decide
  have hr : famS.repl = 1 := by decide
  have hf : famS.formeSize = 4096 := by decide
  have hg : famS.groupsAt = 139264 := by decide
  have h8 {α : Type} (l : List α) (k : Nat) (v : α → Nat) : (l.flatMap fun y => natLe k (v y)).length = l.length * k :=
    flatMap_length _ _ k fun _ _ => natLe_length _ _
  have hblk : t.block.length ≤ 1024 := by
    have hq : (t.spq.flatMap fun q => natLe 8 (q.done % 2 ^ 32) ++ natLe 8 q.lastp).length = t.spq.length * 16 :=
      flatMap_length _ _ 16 fun _ _ => by simp [natLe_length]
    simp only [Team.block, List.length_append, natLe_length, hq]; omega
  have htile : ((List.range 4).flatMap fun q => (List.range 32).flatMap fun i => (List.range 256).flatMap fun j => natLe 4 ((t.tile q).get i j)).length = 131072 := by
    rw [flatMap_length _ _ (32 * (256 * 4)) fun q _ => ?_]
    · simp
    · rw [flatMap_length _ _ (256 * 4) fun i _ => by rw [h8]; simp]; simp
  refine calm_tick (calm_saveStore (calm_foldl _ _ (fun u x hx hu => calm_saveStore hu (by rfl) rfl (by decide) ?_) h) (by rfl) rfl (by decide) ?_)
  case refine_2 =>
    rw [hb]; simp only [List.length_append, natLe_length, formatPart, List.length_map, List.length_range]; omega
  rw [hb]
  simp only [hr, hf, hg, hn, List.mem_append, List.mem_cons, List.not_mem_nil, or_false, List.mem_flatMap, List.mem_map, List.mem_range,
    Nat.lt_irrefl, if_false] at hx
  rcases hx with (rfl | rfl | rfl) | ⟨j, hj, ⟨o, bs⟩, hp, rfl⟩
  · simp only [List.length_append, natLe_length]; omega
  · simp
  · simp only [htile]; omega
  · have hl := pieces_length _ j 64 _ _ (by omega) _ hp
    simp only at hl ⊢
    omega
theorem calm_writeHeader {fs : List Family} {s : State} (h : calm fs s) {f : Family} (hf : s.fam? 1#32 = some f) (h1 : f.solo = false) (h2 : f.ptbr = famS.ptbr)
    (h3 : f.desc = famS.desc) : calm fs (s.writeHeader 1#32) := by
  have hd : f.dw 5 = 0x100000 := by simp only [Family.dw, h3]; decide
  simp only [State.writeHeader, hf, h1, Bool.false_eq_true, if_false]
  refine calm_tick (calm_saveStore h h1 h2 hd ?_)
  have h8 {α : Type} (l : List α) (k : Nat) (v : α → Nat) : (l.flatMap fun y => natLe k (v y)).length = l.length * k :=
    flatMap_length _ _ k fun _ _ => natLe_length _ _
  have h9 : famS.desc.length = 8 := by decide
  simp only [State.familyHeader, List.length_append, natLe_length, h8, h3, h9, formatPart, List.length_map, List.length_range]
  omega
theorem calm_saveTeam {s : State} (h : calm [famS] s) {t : Team} (hp : t.packed = false)
    (hf : ((s.dropForme t.tid).modTeam t.tid fun x => x.saved).recFam t = famS) (hw : ((s.dropForme t.tid).modTeam t.tid fun x => x.saved).waiters = [])
    (ht : let x := ((s.dropForme t.tid).modTeam t.tid fun x => x.saved).team t.tid
      x.rid = 0 ∧ x.num = 0 ∧ x.groups.length ≤ 32 ∧ x.spq.length ≤ 4) : calm [famS] (s.saveTeam t) := by
  simp only [State.saveTeam, hp, Bool.false_eq_true, if_false]
  rw [hf]
  have hc : calm [famS] ((s.dropForme t.tid).modTeam t.tid fun x => x.saved) :=
    ⟨h.moved, hw, h.mode, h.pkg, h.absent, h.fams, h.hwq, h.resv, h.halves, h.pages, h.wstores⟩
  exact calm_writeTeam hc ht
theorem settle_absent {s : State} (h : calm [famS] s) : (((s.writeHeader 1#32).simtUpdate 1#32).familySettle 1#32).absent = none := by
  have hf : s.fam? 1#32 = some famS := by rw [State.fam?, h.fams]; decide
  have h2 : calm [famS] (s.writeHeader 1#32) := calm_writeHeader h hf rfl rfl rfl
  generalize s.writeHeader 1#32 = u at h2
  unfold State.familySettle
  have h3 : (u.simtUpdate 1#32).absent = none := h2.absent
  split
  · exact h3
  · next f hf =>
    have hs : f.stopping = false := by
      simp only [State.simtUpdate, State.fam?, State.modFam, h2.fams] at hf
      simp only [List.map_cons, List.map_nil, List.find?] at hf
      split at hf
      · obtain rfl := Option.some.inj hf; rfl
      · cases hf
    simp only [hs]
    split
    · exact h3
    · exact h3
/-- A saving team of that family, with one group of one lane. -/
def teamS : Team := { teamT (grpT 1#64 .opened [(2, 5)]) with st := .saving, groups := [some (grpT 1#64 .opened [(2, 5)])] }
def ssv : State := { State.reset with fams := [famS], teams := [teamS], nextTid := 1 }
theorem mode_of {s : State} (h : s.dies = List.replicate 28 {}) (d : Nat) : (s.die d).mode = 0 := by
  rw [State.die, h, List.getD_eq_getElem?_getD]
  cases e : (List.replicate 28 ({} : Die))[d]? with
  | none => rfl
  | some x => exact congrArg Die.mode (List.eq_of_mem_replicate (List.mem_of_getElem? e))
theorem calm_ssv : calm [famS] ssv := ⟨by decide, by decide, mode_of rfl, by decide, by decide, rfl, rfl, by decide, rfl, rfl, rfl⟩
/-- Everything that the save of that team writes lies in memory that exists. -/
theorem save_absent : ((((ssv.saveTeam teamS).writeHeader 1#32).simtUpdate 1#32).familySettle 1#32).absent = none :=
  settle_absent (calm_saveTeam calm_ssv rfl (by decide) (by decide) (by decide))

/-- The families of a state of one family, with that family changed. -/
theorem calm_modFam {s : State} {f : Family} (h : calm [f] s) (hid : f.famid = 1#32) (g : Family → Family) : calm [g f] (s.modFam 1#32 g) :=
  ⟨h.moved, h.waiters, h.mode, h.pkg, h.absent, by simp [State.modFam, h.fams, hid], h.hwq, h.resv, h.halves, h.pages, h.wstores⟩
theorem calm_fam {s : State} {f : Family} (h : calm [f] s) (hid : f.famid = 1#32) : s.fam? 1#32 = some f := by simp [State.fam?, h.fams, hid]
/-- STOPPED is entered, and its header kept current, in memory that exists. -/
theorem calm_enterStopped {s : State} {f : Family} (h : calm [f] s) (hid : f.famid = 1#32) (h1 : f.solo = false) (h2 : f.ptbr = famS.ptbr)
    (h3 : f.desc = famS.desc) (h4 : f.teams = 1) : (s.enterStopped 1#32).absent = none := by
  have hd : f.dw 5 = 0x100000 := by simp only [Family.dw, h3]; decide
  have hr : f.repl = 1 := by simp only [Family.repl, Family.dw, h3]; decide
  simp only [State.enterStopped, calm_fam h hid, h1, Bool.false_eq_true, if_false, hr, h4, Family.recordAt, List.range_one, List.foldl_cons, List.foldl_nil]
  have c := calm_modFam h hid fun x => { x with state := .stopped, stopping := false }
  have c' := calm_saveStore c (f := f) h1 h2 hd (off := 4096 + (0 * 1 + 0) * f.teamBytes) (bs := natLe 8 (match
      ((s.modFam 1#32 fun x => { x with state := .stopped, stopping := false }).teamsOf 1#32).find? fun t => t.rid == 0 && t.num == 0 with
    | some t => t.st.code + t.restarts * 2 ^ 8
    | none => 0)) (by rw [natLe_length]; omega)
  exact (calm_writeHeader c' (calm_fam c' hid) h1 h2 h3).absent
/-- A family without a team on a core is stopped; a stopped family whose `s.repairs` supervisor software writes. -/
def sfs (f : Family) : State := sfc 0 [f] []
def famSS : Family := { famS with state := .stopped }
def stfS : State := { onTrap [(2, 5)] fun c => { c with famsel := 1#32 } with fams := [famSS] }
theorem witness_FamilyControl_stopping : (okFam (sfs famS) ∧ (sfs famS).fam? 1#32 = some famS ∧ famS.state = .running ∧ famS.solo = false ∧
      (sfs famS).active 1#32 = [] ∧ (sfs famS).frecs = [] ∧ (((sfs famS).modFam 1#32 fun x => { x with stopping := true }).enterStopped 1#32).absent = none) ∧
    (okFam (sfc 0 [famT] [teamF]) ∧ (sfc 0 [famT] [teamF]).active 1#32 ≠ [] ∧ (sfc 0 [famT] [teamF]).frecs = []) :=
  ⟨⟨okFam_of rfl rfl (by decide) (by decide) (by decide), rfl, rfl, rfl, rfl, rfl,
      calm_enterStopped (calm_modFam (f := famS) ⟨by decide, by decide, mode_of rfl, by decide, by decide, rfl, rfl, by decide, rfl, rfl, rfl⟩ rfl _) rfl rfl rfl rfl rfl⟩,
    okFam_of rfl rfl (by decide) (by decide) (by decide), by decide, rfl⟩
theorem witness_SystemRegisterWrites_stopped : stfS.alone 0 ∧ (stfS.lc 0).sup = true ∧ stfS.ready (.srw (sw 1023 2 0x033)) ∧
    Mask.has (stfS.acting (.srw (sw 1023 2 0x033))) 0 = true ∧ stfS.fam? (stfS.lc 0).famsel = some famSS ∧ famSS.state = .stopped ∧
    ((stfS.modFam famSS.famid fun y => { y with repairs := 5#32 }).headerNow famSS.famid).absent = none := by
  refine ⟨alone_of rfl rfl (by decide) (by decide), by decide, ready_of (by decide), by decide, rfl, rfl, ?_⟩
  have c := calm_modFam (f := famSS) (s := stfS) ⟨by decide, by decide, mode_of rfl, by decide, by decide, rfl, rfl, by decide, rfl, rfl, rfl⟩ rfl
    fun y => { y with repairs := 5#32 }
  have e := calm_fam c rfl
  show (State.headerNow _ 1#32).absent = none
  unfold State.headerNow
  split
  · exact (calm_writeHeader c e rfl rfl rfl).absent
  · exact c.absent

/-! ### Scheduling -/

def ssd (fs : List Family) (ts : List Team) : State := { State.reset with fams := fs, teams := ts, nextTid := 1, pt := 2000000 }
/-- A family that walks for admission: its one page is mapped. -/
def famWalk : Family := { famT with state := .walking, ptbr := 0x300000400001#64, admitPages := [0x100000#64] }
def sad : State := { onUser [] with fams := [famWalk] }
def famPass : Family := { famT with state := .ready, passed := [(0, 0)] }
/-- A resident team that fills the forme of the one usable core, and another family that waits for it. -/
def teamBig : Team := { teamT (grpT 1#64 .opened []) with fsize := 2 ^ 20 }
def famB : Family := { famT with famid := 2#32, state := .ready, n := 64, desc := famT.desc.set 0 0x4001010001#64, nextInst := 0 }
def ssl (fs : List Family) : State :=
  { ssd fs [teamBig] with dev := { State.reset.dev with harvest := List.range' 1 23 }, dies := {} :: List.replicate 27 { isolated := true } }
/-- A family whose watchdog has run out. -/
def famDog : Family := { famT with desc := famT.desc.set 3 1000#64, simtFrom := some 0 }
def famRec : Family := { famT with ptbr := 0x300000400001#64, desc := famT.desc.set 7 0x40100#64 }
/-- One of its records waits for its queue. -/
def sfq : State :=
  { onUser [] with fams := [famRec], frecs := [{ fam := 1#32, origin := 0, queue := famRec.queue, dws := List.replicate 6 0#64 }] }
def sdr : State := { ssd [famT] [teamT (grpT 1#64 .opened [])] with pt := 600000000000 }
def famDis : Family := { famB with famid := 1#32, nextInst := 0, outPc := 0x10010#64 }
def sdi : State := { ssd [famDis] [] with link := { State.reset.link with state := .active } }
theorem witness_Scheduling :
    ((ssd [famT] []).fam? 1#32 = some famT ∧ famT.state ≠ .ended) ∧
    (sad.fam? 1#32 = some famWalk ∧ famWalk.state = .walking ∧ famWalk.admitPages = [0x100000#64] ∧ (sad.admitWalk famWalk 0x100000#64).2 = none ∧
      (sad.admitWalk famWalk 0x100000#64).1.absent = none) ∧
    (famPass.passed = [(0, 0)] ∧ 0 + 1000000 ≤ (ssd [famPass] []).pt ∧ 0 ∉ famPass.reserving) ∧
    (∀ fs ∈ [[famT, famB], [famT]], (ssl fs).fam? 1#32 = some famT ∧ (ssl fs).sliceTeams famT 0 = [teamBig] ∧ teamBig.since + famT.slice ≤ (ssl fs).pt ∧
      (ssl fs).requestDue [teamBig] = false) ∧
    ((ssl [famT, famB]).someoneWaits famT [teamBig] [teamBig] = true ∧ (ssl [famT]).someoneWaits famT [teamBig] [teamBig] = false) ∧
    ({ ssl [famT] with pt := 600000000000 } : State).requestDue [teamBig] = true ∧
    (ssv.fam? 1#32 = some famS ∧ ssv.team? 0 = some teamS ∧ teamS.fam = 1#32 ∧ teamS.packed = false ∧ teamS.st = .saving ∧
      ((ssv.teamsOf 1#32).filter fun x => x.st == .saving && (famS.cohort || x.num / famS.area == teamS.num / famS.area)) = [teamS] ∧ ssv.teamQuiet teamS = true ∧
      ((((ssv.saveTeam teamS).writeHeader 1#32).simtUpdate 1#32).familySettle 1#32).absent = none) ∧
    (((ssd [famDog] []).fams.filter fun g => (ssd [famDog] []).watchDue g) = [famDog] ∧ (ssd [famDog] []).absent = none ∧
      (ssd [famDog] []).frecs = [] ∧ faultQueueSize (ssd [famDog] []) famDog.queue ≤
        (ssd [famDog] []).rdHw ((ssd [famDog] []).faultQueue famDog.queue 8) 8 - (ssd [famDog] []).rdN ((ssd [famDog] []).faultQueue famDog.queue 0) 8) ∧
    (sfq.fam? 1#32 = some famRec ∧ sfq.frecs.length = 1 ∧ (∀ r ∈ sfq.frecs, r.fam ≠ 2#32) ∧ sfq.faultDrain.absent = none) ∧
    (sdr.drainint ≠ 0#32 ∧ sdr.drain.busy = false ∧ sdr.drain.last + sdr.drainint.toNat * 1000000000 ≤ sdr.pt ∧
      (∀ x ∈ sdr.teams, x.packed = false → (sdr.fam? x.fam).isSome = true) ∧ sdr.nextUnit = some 0) ∧
    (let s := { sdr with drain := { unit := 1, last := 0, busy := true } }; s.drain.busy = true ∧ (∀ h ∈ s.holds, testUnit h.core ≠ s.drain.unit) ∧ s.absent = none) ∧
    (sdi.link.aligned = true ∧ famDis.solo = false ∧ famDis.state = .ready ∧ famDis.stopping = false ∧ sdi.teams = [] ∧ sdi.fams = [famDis] ∧ famDis.n = 64 ∧
      famDis.teams = 1 ∧ famDis.repl = 1 ∧ famDis.cohort = false ∧ famDis.nextInst = 0 ∧ famDis.cw = 1 ∧ famDis.chh = 1 ∧ famDis.affinity = [] ∧
      famDis.groups = 1 ∧ famDis.regSpace ≤ 1536 * 1024 ∧ famDis.formeSize ≤ 2 ^ 20 ∧ sdi.coreUsable 0 = true ∧ sdi.absent = none) := by
  refine ⟨⟨rfl, by decide⟩, ⟨rfl, rfl, rfl, by decide, by decide⟩, by decide, fun fs hf => ?_, ⟨by decide, by decide⟩, by decide,
    ⟨rfl, rfl, rfl, rfl, rfl, by decide, by decide, save_absent⟩, ⟨by decide, rfl, rfl, by decide⟩, ⟨rfl, rfl, by decide, by decide⟩,
    ⟨by decide, rfl, by decide, by decide, by decide⟩, ⟨rfl, by decide, rfl⟩, by decide⟩
  simp only [List.mem_cons, List.not_mem_nil, or_false] at hf
  rcases hf with rfl | rfl <;> exact ⟨rfl, by decide, by decide, by decide⟩
/-- Two threads whose packing interval has run out. -/
def spk : State :=
  { ssd [famSolo] [] with packs := [{ ptbr := 0#64, hdr := 0x10010#64, key := 1#64, opened := 1000000, members := [(1#32, { live := 1#64, threads := [{}] }), (2#32, {})] }] }
theorem witness_Scheduling_pack : ∃ k, spk.packs = [k] ∧ k.opened + spk.packint.toNat ≤ spk.pt ∧ k.members.length ≤ 64 := ⟨_, rfl, by decide, by decide⟩

/-! ### Machine checks, proofs, repairs, events of runs -/

/-- dw1 of a family: forme 4 KiB, REPL, RESTARTABLE. -/
def dw1Of (repl restart : Nat) : W64 := BitVec.ofNat 64 (4096 + repl * 2 ^ 32 + restart * 2 ^ 34)
def famP (repl restart : Nat) : Family := { famT with desc := famT.desc.set 1 (dw1Of repl restart) }
/-- The copy of the team that belongs to a replica; its thread 0 waits at its proof point. -/
def teamR (rid : Nat) : Team := { teamT { grpT 1#64 .opened [] with threads := { thrT 0 with st := .proofWait } :: (List.range 63).map fun l => thrT (l + 1) } with
  tid := rid, rid := rid, core := 72 * rid }
def entR (rid sig : Nat) : ProofEntry := { fam := 1#32, tix := 0, rid := rid, q := 0, pc := 0x300000010008#64, count := 1, sig := BitVec.ofNat 64 sig }
def spf (repl : Nat) (es : List ProofEntry) : State :=
  { ssd [famP repl 0] ((List.range repl).map teamR) with proofs := es, nextTid := repl, clocks := [{ fam := 1#32, tix := 0, key := .interval 0, count := 1000000 }] }
def smc (r : Nat) : State := ssd [famP 1 r] [teamT (grpT 1#64 .opened [])]
theorem witness_ChecksAndProofs : (∀ r ∈ [0, 1], (smc r).fam? 1#32 = some (famP 1 r) ∧ (smc r).team? 0 = some (teamT (grpT 1#64 .opened [])) ∧
      (teamT (grpT 1#64 .opened [])).specs = [] ∧ (smc r).frecs = [] ∧
      (famP 1 r).repl ≤ 1 ∧ (famP 1 r).restartable = (r == 1) ∧ (famP 1 r).state = .running ∧ (famP 1 r).stopping = false ∧
      ((smc r).logError 2 ((Config.formatByte 5 0 (smc r).fresh).toNat % 18) 0 1#32 0 0).tick.absent = none) ∧
    ((famP 3 0).repl = 3 ∧ (spf 3 []).team? 0 = some (teamR 0) ∧
      ((spf 3 []).copies_ (teamR 0)).find? (fun x => x.rid != 0 && (x.st == .resident || x.st == .saving || x.st == .saved)) = some (teamR 1)) ∧
    (∀ g ∈ [5, 6], let s := spf 2 [entR 0 5, entR 1 g]; s.fam? 1#32 = some (famP 2 0) ∧ (famP 2 0).repl = 2 ∧ s.entriesOf 1#32 0 = [entR 0 5, entR 1 g] ∧ s.copyOf (famP 2 0) 0 0 = some (teamR 0, 0, 0) ∧
      s.copyOf (famP 2 0) 1 0 = some (teamR 1, 0, 0) ∧ (s.teams.map (·.tid)).Nodup ∧ (((teamR 0).grp 0).thr 0).held = [] ∧
      s.oncesOf 1#32 0 = [] ∧ s.segs = [] ∧ (teamR 0).tid ≠ (teamR 1).tid ∧ (entR 0 5).q = (entR 1 g).q ∧ (entR 0 5).pc = (entR 1 g).pc ∧
      0 < ((teamR 0).grp 0).threads.length ∧ 0 < ((teamR 1).grp 0).threads.length ∧ (((teamR 0).grp 0).thr 0).st = .proofWait ∧ s.absent = none) ∧
    ((famP 2 0).restartable = false ∧ (entR 0 5).sig ≠ (entR 1 6).sig) ∧
    (let s := spf 3 [entR 0 5, entR 1 5]
     s.proofs = [entR 0 5, entR 1 5] ∧ s.entriesOf 1#32 0 = [entR 0 5, entR 1 5] ∧ s.onces = [] ∧ s.segs = [] ∧
      (∃ k, (s.clocks.filter fun c => c.fam == 1#32 && c.tix == 0 && decide (c.count ≥ 1000000)) = [k] ∧ k.key = .interval (entR 0 5).q) ∧
      (teamR 0).tid ≠ (teamR 1).tid ∧ (teamR 0).tid ≠ (teamR 2).tid ∧ s.copyOf (famP 3 0) 0 0 = some (teamR 0, 0, 0) ∧
      s.copyOf (famP 3 0) 1 0 = some (teamR 1, 0, 0) ∧ s.copyOf (famP 3 0) 2 0 = some (teamR 2, 0, 0) ∧ (s.teams.map (·.tid)).Nodup) ∧
    (let s := { spf 3 [] with repairs := [{ fam := 1#32, src := 1, dst := 2 }] }
     s.repairs[0]? = some { fam := 1#32, src := 1, dst := 2 } ∧ s.team? 1 = some (teamR 1) ∧ s.team? 2 = some (teamR 2) ∧ (teamR 2).st = .resident ∧
      (teamR 1).tid ≠ (teamR 2).tid ∧ (famP 3 0).state ≠ .stopped ∧ s.absent = none) := by
  refine ⟨fun r hr => ?_, ⟨by decide, rfl, by decide⟩, fun g hg => ?_, by decide,
    ⟨rfl, by decide, rfl, rfl, ⟨_, rfl, rfl⟩, by decide, by decide, rfl, rfl, rfl, by decide⟩, rfl, rfl, rfl, rfl, by decide, by decide, rfl⟩
  · simp only [List.mem_cons, List.not_mem_nil, or_false] at hr
    rcases hr with rfl | rfl <;> exact ⟨rfl, rfl, rfl, rfl, by decide, by decide, rfl, rfl, by decide⟩
  · simp only [List.mem_cons, List.not_mem_nil, or_false] at hg
    rcases hg with rfl | rfl <;> exact ⟨rfl, by decide, by decide, rfl, rfl, by decide, rfl, rfl, rfl, by decide, rfl, rfl, by decide, by decide, rfl, rfl⟩
/-- A group with a parked thread, one that waits at a rejoin point since cycle 0, and a prediction whose actual mask is `m`. -/
def grpE (m : Nat) : Group :=
  { grpT 7#64 .opened [(2, 5)] with
    threads := thrT 0 :: { thrT 1 with st := .parked } :: { thrT 2 with st := .rejoin 4 } :: (List.range 61).map fun l => thrT (l + 3)
    points := [{ id := 4, hdr := 0x300000010000#64, expect := 7#64, arrived := BitVec.ofNat 64 m, first := some 0 }] }
def specE (m : Nat) : Spec :=
  { before := grpT 7#64 .opened [(2, 9)], pc := 0x300000010008#64, run := 1#64, predicted := 1#64, actual := BitVec.ofNat 64 m, index := 0, issued := 1 }
def sre (m : Nat) : State :=
  { onUser [] with fams := [{ famT with ptbr := 0x300000400001#64 }], teams := [{ teamT (grpE m) with specs := [(0, specE m)] }], cycles := 65536, cur := .grp 0 0 }
theorem witness_RunEvents : ∀ m ∈ [0, 1], (sre m).running (.grp 0 0) = true ∧ (((sre m).grp (.grp 0 0)).thr 1).st = .parked ∧
    1 < ((sre m).grp (.grp 0 0)).threads.length ∧ (∃ q ∈ ((sre m).grp (.grp 0 0)).points, q.id = 4 ∧ q.first = some 0) ∧ 0 + 2 ^ 16 ≤ (sre m).cycOf (.grp 0 0) ∧
    (sre m).specOf (.grp 0 0) = some (specE m) ∧ (sre m).absent = none ∧
    ((((specE m).predicted ^^^ (specE m).actual) &&& (specE m).run = 0#64) ↔ m = 1) ∧ ((sre m).grp (.grp 0 0)).preds.length = 7 ∧ (specE m).before.preds.length = 7 ∧
    (∀ q ∈ [Party.lc 0, .grp 0 0], ((sre m).spaceOf q 0).en = true ∧ (sre m).tlbFind ((sre m).tlbPath q) ((sre m).spaceOf q 0) 0x100000#64 = none ∧
      (sre m).nleaf = [] ∧ (sre m).moved = [] ∧ (sre m).mpoison = [] ∧ (sre m).admode = false ∧
      (sre m).walkQuiet ((sre m).spaceOf q 0).root 0x100000#64 = .ok (0x3000001000D7#64, 0x300000420040, 3) ∧
      ((sre m).fill ((sre m).tlbPath q) ((sre m).spaceOf q 0) 0x100000#64 .load).1.absent = none) ∧
    canonical 0x100000#64 = true ∧ upper 0x100000#64 = false ∧ (0x3000001000D7#64 : W64).getLsbD 6 = true := by
  intro m hm
  simp only [List.mem_cons, List.not_mem_nil, or_false] at hm
  rcases hm with rfl | rfl <;>
    refine ⟨by decide, rfl, by decide, by decide, by decide, rfl, rfl, by decide, rfl, rfl, fun q hq => ?_, by decide, by decide, by decide⟩ <;>
    (simp only [List.mem_cons, List.not_mem_nil, or_false] at hq
     rcases hq with rfl | rfl <;> exact ⟨by decide, by decide, rfl, rfl, rfl, rfl, by rfl, by decide⟩)

/-! ### Pages, packages, links, the host -/

def rep : Replica := { page := 7, expiry := 101, filled := false }
theorem witness_Expiries : ({ State.reset with replicas := [rep], pt := 100 } : State).replicas = [rep] ∧ rep.page = 7 ∧ 100 < rep.expiry := ⟨rfl, rfl, by decide⟩
/-- A page move whose copy is done and due; and one that has not been copied, whose leaf is still the old one. -/
def mvD : Move := { page := 8, dest := 9, copied := true, ea := 0x420040, switchAt := 100 }
def mvN : Move := { mvD with copied := false }
def mvA : Move := { mvD with aborted := true }
/-- What an abort at the first granule of the page leaves before its error record. -/
def abortOf (m : Move) (s : State) : State :=
  (({ s with moves := s.moves.set 0 { m with aborted := true, switchAt := s.pt + 16004 } } : State).poisonAt (m.page * 2 ^ 17) 32).logError 1
    (if paDie (m.page * 2 ^ 17) < 24 then 9 else 10) (paDie (m.page * 2 ^ 17)) 0#32 (m.page * 2 ^ 17) 0
/-- Bytes at the end of page 8 and at the start of page 10. -/
def smv (m : Move) : State := { State.reset with pt := 100, moves := [m], mem := putCells (putCells [] (9 * 2 ^ 17 - 8) [1#8, 2#8]) (10 * 2 ^ 17) [3#8] }
/-- Die 24 samples nothing yet (mode 0); every other die's epoch is not due. -/
def sep : State := { smv mvN with pt := 1000000, dies := (List.range 28).map fun d => if d = 24 then {} else { epochStart := 1 } }
theorem witness_PageMoves : (∀ m ∈ [mvD, mvN, mvA], (smv m).moves[0]? = some m) ∧
    (mvA.aborted = true ∧ mvA.owed = 0 ∧ mvA.switchAt ≤ (smv mvA).pt) ∧
    (mvD.copied = true ∧ mvD.aborted = false ∧ mvD.owed = 0 ∧ mvD.switchAt ≤ (smv mvD).pt ∧ mvD.page ≠ mvD.dest ∧ (smv mvD).memOk ∧ (mvD.page * 2 ^ 17 + (2 ^ 17 - 8), 1#8) ∈ (smv mvD).mem) ∧
    ((∀ y ∈ (smv mvN).moves, y.owed = 0) ∧ (smv mvN).copying mvN.page = some 0 ∧ pageOf (mvN.page * 2 ^ 17) = mvN.page ∧ (abortOf mvN (smv mvN)).absent = none ∧
      pageOf (leafBase (BitVec.ofNat 64 ((smv mvN).rdHw ((smv mvN).redirect mvN.ea) 8))) ≠ mvN.dest ∧ (smv mvN).hwq = [] ∧ (smv mvN).errq = [] ∧
      ∀ b, (smv mvN).own Config.errlog ≤ b → (smv mvN).redirect b / 32 ≠ mvN.page * 2 ^ 17 / 32) ∧
    (sep.dies.length = 28 ∧ (List.range 28).filter (sep.epochDue ·) = [24] ∧ (sep.die 24).mode = 0 ∧ sep.absent = none ∧
      sep.rdN (sep.own (Config.placement 24) + 16) 48 = 0) := by
  refine ⟨fun m hm => ?_, by decide, by decide,
    ⟨by decide, by decide, by decide, by decide, by decide, rfl, rfl, fun b hb => ?_⟩, by decide⟩
  · simp only [List.mem_cons, List.not_mem_nil, or_false] at hm
    rcases hm with rfl | rfl | rfl <;> rfl
  · rw [show (smv mvN).redirect b = b by simp [State.redirect, show (smv mvN).moved = [] from rfl, assoc],
      show mvN.page * 2 ^ 17 / 32 = 32768 by decide]
    have : (smv mvN).own Config.errlog ≥ 2 ^ 36 := by decide
    omega
/-- Packages 0 and 1 share a domain; package 0 runs. -/
def sdm (r : List PageRec) : State :=
  { State.reset with pt := 300000, pages := r, link := { State.reset.link with state := .active, domain := 3#64 } }
def wst : WStore := { party := none, pa := 0x20000, data := [1#8, 2#8], window := 70, peers := 2#64, applied := false }
def swt : State := { sdm [] with wstores := [wst] }
def recH : PageRec := { page := 5, writer := 0, ho := some 1 }
def recO : PageRec := { page := 5, writer := 0, wper := 2, wcount := [((2, 1), 4096)] }
/-- A store of package 1 to a page of package 0, in window 80. -/
def rem1 : RemoteReq := { pkg := 1, window := 80, pa := 0x20000, op := .store [1#8, 2#8] }
theorem witness_PagesOfPackages :
    (swt.wstores[0]? = some wst ∧ wst.applied = false ∧ swt.olderWindowed 0 wst = false ∧ swt.homeBusy wst.pa 2 wst.party = false ∧ swt.homed wst.pa 2 ∧ swt.absent = none) ∧
    (rem1.op = .store [1#8, 2#8] ∧ rem1.pkg < 64 ∧ rem1.pkg ≠ (sdm []).link.pkg ∧ (sdm []).inDomain 1 = true ∧ (sdm []).homed 0x20000 2 ∧ (sdm []).homeBusy 0x20000 2 none = false ∧
      (sdm []).wctOf (lineOf 0x20000) < (rem1.window + 2) * (sdm []).link.w - 100) ∧
    (((sdm []).pageRec (2 ^ 29)).ho = none ∧ (sdm []).inDomain (sdm []).link.pkg = true ∧ (sdm []).inDomain ((sdm []).pageRec (2 ^ 29)).writer = true ∧
      ((sdm []).pageRec (2 ^ 29)).writer ≠ (sdm []).link.pkg ∧ (sdm []).link.state = .active ∧ (sdm []).link.quiescing = false) ∧
    (((sdm []).pageRec 5).ho = none ∧ ((sdm []).pageRec 5).writer = (sdm []).link.pkg ∧ (sdm []).link.admits = true) ∧
    (let s := sdm [recO]; s.pageRec 5 = recO ∧ recO.ho = none ∧ recO.writer = s.link.pkg ∧ s.inDomain 1 = true ∧ s.link.admits = true ∧ 0 < s.link.hothresh ∧
      s.bigLeaf 0 = false ∧ s.link.hothresh ≤ (assoc (s.pt / 100000 - 1, 1) recO.wcount).getD 0 ∧
      (assoc (s.pt / 100000 - 1, recO.alloc.getD 5) s.ownStores).getD 0 < (assoc (s.pt / 100000 - 1, 1) recO.wcount).getD 0 ∧ recO.lastHo = none) ∧
    (let s := sdm [recH]; ({ page := 5 } : HandOver).waits = [] ∧ (s.pageRec 5).ho = some 1 ∧ (s.pageRec 5).alloc = none ∧ s.memOk ∧ ∀ n r, (s.lc n).resv = some r → pageOf (128 * r.line) ≠ 5) ∧
    ((sdm [recH]).inDomain 1 = true ∧ (sdm [recH]).memOk ∧ (∀ n ∈ (sdm [recH]).nets, n.adds = []) ∧ (sdm [recH]).irqCore (sdm [recH]).link.route = 0 ∧ 0 < (sdm [recH]).lcs.length) := by
  refine ⟨⟨rfl, rfl, by decide, by decide, homed_of (by decide), rfl⟩, ⟨rfl, by decide, by decide, by decide, homed_of (by decide), by decide, by decide⟩, by decide, by decide,
    ⟨rfl, by decide⟩, ⟨rfl, rfl, rfl, by decide, fun n r h => ?_⟩, by decide⟩
  have : (sdm [recH]).lcs.all (fun c => c.resv.isNone) = true := by decide
  rw [State.lc, List.getD_eq_getElem?_getD] at h
  cases e : (sdm [recH]).lcs[n]? with
  | none => rw [e] at h; cases h
  | some c =>
    have := List.all_eq_true.1 this c (List.mem_of_getElem? e)
    rw [e] at h; simp only [Option.getD_some] at h
    rw [h] at this; cases this
def slk (l : Link) : State := { State.reset with pt := 2000000, link := l }
def lkA : Link := { State.reset.link with state := .active, domain := 3#64 }
def lkQ : Link := { lkA with state := .quiet }
theorem witness_LinksAndTime : (∀ l ∈ [lkA, lkQ], let s := slk l; let b := s.own Config.linkctl
      s.rdN (b + 32) 8 = 0 ∧ s.rdN (b + 48) 8 = 0 ∧ l.state ≠ .down ∧ s.rdN b 8 / 256 % 4 = 0 ∧ s.rdN (b + 40) 8 = l.epoch ∧ s.rdN (b + 8) 1 < 96 ∧
      1000 ≤ s.rdN (b + 20) 4 ∧ s.rdN (b + 20) 4 ≤ 64000) ∧ (lkQ.state = .quiet ∧ lkA.state ≠ .quiet) ∧
    (({ lkA with req := 1 } : Link).req = 1 ∧ ({ lkA with quiescing := true } : Link).quiescing = true ∧ (∀ w ∈ (slk lkA).wstores, (w.window + 2) * lkA.w ≤ (slk lkA).pt)) ∧
    (({ lkA with req := 2 } : Link).req = 2 ∧ ({ lkA with req := 2 } : Link).epochReq = none ∧ ({ lkA with req := 2 } : Link).state ≠ .hold ∧ ∀ x ∈ [4000, 4000], x = lkA.w) ∧ ({ lkA with epochReq := some 5 } : Link).epochReq = some 5 ∧
    (lkA.roles.set 0 .initializing = lkA.roles ∧ lkA.roles.set 0 .slave ≠ lkA.roles) ∧
    ((40 : Int).natAbs ≤ lkA.thold ∧ lkA.thold < (-41 : Int).natAbs ∧ lkA.state = .active ∧ lkA.domain ≠ 1#64 <<< lkA.pkg) ∧
    (({ lkA with state := .hold, within := some 0 } : Link).within = some 0 ∧ 0 + 1000000 ≤ (slk lkA).pt) ∧
    (∀ k ∈ [0, 7], lkA.sublinks.length = 8 ∧ lkA.sublinks.getD k false ≠ false) ∧
    (∀ p ∈ [0, 7], (slk lkA).nets.length = 4 ∧ (((slk lkA).net (p / 2)).ports).length = 2 ∧ ∃ up, ((slk lkA).net (p / 2)).ports.getD (p % 2) up ≠ up) ∧
    (∀ d ∈ [0, 27], (slk lkA).dies.length = 28 ∧ 5 ∉ ((slk lkA).die d).spared ∧ ((slk lkA).die d).isolated = false ∧
      (((slk lkA).modDie d fun y => { y with spared := y.spared ++ [5] }).logError 7 12 d 0#32 0 0).absent = none) ∧
    (slk lkA).irqCore lkA.route = 0 ∧ 0 < (slk lkA).lcs.length := by
  refine ⟨fun l hl => ?_, by decide, by decide, by decide, rfl, by decide, by decide, by decide, by decide, fun p hp => ?_, by decide, by decide, by decide⟩
  · simp only [List.mem_cons, List.not_mem_nil, or_false] at hl
    rcases hl with rfl | rfl <;> decide
  · simp only [List.mem_cons, List.not_mem_nil, or_false] at hp
    rcases hp with rfl | rfl <;> exact ⟨rfl, rfl, by first | exact ⟨true, by decide⟩ | exact ⟨false, by decide⟩⟩

/-! ### The host, reliability, resets, the network -/

theorem no_resv {s : State} (h : s.lcs.all (fun c => c.resv.isNone) = true) (n : Nat) : (s.lc n).resv = none := by
  rw [State.lc, List.getD_eq_getElem?_getD]
  cases e : s.lcs[n]? with
  | none => rfl
  | some c => exact Option.isNone_iff_eq_none.1 (List.all_eq_true.1 h c (List.mem_of_getElem? e))
/-- The host may reach the first 4 KiB of die 24; two stores of parties wait for its acknowledgement, one of them an RMW's. -/
def sho : State :=
  let acks : List Ack := [{ who := .party (.lc 0), line := 7, rmw := false }, { who := .party (.grp 0 0), line := 8, rmw := true }]
  { sg with pt := 100, host := { State.reset.host with hdm := [(0, 24 * 2 ^ 41, 4096)], acks := acks } }
def sns (own : Bool) : State := { sho with host := { sho.host with snoops := [(31 * 2 ^ 34, own, [])], binv := [5] } }
theorem witness_HostAccesses : (∀ p ∈ [Party.lc 0, .grp 0 0], sho.owed (.party p) ≠ 0 ∧ (∀ n, p = .lc n → n < sho.lcs.length) ∧
      ∀ tid j, p = .grp tid j → sho.running p = true) ∧ sho.absent = none ∧
    (sho.hostReach (24 * 2 ^ 41 + 4092) 4 = true ∧ sho.plain (24 * 2 ^ 41 + 4092) 4 ∧
      ∀ n r, (sho.lc n).resv = some r → r.line ≠ lineOf (24 * 2 ^ 41 + 4092)) ∧
    paDie (128 * (31 * 2 ^ 34)) = 31 ∧
    (∀ own ∈ [false, true], (sns own).host.snoops = [(31 * 2 ^ 34, own, [])] ∧ ((sns own).lineInfo (31 * 2 ^ 34)).lease < (sns own).pt ∧ (sns own).deferred (31 * 2 ^ 34) = false ∧
      ∀ a ∈ (sns own).host.acks, a.rmw = true → a.line ≠ 31 * 2 ^ 34) ∧
    (sns true).host.binv = [5] ∧ sho.stopped = false ∧ 0 < 4096 ∧ (∀ p ∈ [0, 1], (sho.host.hdm.filter (·.1 == p)).length < 2) := by
  refine ⟨fun p hp => ?_, rfl, ⟨by decide, plain_of (by decide), fun n r h => ?_⟩, by decide, fun own ho => ?_, rfl, rfl, by decide, by decide⟩
  · simp only [List.mem_cons, List.not_mem_nil, or_false] at hp
    rcases hp with rfl | rfl
    · exact ⟨by decide, fun n h => by cases h; decide, fun _ _ h => by cases h⟩
    · exact ⟨by decide, fun _ h => (by cases h), fun _ _ _ => by decide⟩
  · rw [no_resv (by decide)] at h; cases h
  · simp only [List.mem_cons, List.not_mem_nil, or_false] at ho
    rcases ho with rfl | rfl <;> exact ⟨rfl, by decide, by decide, by decide⟩
/-- Die 3 ends its window after `r` replays in `q` quiet windows. -/
def sus (r q : Nat) : State :=
  { State.reset with pt := 1000000, tdlim := 0x020064#32,
                     dies := (List.range 28).map fun d => if d = 3 then { replays := r, quiet := q, f := 1700 } else { winEnd := 2000000 } }
def fo : Fold := { struct := 1, die := 3, sec := 0, n := 5 }
def sfo : State := { State.reset with pt := 1000000000, folds := [fo] }
/-- The error log is full, or has room, and one record waits. -/
def sel : State :=
  { State.reset with mem := putCells [] (Config.errlog + 8) (bytesOfWord 1024#64), errq := [List.replicate 8 0#64] }
def sel1 : State := { State.reset with errq := [List.replicate 8 0#64] }
theorem logs_of {s : State} (h : s.absent = none ∧ s.moved = [] ∧ s.hwq = [] ∧ ∀ r ∈ s.errq, r.length = 8) : s.logs := ⟨h.1, h.2.1, h.2.2.1, h.2.2.2⟩
theorem witness_Reliability : ((sus 0 0).logs ∧ sfo.logs ∧ sel.logs ∧ sel1.logs) ∧
    ((sus 0 0).plain 0x20000 32 ∧ 0x20000 % 32 = 0 ∧ (sus 0 0).folds = [] ∧
      ∀ k, k < 32 → ¬ ((sus 0 0).own Config.errlog ≤ 0x20000 + k ∧ 0x20000 + k < (sus 0 0).own Config.errlog + 256 + 64 * Config.errlogSize)) ∧
    (sfo.folds = [fo] ∧ fo.sec < sfo.pt / 10 ^ 9 ∧ sfo.rdHw (sfo.own Config.errlog + 8) 8 - sfo.rdHw (sfo.own Config.errlog) 8 < Config.errlogSize ∧ sfo.errq = []) ∧
    (Config.errlogSize ≤ sel.rdHw (sel.own Config.errlog + 8) 8 - sel.rdHw (sel.own Config.errlog) 8 ∧
      sel1.rdHw (sel1.own Config.errlog + 8) 8 - sel1.rdHw (sel1.own Config.errlog) 8 < Config.errlogSize ∧ sel1.errq = [List.replicate 8 0#64]) ∧
    ((∀ d ∈ [0, 3, 23], d < 24 ∧ (sus 0 0).dies.length = 28) ∧ ∀ c ∈ [72, 95], c / 24 = 3) ∧
    (∀ x ∈ [(101, 0), (24, 1), (25, 0), (100, 0)], (sus x.1 x.2).logs ∧
      (List.range 24).filter (fun k => decide (((sus x.1 x.2).die k).winEnd ≤ (sus x.1 x.2).pt)) = [3] ∧
      ((sus x.1 x.2).die 3).hot = false ∧ 100 = (sus x.1 x.2).tdlim.toNat % 2 ^ 16 ∧ 2 = (sus x.1 x.2).tdlim.toNat / 2 ^ 16 % 256 ∧
      ((sus x.1 x.2).die 3).replays = x.1 ∧ ((sus x.1 x.2).die 3).quiet = x.2 ∧ ((sus x.1 x.2).die 3).v < 450) :=
  ⟨⟨logs_of (by decide), logs_of (by decide), logs_of (by decide), logs_of (by decide)⟩,
    ⟨plain_of (by decide), by decide, rfl, fun k hk => by simp [State.own, Config.errlog, show (sus 0 0).link.pkg = 0 from rfl]; omega⟩,
    by decide, by decide, by decide, fun x hx => ⟨logs_of (by
      simp only [List.mem_cons, List.not_mem_nil, or_false] at hx
      rcases hx with rfl | rfl | rfl | rfl <;> decide), by
      simp only [List.mem_cons, List.not_mem_nil, or_false] at hx
      rcases hx with rfl | rfl | rfl | rfl <;> decide⟩⟩
/-- The start table names a header for core 5, which is held. -/
def shd : State := { State.reset with mem := putCells [] (Config.startTable + 40) (bytesOfWord 0x300000020000#64) }
theorem witness_Resets : (({} : Dev).load.rom.good = true ∧ ({} : Dev).load.flash = true ∧ ({} : Dev).load.site = 0 ∧ ({ site := 7 } : Dev).load.site ≠ 0) ∧
    (({ rom := { good := false } } : Dev).load.rom.good = false ∧ ({ flash := false } : Dev).load.flash = false) ∧
    shd.stopped = false ∧ 5 ∉ shd.dev.lcFails ∧ shd.hwq = [] ∧ 5 < shd.lcs.length ∧ shd.rdN (shd.own Config.startTable + 8 * 5) 8 ≠ 0 ∧ (shd.lc 5).held = true ∧ 5 ∉ shd.dev.lcHarvest ∧
    shd.plain (shd.own Config.startTable + 8 * 5) 8 ∧ shd.absent = none :=
  ⟨by decide, by decide, rfl, by decide, rfl, by decide, by decide, by decide, by decide, plain_of (by decide), rfl⟩

/-- Engine 0 has one peer, whose entry at 0x50000 is valid, and `k` slots. Core 0's v16.. holds a work request with opcode `opc` to `peer`. -/
def snp (k opc peer : Nat) : State :=
  { onCore [(16, opc), (17, 8), (18, peer), (20, 0x20000), (28, 0x30000)] with
    pt := 100, mem := putCells [] 0x50018 [1#8], nets := { peers := 0x50000, npeer := 1, slots := k } :: List.replicate 3 {} }
def np : BaseW := { bw 8 16 0 0 with tail := 4#8 }
def ns : BaseW := { bw 8 0 0 0 with tail := 4#8 }
theorem witness_NetworkInstructions : (∀ x ∈ [(1, 0, 0), (1, 1, 1), (0, 1, 0), (1, 1, 0)], let s := snp x.1 x.2.1 x.2.2
      let wr := (List.range 8).map fun k => (s.grp s.cur).rd64 0 (16 + 2 * k)
      s.ready (.npost np) ∧ Mask.lanes (s.acting (.npost np)) = [0] ∧ (s.grp s.cur).poi 0 16 16 = false ∧ (s.opened (.npost np)).npostCheck s.cur 0 wr = none ∧
      s.proofed s.cur 0 = false ∧ (s.opened (.npost np)).released s.cur 5 ∧ s.engineOf s.cur < s.nets.length ∧ wrMalformed wr = (x.2.1 == 0) ∧
      (wr.getD 1 0#64).toNat % 2 ^ 32 = x.2.2 ∧ (s.net 0).npeer = 1 ∧ (s.byte ((s.net 0).peers + 24)).getLsbD 0 = true ∧ (s.net 0).slots = x.1 ∧ (s.net 0).reqs = []) ∧
    ((snp 1 1 0).ready (.nstat ns) ∧ ((snp 1 1 0).net 0).fails = []) := by
  refine ⟨fun x hx => ?_, ready_of (by decide), rfl⟩
  simp only [List.mem_cons, List.not_mem_nil, or_false] at hx
  rcases hx with rfl | rfl | rfl | rfl <;>
    exact ⟨ready_of (by decide), by decide, by decide, by decide, by decide, ⟨by decide, by decide, by decide, by decide⟩, by decide, by decide, by decide, rfl, by decide, rfl, rfl⟩
/-- A request of core 0 for 8 bytes at 0x20000: an operation, what has been sent, its completion increment. -/
def rqn (opc inc : Nat) (sent : List (Nat × Nat × Nat × Bool)) : NetReq :=
  { id := 3, fam := 0#32, ptbr := 0#64, sup := true, base := 7, path := 4, sent := sent,
    wr := [BitVec.ofNat 64 (8 * 2 ^ 32 + opc), 0#64, 0x20000#64, 0#64, 0#64, 0#64, 0x30000#64, BitVec.ofNat 64 (inc * 2 ^ 32)] }
/-- Engine 1 with that request; it has received packet 9 of peer 2; resource 0 at 0x60000 is a window of 256 bytes with key 5 at 0x10_0000 of the
address space whose page table stands at 0x3000_0040_0000. -/
def snv (x : NetReq) : State :=
  { State.reset with pt := 200000, mem := putDw (putDw (putDw (putDw userMem 0x60000 0x500000001) 0x60008 0x300000400001) 0x60010 0x100000) 0x60018 0x100,
                     nets := [{}, { reqs := [x], seen := [(2, 9)], nres := 1, res := 0x60000 }, {}, {}] }
def pkw (seq ri : Nat) : Packet :=
  { peer := 2, msg := 1, seq := seq, op := .write, tag := 0#64, ri := ri, key := 5#32, raddr := 0xFC, len := 4, idx := 0, data := [1#8, 2#8, 3#8, 4#8],
    reply := false, mode := .rud, tc := 0 }
theorem witness_NetworkEvents : (∀ x ∈ [rqn 3 0 [], rqn 1 0 [], rqn 2 5 [(0, 1, 0, false)], rqn 3 0 [(0, 7, 0, false)], rqn 3 0 [(0, 8, 0, false)]],
      1 < (snv x).nets.length ∧ (snv x).absent = none ∧ ((snv x).net 1).reqs[0]? = some x ∧ x.done = false ∧ 0 < x.count ∧ x.answer = false ∧ x.retryAt ≤ (snv x).pt) ∧
    ((rqn 3 0 []).opc = 3 ∧ (rqn 3 0 []).sent = [] ∧ (rqn 1 0 []).opc = 1 ∧ (rqn 1 0 []).sup = true ∧ (rqn 1 0 []).ptbr.getLsbD 0 = false ∧ canonical 0x20000#64 = true ∧
      0x20000 % 2 ^ 17 + (rqn 1 0 []).len ≤ 2 ^ 17 ∧ (rqn 1 0 []).len ≤ 2048 ∧ (snv (rqn 1 0 [])).plain 0x20000 8 ∧ (snv (rqn 1 0 [])).poisoned 0x20000 8 = false) ∧
    (let s := snv (rqn 1 0 [])
     let n := s.net 1
     let r := s.resource n 0
     let o := s.netStore 1 r.sp (BitVec.ofNat 64 (r.base + 0xFC)) [1#8, 2#8, 3#8, 4#8] 5
     ((pkw 9 0).peer, (pkw 9 0).seq) ∈ n.seen ∧ ((pkw 10 0).peer, (pkw 10 0).seq) ∉ n.seen ∧ n.early = [] ∧ n.rx = [] ∧ n.nres ≤ (pkw 10 1).ri ∧ (pkw 10 0).ri < n.nres ∧
       r.kind = 1 ∧ (pkw 10 0).key = r.key ∧ (pkw 10 0).raddr + (pkw 10 0).len ≤ r.lim ∧ o.2.stop = none ∧ o.1.absent = none ∧ o.1.nets = s.nets) ∧
    ((rqn 2 5 [(0, 1, 0, false)]).count = 1 ∧ (rqn 2 5 [(0, 1, 0, false)]).base ∈ [7] ∧ (rqn 2 5 [(0, 1, 0, false)]).cinc = 5) ∧
    (0 + ((snv (rqn 3 0 [])).net 1).rto ≤ (snv (rqn 3 0 [])).pt ∧ 7 ≤ ((snv (rqn 3 0 [])).net 1).retry ∧ ((snv (rqn 3 0 [])).net 1).retry < 8 ∧ (rqn 3 0 []).cinc = 0) := by
  refine ⟨fun x hx => ?_, ⟨by decide, rfl, by decide, rfl, by decide, by decide, by decide, by decide, plain_of (by decide), by decide⟩, ?_, by decide, by decide⟩
  · simp only [List.mem_cons, List.not_mem_nil, or_false] at hx
    rcases hx with rfl | rfl | rfl | rfl | rfl <;> exact ⟨by decide, rfl, rfl, rfl, by decide, rfl, by decide⟩
  · exact ⟨by decide, by decide, by decide, by decide, by decide, by decide, by decide, by decide, by decide, by decide, by decide, by decide⟩

/-! ### Encoding, steps, invariants -/

theorem witness_MemoryReadWrite : sho.memOk ∧ ([1#8, 2#8] : List Byte).length = 2 := by decide
/-- A thread that may enter its handler at 0x3000_0002_0000 (a header stands there), one without a handler, one inside it. -/
def stt (h inside : Nat) : State :=
  let g := grpT 1#64 .region [(2, 5)]
  let th : Thread := { thrT 0 with handler := if inside = 1 then some { ftret := 0#64, blk := none } else none }
  { onGrp { g with threads := th :: (List.range 63).map fun l => thrT (l + 1) } with
    fams := [{ famT with desc := famT.desc.set 6 (BitVec.ofNat 64 h), ptbr := 0#64 }], mem := hdrMem, pt := 100 }
def isNext (o : Host.Outcome State Fault Refusal) : Bool := match o with | .next _ => true | _ => false
theorem next_of {o : Host.Outcome State Fault Refusal} (h : isNext o = true) : ∃ t, o = .next t := by
  cases o with
  | next t => exact ⟨t, rfl⟩
  | _ => cases h
theorem witness_SimtTraps : ∀ x ∈ [(0x20000, 0), (0, 0), (0x20000, 1)], let s := stt x.1 x.2
    (∃ f, s.famOf s.cur 0 = some f ∧ f.handler = x.1) ∧ s.waiters = [] ∧ (s.thr s.cur 0).handler.isSome = (x.2 == 1) ∧ (s.grp s.cur).gst ≠ .arriving ∧
      ∀ i ∈ [Instr.brk (cw 1023 0 0 0), .trap (cw 1023 2 0 0), .sys (cw 1023 2 0 0)],
        s.ready i ∧ Mask.lanes (s.acting i) = [0] ∧ Mask.has ((s.grp s.cur).src .int 1 2#10).poi 0 = false ∧ ∃ t, exec i s = .next t := by
  intro x hx
  simp only [List.mem_cons, List.not_mem_nil, or_false] at hx
  rcases hx with rfl | rfl | rfl <;>
    refine ⟨⟨_, rfl, by decide⟩, rfl, rfl, by decide, fun i hi => ?_⟩ <;>
    (simp only [List.mem_cons, List.not_mem_nil, or_false] at hi
     rcases hi with rfl | rfl | rfl <;> exact ⟨ready_of (by decide), by decide, by decide, next_of (by decide)⟩)
theorem witness_DecodeAndEncode : (∀ i ∈ [Instr.add .w (bw 8 2 4 0), .srw (sw 1023 2 0x020), .finjWrite (sw 1023 2 0x042), .cfence 1#4 fence4],
      i.canonical = true) ∧ (decode 0x0670FFC000000000#64).isOk = true := by decide
/-- Core 0 inside its block, before the word `w`. -/
def sst (w : Nat) : State := { onTrap [] id with mem := putCells hdrMem 0x300000010008 (bytesOfWord (BitVec.ofNat 64 w)), schedule := [.issue (.lc 0) 0] }
def stn (w : Nat) : State := { (sst w).elapse with schedule := [], cur := .lc 0, curLane := 0 }
theorem witness_StepRunsDecoded : (∀ w ∈ [0x0670FFC000000000, 0], (sst w).elapse.agenda = [] ∧ (sst w).elapse.schedule = .issue (.lc 0) 0 :: [] ∧
      ((stn w).thr (.lc 0) 0).blk.isSome = true ∧ (stn w).runLanes = [0] ∧ (stn w).irqDue 0 = false ∧
      (∃ m, (stn w).fetch (.lc 0) 0 ((stn w).thr (.lc 0) 0).pc = (m, .ok (BitVec.ofNat 64 w)) ∧ m.absent = none ∧ m.headerAt 0 (m.lc 0).tvec hdrW ∧
        (m.lc 0).tvec.toNat % 8 = 0)) ∧
    (decode 0x0670FFC000000000#64).toOption = some (.exit (cw 1023 0 0 0)) ∧ (decode 0#64).isOk = false := by
  refine ⟨fun w hw => ?_, by decide, by decide⟩
  simp only [List.mem_cons, List.not_mem_nil, or_false] at hw
  rcases hw with rfl | rfl <;>
    exact ⟨by decide, by decide, by decide, by decide, by decide, _, by rfl, by decide, header_of (by decide), by decide⟩
theorem ok_of {α : Type} {r : State × Except Stop α} {x : α} (h : r.2.toOption = some x) : r = (r.1, .ok x) := by
  obtain ⟨m, e⟩ := r
  cases e with
  | ok y => simp only [Except.toOption, Option.some.injEq] at h; rw [h]
  | error e => cases h
/-- A run of a group under translation, before a `NOP`. -/
def sstG : State :=
  let g := { grpT 1#64 .opened [] with threads := [{ thrT 0 with pc := 0x10008#64, blk := some (blkAt 0x10000) }] }
  { onUser [] with fams := [{ famT with ptbr := 0x300000400001#64 }], teams := [teamT g], nextTid := 1, schedule := [.issue (.grp 0 0) 0],
                   mem := putCells userMem 0x300000010008 (bytesOfWord 0x0E70FFC000000000#64) }
def stnG : State := State.takeTurn { sstG.elapse with schedule := [], cur := .grp 0 0, curLane := 0 }
theorem witness_StepRunsDecoded_group : sstG.elapse.agenda = [] ∧ sstG.elapse.schedule = .issue (.grp 0 0) 0 :: [] ∧
    (stnG.thr (.grp 0 0) 0).blk.isSome = true ∧ stnG.runLanes ≠ [] ∧ (stnG.grp (.grp 0 0)).passOver = false ∧
    (∃ m, stnG.fetch (.grp 0 0) 0 (stnG.thr (.grp 0 0) 0).pc = (m, .ok 0x0E70FFC000000000#64) ∧ m.absent = none) ∧
    (decode 0x0E70FFC000000000#64).toOption = some (.nop (cw 1023 0 0 0)) :=
  ⟨by decide, by decide, by decide, by decide, by decide, ⟨_, ok_of (by decide), by decide⟩, by decide⟩
theorem witness_MemoryStaysCanonical : (sst 0x0670FFC000000000).memOk ∧ ∃ t, step (sst 0x0670FFC000000000) = .next t := ⟨by decide, next_of (by decide)⟩
/-- Core 0 in user mode takes an exception; a SIMT thread adds. -/
theorem witness_UserIsolation : (s0u.sup s0u.cur = false ∧ (Instr.add .w (bw 8 2 4 0)).isWord = true ∧ ∃ t, exec (.add .w (bw 8 2 4 0)) s0u = .next t) ∧
    (s1.sup s1.cur = false ∧ ∃ t, exec (.add .w (bw 8 2 4 0)) s1 = .next t) ∧ stu.sup stu.cur = false ∧ ∃ t, exec (.srw (sw 1023 2 0x050)) stu = .next t :=
  ⟨⟨by decide, by decide, next_of (by decide)⟩, ⟨by decide, next_of (by decide)⟩, by decide, next_of (by decide)⟩

/-! ### One step: the manual's examples, and corners worked out by hand from its rules -/

/-! ### The wider clauses of the statements -/

theorem witness_PoisonMarks : (∀ i ∈ [Instr.add .w (bw 8 2 4 0), .addsat .h2 .s (bw 8 2 4 0), .mul .d (bw 8 2 4 0), .xor .b4 (bw 8 2 4 0), .shl .w (bw 8 2 4 0),
      .rot .w .l (bw 8 2 4 0), .bext .d (bw 8 2 4 0), .clz .w (bw 8 2 0 0), .mulh .w .u (bw 8 2 4 0), .div .w .s (bw 8 2 4 0), .mad .w (bw 8 2 4 4),
      .madw .u (bw 8 2 4 4), .fshf .l (bw 8 2 4 4), .bins .w (bw 8 2 4 4), .lea .d (bw 8 2 4 1), .addI .w (iw 8 2 3), .mov .d (bw 8 10 0 0),
      .li ⟨7#4, 0#4, 8#10, 1#32, 0#6⟩, .sel .d (bw 8 2 10 1), .addc .w (bw 8 2 4 0x49), .pget (cw 8 0 0 0), .fadd .f32 (bw 8 2 4 0), .ffma .f64 (bw 8 2 4 10),
      .fsqrt .h2 (bw 8 2 0 0), .fsgn .b2 (bw 8 2 4 2)], stp.ready i) ∧ (∀ l fl, enabledIn (stp.thr stp.cur l).fcsr fl = false) ∧
    Mask.has ((stp.grp stp.cur).src .int 1 2#10).poi 0 = true ∧ Mask.has ((stp.grp stp.cur).src .int 1 4#10).poi 0 = false :=
  ⟨ready_all (by decide), fun l fl => by
    have h : ((stp.thr stp.cur l).fcsr) = 0#32 := by cases l <;> rfl
    rw [h]; exact nothing_enabled fl, by decide, by decide⟩
theorem witness_PredicatePoison : (∀ i ∈ [Instr.cmp .w .s (bw 6 2 4 0x121), .cmp .d .u (bw 0 2 4 5), .pand (cw 3 1 2 0), .pandn (cw 6 0 7 0), .pset (cw 3 2 4 0),
    .addc .w (bw 8 2 4 0x49), .subb .d (bw 8 2 4 0x30)], stp.ready i) ∧ (6#10).toNat < 7 ∧ (0x49#10).toNat / 8 % 8 = 1 ∧ (0x30#10).toNat / 8 % 8 = 6 :=
  ⟨ready_all (by decide), by decide⟩
/-- A group of two lanes: v2 and v3 are uniform, v4 and v6 affine, v7 affine with v6, v10 has a value in each lane. -/
def grpSh (g : Group) : Group := { g with regs := regsOf [(2, 5), (3, 9)] ++ [(4, { sh := .a 7#32 3#32 }), (6, { sh := .a 2#32 0xFFFFFFFF#32 }),
  (10, { sh := .g ((List.range 64).map fun l => BitVec.ofNat 32 (l * l)) })] }
def ssh : State := onGrp (grpSh (grpT 3#64 .opened []))
def sshw : State := onGrp (grpSh (sgw.grp sgw.cur))
def shI (d a b : Nat) : List Instr := [.add .w (bw d a b 0), .sub .w (bw d a b 0), .mul .w (bw d a b 0), .shl .w (bw d a b 0), .and .w (bw d a b 0), .or .w (bw d a b 0),
  .xor .w (bw d a b 0), .andn .w (bw d a b 0), .add .h2 (bw d a b 0), .add .b4 (bw d a b 0), .shr .w .l (bw d a b 0), .min .w .s (bw d a b 0), .max .w .u (bw d a b 0),
  .mov .w (bw d a 0 0), .cmp .w .s (bw 1 a b 0)]
theorem witness_ShapeTags : (ssh.grp ssh.cur).single = false ∧
    (∀ i ∈ shI 8 2 3 ++ shI 8 4 6 ++ shI 8 4 2 ++ shI 8 2 4 ++ shI 8 10 2, ssh.ready i) ∧
    (∀ i ∈ shI 8 2 3 ++ shI 8 4 6 ++ shI 8 4 2 ++ shI 8 2 4 ++ shI 8 10 2, ssh.acting i = (ssh.grp ssh.cur).live) ∧
    (((ssh.grp ssh.cur).reg 2).sh.code = 0 ∧ ((ssh.grp ssh.cur).reg 3).sh.code = 0 ∧ ((ssh.grp ssh.cur).reg 4).sh = .a 7#32 3#32 ∧
      ((ssh.grp ssh.cur).reg 6).sh = .a 2#32 0xFFFFFFFF#32 ∧ ((ssh.grp ssh.cur).reg 10).sh.code = 2) ∧
    (∀ i ∈ [Instr.add .d (bw 8 2 2 0), .mul .d (bw 8 2 4 0)], ssh.ready i ∧ ssh.acting i = (ssh.grp ssh.cur).live) ∧
    (∀ i ∈ shI 8 2 3, sshw.ready i) ∧ (∀ i ∈ shI 8 2 3, sshw.acting i = 1#64) ∧ (sshw.grp sshw.cur).live = 3#64 :=
  ⟨by decide, ready_all (by decide), by decide, by decide, fun i hi => ⟨ready_all (by decide) i hi, (by decide : ∀ i ∈ [Instr.add .d (bw 8 2 2 0), .mul .d (bw 8 2 4 0)],
    ssh.acting i = (ssh.grp ssh.cur).live) i hi⟩, ready_all (by decide), by decide, by decide⟩
/-- binary32: 1, -1, 0; 0.5 and 0.1 (inexact), 2^100, the largest number, the smallest; BF16: 1 and 0. -/
theorem witness_FloatValues : F32.decZ false 0x3F800000 = .fin false (2 ^ 23) (-23) ∧ F32.decZ false 0xBF800000 = .fin true (2 ^ 23) (-23) ∧
    F32.decZ false 0 = .fin false 0 (-149) ∧ F32.decZ false 0x3DCCCCCD = .fin false 0xCCCCCD (-27) ∧ F32.decZ true 1 = .fin false 0 (-149) ∧
    F32.decZ false 0x7F7FFFFF = .fin false 0xFFFFFF 104 ∧ F32.decZ false 1 = .fin false 1 (-149) ∧ F64.decZ false 0x4008000000000000 = .fin false (3 * 2 ^ 51) (-51) ∧
    BF16.decZ false 0x3F80 = .fin false (2 ^ 7) (-7) ∧ BF16.decZ false 0 = .fin false 0 (-133) ∧ (4 : Nat) ≤ 4 ∧ (2 ^ 23 : Nat) ≠ 0 := by decide
theorem witness_FloatOrder : F32.decZ false 0x7FC00000 = .nan false ∧ F32.decZ false 0x7F800001 = .nan true ∧ (F32.decZ false 0x80000000).isZero = true ∧
    (F32.decZ false 0x3F800000).order (F32.decZ false 0x7FC00000) = none ∧ (F32.decZ false 0x3F800000).order (F32.decZ false 0xBF800000) = some .gt ∧
    (F32.decZ false 0).order (F32.decZ false 0x80000000) = some .eq := by decide
/-- Each premise of the special and exact cases: 1 = 2^0, 0.25, 0.5, 3 (no power of two), 128, -151, 10. -/
theorem witness_SpecialValues : Exact.dyadic (2 ^ 23) (-23) 1 0 = .eq ∧ Exact.dyadic (2 ^ 23) (-25) 1 (2 * (-1)) = .eq ∧ Exact.dyadic (2 ^ 23) (-24) 1 (-1) = .eq ∧
    F32.decZ false 0x40400000 = .fin false (3 * 2 ^ 22) (-22) ∧ Exact.dyadic (3 * 2 ^ 22) (-22) ((3 : Int).natAbs) 0 = .eq ∧
    Exact.dyadic (3 * 2 ^ 22) (-22) 6 (-1) = .eq ∧ F32.decZ false 0x43000000 = .fin false (2 ^ 23) (-16) ∧ Exact.dyadic (2 ^ 23) (-16) 128 0 ≠ .lt ∧
    F32.decZ false 0xC3170000 = .fin true (151 * 2 ^ 16) (-16) ∧ Exact.dyadic (151 * 2 ^ 16) (-16) 150 0 = .gt ∧
    F32.decZ false 0x41200000 = .fin false (5 * 2 ^ 21) (-20) ∧ Exact.dyadic (5 * 2 ^ 21) (-20) 10 0 ≠ .lt := by decide
theorem witness_ConversionValues : F32.decZ false 0x3F800000 = .fin false (2 ^ 23) (-23) ∧ F32.decZ false 0xFF800000 = .inf true ∧
    (∀ d ∈ [F64, F32, F16, BF16, E5M2, E4M3], d ∈ [F64, F32, F16, BF16, E5M2, E4M3]) ∧ (0x80000000 : Nat) < 2 ^ 32 ∧
    (List.replicate 32 0x3F800000).length = 32 ∧ (∀ d ∈ (List.replicate 32 0x3F800000).map (F32.decZ false), d.isNan = false ∧ d.isInf = false) ∧
    (∃ d ∈ (List.replicate 32 0x7F800000).map (F32.decZ false), d.isNan = true ∨ d.isInf = true) ∧
    Exact.dyadic (2 ^ 23) (-23) 1 0 ≠ .lt ∧ Exact.dyadic (2 ^ 23) (-23) 1 (0 + 1) = .lt := by decide
/-- Core 0 with every trap enabled in `s.fcsr` and 0 in v2, 1.0 in v4: 1 / 0 raises DZ, the square root of -1 NV. -/
def sft : State := onTrap [(2, 0), (4, 0x3F800000), (6, 0xBF800000)] fun c => { c with grp := { c.grp with threads := c.grp.threads.map fun t => { t with fcsr := 0x1F0000#32 } } }
theorem witness_FloatTraps : sft.alone 0 ∧ (∀ i ∈ [Instr.fdiv .f32 (bw 8 4 2 0), .fsqrt .f32 (bw 8 6 0 0)], sft.ready i ∧ Mask.has (sft.acting i) 0 = true) ∧
    enabledIn (sft.thr (.lc 0) 0).fcsr (sft.raised (.fdiv .f32 (bw 8 4 2 0)) [sft.fsrc .f32 4#10, sft.fsrcB (.fdiv .f32 (bw 8 4 2 0)) .f32 (bw 8 4 2 0)]
      (fun _ => (List.range 1).foldl (fun x k => x ||| (F32.div (sft.rm (bw 8 4 2 0) 0) (sft.fz 0) ((sft.fsrc .f32 4#10).fel .f32 0 k)
        ((sft.fsrcB (.fdiv .f32 (bw 8 4 2 0)) .f32 (bw 8 4 2 0)).fel .f32 0 k)).2) 0#32) 0) = true ∧
    (sft.opened (.fdiv .f32 (bw 8 4 2 0))).headerAt 0 (sft.lc 0).tvec hdrW ∧ (sft.lc 0).tvec.toNat % 8 = 0 ∧
    ∃ t, exec (.fdiv .f32 (bw 8 4 2 0)) sft = .next t :=
  ⟨alone_of rfl rfl (by decide) (by decide), fun i hi => ⟨ready_all (by decide) i hi, (by decide : ∀ i ∈ [Instr.fdiv .f32 (bw 8 4 2 0), .fsqrt .f32 (bw 8 6 0 0)],
    Mask.has (sft.acting i) 0 = true) i hi⟩, by decide, header_of (by decide), by decide, next_of (by decide)⟩
/-- Lanes of a family under translation behind a header with MPX, before `BR` to 0x1_0048, where a header stands; p0 is true in lane 0 alone.
`sbr` runs lane 0 alone, `sbr2` lanes 0 and 1 in one run. The block names the rejoin point at 0x1_0048 + 8 * `r`. -/
def hdrX (r : Nat) : W64 := BitVec.ofNat 64 (0xFEFFC40000000080 + r * 2 ^ 16)
def grpB (live : Mask) (r : Nat) (rej : List Nat) (ps : List Point) : Group :=
  { grpT live .opened [] with
    threads := (List.range 64).map fun l => { thrT l with pc := 0x10008#64, blk := some { addr := 0x10000#64, word := hdrX r }, rej := rej }
    preds := { bits := 1#64, uni := false } :: List.replicate 6 {}
    points := ps }
def brTlb (h : Holder) : Tlb := { holder := h, asid := 0, vpage := 0, level := 3, leaf := 0x30000000005B#64, ea := 0, expiry := 1000000 }
def onBr (g : Group) : State :=
  { onUser [] with fams := [{ famT with ptbr := 0x300000400001#64 }], teams := [teamT g], nextTid := 1, cur := .grp 0 0,
                   tlbs := [brTlb (.l1 0), brTlb (.rdc 0)], mem := putDw userMem 0x300000010048 0xFEFFC40000000000 }
def hdrG : W64 := 0xFEFFC40000000000#64
def brI : Instr := .br { jw 1023 8 with g := 0#4 }
theorem leaf_of {s : State} (h : (s.spaceOf s.cur 0).en = true ∧ s.tlbFind (s.tlbPath s.cur) (s.spaceOf s.cur 0) 0x10048#64 = some (brTlb (.l1 0)) ∧
    plainB s 0x300000010048 8 = true ∧ s.copies = [] ∧ s.poisoned 0x300000010048 8 = false ∧ hdrG = BitVec.ofNat 64 (s.rdN 0x300000010048 8) ∧
    headerCause hdrG (s.nregs s.cur 0) = none) : s.leafTo s.cur 0 0x10048#64 hdrG :=
  ⟨by decide, by decide, h.1, ⟨_, 0x300000010048, h.2.1, by decide, by decide, plain_of h.2.2.1, fun c hc => by simp [h.2.2.2.1] at hc, h.2.2.2.2.1,
    h.2.2.2.2.2.1⟩, by decide, h.2.2.2.2.2.2⟩
def pointB (m : Mask) : Point := { id := 4, hdr := 0x10048#64, expect := 3#64, arrived := m, first := none }
/-- Outside a point, one lane or two; in a block with a point at 0x1_0080; at the header of the innermost point, where lane 1 is missing or has come. -/
theorem witness_GroupBranches : (∀ g ∈ [grpB 1#64 0 [] [], grpB 3#64 0 [] [], grpB 3#64 16 [] [], grpB 1#64 0 [4] [pointB 0#64], grpB 1#64 0 [4] [pointB 2#64]],
      (onBr g).cur = .grp 0 0 ∧ (onBr g).ready brI ∧ Mask.lanes ((onBr g).acting brI) = [0] ∧ ((onBr g).grp (onBr g).cur).gst = .opened ∧
      (onBr g).leafTo (onBr g).cur 0 0x10048#64 hdrG ∧ ∃ t, exec brI (onBr g) = .next t) ∧
    (inReg 1023#10 = false ∧ (0x10008#64 : W64) + BitVec.ofInt 64 (8 * (BitVec.ofNat 30 8).toInt) = 0x10048#64 ∧
      (({ addr := 0x10000#64, word := hdrX 0 } : Blk).mpx && ({ addr := 0x10000#64, word := hdrX 0 } : Blk).inside 0x10010#64) = true) ∧
    ((onBr (grpB 1#64 0 [] [])).runLanes = [0] ∧ (grpB 1#64 0 [] []).arrives 0 0x10048#64 = none ∧ (onBr (grpB 3#64 0 [] [])).runLanes = [0, 1]) ∧
    (({ addr := 0x10000#64, word := hdrX 16 } : Blk).rejoin ≠ 0 ∧ ({ addr := 0x10000#64, word := hdrX 16 } : Blk).point ≠ 0x10048#64) ∧
    ((pointB 0#64).expect &&& ~~~(Mask.put (pointB 0#64).arrived 0 true) ≠ 0#64 ∧ (pointB 2#64).expect &&& ~~~(Mask.put (pointB 2#64).arrived 0 true) = 0#64) := by
  refine ⟨fun g hg => ?_, by decide, by decide, by decide, by decide⟩
  simp only [List.mem_cons, List.not_mem_nil, or_false] at hg
  rcases hg with rfl | rfl | rfl | rfl | rfl <;>
    exact ⟨rfl, ready_of (by decide), by decide, rfl, leaf_of (by decide), next_of (by decide)⟩
/-- Core 0 inside a window over v2 and p3 with two words left. -/
def slk2 : State := onTrap [(2, 5), (4, 7)] fun c => { c with grp := { c.grp with threads := c.grp.threads.map fun t => { t with wins := [{ left := 2, regs := [2], preds := [3] }] } } }
theorem witness_LookaheadTraps : slk2.alone 0 ∧ (∀ i ∈ [Instr.add .w (bw 8 2 4 0), .add .w (bw 2 4 4 0), .add .w { bw 8 4 4 0 with g := 3#4 }], slk2.stands i) ∧
    (∀ i ∈ [Instr.add .w (bw 8 2 4 0), .add .w (bw 2 4 4 0), .add .w { bw 8 4 4 0 with g := 3#4 }], ∀ b, (slk2.thr (.lc 0) 0).blk = some b →
      (sig i).staticCause b.live = none) ∧ slk2.headerAt 0 (slk2.lc 0).tvec hdrW ∧ (slk2.lc 0).tvec.toNat % 8 = 0 ∧
    (∃ x ∈ (slk2.thr (.lc 0) 0).wins, 2 ∈ x.regs ∧ 3 ∈ x.preds) ∧
    (slk2.ready (.div .w .u { bw 8 4 4 0 with tail := 0x80#8 }) ∧ slk2.ready (.ld .w { iw 8 10 0 with tail := 0x80#8, g := 0#4 }) ∧ slk2.ready (.nop (cw 1023 0 0 0))) ∧
    slk2.acting (.ld .w { iw 8 10 0 with tail := 0x80#8, g := 0#4 }) = 0#64 ∧ laOf 0x80#8 ≠ 0 ∧ (7#4).toNat % 8 = 7 ∧ ¬ (7 ∈ ([3] : List Nat)) := by
  refine ⟨alone_of rfl rfl (by decide) (by decide), stands_all (by decide), fun i hi b hb => ?_, header_of (by decide), by decide, ⟨_, List.mem_cons_self .., by decide⟩,
    ⟨ready_of (by decide), ready_of (by decide), ready_of (by decide)⟩, by decide, by decide, by decide, by decide⟩
  obtain rfl : blkAt 0x300000010000 = b := Option.some.inj hb
  simp only [List.mem_cons, List.not_mem_nil, or_false] at hi
  rcases hi with rfl | rfl | rfl <;> decide
/-- Supervisor software without translation: a poisoned address in v10, one that is not canonical in v14:v15, a misaligned one in v12:v13, good addresses of
data that is poisoned; a user thread that names the supervisor's half, a page that it may not write, and one that is not mapped. -/
def smt : State := onTrap [(4, 0x20000), (5, 0x3000), (12, 0x20001), (13, 0x3000), (14, 0), (15, 0x80000000)] fun c =>
  { c with grp := { c.grp with regs := (10, { poison := 1#64 }) :: (2, { poison := 1#64 }) :: c.grp.regs } }
def smu (rs : List (Nat × Nat)) (ts : List Tlb) : State := { onUser rs with tlbs := userTlb (.lc 0) :: userTlb (.hdie 24) :: ts }
/-- Page 2 with read permission for users alone; no user permission at all. -/
def roTlb (lf : W64) (h : Holder) : Tlb := { holder := h, asid := 0, vpage := 2, level := 3, leaf := lf, ea := 0, expiry := 1000000 }
theorem witness_MemoryTraps :
    (smt.alone 0 ∧ smt.headerAt 0 (smt.lc 0).tvec hdrW ∧ (smt.lc 0).tvec.toNat % 8 = 0 ∧ (smt.thr (.lc 0) 0).got = none ∧ (smt.lc 0).sup = true ∧
      (∀ i ∈ [Instr.ld .w (iw 8 10 0), .st .w (iw 8 10 0), .ld .d (iw 8 14 0), .st .w (iw 8 14 0), .ld .d (iw 8 12 0), .st .w (iw 8 12 0), .st .w (iw 2 4 0)],
        smt.ready i ∧ Mask.has (smt.acting i) 0 = true) ∧
      Mask.has ((smt.grp smt.cur).src .int 2 10#10).poi 0 = true ∧ canonical (((smt.grp smt.cur).src .int 2 14#10).val 0 + offOf 0#20) = false ∧
      ((((smt.grp smt.cur).src .int 2 12#10).val 0 + offOf 0#20).toNat % LdSize.bytes .d ≠ 0) ∧ (smt.spaceOf (.lc 0) 0).en = false ∧
      smt.paOk 0x300000020000 = true ∧ (smt.grp smt.cur).poi 0 2 1 = true) ∧
    (let s := smu [(4, 0x40000)] [roTlb 0x300000040013#64 (.lc 0), roTlb 0x300000040013#64 (.hdie 24)]
     s.alone 0 ∧ s.headerAt 0 (s.lc 0).tvec hdrW ∧ s.ready (.st .w (iw 2 4 0)) ∧ (s.spaceOf (.lc 0) 0).en = true ∧ s.admode = false ∧
      s.tlbFind (s.tlbPath (.lc 0)) (s.spaceOf (.lc 0) 0) 0x40000#64 = some (roTlb 0x300000040013#64 (.lc 0)) ∧
      (∀ h ∈ s.tlbPath (.lc 0), (s.tlbAt h (s.spaceOf (.lc 0) 0) 0x40000#64).isSome = true) ∧ permits 0x300000040013#64 false .store = false ∧
      permits 0x300000040013#64 false .load = true ∧ permits 0x300000040003#64 false .load = false) ∧
    (let s := smu [(4, 0), (5, 0x100)] []
     s.alone 0 ∧ s.ready (.ld .w (iw 8 4 0)) ∧ s.tlbFind (s.tlbPath (.lc 0)) (s.spaceOf (.lc 0) 0) 0x10000000000#64 = none ∧ s.nleaf = [] ∧ s.moved = [] ∧ s.mpoison = [] ∧
      (let r := s.fill (s.tlbPath (.lc 0)) (s.spaceOf (.lc 0) 0) 0x10000000000#64 .load
       r.2.toOption = none ∧ r.1.absent = none ∧ r.1.headerAt 0 (r.1.lc 0).tvec hdrW)) ∧
    (let s := smu [(4, 0), (5, 0x2000)] []
     s.tableOk ((s.spaceOf (.lc 0) 0).root + 8 * vaIndex 0x200000000000#64 1) = true ∧ s.rdN ((s.spaceOf (.lc 0) 0).root + 8 * vaIndex 0x200000000000#64 1) 8 % 2 = 0) := by
  refine ⟨⟨alone_of rfl rfl (by decide) (by decide), header_of (by decide), by decide, by decide, by decide, fun i hi => ?_, by decide⟩,
    ⟨alone_of rfl rfl (by decide) (by decide), user_header (by decide), ready_of (by decide), by decide⟩,
    ⟨alone_of rfl rfl (by decide) (by decide), ready_of (by decide), by decide, rfl, rfl, rfl, by decide, by decide, user_header (by decide)⟩, by decide⟩
  simp only [List.mem_cons, List.not_mem_nil, or_false] at hi
  rcases hi with rfl | rfl | rfl | rfl | rfl | rfl | rfl <;> exact ⟨ready_of (by decide), by decide⟩
/-- The accesses that trap, and where: the cause and the saved address. -/
def trapsTo (i : Instr) (s : State) : Option (W32 × W64) := match exec i s with | .next t => some ((t.lc 0).cause, (t.lc 0).tval) | _ => none
/-- R183, R335. -/
theorem test_memory_traps : trapsTo (.ld .w (iw 8 10 0)) smt = some (0x18#32, 0#64) ∧ trapsTo (.st .w (iw 8 14 0)) smt = some (0x13#32, 0x8000000000000000#64) ∧
    trapsTo (.ld .d (iw 8 12 0)) smt = some (0x12#32, 0x300000020001#64) ∧ trapsTo (.st .w (iw 2 4 0)) smt = some (0x18#32, 0#64) ∧
    trapsTo (.ld .w (iw 8 4 0)) (smu [(4, 0), (5, 0x2000)] []) = some (0x10#32, 0x200000000000#64) ∧
    trapsTo (.st .w (iw 2 4 0)) (smu [(4, 0x40000)] [roTlb 0x300000040013#64 (.lc 0), roTlb 0x300000040013#64 (.hdie 24)]) = some (0x13#32, 0x40000#64) := by decide
/-- A misaligned offset of a forme access, one at its end, a poisoned one. -/
def sff (v : Reg) : State := { onGrp { grpT 1#64 .opened [] with regs := [(2, v)] } with pt := 100 }
theorem witness_FormeTraps : ∀ v ∈ [({ sh := .u 17#32 } : Reg), { sh := .u 65533#32 }, { poison := 1#64 }], ∀ i ∈ [Instr.ldf .w (iw 8 2 0), .stf .w (iw 8 2 0)],
    (sff v).cur = .grp 0 0 ∧ (∃ f, (sff v).famOf (sff v).cur 0 = some f) ∧ (sff v).waiters = [] ∧ ((sff v).grp (sff v).cur).gst ≠ .arriving ∧
    (sff v).ready i ∧ Mask.lanes ((sff v).acting i) = [0] ∧ (∃ t, exec i (sff v) = .next t) ∧
    (Mask.has (((sff v).grp (sff v).cur).src .int 1 2#10).poi 0 = true ∨
      ((((sff v).grp (sff v).cur).src .int 1 2#10).val 0 + offOf 0#20).toNat % 2 ^ 32 % 4 ≠ 0 ∨
      ((sff v).team 0).fsize < ((((sff v).grp (sff v).cur).src .int 1 2#10).val 0 + offOf 0#20).toNat % 2 ^ 32 + 4) := by
  intro v hv i hi
  simp only [List.mem_cons, List.not_mem_nil, or_false] at hv hi
  rcases hv with rfl | rfl | rfl <;> rcases hi with rfl | rfl <;>
    exact ⟨rfl, ⟨_, rfl⟩, rfl, by decide, ready_of (by decide), by decide, next_of (by decide), by decide⟩
/-- A `LD` whose thread goes on, and its bytes when they come. -/
def smd : State := { sm with deferLoads := true }
theorem witness_Loads_deferred : smd.atPlace (.ld .d (iw 8 10 0x40)) 0 10#10 (offOf 0x40#20) 8 .load (xl (pm + 0x40)) ∧ smd.deferLoads = true ∧ (xl pm).mt ≠ 1 ∧
    ∃ t, exec (.ld .d (iw 8 10 0x40)) smd = .next t :=
  ⟨place_of (by decide) (by decide) (by decide) rfl (by decide) rfl (by decide) (by decide), by decide, by decide, next_of (by decide)⟩
def outL : OutLoad := { d := 8#10, size := .w, hint := .g, want := 1#64 }
def outP : Pend := { party := .lc 0, lane := 0, va := 0#64, pa := pm, n := 4, kind := .load 0 0 .dflt, out := some 8#10 }
def sdo : State := { onLate (fun c => { c with grp := { c.grp with loads := [outL] } }) with pend := [outP] }
theorem witness_DelayedAccesses_out : sdo.absent = none ∧ sdo.memOk ∧ sdo.pend[0]? = some outP ∧ sdo.plain outP.pa outP.n ∧ sdo.running outP.party = true ∧
    outP.lane < (sdo.grp outP.party).threads.length ∧ sdo.sameLoad outP = [outP] ∧ sdo.uncached outP.pa ∧ sdo.poisoned outP.pa outP.n = false ∧
    (sdo.grp outP.party).loads = [outL] ∧ outL.want = Mask.ofLanes [outP.lane] ∧ outP.n = outL.size.bytes ∧ Mask.has (sdo.grp outP.party).live outP.lane = true ∧
    ((sdo.grp outP.party).single = true → outP.lane = 0) ∧ ∃ t, exec (.loadPerform 0) sdo = .next t :=
  ⟨rfl, by decide, rfl, plain_of (by decide), by decide, by decide, by decide, fun c hc => absurd hc (by simp [show sdo.copies = [] from rfl]), by decide, rfl, by decide,
    by decide, by decide, by decide, next_of (by decide)⟩
/-- The object stands in phase 5, the token in v4 is 6. -/
def sbt : State :=
  { onLate (fun c => { c with grp := { c.grp with regs := regsOf [(4, 6), (10, 0x20000), (11, 0x3000)] } , tvec := 0x300000010048#64 }) with
    mem := putDw hdrMem pm 0x500000002 }
def btW : BaseW := bw 8 10 4 0
theorem witness_BarrierTokens : sbt.alone 0 ∧ (∀ i ∈ [Instr.barw .mem btW, .bart .mem btW], sbt.atPlace i 0 10#10 0#64 8 .load (xl pm) ∧ sbt.atBarrier i 0 btW 6 ∧
    (sbt.opened i).memOk ∧ (sbt.opened i).poisoned pm 8 = false ∧ (sbt.opened i).homeBusy pm 8 none = false ∧ (sbt.opened i).regRoom (homeDie pm) = true ∧
    2 ^ 15 ≤ (objPhase ((sbt.opened i).rdN pm 8) + 2 ^ 16 - 6) % 2 ^ 16 ∧
    (let m := ((sbt.opened i).barStep sbt.cur (.mem (sbt.opnd .int 2 10#10 0) (xl pm)) fun _ => none).1
     m.absent = none ∧ m.headerAt 0 (m.lc 0).tvec hdrW ∧ (m.lc 0).tvec.toNat % 8 = 0) ∧ trapsTo i sbt = some (0x21#32, 0#64)) := by
  refine ⟨alone_of rfl rfl (by decide) (by decide), fun i hi => ?_⟩
  simp only [List.mem_cons, List.not_mem_nil, or_false] at hi
  rcases hi with rfl | rfl <;>
    exact ⟨place_of (by decide) (by decide) (by decide) rfl (by decide) rfl (by decide) (by decide), barrier_of (by decide) (by decide) (by decide) (by decide),
      by decide, by decide, by decide, by decide, by decide, ⟨by decide, header_of (by decide), by decide⟩, by decide⟩
/-- An `AADDT` of 2 with threshold 1 at the place where core 1 waits. -/
def waitY : Waiter := { party := .lc 1, lane := 0, fam := 0#32, va := 0#64, pa := pm, n := 4, cond := .cond .eq 5#64, registered := true, forme := none }
def swk : State := { sm with waiters := [waitY], lcs := (sm.lcs.set 1 { core0 [] with grp := { (core0 []).grp with threads := [{ st := .engineWait }] } }) }
theorem witness_Atomics_wake : swk.atPlace (.aaddt (bw 8 10 4 0)) 0 10#10 0#64 4 .rmw (xl pm) ∧ (swk.grp swk.cur).poi 0 4 2 = false ∧ swk.deferAtomics = false ∧
    (swk.opened (.aaddt (bw 8 10 4 0))).homeBusy pm 4 none = false ∧ ((swk.grp swk.cur).rd 0 5).toNat ≤ 2 ∧
    waitY ∈ (swk.opened (.aaddt (bw 8 10 4 0))).waitersAt pm ∧ waitY.party ≠ swk.cur ∧ swk.running waitY.party = true ∧ waitY.lane < (swk.grp waitY.party).threads.length ∧
    ∃ t, exec (.aaddt (bw 8 10 4 0)) swk = .next t :=
  ⟨place_of (by decide) (by decide) (by decide) rfl (by decide) rfl (by decide) (by decide), by decide, by decide, by decide, by decide, by decide, by decide, by decide,
    by decide, next_of (by decide)⟩
/-- One operation of each kind inside the forme, of one element; its index table (at 8), its cursors (at 32) and its source (at 0x400) are zeros. -/
def mvO (k : SpKind) : SpOp := { spOpOf k false false with par := [1#32, 0xFFFFF#32, 1#32, 8#32, 32#32, 64#32, 0#32, 0#32] }
def smvO (k : SpKind) : State := { spo (mvO k) with
  teams := [{ teamT grpS with spq := sq3 (mvO k), forme := ([8, 9, 10, 11] ++ (List.range 8).map (· + 32) ++ (List.range 16).map (· + 0x400)).map fun a => (a, 0#8) }] }
theorem witness_SpoolOperations_moved : ∀ k ∈ [SpKind.cpy, .cpyt, .cgath, .cscat, .cfill, .cpart], let tm := (smvO k).team 0
    (smvO k).team? 0 = some tm ∧ tm.tid = 0 ∧ tm.st = .resident ∧ tm.spq.length = 4 ∧ (tm.queue 3).items = .op (mvO k) :: [] ∧ (mvO k).parked = none ∧
    (mvO k).part = none ∧ (smvO k).repairs = [] ∧ (smvO k).segs = [] ∧ (mvO k).next = 0 ∧ tm.fpoison = [] ∧ tm.fsize ≤ 2 ^ 32 ∧ (mvO k).total = 1 ∧
    ((mvO k).moved tm.fsize tm.fbyte 1).isSome = true := by decide
/-- A BF16 product whose first row of A, in the forme at 0, whose B and whose first accumulator are zeros. -/
def tmf : Team := { teamQ [opQ (.mma .bf16) false] 0 with forme := (List.range 64).map (fun a => (a, 0#8)), tiles := { cells := [(0, 0#32)] } :: List.replicate 3 {} }
theorem witness_PlatenOperations_floats : let o := opQ (.mma .bf16) false; let p : PlOp := { o with bspan := tmf.spans o }
    o.started = false ∧ o.next = 0 ∧ o.marks = [] ∧ o.formed = true ∧ o.agrees = true ∧ (memQ (.mma .bf16) 0).kind = .mma .bf16 ∧ PType.bf16 ≠ .int8 ∧
    F32.dec ((tmf.tile 0).get 0 0) = .fin false 0 (-149) ∧
    (∀ k, k < 32 → PType.bf16.fmt.dec (tmf.elemA .bf16 (ctlOf (memQ (.mma .bf16) 0).ctl) 0 k) = .fin false 0 (-133) ∧
      PType.bf16.fmt.dec (p.elemB .bf16 k 0) = .fin false 0 (-133) ∧ (-266 : Int) ≤ (-133) + (-133) + (127 : Nat) + (127 : Nat) - 254) ∧ (-266 : Int) ≤ -149 := by decide

/-- What register `r` holds in a lane after an instruction, and the flags of the lane. -/
def regAfter (i : Instr) (s : State) (r : Nat) : Option W32 := match exec i s with | .next t => some ((t.grp s.cur).rd s.curLane r) | _ => none
def flagsAfter (i : Instr) (s : State) : Option W32 := match exec i s with | .next t => some (t.thr s.cur s.curLane).fcsr | _ => none
def predAfter (i : Instr) (s : State) (n : Nat) : Option Bool := match exec i s with | .next t => some ((t.grp s.cur).pred n s.curLane) | _ => none

/-- R142: the sum wraps; the destination is a source. -/
theorem test_add_wraps : regAfter (.add .w (bw 2 2 4 0)) (onCore [(2, 0xFFFFFFFF), (4, 2)]) 2 = some 1#32 := by decide
/-- R142: bytes wrap one by one. -/
theorem test_add_bytes : regAfter (.add .b4 (bw 8 2 4 0)) (onCore [(2, 0x01FF7F80), (4, 0x010101FF)]) 8 = some 0x0200807F#32 := by decide
/-- R150's 96-bit sum: the first word carries out. -/
theorem test_addc_carry : predAfter (.addc .w (bw 6 0 3 0x48)) (onCore [(0, 0xFFFFFFFF), (3, 1)]) 1 = some true ∧
    regAfter (.addc .w (bw 6 0 3 0x48)) (onCore [(0, 0xFFFFFFFF), (3, 1)]) 6 = some 0#32 := by decide
/-- R143: the high half of the product of 0x80000000 and 0xFFFFFFFF, signed and unsigned. -/
theorem test_mulh_signs : regAfter (.mulh .w .s (bw 8 2 4 0)) (onCore [(2, 0x80000000), (4, 0xFFFFFFFF)]) 8 = some 0#32 ∧
    regAfter (.mulh .w .u (bw 8 2 4 0)) (onCore [(2, 0x80000000), (4, 0xFFFFFFFF)]) 8 = some 0x7FFFFFFF#32 := by decide
/-- `LI v10, 0x1234_5678` (0x4070_0284_8D15_9E00), fetched and executed from reset. -/
theorem test_step_li : (match step (State.reset.withFetchWord 64 0x407002848D159E00) with | .next t => some ((t.grp (.lc 0)).rd 0 10) | _ => none) =
    some 0x12345678#32 := by decide
/-- R108's example: -1.5 to unsigned is 0 with NV in RNE, RDN and RTZ (modes 0, 2, 1); -0.25 in RTZ is 0 with NX alone. -/
def cvtU (rm v : Nat) : Instr × State := (.cvtfi .u32 .f32 { bw 8 2 0 0 with tail := BitVec.ofNat 8 (16 * rm) }, onCore [(2, v), (8, 9)])
theorem test_cvtfi : (∀ rm ∈ [0, 1, 2], regAfter (cvtU rm 0xBFC00000).1 (cvtU rm 0xBFC00000).2 8 = some 0#32 ∧
      flagsAfter (cvtU rm 0xBFC00000).1 (cvtU rm 0xBFC00000).2 = some fNV) ∧
    regAfter (cvtU 1 0xBE800000).1 (cvtU 1 0xBE800000).2 8 = some 0#32 ∧ flagsAfter (cvtU 1 0xBE800000).1 (cvtU 1 0xBE800000).2 = some fNX := by decide
/-- R158's example: 1.5 scaled by 2^-149 is the subnormal 2, with UF and NX. -/
theorem test_fscale : regAfter (.fscale .f32 (bw 8 2 4 0)) (onCore [(2, 0x3FC00000), (4, 0xFFFFFF6B)]) 8 = some 2#32 ∧
    flagsAfter (.fscale .f32 (bw 8 2 4 0)) (onCore [(2, 0x3FC00000), (4, 0xFFFFFF6B)]) = some (fUF ||| fNX) := by decide
/-- R167's example: 1.0, 600.0, -0.01 and 500.0 to E4M3, saturated. -/
theorem test_qpack : let s := onCore [(20, 0x3F800000), (21, 0x44160000), (22, 0xBC23D70A), (23, 0x43FA0000)]
    regAfter (.qpack .e4m3 (bw 12 20 22 1)) s 12 = some 0x7E857E38#32 ∧ flagsAfter (.qpack .e4m3 (bw 12 20 22 1)) s = some (fSAT ||| fUF ||| fNX) := by decide
/-- R109's example: a block whose largest magnitude is 940.0. -/
theorem test_mx_quantise : let r := mxQuantise E4M3 false ([0x44160000, 0x3F800000, 0xBC23D70A, 0x446B0000] ++ List.replicate 28 0)
    r.1 = 0x80 ∧ r.2.1.take 5 = [0x79, 0x30, 0x83, 0x7E, 0] ∧ r.2.2 = fSAT := by decide
/-- R111's example: 2^24 and a block of 32 products, each 0.5. -/
theorem test_mma_element : mmaElem .bf16 false (fun _ => 0x3F00) (fun _ => 0x3F80) (fun _ => 127) (fun _ => 127) 0x4B800000 = (0x4B800008, 0) := by decide
/-- R178's example: 2^24 in lane 0 and 1.0 in the others, in a tree. -/
theorem test_gred_float : (match exec (.gred .f32 (bw 30 31 0 0)) { onGrp { grpT 0xFFFFFFFFFFFFFFFF#64 .region [] with
      regs := [(31, { sh := .g (0x4B800000#32 :: List.replicate 63 0x3F800000#32) })] } with pt := 0 } with
    | .next t => some ((t.grp (.grp 0 0)).rd 63 30) | _ => none) = some 0x4B80001F#32 := by decide
/-- R248's example: the prefix of the 4 bytes "kerv" at 0x3000_0002_0000. -/
theorem test_spfx : let s : State := { onLate (fun c => { c with grp := { c.grp with regs := regsOf [(4, 4), (10, 0x20000), (11, 0x3000)] } }) with
      mem := putCells [] 0x300000020000 [0x6B#8, 0x65#8, 0x72#8, 0x76#8] }
    regAfter (.spfx (ec1 (bw 8 10 4 0))) s 8 = some 0#32 ∧ regAfter (.spfx (ec1 (bw 8 10 4 0))) s 9 = some 0x6B657276#32 := by decide
/-- R360's example: the save area of a family of 1,000 threads, 4 groups to a team, 16 registers, a forme of 4,096 bytes. -/
def famEx : Family := { famT with n := 1000, desc := (famT.desc.set 0 0x1001010004#64).set 1 0x100001000#64, teams := 4 }
theorem test_save_offsets : famEx.teamBytes = 163840 ∧ famEx.recordAt 0 2 = 331776 ∧ famEx.recordAt 0 2 + famEx.groupsAt = 471040 ∧
    ((grpT 1#64 .opened []).pieces 0 16 0 false).map (·.1) = [0, 0x40, 0x100, 0x138, 0x180, 0x380, 0x480, 0x680] ++ (List.range 16).map fun r => 0x800 + 256 * r := by
  decide
/-- R230's example: the word of the `MMA`, and its promise at PT 40,000 with an empty queue. -/
theorem test_mma_promise : decodeTableWord 64 0xD0700080C083000C = some (.mma .bf16 { bw 2 12 32 0x300 with tail := 12#8 }) ∧
    (let g := grpT 1#64 .region [(12, 0x400000), (13, 0x108)]
     regAfter (.mma .bf16 { bw 2 12 32 0x300 with tail := 12#8 })
       { spl [] with pt := 40000, teams := [{ teamQ [] 0 with groups := [some g, some g, some g, some g] }] } 2) = some 40192#32 := by decide
/-- R340's example: a store of a SIMT thread under `s.admode` walks to die 7, and its walker sets A and D. -/
def sEx : State :=
  let g := grpT 1#64 .opened [(4, 0xABCD), (10, 0x789ABCDE), (11, 0x00123456)]
  { onGrp g with fams := [{ famT with ptbr := 0x0000040000010001#64 }], admode := true, pt := 20000,
                 mem := putDw (putDw (putDw [] 0x40000011230 0x40000020001) 0x40000028AC8 0x40000030001) 0x4000003E268 0xE0000480017 }
theorem test_store_translated : (match exec (.st .h (iw 4 10 0)) sEx with
    | .next t => (t.rdN 0xE000048BCDE 2, t.rdN 0x4000003E268 8, (t.thr (.grp 0 0) 0).pc) | _ => (0, 0, 0#64)) = (0xABCD, 0xE00004800D7, 0x300000010010#64) := by
  decide
/-- R45, R63: an opcode that the manual reserves makes core 0 take exception 0x01, in supervisor mode with interrupts off. -/
theorem test_step_reserved : (match step (sst 0) with
    | .next t => ((t.lc 0).cause, (t.lc 0).epc, (t.thr (.lc 0) 0).pc, (t.lc 0).status) | _ => (0#32, 0#64, 0#64, 0#32)) =
    (1#32, 0x300000010008#64, 0x300000020008#64, 1027#32) := by decide
/-! ### The choice of an image (R425, R426, R430) -/

/-- The objects A to D of R426 on a device whose errata clear capability bits 7 and 5, and the object of R430. -/
theorem test_image_choice :
    let d : Dev := { ({ errata := [{ caps := some 0x17F#9 }, { caps := some 0x1DF#9 }] } : Dev).load with site := 0 }
    let native (fields caps : Nat) : KvNote := { type := 1, section_ := 1, minhl := 1, fields := fields, caps := [BitVec.ofNat 64 caps] }
    let camord (caps : Nat) : KvNote := { type := 2, section_ := 2, caps := [BitVec.ofNat 64 caps] }
    d.image [native 1 0] none = .native 1 ∧ d.image [native 1 0x80, camord 0] none = .translated 2 ∧
    d.image [native 2 0] none = .refused ∧ d.image [native 1 0x20, camord 0x20] none = .refused ∧ d.image [native 2 0] (some 1) = .native 1 ∧
    d.image [{ native 2 0 with minhl := 2 }, camord 0] none = .translated 2 := by decide

end Sys2Proof.Tests
end

section
/-!
PROOFS. The sign of an exact zero sum (R106): what `FADD`, `FSUB` and the fused sums compute of finite operands, and when the sum of two
dyadic numbers is zero.
-/

namespace Sys2Proof.Machine

/-- A common exponent shows the sum: it is zero when the terms, brought to one exponent, cancel. -/
theorem Dy.add_m_eq_zero_iff (a b : Dy) :
    (a.add b).m = 0 ↔ a.m * 2 ^ (a.e - b.e).toNat + b.m * 2 ^ (b.e - a.e).toNat = 0 := by
  unfold Dy.add
  split
  · next ha => simp [ha]
  · split
    · next hb => simp [hb]
    · have hl : (a.e - min a.e b.e).toNat = (a.e - b.e).toNat := by omega
      have hr : (b.e - min a.e b.e).toNat = (b.e - a.e).toNat := by omega
      simp only [hl, hr]

/-- Equal magnitudes of opposite sign cancel. -/
theorem FV.dy_add_opposite {n k : Bool} {m p : Nat} {e g : Int} (hmag : m * 2 ^ (e - g).toNat = p * 2 ^ (g - e).toNat) (hsign : n ≠ k) :
    ((FV.fin n m e).dy.add (FV.fin k p g).dy).m = 0 := by
  have hz : (m : Int) * 2 ^ (e - g).toNat = p * 2 ^ (g - e).toNat := by exact_mod_cast hmag
  rw [Dy.add_m_eq_zero_iff]
  cases n <;> cases k <;> simp [FV.dy, hz] at hsign ⊢

/-- R106: a sum of two zeros of one sign keeps that sign. -/
theorem Fmt.sum_zeros_same (F : Fmt) (rm : Nat) (fz n : Bool) (e g : Int) : F.sum rm fz (.fin n 0 e) (.fin n 0 g) = (F.signBit n, 0#32) := by
  simp [Fmt.sum, FV.dy, FV.isZero, FV.neg, Dy.add]

/-- R106: an exact zero sum of operands of opposite sign is +0, and −0 in RDN. -/
theorem Fmt.sum_opposite (F : Fmt) (rm : Nat) (fz : Bool) {n k : Bool} {m p : Nat} {e g : Int}
    (hmag : m * 2 ^ (e - g).toNat = p * 2 ^ (g - e).toNat) (hsign : n ≠ k) :
    F.sum rm fz (.fin n m e) (.fin k p g) = (F.signBit (rm == 2), 0#32) := by
  simp [Fmt.sum, FV.dy_add_opposite hmag hsign, FV.neg, hsign]

section FiniteOperands
variable {F : Fmt} {rm : Nat} {fz : Bool} {x y z : Nat} {n k j : Bool} {m p r : Nat} {e g h : Int}

theorem Fmt.add_of_fin (hx : F.decZ fz x = .fin n m e) (hy : F.decZ fz y = .fin k p g) :
    F.add rm fz x y = F.sum rm fz (.fin n m e) (.fin k p g) := by
  simp [Fmt.add, hx, hy, FV.isNan]

theorem Fmt.sub_of_fin (hx : F.decZ fz x = .fin n m e) (hy : F.decZ fz y = .fin k p g) :
    F.sub rm fz x y = F.sum rm fz (.fin n m e) (.fin (!k) p g) := by
  simp [Fmt.sub, hx, hy, FV.isNan, FV.negate]

/-- A negated operand of the fused sum takes part with the opposite sign. -/
theorem FV.negate_fin_if (c : Bool) : (if c then (FV.fin n m e).negate else .fin n m e) = .fin (n ^^ c) m e := by
  cases c <;> simp [FV.negate]

theorem Fmt.fma_of_fin (np nc : Bool) (hx : F.decZ fz x = .fin n m e) (hy : F.decZ fz y = .fin k p g) (hz : F.decZ fz z = .fin j r h) :
    F.fma rm fz np nc x y z = F.sum rm fz (.fin ((n ^^ k) ^^ np) (m * p) (e + g)) (.fin (j ^^ nc) r h) := by
  simp only [Fmt.fma, hx, hy, hz, FV.isNan, Bool.or_self, Bool.false_eq_true, if_false, FV.times, FV.negate_fin_if, Bool.bne_eq_xor]

end FiniteOperands

/-- Settles O59: each operation is a `Fmt.sum` of finite values, and the two rules of R106 give the sign of its zero. -/
theorem zeroSums : Obligations.ZeroSums := by
  intro f rm fz x y z n k j m p r e g h F same zero hx hy hz
  rw [Fmt.add_of_fin hx hy, Fmt.sub_of_fin hx hy]
  refine ⟨?addZeros, fun hmag hsign => F.sum_opposite rm fz hmag hsign.symm, ?subZeros, ?subOpposite, fun np nc => ?fused⟩
  case addZeros =>
    rintro rfl rfl rfl
    exact F.sum_zeros_same ..
  case subZeros =>
    rintro rfl rfl hsign
    rw [Bool.eq_not_of_ne hsign, Bool.not_not]
    exact F.sum_zeros_same ..
  case subOpposite =>
    rintro hmag rfl
    exact F.sum_opposite rm fz hmag (Bool.self_ne_not k)
  case fused =>
    rw [Fmt.fma_of_fin np nc hx hy hz]
    refine ⟨fun hp hr hsign => ?_, F.sum_opposite rm fz⟩
    rw [hp, hr, hsign]
    exact F.sum_zeros_same ..

end Sys2Proof.Machine
end

section
/-!
PROOFS. The integer instructions (R142-R148, R150): each shape of `Laws/Integer.lean` gives the element operation, and `Laws/Elements.lean`
says what that operation is on bit vectors.
-/

namespace Sys2Proof.Machine

/-! ### Sizes and operands -/

theorem ISize.width_pos (z : ISize) : 0 < z.width := by cases z <;> decide
theorem DSize.isize_width (z : DSize) : z.isize.width = z.width := by cases z <;> rfl

/-- The one element of a word operand. -/
theorem State.elA_w (s : State) (c : BitVec 10) (l : Nat) {k : Nat} (hk : k < ISize.w.count) : s.elA .w c l k = s.word c l := elem_w _ hk

/-- The one element of an operand of one register or of a pair. -/
theorem State.elA_zero_toNat (s : State) (z : DSize) (c : BitVec 10) (l : Nat) :
    (s.elA z.isize c l 0).toNat = (s.opnd .int z.n c l).toNat % 2 ^ z.width := by
  rw [State.elA, DSize.isize_n, DSize.isize_kind, ← el_eq, DSize.isize_width, el, Nat.mul_zero, pow_zero, Nat.div_one]

/-! ### Further shapes -/

/-- A and B from registers alone: `DIV` and `REM`. -/
theorem intRegsAB_gives {s : State} {i : Instr} (h : s.ready i) (ht : isTransfer i = false) (z : DSize) (w : BaseW) (f : Nat → Nat → Nat)
    {R : (l k : Nat) → BitVec z.isize.width → Prop}
    (hR : ∀ l k, R l k (BitVec.ofNat z.isize.width (f (s.elA z.isize w.a l k).toNat (s.elA z.isize w.b l k).toNat))) :
    s.givesAs (issueG i s fun c g => g.put z.n w.d c.act
        (fun l => map2 z.isize f ((g.src .int z.n w.a).val l) ((g.src .int z.n w.b).val l))
        (tagOf [g.src .int z.n w.a, g.src .int z.n w.b]) (poiOf [g.src .int z.n w.a, g.src .int z.n w.b])) i z.isize w.d R := by
  rw [← DSize.isize_n]
  refine issueG_elems h ht z.isize w.d _ _ _ R fun g hg l _ k hk => ?_
  rw [elem_map2 z.isize f _ _ k hk, quiet_src hg, quiet_src hg, ← DSize.isize_kind z]
  exact hR l k

/-- A, B and C from three words: `FSHF` and `PERM`. -/
theorem intWords_gives {s : State} {i : Instr} (h : s.ready i) (ht : isTransfer i = false) (w : BaseW) (f : Nat → Nat → Nat → Nat)
    {R : (l k : Nat) → W32 → Prop}
    (hR : ∀ l k, R l k (BitVec.ofNat 32 (f (s.word w.a l).toNat (s.word w.b l).toNat (s.word w.c l).toNat))) :
    s.givesAs (intABC i .w w s 1 f) i .w w.d R :=
  intABC_gives h ht .w w 1 f fun l k hk => by
    have hthird : thirdOf .w 1 (s.opnd ISize.w.kind 1 w.c l) = s.opnd .int 1 w.c l := rfl
    rw [State.elA_w s _ l hk, State.elA_w s _ l hk, hthird, elem_w _ hk]
    exact hR l k

/-- `MADW`: the factors read in the variant, their product and the sum in 64 bits. -/
theorem madw_writes {s : State} (sg : Sgn) (w : BaseW) (h : s.ready (.madw sg w)) (e : W32 → W64)
    (he : ∀ x : W32, BitVec.ofInt 64 (asInt sg 32 x.toNat) = e x) :
    s.writes (.madw sg w) 2 w.d fun l => e (s.word w.a l) * e (s.word w.b l) + s.opnd .int 2 w.c l := by
  have hword : ∀ v : W64, BitVec.ofInt 64 (asInt sg 32 (v.toNat % 2 ^ 32)) = e (v.setWidth 32) := fun v => by
    rw [← he, BitVec.toNat_setWidth]
  unfold State.writes State.puts
  rw [show exec (.madw sg w) s = execMadw sg w s from rfl, execMadw]
  refine issueG_put h rfl (.inr rfl) w.d _ _ _ _ fun g hg l _ => ?_
  rw [if_pos rfl, quiet_src hg, quiet_src hg, quiet_src hg, BitVec.ofInt_add, BitVec.ofInt_mul, hword, hword, BitVec.ofInt_natCast,
    BitVec.ofNat_toNat, BitVec.setWidth_eq]
  rfl

/-! ### Sums, products and quotients (R142-R144) -/

theorem integerSums : Claims.IntegerSums := fun s =>
  ⟨fun z w h => intAB_gives h rfl z w _ _ fun _ _ => el_add _ _,
   fun z w h => intImm_gives h rfl z w _ _ fun _ _ => el_add _ _,
   fun z w h => intAB_gives h rfl z w _ _ fun _ _ => el_sub _ _,
   fun z w h => intA_gives h rfl z w _ fun _ _ => el_neg _,
   fun z w h => intA_gives h rfl z w _ fun _ _ => el_abs _,
   fun z w h => intAB_gives h rfl z w _ _ fun _ _ => el_addsat_u _ _,
   fun z w h => intAB_gives h rfl z w _ _ fun _ _ => el_subsat_u _ _,
   fun z w h => intAB_gives h rfl z w _ _ fun _ _ => by rw [el_clamp_s (ISize.width_pos z), asInt_s, asInt_s],
   fun z w h => intAB_gives h rfl z w _ _ fun _ _ => by rw [el_clamp_s (ISize.width_pos z), asInt_s, asInt_s]⟩

theorem integerProducts : Claims.IntegerProducts := fun s =>
  ⟨fun z w h => intAB_gives h rfl z w _ _ fun _ _ => el_mul _ _,
   fun z w h => intImm_gives h rfl z w _ _ fun _ _ => el_mul _ _,
   fun z w h => intAB_gives h rfl z.isize w _ _ fun _ _ => by rw [← DSize.isize_width]; exact el_mulh_u _ _,
   fun z w h => intAB_gives h rfl z.isize w _ _ fun _ _ => by rw [← DSize.isize_width]; exact el_mulh_s (ISize.width_pos _) _ _,
   fun z w h => intABC_gives h rfl z w z.n _ fun l k _ => by
     rw [show thirdOf z z.n (s.opnd z.kind z.n w.c l) = s.opnd z.kind z.n w.c l by cases z <;> rfl]
     exact el_mad _ _ _,
   fun w h => madw_writes .s w h _ fun x => by rw [asInt_s]; rfl,
   fun w h => madw_writes .u w h _ fun x => by rw [asInt_u, BitVec.ofInt_natCast, BitVec.ofNat_toNat]⟩

theorem integerQuotients : Claims.IntegerQuotients := fun _ =>
  ⟨fun z w h => intRegsAB_gives h rfl z w _ fun _ _ => by rw [← DSize.isize_width]; exact el_div_u _ _,
   fun z w h => intRegsAB_gives h rfl z w _ fun _ _ => by rw [← DSize.isize_width]; exact el_div_s (ISize.width_pos _) _ _,
   fun z w h => intRegsAB_gives h rfl z w _ fun _ _ => by rw [← DSize.isize_width]; exact el_rem_u _ _,
   fun z w h => intRegsAB_gives h rfl z w _ fun _ _ => by rw [← DSize.isize_width]; exact el_rem_s (ISize.width_pos _) _ _⟩

/-! ### Sums with a carry (R150) -/

theorem wrap_cast (n : Nat) (i : Int) : (wrap n i : Int) = i % 2 ^ n := Int.toNat_of_nonneg (Int.emod_nonneg i (by positivity))
theorem wrap_lt (n : Nat) (i : Int) : wrap n i < 2 ^ n := by
  zify
  rw [wrap_cast]
  exact Int.emod_lt_of_pos i (by positivity)

/-- The carry or the borrow that enters a lane: Q when CIE is set. -/
def Group.carryIn (g : Group) (w : BaseW) (l : Nat) : Nat := if w.c.getLsbD 6 && g.pred (w.c.toNat % 8) l then 1 else 0
/-- The result of `ADDC`, or of `SUBB`, on the numbers of its operands. -/
def carryRes (sub : Bool) (n a b ci : Nat) : Nat := if sub then wrap n ((a : Int) - b - ci) else (a + b + ci) % 2 ^ n
/-- The carry, or the borrow, that leaves a lane. -/
def carryFlag (sub : Bool) (n a b ci : Nat) : Bool := if sub then borrowOut a b ci else carryOut n a b ci

theorem carryRes_lt (sub : Bool) (n a b ci : Nat) : carryRes sub n a b ci < 2 ^ n := by
  unfold carryRes
  split
  · exact wrap_lt n _
  · exact Nat.mod_lt _ (by positivity)

/-- A number below 2^width reads back from the registers of its destination. -/
theorem DSize.dest_ofNat (z : DSize) {x : Nat} (hx : x < 2 ^ z.width) :
    (if z.n = 2 then BitVec.ofNat 64 x else (lo32 (BitVec.ofNat 64 x)).setWidth 64).toNat = x := by
  cases z <;> simp [DSize.n, DSize.width, lo32] at hx ⊢ <;> omega

theorem Group.pred_wrP_of_notMem_predR (g : Group) {r n : Nat} (l : Nat) (who : Mask) (val : Nat → Bool) (uni : Bool) (poi : Mask)
    (hn : n ∉ predR r) : (g.wrP r who val uni poi).pred n l = g.pred n l := by
  unfold predR at hn
  split at hn
  · exact Group.pred_wrP_other g r n l who val uni poi (by simpa using hn)
  · rw [Group.wrP, if_pos (by omega)]

theorem Group.wrP_same (g : Group) (n : Nat) (who : Mask) (val : Nat → Bool) (uni : Bool) (poi : Mask) :
    g.wrP n who val uni poi = { g with preds := (g.wrP n who val uni poi).preds } := by
  unfold Group.wrP
  split <;> rfl

/-- An instruction whose results are one value of one or two registers and one predicate. -/
theorem issueG_put_wrP {s : State} {i : Instr} (h : s.ready i) (ht : isTransfer i = false) {n : Nat} (hn : n = 1 ∨ n = 2) (d : BitVec 10)
    (r : Nat) (V : Ctx → Group → Nat → W64) (B : Ctx → Group → Nat → Bool) (H : Ctx → Group → Hint) (U : Ctx → Group → Bool)
    (P : Ctx → Group → Mask) (v : Nat → W64) (b : Nat → Bool)
    (hv : ∀ g : Group, (s.grp s.cur).quiet g → ∀ l, V (s.ctx i) g l = v l)
    (hb : ∀ g : Group, (s.grp s.cur).quiet g → ∀ l, B (s.ctx i) g l = b l) :
    completesAs (issueG i s fun c g => (g.put n d c.act (V c g) (H c g) (P c g)).wrP r c.act (B c g) (U c g) (P c g)) i s
      (destRegs n d) (predR r) fun t => ∀ l, Mask.has (s.acting i) l = true →
        (inReg d = true → t.dest s.cur n d l = if n = 2 then v l else (lo32 (v l)).setWidth 64) ∧
        (r < 7 → (t.grp s.cur).pred r l = b l) := by
  refine issueG_completes h ht
    (fun c g => (g.put n d c.act (V c g) (H c g) (P c g)).wrP r c.act (B c g) (U c g) (P c g)) _ _ (fun c g => ?same)
    (fun g k hk => ?regs) (fun g k l hk => ?preds) _ (fun t g hg _ hregs hpreds l hl => ⟨fun hd => ?dest, fun hr => ?pred⟩)
    (fun h0 t l hl => ?none)
  case same => rw [Group.wrP_same, Group.put_same]
  case regs => rw [Group.reg, Group.wrP_regs]; exact Group.put_reg _ _ _ _ hn hk
  case preds => rw [Group.pred_wrP_of_notMem_predR _ _ _ _ _ _ hk, Group.put_same]; rfl
  case dest =>
    rw [Group.wrP_regs] at hregs
    obtain ⟨hlive, hsingle⟩ := State.acting_lane hl
    have hput := Group.dest_put (g := g) (val := V (s.ctx i) g) (h := H (s.ctx i) g) (P (s.ctx i) g) hn hd
      (by rw [hg.live]; exact hlive) (by simp only [Group.single, hg.size]; exact hsingle) hl
    rw [hv g hg l] at hput
    rw [← hput]
    simp only [State.dest, Group.rd64, Group.rd, Group.reg, hregs]
    rfl
  case pred =>
    have hact : Mask.has (s.ctx i).act l = true := hl
    rw [Group.pred_congr hpreds, Group.pred_wrP _ _ _ _ _ _ _ (Mask.has_lt hl) hr, if_pos hact]
    exact hb g hg l
  case none => rw [h0, Mask.has_zero] at hl; cases hl

/-- `ADDC` and `SUBB` complete with the result and the flag of their operands. -/
theorem carryOp_completes {s : State} {i : Instr} (h : s.ready i) (ht : isTransfer i = false) (z : DSize) (w : BaseW) (sub : Bool) :
    completesAs (carryOp i z w s sub) i s (destRegs z.n w.d) (predR (w.c.toNat / 8 % 8)) fun t => ∀ l, Mask.has (s.acting i) l = true →
      (inReg w.d = true → (t.dest s.cur z.n w.d l).toNat =
        carryRes sub z.width (s.elA z.isize w.a l 0).toNat (s.elA z.isize w.b l 0).toNat ((s.grp s.cur).carryIn w l)) ∧
      (w.c.toNat / 8 % 8 < 7 → (t.grp s.cur).pred (w.c.toNat / 8 % 8) l =
        carryFlag sub z.width (s.elA z.isize w.a l 0).toNat (s.elA z.isize w.b l 0).toNat ((s.grp s.cur).carryIn w l)) := by
  have hci : ∀ g : Group, (s.grp s.cur).quiet g → ∀ l, g.carryIn w l = (s.grp s.cur).carryIn w l := fun g hg l => by
    rw [Group.carryIn, Group.pred_congr hg.preds]; rfl
  obtain ⟨t, hnext, hres, hkeep⟩ := issueG_put_wrP h ht (DSize.n_cases z) w.d (w.c.toNat / 8 % 8)
    (fun _ g l => BitVec.ofNat 64 (carryRes sub z.width (((g.src .int z.n w.a).val l).toNat % 2 ^ z.width)
      (((g.src .int z.n w.b).val l).toNat % 2 ^ z.width) (g.carryIn w l)))
    (fun _ g l => carryFlag sub z.width (((g.src .int z.n w.a).val l).toNat % 2 ^ z.width)
      (((g.src .int z.n w.b).val l).toNat % 2 ^ z.width) (g.carryIn w l))
    _ _ _ (fun l => BitVec.ofNat 64 (carryRes sub z.width (s.elA z.isize w.a l 0).toNat (s.elA z.isize w.b l 0).toNat
      ((s.grp s.cur).carryIn w l)))
    (fun l => carryFlag sub z.width (s.elA z.isize w.a l 0).toNat (s.elA z.isize w.b l 0).toNat ((s.grp s.cur).carryIn w l))
    (fun g hg l => by rw [quiet_src hg, quiet_src hg, hci g hg, State.elA_zero_toNat, State.elA_zero_toNat]; rfl)
    (fun g hg l => by rw [quiet_src hg, quiet_src hg, hci g hg, State.elA_zero_toNat, State.elA_zero_toNat]; rfl)
  refine ⟨t, hnext, fun l hl => ⟨fun hd => ?_, (hres l hl).2⟩, hkeep⟩
  rw [(hres l hl).1 hd, DSize.dest_ofNat z (carryRes_lt ..)]

theorem carryArithmetic : Claims.CarryArithmetic := by
  intro s z w q r ci a b
  refine ⟨fun h => carryOp_completes h rfl z w false, fun h => ?_⟩
  obtain ⟨t, hnext, hres, hkeep⟩ := carryOp_completes h rfl z w true
  refine ⟨t, hnext, fun l hl => ⟨fun hd => ?_, (hres l hl).2⟩, hkeep⟩
  rw [(hres l hl).1 hd]
  exact wrap_cast ..

/-- Settles O1: sums, products, quotients and sums with a carry, each as its claim above. -/
theorem integerArithmetic : Obligations.IntegerArithmetic := ⟨integerSums, integerProducts, integerQuotients, carryArithmetic⟩

/-! ### Logic and shifts (R145, R146) -/

theorem integerLogic : Claims.IntegerLogic := fun _ =>
  ⟨fun z w h => intAB_gives h rfl z w _ _ fun _ _ => el_and _ _,
   fun z w h => intAB_gives h rfl z w _ _ fun _ _ => el_or _ _,
   fun z w h => intAB_gives h rfl z w _ _ fun _ _ => el_xor _ _,
   fun z w h => intAB_gives h rfl z w _ _ fun _ _ => el_andn _ _,
   fun z w h => intImm_gives h rfl z w _ _ fun _ _ => el_and _ _,
   fun z w h => intImm_gives h rfl z w _ _ fun _ _ => el_or _ _,
   fun z w h => intImm_gives h rfl z w _ _ fun _ _ => el_xor _ _⟩

theorem integerShifts : Claims.IntegerShifts := fun _ =>
  ⟨fun z w h => intCount_gives h rfl z w _ _ fun _ _ => el_shl _ _,
   fun z w h => intCount_gives h rfl z w _ _ fun _ _ => el_shr _ _,
   fun z w h => intCount_gives h rfl z w _ _ fun _ _ => el_sar _ _,
   fun z w h => intCount_gives h rfl z.isize w _ _ fun _ _ => by rw [← DSize.isize_width]; exact el_rotl (ISize.width_pos _) _ _,
   fun z w h => intCount_gives h rfl z.isize w _ _ fun _ _ => by rw [← DSize.isize_width]; exact el_rotr (ISize.width_pos _) _ _,
   fun w h => intWords_gives h rfl w _ fun _ _ => el_fshf .l _ _ _,
   fun w h => intWords_gives h rfl w _ fun _ _ => el_fshf .r _ _ _⟩

/-- Settles O2: logic, and shifts with their counts modulo the width. -/
theorem integerLogicAndShifts : Obligations.IntegerLogicAndShifts := ⟨integerLogic, integerShifts⟩

/-! ### Selection, counts and fields (R147, R148) -/

theorem integerSelection : Claims.IntegerSelection := fun _ =>
  ⟨fun z w h => intAB_gives h rfl z w _ _ fun _ _ => el_min_u _ _,
   fun z w h => intAB_gives h rfl z w _ _ fun _ _ => el_min_s _ _,
   fun z w h => intAB_gives h rfl z w _ _ fun _ _ => el_max_u _ _,
   fun z w h => intAB_gives h rfl z w _ _ fun _ _ => el_max_s _ _,
   fun z w h => intA_gives h rfl z w _ fun _ _ => el_clz _,
   fun z w h => intA_gives h rfl z w _ fun _ _ => el_ctz _,
   fun z w h => intA_gives h rfl z w _ fun _ _ => el_popc _,
   fun z w h => intA_gives h rfl z w _ fun _ _ => el_brev _⟩

theorem integerFields : Claims.IntegerFields := fun _ =>
  ⟨fun z w h => intCount_gives h rfl z.isize w _ _ fun _ _ _ hj => by rw [← DSize.isize_width]; exact el_bext _ _ _ hj,
   fun z w h => intABC_gives h rfl z.isize w 1 _ fun _ _ hk _ hj => by
     rw [← DSize.isize_width, elem_third z _ hk, DSize.isize_kind]
     exact el_bins _ _ _ _ hj,
   fun z w h => intCount_gives h rfl z.isize w _ _ fun _ _ _ hj => by rw [← DSize.isize_width]; exact el_ext_u _ _ _ hj,
   fun z w h => intCount_gives h rfl z.isize w _ _ fun _ _ _ hj => by rw [← DSize.isize_width]; exact el_ext_s _ _ _ hj,
   fun w h => intWords_gives h rfl w _ fun _ _ j hj => el_perm _ _ _ j hj⟩

/-- Settles O3: the smaller and the larger, counts and reversal; bit fields and byte permutation. -/
theorem integerSelectionAndFields : Obligations.IntegerSelectionAndFields := ⟨integerSelection, integerFields⟩

end Sys2Proof.Machine
end

section
/-!
PROOFS. `NOP` (R136): an instruction that leaves its group as it is, and the memory that an issue finds.
-/

namespace Sys2Proof.Machine

/-! ### Memory before the lanes act -/

/-- The debit of an issue reaches no byte of memory. -/
theorem State.debit_mem (s : State) (p : Party) (x : Sig) (act : Mask) : (s.debit p x act).mem = s.mem := by
  unfold State.debit
  split
  · rfl
  · rw [State.modDie_mem]
    exact List.foldlRecOn (motive := fun t : State => t.mem = s.mem) _ _ rfl fun _ ht _ _ => ht

theorem State.specCount_mem (s : State) (p : Party) (x : Sig) (act : Mask) : (s.specCount p x act).mem = s.mem := by
  cases p <;> rfl

/-- An instruction that reads no constant window finds memory as it was. -/
theorem State.opened_mem (s : State) {i : Instr} (hkw : (sig i).kw = 0) : (s.opened i).mem = s.mem := by
  rw [State.opened, State.windowed, State.kOperand, if_pos hkw, State.begun, State.specCount_mem, State.debit_mem]

/-! ### Instructions that change nothing -/

theorem State.modGrp_id (s : State) (p : Party) : s.modGrp p id = s := by
  cases p with
  | lc n =>
    show s.modLc n id = s
    simp only [State.modLc, setAt, List.modify_id]
  | grp tid j =>
    have hteam (x : Team) : x.modGrp j id = x := by
      simp only [Team.modGrp, setAt, Option.map_id, List.modify_id]
    simp only [State.modGrp, State.modTeam, hteam, ite_self, List.map_id']

/-- A body that leaves its group as it is: no register and no predicate of any group changes. -/
theorem issueG_id_completes {s : State} {i : Instr} (h : s.ready i) (ht : isTransfer i = false) :
    completesAs (issueG i s fun _ => id) i s [] [] fun t => ∀ q, (t.grp q).regs = (s.grp q).regs ∧ (t.grp q).preds = (s.grp q).preds := by
  obtain ⟨t, hnext, -, hmoved, hkeeps, hteams⟩ := issueG_completes h ht (fun _ => id) [] [] (fun _ _ => rfl) (fun _ _ _ => rfl)
    (fun _ _ _ _ => rfl) (fun _ => True) (fun _ _ _ _ _ _ => trivial) (fun _ _ => trivial)
  obtain ⟨u, g, hnext', hquiet, ⟨hregs, hpreds, -⟩, -⟩ :=
    issueG_ready h ht (fun _ => id) (fun _ _ => rfl) (fun _ _ => rfl) (fun _ _ _ => rfl)
  obtain rfl : t = u := Host.Outcome.next.inj (hnext.symm.trans hnext')
  refine ⟨t, hnext, fun q => ?_, hmoved, hkeeps, hteams⟩
  by_cases hq : q = s.cur
  · subst hq
    rw [id, ite_self] at hregs hpreds
    exact ⟨hregs.trans hquiet.regs, hpreds.trans hquiet.preds⟩
  · obtain ⟨hr, hp, -⟩ := hkeeps.others q hq
    exact ⟨hr, hp⟩

theorem execNop_eq (w : CtlW) (s : State) : execNop w s = issueG (.nop w) s fun _ => id := by
  simp only [execNop, issueG, State.modGrp_id]

/-- Settles O58: `NOP` leaves every group as it is, and it reads no constant window, so memory is as before its issue. -/
theorem nopHasNoEffect : Obligations.NopHasNoEffect := by
  intro s w h
  have hnop := issueG_id_completes h rfl
  rw [← execNop_eq] at hnop
  obtain ⟨t, hnext, hgroups, hmoved, hkeeps, hteams⟩ := hnop
  exact ⟨t, hnext, ⟨hgroups, fun a => (hkeeps.mem a).trans (byte_congr (s.opened_mem rfl) a)⟩, hmoved, hkeeps, hteams⟩

end Sys2Proof.Machine
end

section
/-!
PROOFS. What supervisor software of a latency core fetches from plain memory (R62, R336, R337), and what its reads leave alone.
-/

namespace Sys2Proof.Machine

/-! ### Reads of a latency core leave memory, threads and free reservations as they are -/

/-- What a read of a latency core leaves alone beside what `Quiet` says: memory, every thread, and a reservation is never made. -/
structure Undisturbed (s t : State) : Prop where
  mem : t.mem = s.mem
  absent : t.absent = s.absent
  threads : ∀ n, (t.lc n).grp.threads = (s.lc n).grp.threads
  resv : ∀ n, (s.lc n).resv = none → (t.lc n).resv = none

theorem Undisturbed.of_lcs {s t : State} (hm : t.mem = s.mem) (ha : t.absent = s.absent) (hl : t.lcs = s.lcs) : Undisturbed s t :=
  ⟨hm, ha, fun n => by simp only [State.lc, hl], fun n h => by simpa only [State.lc, hl] using h⟩
theorem Undisturbed.refl (s : State) : Undisturbed s s := Undisturbed.of_lcs rfl rfl rfl
theorem Undisturbed.trans {a b c : State} (h : Undisturbed a b) (k : Undisturbed b c) : Undisturbed a c :=
  ⟨k.mem.trans h.mem, k.absent.trans h.absent, fun n => (k.threads n).trans (h.threads n), fun n hn => k.resv n (h.resv n hn)⟩

/-- Latency cores of which each keeps its group, and its reservation if it has none. -/
theorem Undisturbed.mapIdx {s t : State} (f : Nat → LCore → LCore) (hg : ∀ n c, (f n c).grp = c.grp)
    (hr : ∀ n c, c.resv = none → (f n c).resv = none) (hm : t.mem = s.mem) (ha : t.absent = s.absent) (hl : t.lcs = s.lcs.mapIdx f) :
    Undisturbed s t := by
  have hlc : ∀ n, t.lc n = s.lc n ∨ t.lc n = f n (s.lc n) := by
    intro n
    simp only [State.lc, hl, List.getD_eq_getElem?_getD, List.getElem?_mapIdx]
    cases s.lcs[n]? with
    | none => exact .inl rfl
    | some c => exact .inr rfl
  refine ⟨hm, ha, fun n => ?_, fun n h => ?_⟩
  · rcases hlc n with e | e
    · rw [e]
    · rw [e, hg]
  · rcases hlc n with e | e
    · rw [e]; exact h
    · rw [e]; exact hr n _ h

theorem State.undisturbed_cancelOn (s : State) (line : Nat) (but : Option Nat) : Undisturbed s (s.cancelOn line but) := by
  refine Undisturbed.mapIdx _ (fun n c => ?_) (fun n c h => ?_) rfl rfl rfl
  · split <;> rfl
  · split
    · rfl
    · exact h
theorem State.undisturbed_recall (s : State) (line : Nat) (but : Option Nat) : Undisturbed s (s.recall line but) :=
  (s.undisturbed_cancelOn line but).trans (Undisturbed.of_lcs rfl rfl rfl)
theorem State.undisturbed_downgrade (s : State) (line : Nat) (but : Option Nat) : Undisturbed s (s.downgrade line but) := by
  refine Undisturbed.mapIdx _ (fun n c => ?_) (fun n c h => ?_) rfl rfl rfl
  · split <;> rfl
  · split
    · rfl
    · exact h
theorem State.undisturbed_markRecall (s : State) (line : Nat) : Undisturbed s (s.markRecall line) := by
  refine Undisturbed.mapIdx (fun _ c => { c with resv := c.resv.map fun r => if r.line == line then { r with recalled := true } else r })
    (fun _ _ => rfl) (fun _ c h => ?_) rfl rfl ?_
  · simp only [h, Option.map_none]
  · exact List.ext_getElem (by simp [State.markRecall]) fun k _ _ => by simp [State.markRecall]
theorem State.undisturbed_enterHome (s : State) (line : Nat) (rh : Retain) : Undisturbed s (s.enterHome line rh) := by
  unfold State.enterHome
  extract_lets i others
  split
  · rename_i v _
    split
    · exact Undisturbed.of_lcs rfl rfl rfl
    · split
      · refine Undisturbed.trans ?_ (State.undisturbed_markRecall _ v.line)
        exact Undisturbed.of_lcs rfl rfl rfl
      · refine Undisturbed.trans ?_ (State.undisturbed_recall _ v.line none)
        exact Undisturbed.of_lcs rfl rfl rfl
  · exact Undisturbed.of_lcs rfl rfl rfl
theorem State.undisturbed_sample (s : State) (pa req : Nat) (fam : Option W32) : Undisturbed s (s.sample pa req fam) := by
  unfold State.sample
  extract_lets
  repeat' split
  all_goals exact Undisturbed.of_lcs rfl rfl rfl
theorem State.undisturbed_learn (s : State) (n line : Nat) : Undisturbed s (s.learn (.lc n) line) := by
  unfold State.learn
  extract_lets w
  split
  · by_cases hn : n < s.lcs.length
    · refine ⟨rfl, rfl, fun k => ?_, fun k h => ?_⟩
      · simp only [State.modGrp, State.lc_modLc _ _ _ _ hn]; split <;> rfl
      · simp only [State.modGrp, State.lc_modLc _ _ _ _ hn]; split <;> exact h
    · exact Undisturbed.of_lcs rfl rfl (setAt_ge _ _ _ (Nat.le_of_not_lt hn))
  · exact Undisturbed.refl s
theorem State.undisturbed_readHome (s : State) (p n pa : Nat) (rh : Retain) : Undisturbed s (s.readHome (.lc p) n pa rh) := by
  refine Undisturbed.trans ?_ (State.undisturbed_learn _ p (lineOf pa))
  unfold State.fillHome
  extract_lets line
  split
  · split
    · exact Undisturbed.refl s
    · exact Undisturbed.of_lcs rfl rfl rfl
  · rename_i s1 s2 _ _
    have h1 : Undisturbed s s1 := (State.undisturbed_downgrade _ _ _).trans (State.undisturbed_enterHome _ _ _)
    have h2 : Undisturbed s1 s2 := by
      show Undisturbed s1 (if _ then _ else _)
      split <;> exact Undisturbed.of_lcs rfl rfl rfl
    exact h1.trans (h2.trans (State.undisturbed_sample _ _ _ _))

/-! ### Plain memory -/

theorem State.plain.of_eq {s t : State} {pa n : Nat} (h : s.plain pa n) (hl : t.link = s.link) (hm : t.moved = s.moved)
    (hp : t.pages = s.pages) (hw : t.wstores = s.wstores) : t.plain pa n := by
  obtain ⟨⟨pkg, domain, die, inside, fixed, page⟩, windows⟩ := h
  refine ⟨⟨?_, ?_, die, inside, ?_, ?_⟩, ?_⟩
  · rw [hl]; exact pkg
  · rw [hl]; exact domain
  · rw [hm]; exact fixed
  · rw [hp]; exact page
  · simpa only [State.windowedOver, hw] using windows

variable {s : State} {pa n : Nat}

theorem State.homed.redirect_eq (h : s.homed pa n) : s.redirect pa = pa := by
  rw [State.redirect, h.fixed]
theorem State.homed.touch_eq (h : s.homed pa n) : s.touch pa n = s := by
  have hin := h.inside
  rw [State.touch, if_neg]
  simp only [Bool.and_eq_true, decide_eq_true_eq, not_and]
  omega
theorem State.homed.remote_eq (h : s.homed pa n) : s.remote pa = false := by
  have hnone : s.pages.find? (·.isFor (pageOf pa)) = none := List.find?_eq_none.2 fun r hr => by simp [h.page r hr]
  simp [State.remote, State.writerOf, hnone, h.pkg]
theorem State.homed.paOk_eq (h : s.homed pa n) : s.paOk pa = true := by
  have hd := h.die
  simp only [State.paOk, h.pkg, h.domain, Bool.true_and, Bool.not_eq_true', Bool.and_eq_false_iff, decide_eq_false_iff_not]
  omega

/-- A latency core reads plain memory at its home. -/
theorem State.read_plain (k : Nat) (x : Xl) (via : Via) (rh : Retain) (h : s.plain x.pa n) (hn : n ≠ 16) :
    s.read (.lc k) x n via rh = Eff.ok (s.readHome (.lc k) k x.pa (x.hint rh)) (s.bytes x.pa n, s.poisoned x.pa n) := by
  have hm := h.tohomed
  unfold State.read State.read1
  simp only [hn, decide_false, Bool.and_false, Bool.false_eq_true, if_false, hm.redirect_eq, hm.touch_eq, hm.remote_eq, h.windows]

/-! ### Headers that supervisor software reaches -/

theorem spaceOfPtbr_en (ptbr : W64) (sup : Bool) : (spaceOfPtbr ptbr sup).en = ptbr.getLsbD 0 := rfl
theorem spaceOfPtbr_sup (ptbr : W64) (sup : Bool) : (spaceOfPtbr ptbr sup).sup = sup := rfl

/-- A fetch whose page a TLB holds touches the TLBs alone. -/
theorem State.lookup_fetch {hs : List Holder} {sp : Space} {a : W64} {x : Tlb} (h : s.tlbFind hs sp a = some x) :
    ∃ t, s.lookup hs sp a .fetch = (t, .ok x) ∧ t = { s with tlbs := t.tlbs } := by
  have hkind : (AccKind.fetch == .store || AccKind.fetch == .rmw) = false := rfl
  refine ⟨s.install (hs.filter fun h => (s.tlbAt h sp a).isNone) x, ?_, rfl⟩
  simp only [State.lookup, h, hkind, Bool.and_false, Bool.false_and, Bool.false_eq_true, if_false]

theorem State.codeAt.translate_eq {k : Nat} {a : W64} (h : s.codeAt k a pa) (hok : s.paOk pa = true) :
    ∃ t x, s.translate (s.tlbPath (.lc k)) (spaceOfPtbr (s.lc k).ptbr true) a .fetch = (t, .ok x) ∧ x.pa = pa ∧
      t = { s with tlbs := t.tlbs } := by
  unfold State.translate
  rcases h with ⟨hoff, rfl⟩ | ⟨hon, x, hfind, hperm, hpa⟩
  · refine ⟨s, { pa := a.toNat % 2 ^ 52, mt := mtOf (a.toNat % 2 ^ 52) 0, lc := 0 }, ?_, rfl, rfl⟩
    simp only [spaceOfPtbr_en, spaceOfPtbr_sup, hoff, hok, Bool.not_false, if_true]
  · obtain ⟨t, hlook, ht⟩ := State.lookup_fetch hfind
    have hok' : t.paOk pa = true := by rw [ht]; exact hok
    refine ⟨t, { pa := pa, mt := mtOf pa (leafMt x.leaf), lc := leafLc x.leaf }, ?_, rfl, ht⟩
    simp only [spaceOfPtbr_en, spaceOfPtbr_sup, hon, hlook, hperm, ← hpa, hok', Bool.not_true, Bool.false_eq_true, if_false]

/-- Supervisor software fetches the word at an address that it reaches. -/
theorem State.codeAt.fetch_eq {k l : Nat} {a : W64} (h : s.codeAt k a pa) (hsup : (s.lc k).sup = true) (hcanon : canonical a = true)
    (hp : s.plain pa 8) (hpoi : s.poisoned pa 8 = false) :
    ∃ t, s.fetch (.lc k) l a = (t, .ok (BitVec.ofNat 64 (s.rdN pa 8))) ∧ Quiet s t ∧ Undisturbed s t := by
  obtain ⟨u, x, htr, rfl, hu⟩ := h.translate_eq hp.paOk_eq
  have hspace : s.spaceOf (.lc k) l = spaceOfPtbr (s.lc k).ptbr true := by simp only [State.spaceOf, hsup]
  have hkind : (AccKind.fetch == AccKind.rmw) = false := rfl
  have hacc : s.access (.lc k) l a 8 .fetch false false = Eff.ok u x := by
    unfold State.access
    simp only [hcanon, hspace, spaceOfPtbr_sup, htr, hkind, Bool.not_true, Bool.and_false, Bool.false_and, Bool.false_eq_true, if_false]
  have hread := State.read_plain (s := u) k x .code .dflt (hp.of_eq (by rw [hu]) (by rw [hu]) (by rw [hu]) (by rw [hu])) (n := 8) (by decide)
  have hf : s.fetch (.lc k) l a = (u.readHome (.lc k) k x.pa (x.hint .dflt), .ok (BitVec.ofNat 64 (s.rdN x.pa 8))) := by
    have hclean : u.poisoned x.pa 8 = false := by rw [hu]; exact hpoi
    have hbytes : u.bytes x.pa 8 = s.bytes x.pa 8 := by rw [hu]; rfl
    simp only [State.fetch, hacc, Eff.bind, Eff.ok, hread, hclean, hbytes, Bool.false_eq_true, if_false]
    rfl
  have hq := State.quiet_fetch s (.lc k) l a
  rw [hf] at hq
  refine ⟨_, hf, hq, Undisturbed.trans ?_ (State.undisturbed_readHome u k k _ _)⟩
  rw [hu]
  exact Undisturbed.of_lcs rfl rfl rfl

theorem State.headerAt.header_eq {k : Nat} {a w : W64} (h : s.headerAt k a w) (hsup : (s.lc k).sup = true) :
    ∃ t, s.header (.lc k) 0 a = (t, .block { addr := a, word := w }) ∧ Quiet s t ∧ Undisturbed s t := by
  obtain ⟨hcanon, ⟨pa, hcode, hplain, hpoi, rfl⟩, hhdr, hgood⟩ := h
  obtain ⟨t, hf, hq, hu⟩ := hcode.fetch_eq (l := 0) hsup hcanon hplain hpoi
  refine ⟨t, ?_, hq, hu⟩
  have hregs : s.nregs (.lc k) 0 = 768 := rfl
  unfold State.header
  simp only [hf, hhdr, hregs, hgood, Bool.not_true, Bool.false_eq_true, if_false]

/-- A change of the latency cores that keeps the translation of core `k` keeps the code that the core reaches. -/
theorem State.headerAt.of_lcs {t : State} {k : Nat} {a w : W64} (h : s.headerAt k a w) (ht : t = { s with lcs := t.lcs })
    (hp : (t.lc k).ptbr = (s.lc k).ptbr) : t.headerAt k a w := by
  obtain ⟨hcanon, ⟨pa, hcode, hplain, hpoi, hw⟩, hhdr, hgood⟩ := h
  refine ⟨hcanon, ⟨pa, ?_, ?_, ?_, ?_⟩, hhdr, hgood⟩
  · unfold State.codeAt at hcode ⊢
    rw [hp, ht]
    exact hcode
  · rw [ht]
    exact hplain.of_eq rfl rfl rfl rfl
  · rw [ht]
    exact hpoi
  · rw [ht]
    exact hw

end Sys2Proof.Machine
end

section
/-!
PROOFS. Exceptions of a latency core (R269): the state that they leave, and the words that take one at the checks of R66.
-/

namespace Sys2Proof.Machine

variable {s : State}

/-! ### One field of a latency core -/

theorem State.lc_modLc_field {α : Type} (s : State) (n k : Nat) (f : LCore → LCore) (g : LCore → α) (hf : ∀ c, g (f c) = g c) :
    g ((s.modLc n f).lc k) = g (s.lc k) := by
  by_cases hk : k = n
  · subst hk
    by_cases hlen : k < s.lcs.length
    · rw [State.lc_modLc _ _ _ _ hlen, if_pos rfl, hf]
    · rw [State.modLc, setAt_ge _ _ _ (Nat.le_of_not_lt hlen)]
  · rw [State.lc_modLc_ne _ _ _ _ hk]

/-! ### Exceptions (R269) -/

/-- `s.status` of a core that has taken an exception (R266, R269). -/
def trapStatus (st : W32) (hoff : Nat) : W32 :=
  BitVec.ofNat 32 (st.toNat / 2 ^ 31 * 2 ^ 31 + hoff % 1024 * 2 ^ 10 + st.toNat / 4 % 2 * 8 + 0 * 4 + st.toNat % 2 * 2 + 1)
/-- A core that has taken an exception, before it fetches the header at `s.tvec` (R269). -/
def State.excepted (s : State) (n : Nat) (intr : Bool) (code : Nat) (tval epc : W64) (hoff : Nat) : State :=
  s.modLc n fun c => { c with
    status := trapStatus (s.lc n).status hoff, epc := epc, cause := BitVec.ofNat 32 ((if intr then 2 ^ 31 else 0) + code), tval := tval,
    resv := none, wait := .none, inside := false, vector := false
    grp := c.grp.modThr 0 fun t => { t with pc := c.tvec, blk := none, wins := [], st := .ready, got := none, passed := false,
                                            barTok := none, pendPoison := false, since := none } }

theorem State.takeTrap_eq (s : State) (n : Nat) (intr : Bool) (code : Nat) (tval epc : W64) (hoff : Nat) :
    s.takeTrap n intr code tval epc hoff =
      (let s1 := s.excepted n intr code tval epc hoff
       if (s.lc n).tvec.toNat % 8 != 0 then s1.haltCore n
       else match s1.header (.lc n) 0 (s.lc n).tvec with
       | (s2, .block b) => s2.modThr (.lc n) 0 fun t => { t with pc := (s.lc n).tvec + 8#64, blk := some b }
       | (s2, .wait) => s2.modLc n fun c => { c with vector := true }
       | (s2, _) => s2.haltCore n) := by
  unfold State.takeTrap State.excepted trapStatus
  rfl

theorem trapStatus_toNat (st : W32) (hoff : Nat) :
    (trapStatus st hoff).toNat = st.toNat / 2 ^ 31 * 2 ^ 31 + hoff % 1024 * 2 ^ 10 + st.toNat / 4 % 2 * 8 + st.toNat % 2 * 2 + 1 := by
  have hst := st.isLt
  rw [trapStatus, BitVec.toNat_ofNat]
  omega

theorem trapStatus_mode (st : W32) (hoff : Nat) : (trapStatus st hoff).getLsbD 0 = true := by
  simp only [← BitVec.testBit_toNat, Nat.testBit_eq_decide_div_mod_eq, trapStatus_toNat, decide_eq_true_eq]
  omega
theorem trapStatus_pmode (st : W32) (hoff : Nat) : (trapStatus st hoff).getLsbD 1 = st.getLsbD 0 := by
  simp only [← BitVec.testBit_toNat, Nat.testBit_eq_decide_div_mod_eq, trapStatus_toNat, decide_eq_decide]
  omega
theorem trapStatus_ie (st : W32) (hoff : Nat) : (trapStatus st hoff).getLsbD 2 = false := by
  simp only [← BitVec.testBit_toNat, Nat.testBit_eq_decide_div_mod_eq, trapStatus_toNat, decide_eq_false_iff_not]
  omega
theorem trapStatus_pie (st : W32) (hoff : Nat) : (trapStatus st hoff).getLsbD 3 = st.getLsbD 2 := by
  simp only [← BitVec.testBit_toNat, Nat.testBit_eq_decide_div_mod_eq, trapStatus_toNat, decide_eq_decide]
  omega
theorem trapStatus_hoff (st : W32) (hoff : Nat) : (trapStatus st hoff).toNat / 2 ^ 10 % 2 ^ 10 = hoff % 2 ^ 10 := by
  have hst := st.isLt
  rw [trapStatus_toNat]
  omega

theorem State.excepted_lc {k : Nat} (hk : k < s.lcs.length) (intr : Bool) (code : Nat) (tval epc : W64) (hoff : Nat) :
    (s.excepted k intr code tval epc hoff).lc k = { s.lc k with
      status := trapStatus (s.lc k).status hoff, epc := epc, cause := BitVec.ofNat 32 ((if intr then 2 ^ 31 else 0) + code), tval := tval,
      resv := none, wait := .none, inside := false, vector := false
      grp := (s.lc k).grp.modThr 0 fun t => { t with pc := (s.lc k).tvec, blk := none, wins := [], st := .ready, got := none, passed := false,
                                                     barTok := none, pendPoison := false, since := none } } := by
  rw [State.excepted, State.lc_modLc _ _ _ _ hk, if_pos rfl]

/-- A core whose `s.tvec` names a good header takes the exception there. -/
theorem State.takeTrap_enters {k : Nat} {w : W64} (hk : k < s.lcs.length) (hh : s.headerAt k (s.lc k).tvec w)
    (hal : (s.lc k).tvec.toNat % 8 = 0) (intr : Bool) (code : Nat) (tval epc : W64) (hoff : Nat) :
    ∃ u, Quiet (s.excepted k intr code tval epc hoff) u ∧ Undisturbed (s.excepted k intr code tval epc hoff) u ∧
      s.takeTrap k intr code tval epc hoff =
        u.modThr (.lc k) 0 fun t => { t with pc := (s.lc k).tvec + 8#64, blk := some { addr := (s.lc k).tvec, word := w } } := by
  have hlc := State.excepted_lc hk intr code tval epc hoff
  have hsup : ((s.excepted k intr code tval epc hoff).lc k).sup = true := by
    rw [LCore.sup, hlc]; exact trapStatus_mode _ _
  have hh' : (s.excepted k intr code tval epc hoff).headerAt k (s.lc k).tvec w := hh.of_lcs rfl (by rw [hlc])
  obtain ⟨u, hu, hq, hd⟩ := hh'.header_eq hsup
  refine ⟨u, hq, hd, ?_⟩
  rw [State.takeTrap_eq]
  simp only [hal, hu, bne_self_eq_false, Bool.false_eq_true, if_false]

/-- Interrupt bit and code of `s.cause` (R267). -/
theorem causeWord_toNat (intr : Bool) {code : Nat} (hcode : code < 2 ^ 31) :
    (BitVec.ofNat 32 ((if intr then 2 ^ 31 else 0) + code)).toNat = (if intr then 2 ^ 31 else 0) + code := by
  rw [BitVec.toNat_ofNat]
  cases intr <;> simp only [Bool.false_eq_true, if_true, if_false] <;> omega
theorem causeWord_msb (intr : Bool) {code : Nat} (hcode : code < 2 ^ 31) :
    (BitVec.ofNat 32 ((if intr then 2 ^ 31 else 0) + code)).msb = intr := by
  rw [BitVec.msb_eq_decide, causeWord_toNat intr hcode]
  cases intr
  · simp; omega
  · simp

theorem State.takeTrap_trapped {k code : Nat} {w : W64} (hk : k < s.lcs.length) (hthr : 0 < (s.lc k).grp.threads.length)
    (hh : s.headerAt k (s.lc k).tvec w) (hal : (s.lc k).tvec.toNat % 8 = 0) (intr : Bool) (hcode : code < 2 ^ 31) (tval epc : W64) (hoff : Nat) :
    s.trapped (s.takeTrap k intr code tval epc hoff) k intr code tval epc hoff w ∧
      (s.takeTrap k intr code tval epc hoff).absent = s.absent := by
  obtain ⟨u, hq, hd, e⟩ := State.takeTrap_enters hk hh hal intr code tval epc hoff
  have hv := State.excepted_lc hk intr code tval epc hoff
  have hother : ∀ j, j ≠ k → (s.excepted k intr code tval epc hoff).lc j = s.lc j := fun j hj => State.lc_modLc_ne _ _ _ _ hj
  have hlen : (s.excepted k intr code tval epc hoff).lcs.length = s.lcs.length := State.lcs_length_modLc ..
  have hmem : (s.excepted k intr code tval epc hoff).mem = s.mem := rfl
  have habs : (s.excepted k intr code tval epc hoff).absent = s.absent := rfl
  generalize s.excepted k intr code tval epc hoff = v at hq hd hv hother hlen hmem habs
  have huk : k < u.lcs.length := by rw [hq.same.lcs, hlen]; exact hk
  have hnone : (u.lc k).resv = none := hd.resv k (by rw [hv])
  have hthreads : (u.lc k).grp.threads = (v.lc k).grp.threads := hd.threads k
  have hregs : (u.lc k).grp.regs = (v.lc k).grp.regs ∧ (u.lc k).grp.preds = (v.lc k).grp.preds :=
    ⟨(hq.grp (.lc k)).regs, (hq.grp (.lc k)).preds⟩
  have hcore : (s.takeTrap k intr code tval epc hoff).lc k = { v.lc k with
      grp := (u.lc k).grp.modThr 0 fun t => { t with pc := (s.lc k).tvec + 8#64, blk := some { addr := (s.lc k).tvec, word := w } }
      resv := none } := by
    rw [e, State.modThr, State.modGrp, State.lc_modLc _ _ _ _ huk, if_pos rfl, hq.lc k]
    simp only [hnone]
  have hthread : (s.takeTrap k intr code tval epc hoff).thr (.lc k) 0 = { (s.lc k).grp.thr 0 with
      pc := (s.lc k).tvec + 8#64, blk := some { addr := (s.lc k).tvec, word := w }, wins := [], st := .ready, got := none, passed := false,
      barTok := none, pendPoison := false, since := none } := by
    have hu : (u.lc k).grp.thr 0 = (v.lc k).grp.thr 0 := by simp only [Group.thr, hthreads]
    have hsize : 0 < (u.lc k).grp.threads.length := by rw [hthreads, hv, Group.modThr_length]; exact hthr
    simp only [State.thr, State.grp, hcore]
    rw [Group.thr_modThr _ _ _ _ hsize, if_pos rfl, hu, hv, Group.thr_modThr _ _ _ _ hthr, if_pos rfl]
  have hothers : ∀ j, j ≠ k → (s.takeTrap k intr code tval epc hoff).lc j = u.lc j := fun j hj => by
    rw [e]; exact State.lc_modLc_ne _ _ _ _ hj
  refine ⟨⟨?epc, ?tval, ?code, ?intr, ?mode, ?pmode, ?ie, ?pie, ?hoff, ?resv, ⟨?pc, ?blk, ?st⟩, ?wins, ⟨?regs, ?preds⟩, ?others, ?mem⟩, ?absent⟩
  case epc => rw [hcore, hv]
  case tval => rw [hcore, hv]
  case code =>
    rw [hcore, hv, causeWord_toNat intr hcode]
    cases intr <;> simp
  case intr => rw [hcore, hv]; exact causeWord_msb intr hcode
  case mode => rw [hcore, hv]; exact trapStatus_mode _ _
  case pmode => rw [hcore, hv]; exact trapStatus_pmode _ _
  case ie => rw [hcore, hv]; exact trapStatus_ie _ _
  case pie => rw [hcore, hv]; exact trapStatus_pie _ _
  case hoff => rw [hcore, hv]; exact trapStatus_hoff _ _
  case resv => rw [hcore]
  case pc => rw [hthread]
  case blk => rw [hthread]
  case st => rw [hthread]
  case wins => rw [hthread]
  case regs => rw [hcore, Group.modThr_regs, hregs.1, hv]; rfl
  case preds => rw [hcore, Group.modThr_preds, hregs.2, hv]; rfl
  case others =>
    intro j hj
    have hu := hq.specials j
    have hr : (u.lc j).grp.regs = (v.lc j).grp.regs := (hq.grp (.lc j)).regs
    rw [hothers j hj, hu, hr, hother j hj]
    exact ⟨rfl, rfl⟩
  case mem =>
    intro a
    rw [e]
    exact byte_congr (hd.mem.trans hmem) a
  case absent => rw [e]; exact hd.absent.trans habs

/-! ### The cause register after an exception (R267, R269) -/

theorem State.cause_raise (s : State) (n k : Nat) (irq : Irq) : ((s.raise n irq).lc k).cause = (s.lc k).cause := by
  unfold State.raise
  exact State.lc_modLc_field s _ k _ LCore.cause fun _ => rfl
theorem Quiet.cause {t : State} (h : Quiet s t) (k : Nat) : (t.lc k).cause = (s.lc k).cause := by rw [h.lc k]

theorem State.quiet_logDrain (s : State) (n : Nat) : Quiet s (s.logDrain n) := by
  induction n generalizing s with
  | zero => exact Quiet.refl s
  | succ n ih =>
    unfold State.logDrain
    split
    · exact Quiet.refl s
    · rename_i r rest _
      extract_lets head tail s1 s2
      split
      · exact Quiet.refl s
      · have h1 : Quiet s s1 := State.quiet_storeHw _ _ _
        have h2 : Quiet s1 s2 := State.quiet_storeHw _ _ _
        refine h1.trans (h2.trans (Quiet.trans ?_ (ih _)))
        exact Quiet.of_rfl rfl rfl rfl rfl rfl rfl rfl rfl rfl rfl rfl rfl rfl
theorem State.quiet_logError (s : State) (kind struct unit : Nat) (fam : W32) (pa detail : Nat) :
    Quiet s (s.logError kind struct unit fam pa detail) := by
  unfold State.logError
  extract_lets r full
  split
  · exact State.quiet_storeHw _ _ _
  · refine Quiet.trans ?_ (State.quiet_logDrain _ _)
    exact Quiet.of_rfl rfl rfl rfl rfl rfl rfl rfl rfl rfl rfl rfl rfl rfl

theorem State.cause_haltCore (s : State) (n k : Nat) : ((s.haltCore n).lc k).cause = (s.lc k).cause := by
  unfold State.haltCore
  rw [(State.quiet_logError _ 6 11 n 0#32 0 0).cause]
  refine List.foldlRecOn (motive := fun t : State => (t.lc k).cause = (s.lc k).cause) _ _ ?_ fun t ht irq _ => ?_
  · exact State.lc_modLc_field s n k _ LCore.cause fun _ => rfl
  · exact (State.cause_raise t n k irq).trans ht

/-- Whatever stands at `s.tvec`, an exception leaves its own cause. -/
theorem State.cause_takeTrap {k : Nat} (hk : k < s.lcs.length) (intr : Bool) (code : Nat) (tval epc : W64) (hoff : Nat) :
    ((s.takeTrap k intr code tval epc hoff).lc k).cause = BitVec.ofNat 32 ((if intr then 2 ^ 31 else 0) + code) := by
  have hc : ((s.excepted k intr code tval epc hoff).lc k).cause = BitVec.ofNat 32 ((if intr then 2 ^ 31 else 0) + code) := by
    rw [State.excepted_lc hk]
  have hq := State.quiet_header (s.excepted k intr code tval epc hoff) (.lc k) 0 (s.lc k).tvec
  rw [State.takeTrap_eq, ← hc]
  dsimp only
  split
  · exact State.cause_haltCore _ k k
  · split <;> rename_i e <;> rw [e] at hq <;> rw [← hq.cause k]
    · exact State.lc_modLc_field _ k k _ LCore.cause fun _ => rfl
    · exact State.lc_modLc_field _ k k _ LCore.cause fun _ => rfl
    · exact State.cause_haltCore _ k k

variable {n : Nat} {i : Instr}

/-! ### Words that trap on a latency core (R66, R269) -/

theorem State.alone.lane_mem (ha : s.alone n) : n < s.lcs.length ∧ 0 < (s.lc n).grp.threads.length := by
  have hmem : 0 ∈ s.runLanes := by rw [ha.run]; exact List.mem_singleton_self 0
  have hhas := State.runWith_has s s.cur s.curLane (List.ne_nil_of_mem hmem)
  have hlane := (State.mem_runWith hmem).2.1
  rw [ha.cur] at hhas hlane
  exact ⟨of_decide_eq_true hhas, hlane⟩

/-- The mark of a thread that its region leaves behind at its word. -/
def Thread.markBehind (t : Thread) (b : Bool) : Thread := { t with behind := b }

theorem endAll_lc_trap (s : State) (n : Nat) (i : Instr) (x : Sig) (t : Trap) :
    s.endAll (.lc n) i x [(0, .trap t)] =
      ((s.modThr (.lc n) 0 (·.markBehind ((s.lc n).grp.gst == .region))).trapLc n t).modLc n
        fun c => { c with inside := false } := rfl

/-- The lone thread of a latency core fails a check of R66: its word traps, and nothing of it is performed. -/
theorem issue_refused (ha : s.alone n) (hs : s.stands i) (hkw : (sig i).kw = 0) (ht : isTransfer i = false) {code : Nat}
    (hc : ∀ live, laneCause s (.lc n) (sig i) live 0 = some code) (body : State → Ctx → State × List (Nat × LaneEnd)) :
    issue i s body = finish (s.endAll (.lc n) i (sig i) [(0, .trap { cause := code })]) := by
  obtain ⟨b, hb⟩ := Option.isSome_iff_exists.1 hs.block
  have hfree := hs.free
  have hspec : ∀ noTrap, s.specAllows (.lc n) i (sig i) [0] noTrap = true := fun _ => rfl
  have hpow : ∀ act, s.powered (.lc n) (sig i) act = true := fun _ => rfl
  have hdebit : ∀ act, (s.debit (.lc n) (sig i) act).specCount (.lc n) (sig i) act = s := fun _ => rfl
  have hk : ∀ act, s.kOperand (.lc n) (sig i) act = (s, Src.none, []) := fun _ => if_pos hkw
  have hbad : assoc 0 [(0, code)] = some code := rfl
  have hnone : Mask.ofLanes [] = 0#64 := rfl
  rw [ha.cur] at hb hfree
  unfold issue
  simp only [ha.cur, hb, ha.run, List.filterMap_cons, List.filterMap_nil, List.filter_cons, List.filter_nil, hc, Option.map_some, hfree, hspec, hpow,
    hdebit, hk, hbad, hnone, ht, List.isEmpty_cons, Option.isNone_some, Bool.or_self, Bool.not_true, Bool.false_eq_true, if_false, List.map_cons, List.map_nil,
    BitVec.zero_and, beq_self_eq_true, Bool.not_false, Bool.and_self, if_true]

/-- A trap is taken alike from two states that differ in nothing that R269 names. -/
theorem State.trapped.of_same {u t : State} {intr : Bool} {code hoff : Nat} {tval epc w : W64} (h : u.trapped t n intr code tval epc hoff w)
    (hst : (u.lc n).status = (s.lc n).status) (htv : (u.lc n).tvec = (s.lc n).tvec)
    (hregs : (u.lc n).grp.regs = (s.lc n).grp.regs) (hpreds : (u.lc n).grp.preds = (s.lc n).grp.preds)
    (hothers : ∀ k, k ≠ n → u.lc k = s.lc k) (hmem : u.mem = s.mem) : s.trapped t n intr code tval epc hoff w where
  epc := h.epc
  tval := h.tval
  code := h.code
  intr := h.intr
  mode := h.mode
  pmode := by rw [← hst]; exact h.pmode
  ie := h.ie
  pie := by rw [← hst]; exact h.pie
  hoff := h.hoff
  resv := h.resv
  entry := by rw [← htv]; exact h.entry
  wins := h.wins
  regs := ⟨h.regs.1.trans hregs, h.regs.2.trans hpreds⟩
  others := fun k hk => by rw [← hothers k hk]; exact h.others k hk
  mem := fun a => (h.mem a).trans (byte_congr hmem a)

/-- `inside` is no part of what R269 names. -/
theorem State.trapped.inside {t : State} {intr : Bool} {code hoff : Nat} {tval epc w : W64} (h : s.trapped t n intr code tval epc hoff w) (b : Bool) :
    s.trapped (t.modLc n fun c => { c with inside := b }) n intr code tval epc hoff w := by
  rcases Nat.lt_or_ge n t.lcs.length with hn | hn
  swap
  · rw [State.modLc, setAt_ge _ _ _ hn]; exact h
  have hlc : (t.modLc n fun c => { c with inside := b }).lc n = { t.lc n with inside := b } := by
    rw [State.lc_modLc _ _ _ _ hn, if_pos rfl]
  have hgrp : (t.modLc n fun c => { c with inside := b }).grp (.lc n) = t.grp (.lc n) := by simp only [State.grp, hlc]
  exact {
    epc := by rw [hlc]; exact h.epc
    tval := by rw [hlc]; exact h.tval
    code := by rw [hlc]; exact h.code
    intr := by rw [hlc]; exact h.intr
    mode := by rw [hlc]; exact h.mode
    pmode := by rw [hlc]; exact h.pmode
    ie := by rw [hlc]; exact h.ie
    pie := by rw [hlc]; exact h.pie
    hoff := by rw [hlc]; exact h.hoff
    resv := by rw [hlc]; exact h.resv
    entry := by simp only [State.inBlock, State.thr, hgrp]; exact h.entry
    wins := by simp only [State.thr, hgrp]; exact h.wins
    regs := by rw [hlc]; exact h.regs
    others := fun k hk => by rw [State.lc_modLc_ne _ _ _ _ hk]; exact h.others k hk
    mem := h.mem }

theorem Trap.tval_of_cause (code : Nat) : ({ cause := code } : Trap).tval = 0#64 := by
  unfold Trap.tval
  repeat' split
  all_goals rfl

theorem State.trapLc_of_ne {t : Trap} (h : t.cause ≠ 0x19) (s : State) (n : Nat) :
    s.trapLc n t = s.takeTrap n false t.cause t.tval (s.thr (.lc n) 0).pc (s.thr (.lc n) 0).hoff := if_neg h

/-- A word that fails a check of R66 takes its exception, with the position of the word (R66, R269). -/
theorem issue_trapped (ha : s.alone n) (hs : s.stands i) (hkw : (sig i).kw = 0) (ht : isTransfer i = false) {code : Nat}
    (hc : ∀ live, laneCause s (.lc n) (sig i) live 0 = some code) (hcode : code < 0x19) {w : W64} (hh : s.headerAt n (s.lc n).tvec w)
    (hal : (s.lc n).tvec.toNat % 8 = 0) (body : State → Ctx → State × List (Nat × LaneEnd)) :
    ∃ t, issue i s body = .next t ∧ s.trapped t n false code 0#64 (s.thr (.lc n) 0).pc (s.thr (.lc n) 0).hoff w := by
  obtain ⟨hn, hthr⟩ := ha.lane_mem
  have hhas : s.has (.lc n) = true := decide_eq_true hn
  rw [issue_refused ha hs hkw ht hc body, endAll_lc_trap]
  generalize hu : s.modThr (.lc n) 0 (·.markBehind ((s.lc n).grp.gst == .region)) = u
  have hlc : u.lc n = { s.lc n with grp := (s.lc n).grp.modThr 0 (·.markBehind ((s.lc n).grp.gst == .region)) } := by
    rw [← hu, State.modThr, State.modGrp, State.lc_modLc _ _ _ _ hn, if_pos rfl]
  have hother : ∀ k, k ≠ n → u.lc k = s.lc k := fun k hk => by rw [← hu]; exact State.lc_modLc_ne _ _ _ _ hk
  have hlen : n < u.lcs.length := by rw [← hu, State.modThr, State.modGrp, State.lcs_length_modLc]; exact hn
  have hword : u.thr (.lc n) 0 = (s.thr (.lc n) 0).markBehind ((s.lc n).grp.gst == .region) := by
    rw [← hu, State.thr_modThr _ hhas hthr, if_pos rfl]
  have hrest : u = { s with lcs := u.lcs } := by rw [← hu]; rfl
  obtain ⟨htaken, habs⟩ := State.takeTrap_trapped (s := u) (w := w) hlen (by rw [hlc, Group.modThr_length]; exact hthr)
    (by rw [hlc]; exact hh.of_lcs hrest (by rw [hlc])) (by rw [hlc]; exact hal) false (show code < 2 ^ 31 by omega) 0#64
    (s.thr (.lc n) 0).pc (s.thr (.lc n) 0).hoff
  have htrap : u.trapLc n { cause := code } = u.takeTrap n false code 0#64 (s.thr (.lc n) 0).pc (s.thr (.lc n) 0).hoff := by
    rw [State.trapLc_of_ne (show code ≠ 0x19 by omega), hword, Trap.tval_of_cause]
    rfl
  have hnone : (u.takeTrap n false code 0#64 (s.thr (.lc n) 0).pc (s.thr (.lc n) 0).hoff).absent = none := by
    rw [habs, hrest]; exact hs.there
  rw [htrap]
  refine ⟨_, ?_, (htaken.of_same (by rw [hlc]) (by rw [hlc]) (by rw [hlc]; rfl) (by rw [hlc]; rfl) hother (by rw [hrest])).inside false⟩
  rw [finish, State.modLc_absent, hnone]

end Sys2Proof.Machine
end

section
/-!
PROOFS. Instructions of a latency core whose lanes all succeed, and those that change a special register.
-/

namespace Sys2Proof.Machine

variable {s : State} {n : Nat} {i : Instr}

/-! ### Lanes that all succeed and change nothing -/

theorem eachLane_ok {α : Type} {s : State} {f : State → Nat → Eff α} {v : Nat → α} {ls : List Nat} (h : ∀ l ∈ ls, f s l = Eff.ok s (v l)) :
    eachLane s ls f = (s, ls.map fun l => (l, .ok (v l))) := by
  suffices H : ∀ (ls : List Nat) (rs : List (Nat × Except Stop α)), (∀ l ∈ ls, f s l = Eff.ok s (v l)) →
      ls.foldl (fun (acc : State × List (Nat × Except Stop α)) l => let (s1, r) := f acc.1 l; (s1, acc.2 ++ [(l, r)])) (s, rs) =
        (s, rs ++ ls.map fun l => (l, .ok (v l))) from H ls [] h
  intro ls
  induction ls with
  | nil => intro rs _; rw [List.map_nil, List.append_nil]; rfl
  | cons a as ih =>
    intro rs h
    have ha : f s a = (s, .ok (v a)) := h a List.mem_cons_self
    rw [List.foldl_cons]
    simp only [ha]
    rw [ih _ fun l hl => h l (List.mem_cons_of_mem a hl), List.map_cons, List.append_assoc, List.singleton_append]

theorem okLanes_map_ok {α : Type} (ls : List Nat) (v : Nat → α) : okLanes (ls.map fun l => (l, Except.ok (v l))) = ls.map fun l => (l, v l) := by
  simp [okLanes, List.filterMap_map]
theorem endsOf_map_ok {α : Type} (m : Mask) (v : Nat → α) : endsOf ((Mask.lanes m).map fun l => (l, Except.ok (v l))) = nexts m := by
  simp [endsOf, nexts]

theorem ofLanes_lanes (m : Mask) : Mask.ofLanes (Mask.lanes m) = m :=
  Mask.ext_has fun l _ => by
    rw [Mask.has_ofLanes _ _ fun k hk => Mask.has_lt ((Mask.mem_lanes m k).1 hk), Bool.eq_iff_iff, List.contains_iff_mem, Mask.mem_lanes]

/-- A read that gives every lane one value writes it as a result of tag U (R273). -/
theorem sysHint_const (g : Group) (fan : Bool) {num : Nat} (h11 : num ≠ 0x011) (h10 : num ≠ 0x010) (ls : List Nat) (v : Nat) :
    sysHint g fan num (ls.map fun l => (l, v)) = .u := by
  cases ls with
  | nil => simp [sysHint]
  | cons a as => simp [sysHint, h11, h10]

/-- The odd register of a pair takes 0 from a 32-bit register (R27). -/
theorem Group.putSys_narrow (g : Group) (d : BitVec 10) {k : Nat} (hk : k = 1 ∨ k = 2) {act : Mask} (hact : act ≠ 0#64) (v : W32) :
    g.putSys d k false ((Mask.lanes act).map fun l => (l, v.toNat)) .u =
      g.put k d act (fun l => if Mask.has act l then v.setWidth 64 else 0#64) .u 0#64 := by
  have hlanes : Mask.lanes act ≠ [] := fun hnil => hact (by rw [← ofLanes_lanes act, hnil]; rfl)
  have hempty : ((Mask.lanes act).map fun l => (l, v.toNat)).isEmpty = false := by simpa using hlanes
  have hwho : Mask.ofLanes (((Mask.lanes act).map fun l => (l, v.toNat)).map (·.1)) = act := by
    rw [List.map_map]
    exact (congrArg Mask.ofLanes (List.map_id _)).trans (ofLanes_lanes act)
  have hval (l : Nat) : (assoc l ((Mask.lanes act).map fun l => (l, v.toNat))).getD 0 = if Mask.has act l then v.toNat else 0 := by
    rw [assoc_map_lanes (fun _ => v.toNat)]
    simp only [Mask.mem_lanes]
    split <;> rfl
  have hlow (l : Nat) : BitVec.ofNat 32 (if Mask.has act l then v.toNat else 0) = lo32 (if Mask.has act l then v.setWidth 64 else 0#64) := by
    split <;> simp [lo32]
  have hhigh (l : Nat) : hi32 (if Mask.has act l then v.setWidth 64 else 0#64) = 0#32 := by
    have hv := v.isLt
    split
    · apply BitVec.eq_of_toNat_eq
      simp [hi32, Nat.shiftRight_eq_div_pow]
      omega
    · rfl
  unfold Group.putSys Group.put Group.wrD64 Group.wrD
  simp only [hempty, hwho, hval, hlow, hhigh, Bool.or_false, Bool.false_eq_true, if_false]
  cases inReg d with
  | false => simp
  | true => rcases hk with rfl | rfl <;> simp [lo32]

/-- A ready instruction runs its body only where some lane performs it. -/
theorem issue_congr_acting (h : s.ready i) (ht : isTransfer i = false) (f g : State → Ctx → State × List (Nat × LaneEnd))
    (e : s.acting i ≠ 0#64 → f (s.opened i) (s.ctx i) = g (s.opened i) (s.ctx i)) : issue i s f = issue i s g := by
  by_cases hz : s.acting i = 0#64
  · simp only [issue_of_ready h, hz, ht, beq_self_eq_true, Bool.not_false, Bool.and_self, if_true]
  · exact issue_congr h f g (e hz)

/-- On a latency core no cost is debited and no issue is counted. -/
theorem State.alone.opened_eq (ha : s.alone n) (hkw : (sig i).kw = 0) : s.opened i = s := by
  rw [State.opened, State.windowed, State.kOperand, if_pos hkw, State.begun, ha.cur]
  rfl

theorem sysN_cases (w : CtlW) : sysN w = 1 ∨ sysN w = 2 := by
  unfold sysN
  split
  · exact .inr rfl
  · exact .inl rfl

/-! ### Instructions of a latency core that change one of its special registers -/

theorem State.modLc_congr {f g : LCore → LCore} (h : f (s.lc n) = g (s.lc n)) : s.modLc n f = s.modLc n g := by
  have hl : setAt s.lcs n f = setAt s.lcs n g := by
    refine List.ext_getElem? fun k => ?_
    simp only [setAt, List.getElem?_modify]
    split
    · rename_i e
      subst e
      cases hk : s.lcs[n]? with
      | none => rfl
      | some c =>
        have hc : s.lc n = c := by rw [State.lc, List.getD_eq_getElem?_getD, hk]; rfl
        rw [hc] at h
        exact congrArg some h
    · rfl
  simp only [State.modLc, hl]

/-- A change of a core that keeps its group and lets it run keeps its runs. -/
theorem State.runWith_modLc (s : State) (n k l : Nat) {f : LCore → LCore} (hg : ∀ c, (f c).grp = c.grp) (hh : ∀ c, (f c).held = c.held)
    (ha : ∀ c, (f c).halted = c.halted) : (s.modLc n f).runWith (.lc k) l = s.runWith (.lc k) l := by
  have hgrp : (s.modLc n f).grp (.lc k) = s.grp (.lc k) := State.lc_modLc_field s n k f LCore.grp hg
  have hrun : (s.modLc n f).running (.lc k) = s.running (.lc k) := by
    simp only [State.running, State.lcs_length_modLc, State.lc_modLc_field s n k f LCore.held hh,
      State.lc_modLc_field s n k f LCore.halted ha]
  have hstop : (s.modLc n f).laneStopped (.lc k) = s.laneStopped (.lc k) := rfl
  simp only [State.runWith, hgrp, hrun, hstop]

/-- The body of a ready instruction leaves its run where it was: the run moves on, and what the body left is kept. -/
theorem issue_leaves {u m : State} {ends : List (Nat × LaneEnd)} (h : s.ready i) (hact : s.acting i ≠ 0#64)
    (body : State → Ctx → State × List (Nat × LaneEnd)) (hb : body (s.opened i) (s.ctx i) = (u, ends))
    (hends : ∀ l e, assoc l ends = some e → e = .next) (hcur : u.cur = s.cur) (hrun : u.runLanes = s.runLanes)
    (hgrp : u.grp s.cur = s.grp s.cur) (habs : u.absent = none) (hmem : ∀ a, u.byte a = m.byte a) (hpoi : u.mpoison = m.mpoison)
    (hstores : ∀ k, (u.team k).stores = (s.team k).stores) (results : State → Prop) (hres : ∀ t, Left u t s.cur → results t) :
    ∃ t, issue i s body = .next t ∧ results t ∧ s.movedOn t ∧ Keeps u m t [] [] ∧ s.keepsTeams t i := by
  have hrunU : u.runWith s.cur u.curLane = s.runLanes := by rw [← hrun, State.runLanes, hcur]
  have hhas : u.has s.cur = true := State.runWith_has u s.cur u.curLane (by rw [hrunU]; exact h.issues.run)
  have hlen : ∀ l ∈ s.runLanes, l < (u.grp s.cur).threads.length := fun l hl => by rw [hgrp]; exact (State.mem_runWith hl).2.1
  obtain ⟨hL, hT⟩ := endAll_next i (sig i) s.cur s.runLanes (State.nodup_runWith _ _ _) u hhas hlen
  have hmap : (s.runLanes.map fun l => (l, (assoc l ends).getD LaneEnd.next)) = s.runLanes.map fun l => (l, LaneEnd.next) := by
    refine List.map_congr_left fun l _ => ?_
    cases e : assoc l ends with
    | none => rfl
    | some v => rw [hends l v e]; rfl
  have hnone : (u.endAll s.cur i (sig i) (s.runLanes.map fun l => (l, LaneEnd.next))).absent = none := by rw [hL.rest]; exact habs
  have hkeep : Keeps u m u [] [] := (Quiet.refl u).keeps hmem hpoi
  refine ⟨u.endAll s.cur i (sig i) (s.runLanes.map fun l => (l, LaneEnd.next)), ?next, hres _ hL, ?moved, ?keeps,
    fun _ k => (congrArg Team.stores (hL.teams k)).trans (hstores k)⟩
  case next =>
    have hz : (s.acting i == 0#64) = false := by simpa using hact
    rw [issue_of_ready h]
    simp only [show ({ p := s.cur, ok := Mask.ofLanes s.runLanes, act := s.acting i, k := (s.windowed i).2.1 } : Ctx) = s.ctx i from rfl,
      hz, Bool.false_and, Bool.false_eq_true, if_false, hb, hmap, finish, hnone]
  case moved =>
    intro l hl
    obtain ⟨st, e, hst⟩ := hT l
    have hthr : u.thr s.cur l = s.thr s.cur l := congrArg (·.thr l) hgrp
    rw [if_pos hl, hthr] at e
    rw [hthr, (State.mem_runWith hl).2.2] at hst
    rw [e]
    exact ⟨rfl, hst⟩
  case keeps =>
    refine hkeep.left (x := sig i) (by rw [hcur]; exact hL) fun k => ?_
    obtain ⟨st, e, -⟩ := hT k
    rw [hcur, hrun]
    exact ⟨st, e⟩

end Sys2Proof.Machine
end

section
/-!
PROOFS. `s.cause` (R267): who may access it, what a read gives, what a write sets.
-/

namespace Sys2Proof.Machine

variable {s : State} {n : Nat}

/-! ### Access to `s.cause` (R26, R27) -/

theorem sysCause_cause_user {rd wr : Bool} (h : (rd || wr) = true) : sysCause 0x053 true false rd wr = some 0x0A := by
  revert rd wr; decide
theorem sysCause_cause_sup (rd wr : Bool) : sysCause 0x053 true true rd wr = none := by
  revert rd wr; decide

/-- A word of a user thread that names `s.cause` fails the check of the word (R27). -/
theorem laneCause_cause_user {w : CtlW} (hsup : (s.lc n).sup = false) (hnum : w.num = 0x053) {mbz rd wr : Bool} (h : (rd || wr) = true)
    (hclean : (s.thr (.lc n) 0).pendPoison = false) (live : Nat) : laneCause s (.lc n) (sigS w mbz rd wr) live 0 = some 0x0A := by
  have hthr : ((s.grp (.lc n)).thr 0).pendPoison = false := hclean
  have hcause : sysCause w.num true (s.lc n).sup wr rd = some 0x0A := by
    rw [hnum, hsup]; exact sysCause_cause_user (by rw [Bool.or_comm]; exact h)
  have havail : availCause s (.lc n) (sigS w mbz rd wr) = some 0x0A := by
    have hsys : sysAbsent s (.lc n) (sigS w mbz rd wr) = some 0x0A := by
      show (sysCause w.num true (s.lc n).sup wr rd).filter _ = _
      rw [hcause]; rfl
    unfold availCause
    rw [hsys]; rfl
  simp only [laneCause, hthr, havail, Bool.false_eq_true, if_false]

theorem exec_srr (w : CtlW) (s : State) : exec (.srr w) s = execSrr w s := by rfl
theorem exec_srw (w : CtlW) (s : State) : exec (.srw w) s = execSrw w s := by rfl
theorem exec_srset (w : CtlW) (s : State) : exec (.srset w) s = execSrset w s := by rfl
theorem exec_srclr (w : CtlW) (s : State) : exec (.srclr w) s = execSrclr w s := by rfl

theorem cause_user_traps {w : CtlW} (ha : s.alone n) (hnum : w.num = 0x053) (hsup : (s.lc n).sup = false) {hw : W64}
    (hh : s.headerAt n (s.lc n).tvec hw) (hal : (s.lc n).tvec.toNat % 8 = 0) {i : Instr}
    (hi : i ∈ [Instr.srr w, .srw w, .srset w, .srclr w]) (hs : s.stands i) :
    ∃ t, exec i s = .next t ∧ s.trapped t n false 0x0A 0#64 (s.thr (.lc n) 0).pc (s.thr (.lc n) 0).hoff hw := by
  have hclean : (s.thr (.lc n) 0).pendPoison = false := by
    have h := hs.clean 0 (by rw [ha.run]; exact List.mem_singleton_self 0)
    rwa [ha.cur] at h
  simp only [List.mem_cons, List.not_mem_nil, or_false] at hi
  rcases hi with rfl | rfl | rfl | rfl
  · rw [exec_srr, execSrr]
    exact issue_trapped ha hs rfl rfl (laneCause_cause_user hsup hnum rfl hclean) (by decide) hh hal _
  · rw [exec_srw, execSrw, sysModify]
    exact issue_trapped ha hs rfl rfl (laneCause_cause_user hsup hnum rfl hclean) (by decide) hh hal _
  · rw [exec_srset, execSrset, sysModify]
    exact issue_trapped ha hs rfl rfl (laneCause_cause_user hsup hnum rfl hclean) (by decide) hh hal _
  · rw [exec_srclr, execSrclr, sysModify]
    exact issue_trapped ha hs rfl rfl (laneCause_cause_user hsup hnum rfl hclean) (by decide) hh hal _

/-! ### Reading `s.cause` (R272, R273) -/

theorem State.sysGet_cause (key : List Nat) (l : Nat) : s.sysGet (.lc n) l 0x053 key = Eff.ok s (s.lc n).cause.toNat := by
  rfl

theorem cause_srr {w : CtlW} (ha : s.alone n) (hnum : w.num = 0x053) (hsup : (s.lc n).sup = true) (h : s.ready (.srr w)) :
    s.writes (.srr w) (sysN w) w.d fun _ => (s.lc n).cause.setWidth 64 := by
  have hopen : s.opened (.srr w) = s := ha.opened_eq rfl
  have hbody : exec (.srr w) s = issueG (.srr w) s fun c g =>
      g.put (sysN w) w.d c.act (fun l => if Mask.has c.act l then (s.lc n).cause.setWidth 64 else 0#64) .u 0#64 := by
    rw [exec_srr, execSrr, issueG]
    refine issue_congr_acting h rfl _ _ fun hact => ?_
    have hp : (s.ctx (.srr w)).p = .lc n := ha.cur
    rw [hopen]
    dsimp only
    rw [eachLane_ok (v := fun _ => (s.lc n).cause.toNat) (h := ?read)]
    case read =>
      intro l _
      rw [hp, hnum, show s.sup (.lc n) = true from hsup, show Party.isLc (.lc n) = true from rfl, sysCause_cause_sup]
      exact State.sysGet_cause _ l
    simp only [okLanes_map_ok, endsOf_map_ok, hp, hnum, sysHint_const _ _ (show 0x053 ≠ 0x011 by decide) (show 0x053 ≠ 0x010 by decide),
      show sysWide 0x053 = false from rfl, Group.putSys_narrow _ _ (sysN_cases w) (show (s.ctx (.srr w)).act ≠ 0#64 from hact)]
  unfold State.writes State.puts
  rw [hbody]
  refine issueG_put h rfl (sysN_cases w) w.d _ _ _ _ fun g _ l hl => ?_
  have hact : Mask.has (s.ctx (.srr w)).act l = true := hl
  rw [if_pos hact]
  split
  · rfl
  · exact BitVec.eq_of_getLsbD_eq fun k hk => by simp [lo32]

/-! ### Writing `s.cause` (R267) -/

theorem masked32_getLsbD (o v m : W32) (k : Nat) : (masked32 o v m).getLsbD k = if m.getLsbD k then v.getLsbD k else o.getLsbD k := by
  by_cases hk : k < 32
  · simp only [masked32, BitVec.getLsbD_or, BitVec.getLsbD_and, BitVec.getLsbD_not, hk, decide_true, Bool.true_and]
    cases m.getLsbD k <;> simp
  · simp [BitVec.getLsbD_of_ge _ k (Nat.le_of_not_lt hk)]

/-- A write sets INT and CODE, and leaves the bits between (R267). -/
theorem masked_cause (o v : W32) :
    (masked32 o v 0x800000FF#32).getLsbD 31 = v.getLsbD 31 ∧ (masked32 o v 0x800000FF#32).setWidth 8 = v.setWidth 8 ∧
      (masked32 o v 0x800000FF#32).extractLsb' 8 23 = o.extractLsb' 8 23 := by
  have hcode : ∀ k, k < 8 → (0x800000FF#32).getLsbD k = true := by decide
  have hmid : ∀ k, k < 23 → (0x800000FF#32).getLsbD (8 + k) = false := by decide
  refine ⟨?_, BitVec.eq_of_getLsbD_eq fun k hk => ?_, BitVec.eq_of_getLsbD_eq fun k hk => ?_⟩
  · rw [masked32_getLsbD]; rfl
  · rw [BitVec.getLsbD_setWidth, BitVec.getLsbD_setWidth, masked32_getLsbD, hcode k hk, if_pos rfl]
  · rw [BitVec.getLsbD_extractLsb', BitVec.getLsbD_extractLsb', masked32_getLsbD, hmid k hk, if_neg Bool.false_ne_true]

theorem State.alone.lanes_acting (ha : s.alone n) (h0 : Mask.has (s.acting i) 0 = true) : Mask.lanes (s.acting i) = [0] := by
  have hact : s.acting i = Mask.ofLanes [0] := by
    rw [State.acting, ha.run, List.filter_cons_of_pos (State.acting_mem h0).2, List.filter_nil]
  rw [hact]
  decide

theorem eachLane_singleton {α : Type} (s : State) (l : Nat) (f : State → Nat → Eff α) : eachLane s [l] f = ((f s l).1, [(l, (f s l).2)]) := rfl

theorem State.sysWrite_cause (v : W64) :
    s.sysWrite (.lc n) 0 0x053 v = Eff.ok (s.modLc n fun c => { c with cause := masked32 c.cause (v.setWidth 32) 0x800000FF#32 }) () := rfl

theorem cause_srw {w : CtlW} (ha : s.alone n) (hnum : w.num = 0x053) (hsup : (s.lc n).sup = true) (h : s.ready (.srw w))
    (h0 : Mask.has (s.acting (.srw w)) 0 = true) (hpoi : Mask.has ((s.grp s.cur).src .int (sysN w) w.a).poi 0 = false) {c : W32}
    (hc : c = masked32 (s.lc n).cause ((((s.grp s.cur).src .int (sysN w) w.a).val 0).setWidth 32) 0x800000FF#32) :
    s.becomes (.srw w) (s.modLc n fun x => { x with cause := c }) (s.opened (.srw w)) [] [] fun t => (t.lc n).cause = c := by
  obtain ⟨hn, -⟩ := ha.lane_mem
  have hopen : s.opened (.srw w) = s := ha.opened_eq rfl
  have hp : (s.ctx (.srw w)).p = .lc n := ha.cur
  have hlanes : Mask.lanes (s.ctx (.srw w)).act = [0] := ha.lanes_acting h0
  have hact : s.acting (.srw w) ≠ 0#64 := fun hz => by rw [hz, Mask.has_zero] at h0; cases h0
  have hnarrow (v : W64) : ((v.setWidth 32).setWidth 64).setWidth 32 = v.setWidth 32 := by
    rw [BitVec.setWidth_setWidth_of_le _ (by decide), BitVec.setWidth_eq]
  have hwrite : (s.modLc n fun x =>
      { x with cause := masked32 x.cause ((((s.grp s.cur).src .int (sysN w) w.a).val 0).setWidth 32) 0x800000FF#32 }) =
      s.modLc n fun x => { x with cause := c } := State.modLc_congr (by rw [hc])
  have hlc : (s.modLc n fun x => { x with cause := c }).lc n = { s.lc n with cause := c } := by
    rw [State.lc_modLc _ _ _ _ hn, if_pos rfl]
  unfold State.becomes
  rw [exec_srw, execSrw, sysModify]
  refine issue_leaves (u := s.modLc n fun x => { x with cause := c }) (ends := [(0, .next)]) h hact _ ?body (fun l e he => ?ends) rfl ?run ?grp ?absent
    (fun a => ?mem) ?poison (fun _ => rfl) _ fun t hL => ?results
  case body =>
    rw [hp, hopen, hlanes]
    rw [ha.cur] at hpoi hwrite
    simp only [eachLane_singleton, hnum, show s.sup (.lc n) = true from hsup, show Party.isLc (.lc n) = true from rfl, sysCause_cause_sup,
      hpoi, show sysWide 0x053 = false from rfl, State.sysWrite_cause, Bool.false_eq_true, if_false, hnarrow, hwrite]
    rfl
  case ends =>
    obtain ⟨-, rfl⟩ := Prod.mk.inj (List.mem_singleton.1 (assoc_mem he))
    rfl
  case run =>
    rw [State.runLanes, State.runLanes, State.modLc_cur, State.modLc_curLane, ha.cur]
    exact State.runWith_modLc s n n s.curLane (fun _ => rfl) (fun _ => rfl) fun _ => rfl
  case grp => rw [ha.cur, State.grp, hlc]; rfl
  case absent => rw [State.modLc_absent, ← hopen]; exact h.there
  case mem => rw [hopen]; rfl
  case poison => rw [hopen]; rfl
  case results => rw [hL.lc n, hlc]

theorem cause_reset (hn : n < State.reset.lcs.length) : (State.reset.lc n).cause = 0#32 := by
  have hall : ∀ c ∈ State.reset.lcs, c.cause = 0#32 :=
    List.forall_mem_cons.2 ⟨rfl, fun c hc => by rw [List.eq_of_mem_replicate hc]⟩
  rw [State.lc, List.getD_eq_getElem _ _ hn]
  exact hall _ (List.getElem_mem hn)

/-- Settles O60: the reset value, the three accesses, and what an exception leaves, each as its lemma above. -/
theorem causeRegister : Obligations.CauseRegister := by
  refine ⟨fun n hn => cause_reset hn, fun s n w ha hnum => ⟨?_, ?_, ?_⟩, fun s n intr code tval epc hoff hn _ _ => ?_⟩
  · exact fun hsup h => cause_srr ha hnum hsup h
  · intro hsup h h0 hpoi
    obtain ⟨hint, hcode, hmid⟩ := masked_cause (s.lc n).cause ((((s.grp s.cur).src .int (sysN w) w.a).val 0).setWidth 32)
    exact ⟨_, hint, hcode, hmid, cause_srw ha hnum hsup h h0 hpoi rfl⟩
  · exact fun hsup hw hh hal i hi hs => cause_user_traps ha hnum hsup hh hal hi hs
  · rw [State.cause_takeTrap hn, Nat.add_comm]

end Sys2Proof.Machine
end
